-- ==== Sys2Proof/Word.lean ====
section
/-! DEFINITION. The word types of the VX24: names for the widths the manual uses, nothing else. -/

namespace Sys2Proof

/-- A word of exchange memory or a register (00_scope.md 5.2). -/
abbrev Word := BitVec 32

/-- A byte: a cell of exchange memory, a count of 0 to 255, a frame's data byte. -/
abbrev Byte := BitVec 8

/-- A set of lanes, lane n at bit n. -/
abbrev LaneSet := BitVec 8

/-- A lane number 0 to 7 (R25). -/
abbrev LaneId := Fin 8

/-- A link value: a slot 0 to 991, or 1023 for END (R1). -/
abbrev Link := BitVec 10

/-- A set of output pins or their levels, OUTn at bit n (11_formats_and_register_map.md). -/
abbrev Pins := BitVec 24

/-- A source number: beats 0 to 7, edges 8 to 15, flags 16 to 31 (11.5). -/
abbrev SourceId := Fin 32

end Sys2Proof
end

