-- ==== Sys2Proof/Syntax.lean ====
section
/-! DEFINITION. The commands of the VX24: one constructor for each row of spec/opcode_table.json, and their operands. -/

namespace Sys2Proof

/-- One host write of a whole word to exchange memory, by host byte address (R139, R140). -/
structure HostWrite where
  addr  : BitVec 16
  value : Word
  deriving DecidableEq, Repr

/-- The host writes that land inside one transaction of the fetch port: the list at position k lands just before
the transaction's word access k, those past its last access land at its end (R139, R142; log entry 4). -/
abbrev Between := List (List HostWrite)

/-- Which part of a fetch port transaction a command is (log entry 3). -/
inductive Part where
  /-- The port grants the transaction and it is under way. -/
  | grant
  /-- The transaction makes its word accesses and ends. On a free port the grant falls in the same step. -/
  | done
  deriving DecidableEq, Repr

/-- Which part of a transaction that writes exchange memory a command is (log entry 3): its words land one at a time,
and a host read may fall between them (R139, R148). -/
inductive WritePart where
  /-- The port grants the transaction and it is under way. -/
  | grant
  /-- The next word lands, where it is not the last. On a free port the grant falls in the same step. -/
  | word
  /-- The words left land and the transaction ends. On a free port the grant falls in the same step. -/
  | done
  deriving DecidableEq, Repr

/-- The commands. A lane order or device order row is the order reader's read that finds a new order of that code,
with the taking or refusal of the order (log entry 7). -/
inductive Instr where
  -- whole engine
  | powerOn
  | clearComplete
  /-- `landed`: how many of the words that a write transaction under way has left land before the reset cuts it (R148,
  log entry 26). -/
  | softReset (landed : Nat)
  | halt
  | release
  | unknownControlCode (value : Word)
  -- host registers and memory
  | registerWriteIgnored (addr : BitVec 16) (value : Word)
  | nudge (value : Word)
  | take
  | endService
  | engineStatusRead
  | hostMemoryWrite (addr : BitVec 16) (value : Word)
  -- order reader: lane entries
  | laneEntryRead (lane : LaneId) (part : Part) (between : Between)
  | start (lane : LaneId) (between : Between)
  | hold (lane : LaneId) (between : Between)
  | resume (lane : LaneId) (between : Between)
  | stop (lane : LaneId) (between : Between)
  | abort (lane : LaneId) (between : Between)
  | clear (lane : LaneId) (between : Between)
  -- order reader: the device order entry
  | deviceEntryRead (part : Part) (between : Between)
  | applySetup (between : Between)
  /-- `pins`: the levels of IN0 to IN7 at the end of the setup read, for the first samples (R108). -/
  | setupReadDone (part : Part) (pins : BitVec 8) (between : Between)
  | snapshot (between : Between)
  | clearMarks (between : Between)
  | setStatic (between : Between)
  | raiseFlag (between : Between)
  | drainFlag (between : Between)
  | beatStart (between : Between)
  | beatStop (between : Between)
  | flushLink (between : Between)
  | setMasks (between : Between)
  -- fetch port
  | cueFetch (lane : LaneId) (part : Part) (between : Between)
  | tailReread (lane : LaneId) (part : Part) (between : Between)
  | writeBackLanding (part : WritePart) (between : Between)
  | statusItemWrite (part : WritePart) (between : Between)
  -- timed events
  | beatExpiry (beat : Fin 8)
  | pulseEnd (lane : LaneId)
  | waitLimitExpiry (lane : LaneId)
  | revisitExpiry (lane : LaneId)
  /-- `level`: the level of the pin at the sample (R108). -/
  | inputSample (line : Fin 8) (level : Bool)
  -- link
  /-- The bits as sampled: the data byte, the parity bit (unused with parity NONE) and the first stop bit (R126). -/
  | frameJudged (data : Byte) (parityBit : Bool) (stopBit : Bool)
  | frameSent
  | lineShowsHigh
  | startCandidate
  /-- `level`: the line at the middle of the start bit (R125). -/
  | startBitMiddleSample (level : Bool)
  deriving DecidableEq, Repr

end Sys2Proof
end

