-- ==== Sys2Proof/Config.lean ====
section
/-! DEFINITION. What the part fixes (sizes, capacities) and the free values the manual leaves open. -/

namespace Sys2Proof.Config

/-- The link value END (R1). -/
abbrev linkEnd : Link := 1023#10

/-- Slots of the cue pool (R1). -/
abbrev slotCount : Nat := 992

/-- Places of the write-back queue (R144, R147). -/
abbrev writeBackPlaces : Nat := 16

/-- Entries of a staging queue (R25). -/
abbrev stagingPlaces : Nat := 4

/-- Entries of the link receive queue and of the link transmit queue (R130, R133). -/
abbrev linkPlaces : Nat := 8

/-- The highest claim pending count (R76, R85). -/
abbrev maxPending : Nat := 15

/-- Attempts of one fetch or re-read (R145). -/
abbrev maxAttempts : Nat := 3

/-- The first byte address past exchange memory (R140). -/
abbrev memoryEnd : Nat := 0x8000

/-- A FREE VALUE (log entry 6): which of several lanes, or of several due events, is taken first where the manual
says that either may be. It has no body, so no proof can rest on one order. Its argument is State.choices. -/
opaque freeOrder : Nat → Nat

end Sys2Proof.Config
end

