-- ==== Sys2Proof/Machine/State.lean ====
section
/-! DEFINITION. The state of the VX24 as plain data, its faults and refusals, and the state after power-on. Each field
cites the rule that names it; a value after reset is the rule's unless a log entry is named. -/

namespace Sys2Proof.Machine

/-- The engine states (R171). -/
inductive EngineState where
  | clearing | unset | ready | halted
  deriving DecidableEq, Repr

/-- The lane states of Table 5 (R25). -/
inductive LaneState where
  | idle | priming | running | starved | held | stopping | faulted
  deriving DecidableEq, Repr

/-- The pause reasons of a lane's prefetch (R38). `open_` is NONE. -/
inductive Pause where
  | open_ | atEnd | notReady | ownCopy | closed
  deriving DecidableEq, Repr

/-- The outcomes of a cue record (R11). -/
inductive CueOutcome where
  | none_ | done | expired | aborted | faulted | returned | void
  deriving DecidableEq, Repr

/-- The lane fault codes 1 to 10 (R50). -/
inductive FaultCode where
  | voidCue | cueInUse | badState | linkLost | torn | expired | late | guard | linkStop | hostHalt
  deriving DecidableEq, Repr

/-- The answers to lane orders and device orders (R26, R167). -/
inductive OrderResult where
  | ok | notReady | halted | busyLanes | badSetup | badArg | notHostBeat | badOrder | wrongState | badSlot
  deriving DecidableEq, Repr

/-- The action of a cue (R3). -/
inductive Action where
  | set | toggle | pulse | mark
  deriving DecidableEq, Repr

/-- The beat action of a cue (R8). -/
inductive BeatAction where
  | none_ | start | stop | retune
  deriving DecidableEq, Repr

/-- What a wait waits for (R4, R75): nothing, one of the 32 source records, or a link code. -/
inductive Trigger where
  | now
  | source (i : SourceId)
  | link (code : BitVec 6)
  deriving DecidableEq, Repr

/-- A staged copy of a cue record (R13): slot, header and words 1 to 5 as the fetch read them, the slot's pass count,
and whether it is a replay copy (R40). -/
structure Copy where
  slot   : Link
  head   : Word
  w1     : Word
  w2     : Word
  w3     : Word
  w4     : Word
  w5     : Word
  pass   : Byte
  replay : Bool
  deriving DecidableEq, Repr

/-- A staging queue entry (2.3). -/
inductive Entry where
  | copy (c : Copy)
  | marker (code : FaultCode) (slot : Link)
  deriving DecidableEq, Repr

/-- The wait-limit remainder (R53, R64, R67). -/
inductive Remainder where
  | none_
  | counting (n : Nat)
  | frozen (n : Nat)
  deriving DecidableEq, Repr

/-- A pulse in flight: its end tick and the restore levels of the mask's pins (R53, R61). -/
structure Pulse where
  endTick : Word
  restore : Pins
  deriving DecidableEq, Repr

/-- The fixed ending of a cue in completion pending (R73), with the pass count its slot had risen to at the ending (R17). -/
structure Ending where
  outcome : CueOutcome
  stamp   : Word
  pass    : Byte
  deriving DecidableEq, Repr

/-- The firing state of a current cue (R53). `ended` is completion pending. -/
structure Firing where
  fires    : Nat := 0
  waiting  : Bool := false
  limit    : Remainder := .none_
  pulse    : Option Pulse := none
  late     : Bool := false
  sendLost : Bool := false
  ended    : Option Ending := none
  deriving DecidableEq, Repr

/-- What a fetch in flight is (R25). -/
inductive FetchKind where
  | cue | tail
  deriving DecidableEq, Repr

/-- A cue fetch or tail re-read in flight: its slot and the attempts begun (R25, R145). -/
structure Fetch where
  kind     : FetchKind
  slot     : Link
  attempts : Nat
  deriving DecidableEq, Repr

/-- The kinds of write-back entry (R147). `result` is the entry of a current copy's ending; `ends` says that its
header write ends the TAKEN state. `refusal` is the cue-result entry of a refused record (R19). -/
inductive EntryKind where
  | taken (slot : Link)
  | result (slot : Link) (outcome : CueOutcome) (ends : Bool)
  | refusal (slot : Link)
  | return_ (slot : Link)
  | laneAnswer
  | resumeSlot
  | deviceAnswer
  deriving DecidableEq, Repr

/-- A write-back entry (R147): its lane (none for the order reader's device answer), its kind and its writes in
order, as word number and value. -/
structure WriteBack where
  owner  : Option LaneId
  kind   : EntryKind
  writes : List (Nat × Word)
  deriving DecidableEq, Repr

/-- A lane controller (R25, R52, R53, R55). -/
structure Lane where
  st          : LaneState := .idle
  queue       : List Entry := []
  follow      : Link := Config.linkEnd
  watch       : Link := Config.linkEnd
  pause       : Pause := .closed
  fetch       : Option Fetch := none
  reread      : Bool := false
  revisit     : Option Nat := none
  /-- The revisit interval in use (R44); DESIGN CHOICE 0 after reset, log entry 14. -/
  interval    : Byte := 0
  owed        : List WriteBack := []
  /-- The copies a STOPPING lane hands back behind its current cue's result (R33, R34). -/
  heldReturns : List Copy := []
  heldBegun   : Bool := false
  cur         : Option Firing := none
  gapStart    : Word := 0
  gapEvent    : Option (SourceId × Word) := none
  lastSlot    : Link := Config.linkEnd
  lastOutcome : CueOutcome := .none_
  endedCount  : BitVec 16 := 0
  faultCode   : Option FaultCode := none
  faultSlot   : Link := Config.linkEnd
  /-- The trigger on which this lane's last wait expired at the present tick, while the next cue's first wait, begun in the
  event of that expiry, stands on it: until an event of it, a fire, a HOLD or the end of the list. The model's own (R66, log
  entry 42). -/
  expiredOn   : Option Trigger := none
  deriving DecidableEq, Repr

/-- A source record (R76). The waiter set is computed from the lanes (log entry 31). -/
structure Source where
  claim    : Bool := false
  count    : Nat := 0
  last     : Option Word := none
  overflow : Bool := false
  deriving DecidableEq, Repr

/-- A beat timer (R96); owner none is HOST. -/
structure Beat where
  running : Bool := false
  every   : Bool := false
  owner   : Option LaneId := none
  period  : Nat := 2
  next    : Nat := 2
  left    : Nat := 0
  deriving DecidableEq, Repr

/-- The edge selects (R107). -/
inductive EdgeSelect where
  | off | rise | fall | both
  deriving DecidableEq, Repr

/-- An input line (R107); left none is a stopped sample countdown. -/
structure InputLine where
  edge     : EdgeSelect := .off
  filter   : Nat := 1
  interval : Nat := 1
  guard    : Bool := false
  level    : Bool := false
  agree    : Nat := 0
  left     : Option Nat := none
  deriving DecidableEq, Repr

/-- The parities of the link plan (R122). -/
inductive Parity where
  | even | odd | zero | none_
  deriving DecidableEq, Repr

/-- The link plan (R122). -/
structure LinkPlan where
  enabled  : Bool := false
  divisor  : BitVec 12 := 0
  parity   : Parity := .none_
  twoStops : Bool := false
  group    : BitVec 2 := 0
  relay    : Bool := false
  obey     : Bool := false
  deriving DecidableEq, Repr

/-- The receiver states (R125). In FRAME, `confirmed` says that the start bit's middle has read low. -/
inductive Receiver where
  | off | waitHigh | hunt
  | frame (confirmed : Bool)
  deriving DecidableEq, Repr

/-- A receive queue entry (R130). -/
structure RxEntry where
  code : BitVec 6
  tick : Word
  deriving DecidableEq, Repr

/-- A transmit queue entry (R133). -/
structure TxEntry where
  code  : BitVec 6
  group : BitVec 2
  deriving DecidableEq, Repr

/-- The link port (R122 to R136). `sending` is the data byte of the frame in progress, none when the transmitter is
IDLE. -/
structure LinkPort where
  plan         : LinkPlan := {}
  rx           : Receiver := .off
  rxq          : List RxEntry := []
  txq          : List TxEntry := []
  sending      : Option Byte := none
  relayPending : Bool := false
  framing      : BitVec 16 := 0
  parityErr    : BitVec 16 := 0
  overrun      : BitVec 16 := 0
  txLost       : BitVec 16 := 0
  deriving DecidableEq, Repr

/-- The halt causes (R112, R115). -/
inductive HaltCause where
  | none_ | guard | linkStop | hostHalt
  deriving DecidableEq, Repr

/-- The halt record (R115). -/
structure HaltRecord where
  cause   : HaltCause := .none_
  line    : Fin 8 := 0
  tick    : Word := 0
  lanes   : LaneSet := 0
  further : Byte := 0
  deriving DecidableEq, Repr

/-- The 36 attention causes (R151). -/
inductive Cause where
  | halt
  | laneFault (n : LaneId)
  | linkError
  | overflow
  | starved (n : LaneId)
  | listDone (n : LaneId)
  | note (n : LaneId)
  | orderDone
  deriving DecidableEq, Repr

/-- An in-service entry (R156). -/
structure Service where
  level : Nat
  cause : Cause
  deriving DecidableEq, Repr

/-- The attention unit (R153, R154, R156, R160). Masks and groups of kinds 2 to 8 at bits 0 to 6; a mask bit 1 is
masked, a group bit 1 is URGENT. -/
structure Attention where
  pending      : Vector Bool 36 := Vector.replicate 36 false
  masks        : BitVec 7 := 0
  groups       : BitVec 7 := 0
  inService    : List Service := []
  unmatchedEnd : Bool := false
  deriving DecidableEq, Repr

/-- An outstanding device answer (R165, R167, R169), with the sequence it will echo. -/
inductive DeviceAnswer where
  | none_
  | setup (seq : Byte)
  | snapshot (seq : Byte)
  deriving DecidableEq, Repr

/-- The transaction under way at the fetch port (R142). A discarded fetch has been overtaken (R146). A status item
write carries the words taken at its grant (R149). `landed` counts the words of a write that have landed (R148). -/
inductive Transaction where
  | writeBack (landed : Nat)
  | laneEntry (n : LaneId)
  | deviceEntry
  | setupRead
  | cueFetch (n : LaneId) (discarded : Bool)
  | tailReread (n : LaneId) (discarded : Bool)
  | statusItem (item : Fin 20) (words : List Word) (landed : Nat)
  deriving DecidableEq, Repr

/-- What a requester asks the fetch port for (R143). -/
inductive Request where
  | writeBack
  | laneEntry (n : LaneId)
  | deviceEntry
  | setupRead
  | cueFetch (n : LaneId)
  | tailReread (n : LaneId)
  | statusItem
  deriving DecidableEq, Repr

/-- The state of the engine, and the queue of commands that wait. -/
structure State where
  -- engine and host port
  engine     : EngineState := .clearing
  generation : BitVec 16 := 0
  refused    : Bool := false
  nudge      : BitVec 9 := 0
  lastSeq    : Vector Byte 8 := Vector.replicate 8 0
  devSeq     : Byte := 0
  devOut     : DeviceAnswer := .none_
  snapSet    : BitVec 20 := 0
  laneUrgent : LaneSet := 0
  /-- The word the last host read command returned; the model's own field, log entry 12. -/
  readData   : Word := 0
  -- exchange memory and the fetch port
  mem        : List Host.Cell := []
  wbq        : List WriteBack := []
  port       : Option Transaction := none
  marks      : BitVec 20 := BitVec.allOnes 20
  statusPos  : Fin 20 := 0
  -- lanes and sources
  lanes      : Vector Lane 8 := Vector.replicate 8 {}
  sources    : Vector Source 32 := Vector.ofFn (fun i => if i.val < 16 then {} else { claim := true })
  -- timebase and beats
  timebase   : Word := 0
  divider    : BitVec 16 := 0
  beats      : Vector Beat 8 := Vector.replicate 8 {}
  -- inputs and pins
  inputs     : Vector InputLine 8 := Vector.replicate 8 {}
  /-- The levels of IN0 to IN7 as last seen by a sample; DESIGN CHOICE low after reset, log entry 13. -/
  inPins     : BitVec 8 := 0
  owner      : Vector (Option LaneId) 24 := Vector.replicate 24 none
  rest       : Pins := 0
  safe       : Pins := 0
  static     : Pins := 0
  out        : Pins := 0
  halt       : HaltRecord := {}
  -- link and attention
  link       : LinkPort := {}
  att        : Attention := {}
  -- the model's own: free orders used so far (log entry 6), and the commands that wait
  choices    : Nat := 0
  pending    : List Instr := []
  deriving DecidableEq, Repr

/-- The part never stops: the manual gives every command an effect in every state, and an access to an address with
no storage reads 0 or is ignored (R140). So there is no machine fault (log entry 23); lane faults and halt trips are
states of the part, not faults of the machine. -/
inductive Fault where
  deriving DecidableEq, Repr

/-- Why a command has no meaning. -/
inductive Refusal where
  /-- Raised by exec's arm of a command that has no meaning yet. Safe: the machine stops. No arm raises it. -/
  | notModelled (mnemonic : String)
  deriving DecidableEq, Repr

/-- The machine right after power-on (R174): CLEARING, every block at its values after power-on, all status items
marked, nothing listed in memory, no command waiting. -/
def State.reset : State := {}

end Sys2Proof.Machine
end

