-- ==== Sys2Proof/Machine/Operands.lean ====
section
/-! DEFINITION. The fields of the words the commands read and write: cue records, directory entries, the setup block,
the frame bits (11_formats_and_register_map.md). -/

namespace Sys2Proof.Machine

/-- The field of `len` bits whose lowest bit is bit `lo`. -/
def field (w : Word) (lo len : Nat) : BitVec len := w.extractLsb' lo len

/-- A field's value placed with its lowest bit at bit `lo`. -/
def place {n : Nat} (lo : Nat) (x : BitVec n) : Word := x.setWidth 32 <<< lo

/-- A one-bit field placed at bit `lo`. -/
def flag (lo : Nat) (b : Bool) : Word := if b then 1#32 <<< lo else 0#32

/-- A natural number as a word, for values the rules bound. -/
def num (n : Nat) : Word := BitVec.ofNat 32 n

/-! Value encodings (11.7). -/

def LaneState.code : LaneState → Word
  | .idle => 0 | .priming => 1 | .running => 2 | .starved => 3 | .held => 4 | .stopping => 5 | .faulted => 6

def Pause.code : Pause → Word
  | .open_ => 0 | .atEnd => 1 | .notReady => 2 | .ownCopy => 3 | .closed => 4

def CueOutcome.code : CueOutcome → Word
  | .none_ => 0 | .done => 1 | .expired => 2 | .aborted => 3 | .faulted => 4 | .returned => 5 | .void => 6

def FaultCode.code : FaultCode → Word
  | .voidCue => 1 | .cueInUse => 2 | .badState => 3 | .linkLost => 4 | .torn => 5
  | .expired => 6 | .late => 7 | .guard => 8 | .linkStop => 9 | .hostHalt => 10

def OrderResult.code : OrderResult → Word
  | .ok => 0 | .notReady => 1 | .halted => 2 | .busyLanes => 3 | .badSetup => 4
  | .badArg => 5 | .notHostBeat => 6 | .badOrder => 7 | .wrongState => 8 | .badSlot => 9

def EngineState.code : EngineState → Word
  | .clearing => 0 | .unset => 1 | .ready => 2 | .halted => 3

def HaltCause.code : HaltCause → Word
  | .none_ => 0 | .guard => 1 | .linkStop => 2 | .hostHalt => 3

/-! Word numbers in exchange memory (11.1, 11.3). -/

/-- The first word of slot s: byte address 0400h + 32 s (R1). -/
def slotWord (slot : Link) : Nat := 0x400 / 4 + 8 * slot.toNat

/-- The first word of lane n's directory entry: byte address 0200h + 32 n (R26). -/
def laneWord (n : LaneId) : Nat := 0x200 / 4 + 8 * n.val

/-- The first word of the device order entry, 0300h (R167). -/
def deviceWord : Nat := 0x300 / 4

/-! The cue record (11.2). -/

/-- A record's ownership state (R2). -/
inductive RecordState where
  | host | armed | taken | spent | void | invalid
  deriving DecidableEq, Repr

/-- The ownership state of a header (R2). -/
def recordState (head : Word) : RecordState :=
  match (field head 0 3).toNat with
  | 0 => .host | 1 => .armed | 2 => .taken | 3 => .spent | 4 => .void | _ => .invalid

def RecordState.code : RecordState → Word
  | .host => 0 | .armed => 1 | .taken => 2 | .spent => 3 | .void => 4 | .invalid => 5

/-- The taker of a header (R2). -/
def headTaker (head : Word) : LaneId := (field head 3 3).toFin

/-- The KEEP option of a header (R5). -/
def headKeep (head : Word) : Bool := head.getLsbD 18

/-- A header the engine writes: state and taker of the write, every other position from `head` (R14). -/
def headerWrite (head : Word) (st : RecordState) (taker : LaneId) : Word :=
  (head &&& ~~~(0x3F#32)) ||| st.code ||| place 3 (BitVec.ofNat 3 taker.val)

namespace Copy

def action (c : Copy) : Action :=
  match (field c.head 6 2).toNat with
  | 0 => .set | 1 => .toggle | 2 => .pulse | _ => .mark

def isFinal (c : Copy) : Bool := c.head.getLsbD 17
def isKeep (c : Copy) : Bool := headKeep c.head
def hasNote (c : Copy) : Bool := c.head.getLsbD 19
def isFresh (c : Copy) : Bool := c.head.getLsbD 20
def lateFault (c : Copy) : Bool := c.head.getLsbD 21
def expiryFault (c : Copy) : Bool := c.head.getLsbD 22
def next (c : Copy) : Link := field c.w1 0 10
def repeats (c : Copy) : Nat := (field c.w1 10 12).toNat
/-- The fires the cue requires: repeat + 1 (R6). -/
def required (c : Copy) : Nat := c.repeats + 1
def pulseWidth (c : Copy) : BitVec 10 := field c.w1 22 10
def pattern (c : Copy) : Pins := field c.w2 0 24
/-- The raise-flag part: present or absent (R7). -/
def raiseFlag (c : Copy) : Option (Fin 16) := if c.w2.getLsbD 24 then some (field c.w2 25 4).toFin else none
def mask (c : Copy) : Pins := field c.w3 0 24
def beatAction (c : Copy) : BeatAction :=
  match (field c.w3 24 2).toNat with
  | 0 => .none_ | 1 => .start | 2 => .stop | _ => .retune
def beatNumber (c : Copy) : Fin 8 := (field c.w3 26 3).toFin
def waitLimit (c : Copy) : Nat := (field c.w4 0 24).toNat
/-- The send part: present with its group, or absent (R9). -/
def sendGroup (c : Copy) : Option (BitVec 2) := if c.w4.getLsbD 24 then some (field c.w4 25 2) else none
def beatPeriod (c : Copy) : Nat := (field c.w5 0 24).toNat
def sendCode (c : Copy) : BitVec 6 := field c.w5 24 6

end Copy

/-- The trigger a header names (R4), or none where the kind is 5 to 7 or the index is outside its range, the stop code
included. Sources are numbered as in 11.5. -/
def headTrigger (head : Word) : Option Trigger :=
  let i := (field head 11 6).toNat
  match (field head 8 3).toNat with
  | 0 => if i = 0 then some .now else none
  | 1 => if i < 8 then some (.source (Fin.ofNat 32 i)) else none
  | 2 => if i < 8 then some (.source (Fin.ofNat 32 (8 + i))) else none
  | 3 => if i < 16 then some (.source (Fin.ofNat 32 (16 + i))) else none
  | 4 => if i < 63 then some (.link (field head 11 6)) else none
  | _ => none

/-- The trigger of a copy. -/
def Copy.trigger (c : Copy) : Option Trigger := headTrigger c.head

/-- The input line whose edges the header names, if its source kind is EDGE and its index is in range (R4). -/
def headEdgeLine (head : Word) : Option (Fin 8) :=
  let i := (field head 11 6).toNat
  if (field head 8 3).toNat = 2 ∧ i < 8 then some (Fin.ofNat 8 i) else none

/-- Every spare position of words 0 to 5 is zero (R9, 11.2). -/
def Copy.sparesZero (c : Copy) : Bool :=
  field c.head 23 9 == 0 && field c.w2 29 3 == 0 && field c.w3 29 3 == 0 &&
    field c.w4 27 5 == 0 && field c.w5 30 2 == 0

/-- Word 7 (R11, 11.2): spare bits 30 and 31 are 0 (R176). -/
def resultWord (fires : Nat) (pass : Byte) (outcome : CueOutcome) (late sendLost : Bool) (reason : Word) : Word :=
  (num fires &&& 0x1FFF#32) ||| place 13 pass ||| outcome.code <<< 21 ||| flag 24 late ||| flag 25 sendLost |||
    reason <<< 26

/-- The pass count of word 7 (R13). -/
def passCount (w7 : Word) : Byte := field w7 13 8

/-! Directory entries (11.3). -/

/-- The order code of an entry's word 0. -/
def orderCode (w : Word) : Nat := (field w 0 8).toNat

/-- The order sequence of an entry's word 0. -/
def orderSeq (w : Word) : Byte := field w 8 8

/-- The argument of a lane entry's word 1. -/
def laneArgument (w : Word) : Link := field w 0 10

/-- The revisit interval of a lane entry's word 1. -/
def laneInterval (w : Word) : Byte := field w 16 8

/-- The echo and result word, spare positions 0 (R176). -/
def echoWord (seq : Byte) (r : OrderResult) : Word := place 0 seq ||| r.code <<< 8

/-- A link value is a slot 0 to 991 (R1). -/
def isSlot (l : Link) : Bool := l.toNat < Config.slotCount

/-! The frame (R124). -/

/-- The data byte: code in the six low-order bits, group in the two high-order bits (11.6). -/
def frameByte (code : BitVec 6) (group : BitVec 2) : Byte := group ++ code

/-- The stop code with group 3 (R135). -/
def stopFrame : Byte := frameByte 63 3

def frameCode (b : Byte) : BitVec 6 := b.extractLsb' 0 6
def frameGroup (b : Byte) : BitVec 2 := b.extractLsb' 6 2

/-- Whether a byte has an odd number of high bits. -/
def oddHighs (b : Byte) : Bool :=
  [0, 1, 2, 3, 4, 5, 6, 7].foldl (fun acc i => acc ^^ b.getLsbD i) false

/-- The level of the parity bit, or none where the frame has none (R124). -/
def parityLevel (p : Parity) (b : Byte) : Option Bool :=
  match p with
  | .even => some (oddHighs b)
  | .odd => some (!oddHighs b)
  | .zero => some false
  | .none_ => none

/-- The levels of a frame's bits in the order they are sent (R124). -/
def frameLevels (plan : LinkPlan) (b : Byte) : List Bool :=
  [false] ++ [0, 1, 2, 3, 4, 5, 6, 7].map (fun i => b.getLsbD i) ++ (parityLevel plan.parity b).toList ++
    (if plan.twoStops then [true, true] else [true])

end Sys2Proof.Machine
end

