-- ==== Sys2Proof/Machine/Flags.lean ====
section
/-! DEFINITION. Status and interrupt flags: attention causes, levels, eligibility and ATTN (09_attention.md), the
ENGINE STATUS word (R173), and the words of the status items (11.5). -/

namespace Sys2Proof.Machine

/-! Attention. -/

/-- The kind code of a cause (R151). -/
def Cause.kind : Cause → Nat
  | .halt => 1 | .laneFault _ => 2 | .linkError => 3 | .overflow => 4
  | .starved _ => 5 | .listDone _ => 6 | .note _ => 7 | .orderDone => 8

/-- The lane of a cause, 0 for a kind that is not per lane (R158). -/
def Cause.lane : Cause → LaneId
  | .laneFault n => n | .starved n => n | .listDone n => n | .note n => n
  | .halt => 0 | .linkError => 0 | .overflow => 0 | .orderDone => 0

/-- The place of a cause among the 36, by kind code and then by lane. -/
def Cause.index : Cause → Fin 36
  | .halt => 0
  | .laneFault n => ⟨1 + n.val, by omega⟩
  | .linkError => 9
  | .overflow => 10
  | .starved n => ⟨11 + n.val, by omega⟩
  | .listDone n => ⟨19 + n.val, by omega⟩
  | .note n => ⟨27 + n.val, by omega⟩
  | .orderDone => 35

/-- The lanes in order of number. -/
def allLanes : List LaneId := [0, 1, 2, 3, 4, 5, 6, 7]

/-- The 36 causes by kind code and then by lane number (R151, R158). -/
def allCauses : List Cause :=
  [.halt] ++ allLanes.map .laneFault ++ [.linkError, .overflow] ++ allLanes.map .starved ++
    allLanes.map .listDone ++ allLanes.map .note ++ [.orderDone]

namespace Attention

/-- The cause is pending (R153). -/
def isPending (a : Attention) (c : Cause) : Bool := a.pending[c.index]

/-- The cause's kind is masked; HALT has no mask (R154). -/
def isMasked (a : Attention) (c : Cause) : Bool :=
  match c with
  | .halt => false
  | _ => a.masks.getLsbD (c.kind - 2)

/-- The level of a cause (R154). -/
def levelOf (a : Attention) (c : Cause) : Nat :=
  match c with
  | .halt => 3
  | _ => if a.groups.getLsbD (c.kind - 2) then 2 else 1

/-- The top level of the in-service list: the level of its last entry, or 0 (R157). -/
def topLevel (a : Attention) : Nat := (a.inService.getLast?.map Service.level).getD 0

/-- The cause is eligible (R157). -/
def eligible (a : Attention) (c : Cause) : Bool :=
  a.isPending c && !a.isMasked c && decide (a.topLevel < a.levelOf c)

/-- The most urgent eligible cause: highest level, then lowest kind code, then lowest lane (R158). -/
def mostUrgent (a : Attention) : Option Cause :=
  let at_ := fun lv => allCauses.find? (fun c => a.eligible c && a.levelOf c == lv)
  (at_ 3).or ((at_ 2).or (at_ 1))

/-- The cause becomes pending (R153). -/
def raise (a : Attention) (c : Cause) : Attention := { a with pending := a.pending.set c.index true }

/-- The cause is taken into service (R158). -/
def serve (a : Attention) (c : Cause) : Attention :=
  { a with
    pending := a.pending.set c.index false
    inService := a.inService ++ [{ level := a.levelOf c, cause := c }]
    unmatchedEnd := false }

/-- A write to END (R159). -/
def endLast (a : Attention) : Attention :=
  if a.inService = [] then { a with unmatchedEnd := true }
  else { a with inService := a.inService.dropLast }

end Attention

/-- The ATTN line (R157). -/
def State.attn (s : State) : Bool := allCauses.any s.att.eligible

/-- The TAKE word of a returned cause (11.9). That the bits to which no rule gives a value read 0 is the model's choice (log
entry 43). -/
def takeWord (c : Cause) (level : Nat) : Word := num c.kind ||| num c.lane.val <<< 4 ||| num level <<< 8

/-! Lanes. -/

/-- The lane controller of lane n. -/
def State.lane (s : State) (n : LaneId) : Lane := s.lanes[n]

/-- The set of lanes for which `p` holds. -/
def laneSet (p : LaneId → Bool) : LaneSet := BitVec.ofFnLE p

/-- The lanes whose lane state is not IDLE (R173). -/
def State.lanesNotIdle (s : State) : LaneSet := laneSet (fun n => (s.lane n).st != .idle)

/-- Every lane is IDLE. -/
def State.allIdle (s : State) : Bool := allLanes.all (fun n => (s.lane n).st == .idle)

/-- The ENGINE STATUS word (R173, 11.9). That bits 6 and 7, to which no rule gives a value, read 0 is the model's choice (log
entry 43). -/
def State.statusWord (s : State) : Word :=
  s.engine.code ||| s.halt.cause.code <<< 2 ||| flag 4 s.att.unmatchedEnd ||| flag 5 s.refused |||
    place 8 s.lanesNotIdle ||| place 16 s.generation

/-! Words of the status items (11.5). -/

/-- The slot of the current cue, or END (R52). -/
def Lane.currentSlot (l : Lane) : Link :=
  match l.cur, l.queue with
  | some _, .copy c :: _ => c.slot
  | _, _ => Config.linkEnd

/-- The three words of a lane's progress entry (R52). -/
def Lane.progressWords (l : Lane) : List Word :=
  [ l.st.code ||| l.pause.code <<< 3 ||| num l.queue.length <<< 6 ||| place 10 l.currentSlot ||| place 20 l.watch,
    place 0 l.lastSlot ||| l.lastOutcome.code <<< 12 ||| ((l.faultCode.map FaultCode.code).getD 0) <<< 16 |||
      place 20 l.faultSlot,
    place 0 l.endedCount ]

/-- The filtered levels of IN0 to IN7. -/
def State.filtered (s : State) : BitVec 8 := BitVec.ofFnLE (fun n => s.inputs[n].level)

/-- The levels item (R121). -/
def State.levelsWord (s : State) : Word := place 0 s.out ||| place 24 s.filtered

/-- The halt record's words (R115). -/
def HaltRecord.words (h : HaltRecord) : List Word :=
  [ h.tick, h.cause.code ||| num h.line.val <<< 2 ||| place 8 h.lanes ||| place 16 h.further ]

/-- The link counts (R136). -/
def LinkPort.countWords (l : LinkPort) : List Word :=
  [ place 0 l.framing ||| place 16 l.parityErr, place 0 l.overrun ||| place 16 l.txLost ]

/-- The link occupancy (R136). -/
def LinkPort.occupancyWords (l : LinkPort) : List Word :=
  let oldest := l.rxq.head?
  [ num l.rxq.length ||| flag 4 oldest.isSome ||| place 8 ((oldest.map RxEntry.code).getD 0) |||
      num l.txq.length <<< 16 ||| flag 20 l.sending.isSome ||| flag 21 l.relayPending,
    (oldest.map RxEntry.tick).getD 0 ]

/-- The byte of one source in its source word (R91). -/
def Source.byte (r : Source) : Word := num r.count ||| flag 4 r.overflow

/-- Source word w: the bytes of sources 4w to 4w + 3 (11.5). -/
def State.sourceWord (s : State) (w : Fin 8) : Word :=
  let byte := fun k => (s.sources[4 * w.val + k]?.map Source.byte).getD 0
  byte 0 ||| byte 1 <<< 8 ||| byte 2 <<< 16 ||| byte 3 <<< 24

/-- The words of a status item, items numbered from 0 in cycle order (R149). -/
def State.itemWords (s : State) (item : Fin 20) : List Word :=
  if h : item.val < 8 then (s.lane ⟨item.val, h⟩).progressWords
  else if item.val = 8 then [s.levelsWord]
  else if item.val = 9 then s.halt.words
  else if item.val = 10 then s.link.countWords
  else if item.val = 11 then s.link.occupancyWords
  else [s.sourceWord (Fin.ofNat 8 (item.val - 12))]

/-- The first word number of a status item (11.5). -/
def itemWord (item : Fin 20) : Nat :=
  if item.val < 8 then (0x320 + 12 * item.val) / 4
  else if item.val = 8 then 0x380 / 4
  else if item.val = 9 then 0x384 / 4
  else if item.val = 10 then 0x38C / 4
  else if item.val = 11 then 0x394 / 4
  else (0x39C + 4 * (item.val - 12)) / 4

/-- A status item's words with their word numbers, in ascending address (11.5, R142). -/
def itemWrites (i : Fin 20) (ws : List Word) : List (Nat × Word) :=
  ((List.range ws.length).zip ws).map (fun p => (itemWord i + p.1, p.2))

/-- The words of the write transaction under way that have not landed yet, in order (R148, R149). -/
def State.writesUnderWay (s : State) : List (Nat × Word) :=
  match s.port with
  | some (.writeBack landed) => ((s.wbq.head?.map WriteBack.writes).getD []).drop landed
  | some (.statusItem i ws landed) => (itemWrites i ws).drop landed
  | _ => []

end Sys2Proof.Machine
end

