-- ==== Sys2Proof/Machine/Ops.lean ====
section
/-! DEFINITION. The shared operations over memory, lanes, sources, pins, attention, and the write-back queue. -/

namespace Sys2Proof.Machine

/-! Exchange memory (R139 to R141): cells in rising order of address, none equal to the 0 an unlisted byte reads. -/

/-- The byte at an address; an unlisted byte reads 0 (R141). -/
def memByte : List Host.Cell → Nat → Byte
  | [], _ => 0
  | (a, b) :: m, k => if k = a then b else memByte m k

/-- Write one byte, keeping the canonical form. -/
def setByte : List Host.Cell → Nat → Byte → List Host.Cell
  | [], k, v => if v = 0 then [] else [(k, v)]
  | (a, b) :: m, k, v =>
    if k < a then (if v = 0 then (a, b) :: m else (k, v) :: (a, b) :: m)
    else if k = a then (if v = 0 then m else (k, v) :: m)
    else (a, b) :: setByte m k v

/-- The canonical form: addresses strictly rising and inside exchange memory, no cell equal to 0. -/
def Memory.wf : List Host.Cell → Bool
  | [] => true
  | (a, b) :: m => b != 0 && decide (a < Config.memoryEnd) && m.all (fun c => decide (a < c.1)) && Memory.wf m

/-- The word of number i, stored little-endian (00_scope.md 5.2). -/
def readWord (m : List Host.Cell) (i : Nat) : Word :=
  memByte m (4 * i + 3) ++ memByte m (4 * i + 2) ++ memByte m (4 * i + 1) ++ memByte m (4 * i)

/-- Write the word of number i whole (R139). A number outside exchange memory writes nothing (R140). -/
def writeWord (m : List Host.Cell) (i : Nat) (w : Word) : List Host.Cell :=
  if 4 * i + 3 < Config.memoryEnd then
    setByte (setByte (setByte (setByte m (4 * i) (field w 0 8)) (4 * i + 1) (field w 8 8))
      (4 * i + 2) (field w 16 8)) (4 * i + 3) (field w 24 8)
  else m

/-- A host write to exchange memory; the two lowest address bits are not used (R140). -/
def landHostWrite (m : List Host.Cell) (w : HostWrite) : List Host.Cell :=
  writeWord m (w.addr.toNat / 4) w.value

/-- The host writes of one group land in order. -/
def landGroup (m : List Host.Cell) (g : List HostWrite) : List Host.Cell := g.foldl landHostWrite m

/-- All the remaining host writes of a transaction land. -/
def landAll (m : List Host.Cell) (ws : Between) : List Host.Cell := ws.foldl landGroup m

/-- Read the words of the given numbers in order, each after the host writes that land before it: the words, the host
writes that remain, and the memory after the last read. -/
def readSeq : List Nat → Between → List Host.Cell → List Word × Between × List Host.Cell
  | [], ws, m => ([], ws, m)
  | i :: is, ws, m =>
    let m1 := landGroup m (ws.headD [])
    let r := readSeq is ws.tail m1
    (readWord m1 i :: r.1, r.2.1, r.2.2)

/-- Make the writes in order, each after the host writes that land before it, and then land the rest. -/
def writeSeq : List (Nat × Word) → Between → List Host.Cell → List Host.Cell
  | [], ws, m => landAll m ws
  | w :: rest, ws, m => writeSeq rest ws.tail (writeWord (landGroup m (ws.headD [])) w.1 w.2)

/-! Status item marks (R149). -/

/-- Mark a status item for writing. -/
def State.markItem (s : State) (item : Fin 20) : State := { s with marks := s.marks ||| (1#20 <<< item.val) }

def laneItem (n : LaneId) : Fin 20 := ⟨n.val, by omega⟩
def levelsItem : Fin 20 := 8
def haltItem : Fin 20 := 9
def countsItem : Fin 20 := 10
def occupancyItem : Fin 20 := 11
def sourceItem (i : SourceId) : Fin 20 := ⟨12 + i.val / 4, by omega⟩

/-! Lanes. -/

/-- Replace lane n's controller, without a mark. -/
def State.setLane (s : State) (n : LaneId) (l : Lane) : State := { s with lanes := s.lanes.set n.val l }

/-- Change lane n's controller; its progress entry is marked when a value of it changes (R52). -/
def State.updLane (s : State) (n : LaneId) (f : Lane → Lane) : State :=
  let s' := s.setLane n (f (s.lane n))
  if (f (s.lane n)).progressWords = (s.lane n).progressWords then s' else s'.markItem (laneItem n)

/-- Change the firing state of lane n's current cue. -/
def State.updFiring (s : State) (n : LaneId) (f : Firing → Firing) : State :=
  s.updLane n (fun l => { l with cur := l.cur.map f })

/-- The copies among staging queue entries, in list order. -/
def copiesOf (q : List Entry) : List Copy :=
  q.filterMap (fun e => match e with | .copy c => some c | .marker _ _ => none)

/-- The staged copies that have not begun: every copy but the current cue's. -/
def Lane.notBegun (l : Lane) : List Copy := copiesOf (if l.cur.isSome then l.queue.tail else l.queue)

/-- The current cue's copy. -/
def Lane.currentCopy (l : Lane) : Option Copy :=
  match l.cur, l.queue with
  | some _, .copy c :: _ => some c
  | _, _ => none

/-- The latest copy of a slot in the queue (R40). -/
def Lane.latestCopy (l : Lane) (slot : Link) : Option Copy := (copiesOf l.queue).reverse.find? (fun c => c.slot == slot)

/-- The lane is in PRIMING, RUNNING, STARVED or HELD: prefetch may go on and the revisit countdown counts (R39, R43,
R44). -/
def LaneState.active : LaneState → Bool
  | .priming => true | .running => true | .starved => true | .held => true
  | .idle => false | .stopping => false | .faulted => false

/-- The lane is in the URGENT group (R82). -/
def State.isUrgent (s : State) (n : LaneId) : Bool := s.laneUrgent.getLsbD n.val

/-- Of lanes given in order of number, an URGENT one before a ROUTINE one, then the lowest number (R82, R144). -/
def State.firstOf (s : State) (ns : List LaneId) : Option LaneId := (ns.find? s.isUrgent).or ns.head?

/-- Some lane of a non-empty list, chosen by the free order value `k` (log entry 6). -/
def pickOne {α : Type} (k : Nat) (ns : List α) (default : α) : α := ns.getD (Config.freeOrder k % ns.length) default

/-! Sources. -/

/-- The record of source i. -/
def State.source (s : State) (i : SourceId) : Source := s.sources[i]

/-- Replace the record of source i; its word is marked when its count or overflow mark changes (R91). -/
def State.setSource (s : State) (i : SourceId) (r : Source) : State :=
  let s' := { s with sources := s.sources.set i.val r }
  if r.count = (s.source i).count ∧ r.overflow = (s.source i).overflow then s' else s'.markItem (sourceItem i)

/-! Attention. -/

/-- Raise an attention cause (R153). -/
def State.raise (s : State) (c : Cause) : State := { s with att := s.att.raise c }

/-! Pins. -/

/-- Give the latch new levels; the levels item is marked when a level changes (R121). -/
def State.setOut (s : State) (p : Pins) : State :=
  if p = s.out then s else { s with out := p }.markItem levelsItem

/-- The pins a lane owns (R117). -/
def State.ownedBy (s : State) (n : LaneId) : Pins := BitVec.ofFnLE (fun i => s.owner[i] == some n)

/-- The pins some lane owns (R117). -/
def State.ownedPins (s : State) : Pins := BitVec.ofFnLE (fun i => s.owner[i].isSome)

/-- The pins of `m` from `a`, the others from `b`. -/
def blend (m a b : Pins) : Pins := (a &&& m) ||| (b &&& ~~~m)

/-! The write-back queue (R144, R147). -/

/-- Places reserved: one for a cue fetch attempt under way, one for a device answer from the granting of its entry
read until it is produced (R144, R165, R169). -/
def State.reserved (s : State) : Nat :=
  (match s.port with | some (.cueFetch _ _) => 1 | _ => 0) +
    (if s.port = some .deviceEntry ∨ s.devOut ≠ .none_ then 1 else 0)

/-- Places neither filled nor reserved (R144). -/
def State.room (s : State) : Nat := Config.writeBackPlaces - (s.wbq.length + s.reserved)

/-- An entry joins the queue at the tail (R147). -/
def State.enqueue (s : State) (e : WriteBack) : State := { s with wbq := s.wbq ++ [e] }

/-- Lane n produces an entry: it enters the queue at once when the lane owes none and there is room, and is owed
otherwise (R47). -/
def State.produce (s : State) (n : LaneId) (e : WriteBack) : State :=
  if (s.lane n).owed = [] ∧ 0 < s.room then s.enqueue e
  else s.updLane n (fun l => { l with owed := l.owed ++ [e] })

/-- Lane n produces entries in order. -/
def State.produceAll (s : State) (n : LaneId) (es : List WriteBack) : State := es.foldl (fun t e => t.produce n e) s

/-- Lane n produces an entry into a place reserved for it; behind older owed writes the place takes the oldest of
those (R144). -/
def State.produceReserved (s : State) (n : LaneId) (e : WriteBack) : State :=
  match (s.lane n).owed with
  | [] => s.enqueue e
  | o :: os => (s.enqueue o).updLane n (fun l => { l with owed := os ++ [e] })

/-- The header write TAKEN of a staged copy (R40). -/
def takenEntry (n : LaneId) (c : Copy) : WriteBack :=
  { owner := some n, kind := .taken c.slot, writes := [(slotWord c.slot, headerWrite c.head .taken n)] }

/-- The entry of a refused record (R19): word 7, word 6, header VOID. -/
def refusalEntry (n : LaneId) (c : Copy) (stamp : Word) (reason : Word) : WriteBack :=
  { owner := some n, kind := .refusal c.slot,
    writes := [ (slotWord c.slot + 7, resultWord 0 c.pass .void false false reason),
                (slotWord c.slot + 6, stamp),
                (slotWord c.slot, headerWrite c.head .void n) ] }

/-- The state a current copy's ending writes (R20): SPENT, or for KEEP TAKEN while another copy of the slot remains and
ARMED otherwise. -/
def endingState (keep remains : Bool) : RecordState := if keep then (if remains then .taken else .armed) else .spent

/-- The entry of a current copy's ending (R20): word 7 with the pass count of the ending, word 6, header. -/
def resultEntry (n : LaneId) (c : Copy) (f : Firing) (e : Ending) (reason : Word) (remains : Bool) : WriteBack :=
  let st := endingState c.isKeep remains
  { owner := some n, kind := .result c.slot e.outcome (st != .taken),
    writes := [ (slotWord c.slot + 7, resultWord f.fires e.pass e.outcome f.late f.sendLost reason),
                (slotWord c.slot + 6, e.stamp),
                (slotWord c.slot, headerWrite c.head st n) ] }

/-- A return entry (R21): word 7, header ARMED; word 6 is not written. -/
def returnEntry (n : LaneId) (c : Copy) : WriteBack :=
  { owner := some n, kind := .return_ c.slot,
    writes := [ (slotWord c.slot + 7, resultWord 0 c.pass .returned false false 0),
                (slotWord c.slot, headerWrite c.head .armed n) ] }

/-- The first copy of each slot, in staging order, but for the slots in `seen` (R21). R21 fixes the place of the entry;
where the copies of a slot hold different headers (a record the host armed again while it was TAKEN, R14), that the entry
writes the first one's host fields is the model's choice (log entry 38). -/
def firstPerSlot : List Link → List Copy → List Copy
  | _, [] => []
  | seen, c :: cs =>
    if seen.contains c.slot then firstPerSlot seen cs else c :: firstPerSlot (c.slot :: seen) cs

/-- The return entries of handed back copies: one a slot, none for the slot of the current cue (R21). -/
def returnEntries (n : LaneId) (current : Option Copy) (cs : List Copy) : List WriteBack :=
  (firstPerSlot (current.map Copy.slot).toList cs).map (returnEntry n)

/-- The resume slot word's write (R26, R49). -/
def resumeWrite (n : LaneId) (slot : Link) : Nat × Word := (laneWord n + 3, place 0 slot)

/-- The answer to a lane order (R29): the resume slot word where the order writes it, then the echo and result word. -/
def laneAnswer (n : LaneId) (seq : Byte) (r : OrderResult) (resume : Option Link) : WriteBack :=
  { owner := some n, kind := .laneAnswer,
    writes := (resume.map (resumeWrite n)).toList ++ [(laneWord n + 2, echoWord seq r)] }

/-- The resume slot word alone, written at a lane fault (R50). -/
def resumeEntry (n : LaneId) (slot : Link) : WriteBack :=
  { owner := some n, kind := .resumeSlot, writes := [resumeWrite n slot] }

/-- The answer to a device order (R167): the detail word, then the echo and result word. -/
def deviceAnswer (seq : Byte) (r : OrderResult) (detail : Nat) : WriteBack :=
  { owner := none, kind := .deviceAnswer,
    writes := [(deviceWord + 4, num detail), (deviceWord + 3, echoWord seq r)] }

/-! Ticks. -/

/-- Tick a is at or after tick b (00_scope.md 5.3). -/
def atOrAfter (a b : Word) : Bool := decide ((a - b).toNat < 2 ^ 31)

end Sys2Proof.Machine
end

