-- ==== Sys2Proof/Machine/Sources.lean ====
section
/-! DEFINITION. The blocks an event runs through: fires (R59 to R61), the source matrix (R77 to R90), the link queues
and transmitter (R130, R133, R134), and the beat timers' actions (R98 to R100). -/

namespace Sys2Proof.Machine

/-! Fires. -/

/-- The levels after the action of a fire (R60, R61). -/
def firedLevels (c : Copy) (out : Pins) : Pins :=
  match c.action with
  | .set => blend c.mask c.pattern out
  | .pulse => blend c.mask c.pattern out
  | .toggle => out ^^^ c.mask
  | .mark => out

/-- The pulse a fire leaves in flight (R61): its end tick, and the levels the mask's pins had. -/
def firedPulse (c : Copy) (now : Word) (out : Pins) : Option Pulse :=
  match c.action with
  | .pulse => some { endTick := now + c.pulseWidth.setWidth 32, restore := out &&& c.mask }
  | .set => none | .toggle => none | .mark => none

/-- The lane's part of a fire (R55, R59): the wait ends, the gap record is set, fires done rises by 1. A wait after it is not
the first after an expiry (log entry 42). -/
def Lane.fire (l : Lane) (now : Word) (event : Option (SourceId × Word)) (pulse : Option Pulse) : Lane :=
  { l with
    gapStart := now
    gapEvent := event
    expiredOn := none
    cur := l.cur.map (fun f => { f with waiting := false, limit := .none_, fires := f.fires + 1, pulse := pulse }) }

/-- Lane n takes a fire (R59). `event` is the SHARE event that made it, none for every other trigger (R55). -/
def State.fireLane (s : State) (n : LaneId) (event : Option (SourceId × Word)) : State :=
  match (s.lane n).currentCopy with
  | none => s
  | some c =>
    (s.updLane n (fun l => l.fire s.timebase event (firedPulse c s.timebase s.out))).setOut (firedLevels c s.out)

/-! The source matrix. -/

/-- The lane's current cue waits, and names trigger `t` (R54, R77). -/
def Lane.standsOn (l : Lane) (t : Trigger) : Bool :=
  match l.cur, l.currentCopy with
  | some f, some c => f.waiting && c.trigger == some t
  | _, _ => false

/-- An event of `t` reaches the lane: it stands in the waiter set (R77; log entry 31). A lane whose wait on `t` expired at
this tick is not waiting when an event of the same tick arrives, though its next cue's first wait has begun in the
event of that expiry (R66, log entry 42). -/
def Lane.waitsOn (l : Lane) (t : Trigger) : Bool := l.standsOn t && l.expiredOn != some t

/-- The wait begins again: it has not looked for its trigger yet. -/
def Lane.waitAnew (l : Lane) : Lane :=
  { l with expiredOn := none, cur := l.cur.map (fun f => { f with waiting := false }) }

/-- After an event of `t`, the lanes it passed over by R66 begin their waits on `t`, and find the event late, pending or
queued (R57, R66; log entry 42). -/
def State.afterEvent (s : State) (t : Trigger) : State :=
  (allLanes.filter (fun n => (s.lane n).standsOn t && (s.lane n).expiredOn == some t)).foldl
    (fun u n => u.updLane n Lane.waitAnew) s

/-- The waiter set of a source or link code, in order of lane number (R76, R77). -/
def State.waiters (s : State) (t : Trigger) : List LaneId := allLanes.filter (fun n => (s.lane n).waitsOn t)

/-- A SHARE event (R79): every waiter fires, then the event is the source's last event. -/
def State.shareTaken (s : State) (i : SourceId) : State :=
  let s1 := (s.waiters (.source i)).foldl (fun t n => t.fireLane n (some (i, s.timebase))) s
  s1.setSource i { s1.source i with last := some s.timebase }

/-- A CLAIM event or a flag raise (R81, R85): the arbiter's waiter fires, or the count rises, or the event is dropped. -/
def State.claimTaken (s : State) (i : SourceId) : State :=
  match s.firstOf (s.waiters (.source i)) with
  | some n => s.fireLane n none
  | none =>
    if (s.source i).count < Config.maxPending then
      s.setSource i { s.source i with count := (s.source i).count + 1 }
    else (s.setSource i { s.source i with overflow := true }).raise .overflow

/-- A SHARE event, and the waits it passed over (R66, R79). -/
def State.shareEvent (s : State) (i : SourceId) : State := (s.shareTaken i).afterEvent (.source i)

/-- A CLAIM event or a flag raise, and the waits it passed over (R66, R81). -/
def State.claimEvent (s : State) (i : SourceId) : State := (s.claimTaken i).afterEvent (.source i)

/-- An event of source i, by its delivery mode (R75). -/
def State.sourceEvent (s : State) (i : SourceId) : State :=
  if (s.source i).claim then s.claimEvent i else s.shareEvent i

def beatSource (b : Fin 8) : SourceId := ⟨b.val, by omega⟩
def edgeSource (n : Fin 8) : SourceId := ⟨8 + n.val, by omega⟩
def flagSource (f : Fin 16) : SourceId := ⟨16 + f.val, by omega⟩

/-! The link port. -/

/-- Change the link port; its two status items are marked when a value of theirs changes (R136). -/
def State.updLink (s : State) (f : LinkPort → LinkPort) : State :=
  let l := f s.link
  let s1 := { s with link := l }
  let s2 := if l.countWords = s.link.countWords then s1 else s1.markItem countsItem
  if l.occupancyWords = s.link.occupancyWords then s2 else s2.markItem occupancyItem

/-- The engine is READY or HALTED: the timebase counts and the bit clock runs (R93, R123). -/
def EngineState.live : EngineState → Bool
  | .ready => true | .halted => true | .clearing => false | .unset => false

/-- An IDLE transmitter of an enabled link begins the frame it has: the relayed stop code first, then the oldest queued
entry (R134; log entry 11). -/
def LinkPort.begin_ (l : LinkPort) (live : Bool) : LinkPort :=
  if live && l.plan.enabled && l.sending.isNone then
    if l.relayPending then { l with relayPending := false, sending := some stopFrame }
    else match l.txq with
      | [] => l
      | e :: q => { l with txq := q, sending := some (frameByte e.code e.group) }
  else l

/-- A link code goes to the waiter the arbiter chooses, or into the receive queue, or is lost as an overrun (R90,
R130). -/
def State.codeTaken (s : State) (code : BitVec 6) : State :=
  match s.firstOf (s.waiters (.link code)) with
  | some n => s.fireLane n none
  | none =>
    if s.link.rxq.length < Config.linkPlaces then
      s.updLink (fun l => { l with rxq := l.rxq ++ [{ code := code, tick := s.timebase }] })
    else (s.updLink (fun l => { l with overrun := l.overrun + 1 })).raise .linkError

/-- A link code, and the waits it passed over (R66, R90). -/
def State.linkEvent (s : State) (code : BitVec 6) : State := (s.codeTaken code).afterEvent (.link code)

/-- The send post action of lane n's cue (R70, R133). -/
def State.send (s : State) (n : LaneId) (code : BitVec 6) (group : BitVec 2) : State :=
  if s.link.plan.enabled ∧ s.link.txq.length < Config.linkPlaces then
    s.updLink (fun l => LinkPort.begin_ { l with txq := l.txq ++ [{ code := code, group := group }] } s.engine.live)
  else
    ((s.updLink (fun l => { l with txLost := l.txLost + 1 })).raise .linkError).updFiring n
      (fun f => { f with sendLost := true })

/-! Beat timers. -/

/-- Change beat b. -/
def State.updBeat (s : State) (b : Fin 8) (f : Beat → Beat) : State :=
  { s with beats := s.beats.set b.val (f s.beats[b]) }

/-- START with period p (R98). -/
def Beat.startWith (b : Beat) (p : Nat) : Beat := { b with running := true, period := p, next := p, left := p }

/-- STOP (R99). -/
def Beat.stopped (b : Beat) : Beat := { b with running := false, left := 0 }

/-- RETUNE with period p (R100). -/
def Beat.retune (b : Beat) (p : Nat) : Beat := if b.running then { b with next := p } else { b with period := p, next := p }

/-- The reload or stop of an expiry (R97). -/
def Beat.reload (b : Beat) : Beat :=
  if b.every then { b with period := b.next, left := b.next } else { b with period := b.next, left := 0, running := false }

end Sys2Proof.Machine
end

