-- ==== Sys2Proof/Machine/LaneOps.lean ====
section
/-! DEFINITION. What a lane does when its list ends, faults or goes on: handing back (R48), the resume slot (R49), lane
faults (R50), a cue leaving the queue (R41, R72). -/

namespace Sys2Proof.Machine

/-- A fetch or re-read of lane n under way is overtaken: its result will be discarded (R146). -/
def State.overtake (s : State) (n : LaneId) : State :=
  match s.port with
  | some (.cueFetch m d) => { s with port := some (.cueFetch m (d || m == n)) }
  | some (.tailReread m d) => { s with port := some (.tailReread m (d || m == n)) }
  | _ => s

/-- A lane with no list: queue empty, no current cue, prefetch closed, revisits stopped (R25). -/
def Lane.closed (l : Lane) (st : LaneState) : Lane :=
  { l with
    st := st, queue := [], cur := none, heldReturns := [], fetch := none, reread := false, revisit := none
    pause := .closed, expiredOn := none }

/-- The lane's list ends and it enters `st` (IDLE or FAULTED); a fetch in flight is overtaken. -/
def State.closeLane (s : State) (n : LaneId) (st : LaneState) : State :=
  (s.updLane n (fun l => l.closed st)).overtake n

/-- The slot's pass count rises by 1: every copy of it in the queue shares the count (R17). -/
def bumpPass (slot : Link) (q : List Entry) : List Entry :=
  q.map (fun e => match e with
    | .copy c => .copy (if c.slot = slot then { c with pass := c.pass + 1 } else c)
    | .marker code m => .marker code m)

/-- The current copy `c` has completed or expired: the gap record takes the tick (R55), the slot's pass count rises (R17),
and the result is fixed (R73). -/
def Lane.endCurrent (l : Lane) (c : Copy) (o : CueOutcome) (now : Word) : Lane :=
  { l with
    gapStart := now
    queue := bumpPass c.slot l.queue
    cur := l.cur.map (fun f => { f with ended := some { outcome := o, stamp := now, pass := c.pass + 1 } }) }

/-- The current cue's entry: its own ending if it has one in completion pending (R73); otherwise it ends now with outcome `o`
and the slot's pass count rises (R17, R74). No other copy of its slot remains, since all are handed back (R21). -/
def Lane.endEntry (l : Lane) (n : LaneId) (o : CueOutcome) (now reason : Word) : List WriteBack :=
  match l.cur, l.currentCopy with
  | some f, some c =>
    match f.ended with
    | some own => [resultEntry n c f own 0 false]
    | none => [resultEntry n c f { outcome := o, stamp := now, pass := c.pass + 1 } reason false]
  | _, _ => []

/-- The entries of a list that ends by ABORT, by STOP outside RUNNING or by a fault (R35, R36, R48, R50): the current
cue's first, then one return for each slot handed back. -/
def Lane.handBackEntries (l : Lane) (n : LaneId) (o : CueOutcome) (now reason : Word) : List WriteBack :=
  l.endEntry n o now reason ++ returnEntries n l.currentCopy (l.notBegun ++ l.heldReturns)

/-- The resume slot of a STOP, ABORT or fault, decided on the lane as the event finds it (R49). `marker` is the fault
marker of a marker fault. -/
def Lane.resumeSlot (l : Lane) (marker : Option (FaultCode × Link)) : Link :=
  match l.notBegun ++ l.heldReturns with
  | c :: _ => c.slot
  | [] =>
    if (l.currentCopy.map Copy.isFinal).getD false then Config.linkEnd
    else match marker with
      | some (.linkLost, _) => Config.linkEnd
      | some (_, slot) => slot
      | none =>
        match l.pause with
        | .open_ => l.follow | .notReady => l.follow | .ownCopy => l.follow
        | .atEnd => Config.linkEnd | .closed => Config.linkEnd

/-- A lane fault (R50): the entries of what it held, the resume slot word, the lane FAULTED with its code and slot, its
pins at safe levels, LANE-FAULT raised. `marker` is the slot of the fault marker, for codes 1 to 5. -/
def State.laneFault (s : State) (n : LaneId) (code : FaultCode) (marker : Option Link) : State :=
  let l := s.lane n
  let faultSlot := marker.getD l.currentSlot
  let entries := l.handBackEntries n .faulted s.timebase code.code
  let s1 := s.produceAll n (entries ++ [resumeEntry n (l.resumeSlot (marker.map (fun m => (code, m))))])
  let s2 := (s1.closeLane n .faulted).updLane n (fun k => { k with faultCode := some code, faultSlot := faultSlot })
  (s2.setOut (blend (s2.ownedBy n) s2.safe s2.out)).raise (.laneFault n)

/-- Lane n, whose copy `c` has ended with firing state `f`, leaves the queue: its cue-result entry enters the write-back
queue (R72), and the lane acts on what is behind by the table of R41. -/
def State.leaveQueue (s : State) (n : LaneId) (c : Copy) (f : Firing) (e : Ending) : State :=
  let l := s.lane n
  let behind := l.queue.tail
  let s1 := s.enqueue (resultEntry n c f e 0 ((copiesOf behind).any (fun k => k.slot == c.slot)))
  if c.isFinal ∨ l.st = .stopping then
    ((s1.produceAll n (returnEntries n (some c) l.heldReturns)).closeLane n .idle).raise (.listDone n)
  else if l.st = .held ∨ behind ≠ [] then
    s1.updLane n (fun k => { k with queue := behind, cur := none })
  else
    (s1.updLane n (fun k => { k with queue := [], cur := none, st := .starved })).raise (.starved n)

end Sys2Proof.Machine
end

