-- ==== Sys2Proof/Machine/Cascade.lean ====
section
/-! DEFINITION. What follows from an event in the same step: copies begin (R41), waits begin (R56, R57), cues complete
(R69), entries find room (R144). `settle` carries an event to its end. -/

namespace Sys2Proof.Machine

/-- A copy at the head of the queue begins (R41). -/
def State.beginCopy (s : State) (n : LaneId) : State :=
  s.updLane n (fun l => { l with cur := some {}, st := .running, heldBegun := true })

/-- Lane n becomes a waiter and its wait limit counts: from the frozen remainder, or from the cue's limit (R64). -/
def State.joinWait (s : State) (n : LaneId) (c : Copy) : State :=
  s.updFiring n (fun f => { f with
    waiting := true
    limit := match f.limit with
      | .frozen r => .counting r
      | _ => if c.waitLimit = 0 then .none_ else .counting c.waitLimit })

/-- The late check (R57): the SHARE source's last event when it lies in the lane's gap and was not consumed. -/
def lateEvent (l : Lane) (i : SourceId) (last : Option Word) : Option Word :=
  match last with
  | none => none
  | some t => if atOrAfter t l.gapStart ∧ l.gapEvent ≠ some (i, t) then some t else none

/-- Remove the oldest receive queue entry with the code (R131). -/
def dropCode (code : BitVec 6) (q : List RxEntry) : List RxEntry := q.eraseP (fun e => e.code == code)

/-- A wait of lane n's current cue begins (R56 to R58). -/
def State.beginWait (s : State) (n : LaneId) (c : Copy) : State :=
  match c.trigger with
  | none => s.joinWait n c
  | some .now => s.fireLane n none
  | some (.source i) =>
    if c.isFresh then s.joinWait n c
    else if (s.source i).claim then
      if 0 < (s.source i).count then
        (s.setSource i { s.source i with count := (s.source i).count - 1 }).fireLane n none
      else s.joinWait n c
    else match lateEvent (s.lane n) i (s.source i).last with
      | none => s.joinWait n c
      | some t =>
        if c.lateFault then s.laneFault n .late none
        else (s.updFiring n (fun f => { f with late := true })).fireLane n (some (i, t))
  | some (.link code) =>
    if !c.isFresh && s.link.rxq.any (fun e => e.code == code) then
      (s.updLink (fun l => { l with rxq := dropCode code l.rxq })).fireLane n none
    else s.joinWait n c

/-- The beat action of a completing cue (R71, R102). -/
def State.beatPost (s : State) (c : Copy) : State :=
  match c.beatAction with
  | .none_ => s
  | .start => s.updBeat c.beatNumber (fun b => b.startWith c.beatPeriod)
  | .stop => s.updBeat c.beatNumber Beat.stopped
  | .retune => s.updBeat c.beatNumber (fun b => b.retune c.beatPeriod)

/-- The four post actions in order (R69): raise flag, send, beat action, NOTE. -/
def State.postActions (s : State) (n : LaneId) (c : Copy) : State :=
  let s1 := match c.raiseFlag with | some f => s.claimEvent (flagSource f) | none => s
  let s2 := match c.sendGroup with | some g => s1.send n c.sendCode g | none => s1
  let s3 := s2.beatPost c
  if c.hasNote then s3.raise (.note n) else s3

/-- Lane n's cue completes (R69): post actions, then completion pending with outcome DONE. The entry is queued by `settle` at
once when there is room (R72). -/
def State.complete (s : State) (n : LaneId) (c : Copy) : State :=
  (s.postActions n c).updLane n (fun l => l.endCurrent c .done s.timebase)

/-- The lane has something to do in this event: an entry at the head that may become current, or a current cue that
neither waits nor pulses nor is in completion pending (R41, R42, R54). -/
def Lane.canGo (l : Lane) : Bool :=
  match l.cur, l.queue with
  | none, _ :: _ => l.st == .priming || l.st == .running || l.st == .starved
  | some f, .copy c :: _ =>
    !f.waiting && f.pulse.isNone && f.ended.isNone &&
      (decide (c.required ≤ f.fires) || l.st == .running || l.st == .stopping)
  | _, _ => false

/-- Lane n goes on by one action: its head copy begins, its head marker faults it, its cue completes, or its next wait
begins. -/
def State.laneGo (s : State) (n : LaneId) : State :=
  match (s.lane n).cur, (s.lane n).queue with
  | none, .copy _ :: _ => s.beginCopy n
  | none, .marker code slot :: _ => s.laneFault n code (some slot)
  | some f, .copy c :: _ => if c.required ≤ f.fires then s.complete n c else s.beginWait n c
  | _, _ => s

/-- Lane n's oldest owed write enters the write-back queue (R47). -/
def State.enterOwed (s : State) (n : LaneId) : State :=
  match (s.lane n).owed with
  | [] => s
  | o :: os => (s.enqueue o).updLane n (fun l => { l with owed := os })

/-- The lane is in completion pending and owes nothing (R73, R144). -/
def Lane.pendsFree (l : Lane) : Bool := l.owed.isEmpty && (l.cur.bind Firing.ended).isSome

/-- Lane n in completion pending queues its entry and leaves (R73). -/
def State.releasePending (s : State) (n : LaneId) : State :=
  match (s.lane n).cur, (s.lane n).currentCopy with
  | some f, some c => match f.ended with | some e => s.leaveQueue n c f e | none => s
  | _, _ => s

/-- One small action that follows from the state: room goes to the oldest owed write, then to a cue in completion
pending (R144); then some lane goes on, which one being a free choice (log entry 6). None when nothing follows. -/
def State.follow (s : State) : Option State :=
  match (if 0 < s.room then s.firstOf (allLanes.filter (fun n => !(s.lane n).owed.isEmpty)) else none) with
  | some n => some (s.enterOwed n)
  | none =>
    match (if 0 < s.room then s.firstOf (allLanes.filter (fun n => (s.lane n).pendsFree)) else none) with
    | some n => some (s.releasePending n)
    | none =>
      match allLanes.filter (fun n => (s.lane n).canGo) with
      | [] => none
      | [n] => some (s.laneGo n)
      | n :: ns => some ({ s with choices := s.choices + 1 }.laneGo (pickOne s.choices (n :: ns) n))

/-- At most `k` small actions. -/
def settleUpTo : Nat → State → State
  | 0, s => s
  | k + 1, s => match s.follow with
    | none => s
    | some t => settleUpTo k t

/-- More small actions than one event can have (log entry 19). -/
def settleBound : Nat := 8192

/-- Carry an event to its end (log entry 19). What follows from an event, the beginning of new waits among it, is thus over
before the next command is taken; that the second of two events at one tick never comes between is the model's choice (R84,
DESIGN CHOICE, log entry 45). -/
def State.settle (s : State) : State := settleUpTo settleBound s

end Sys2Proof.Machine
end

