-- ==== Sys2Proof/Machine/Port.lean ====
section
/-! DEFINITION. The fetch port: who requests (R27, R39, R43, R149), who is granted (R143), what a grant does at its own
moment, and how a command of one transaction acts (log entries 2 and 3). -/

namespace Sys2Proof.Machine

/-- The conditions of R39 but for the pause reason, and none of this lane's fetches under way. -/
def Lane.mayRequest (l : Lane) : Bool :=
  l.st.active && decide (l.queue.length < Config.stagingPlaces) && l.owed.isEmpty

/-- The lane requests a cue fetch attempt: a fetch of its follow link, a NOT-READY re-read, or a retry (R39, R46,
R145). -/
def Lane.wantsCue (l : Lane) : Bool :=
  l.mayRequest &&
    match l.fetch with
    | some f => f.kind == .cue
    | none => l.pause == .open_ || (l.pause == .notReady && l.reread)

/-- The lane requests a tail re-read attempt (R43, R45, R145). -/
def Lane.wantsTail (l : Lane) : Bool :=
  l.mayRequest &&
    match l.fetch with
    | some f => f.kind == .tail
    | none => l.pause == .atEnd && l.reread

/-- A lean lane (R143): one with at most one copy at pause NONE. R143 also says that a lane requesting a re-read is never
lean; the retry of a NOT-READY re-read, whose pause R46 has cleared, is judged by its pause (DEDUCED, log entry 44). -/
def Lane.lean (l : Lane) : Bool := decide ((copiesOf l.queue).length ≤ 1) && l.pause == .open_

/-- The order reader's request (R27, R143): the setup read of an APPLY SETUP alone while one is being read (R165);
otherwise the lowest-numbered nudge bit whose entry it may read. -/
def State.readerRequest (s : State) : Option Request :=
  match s.devOut with
  | .setup _ => some .setupRead
  | out =>
    match allLanes.find? (fun n => s.nudge.getLsbD n.val && (s.lane n).owed.isEmpty) with
    | some n => some (.laneEntry n)
    | none => if s.nudge.getLsbD 8 ∧ out = .none_ ∧ 0 < s.room then some .deviceEntry else none

/-- The lanes' request (R143): lean lanes first, then URGENT before ROUTINE, then the lowest number. A cue fetch needs
a place to reserve, a tail re-read does not (R144). -/
def State.laneRequest (s : State) : Option Request :=
  let asks := fun n => (s.lane n).wantsTail || (decide (0 < s.room) && (s.lane n).wantsCue)
  let chosen := (s.firstOf (allLanes.filter (fun n => asks n && (s.lane n).lean))).or (s.firstOf (allLanes.filter asks))
  chosen.map (fun n => if (s.lane n).wantsTail then .tailReread n else .cueFetch n)

/-- The first marked status item in cycle order (R149, R150). -/
def State.nextMarked (s : State) : Option (Fin 20) :=
  ((List.range 20).map (fun k => Fin.ofNat 20 (s.statusPos.val + k))).find? (fun i => s.marks.getLsbD i.val)

/-- The request a free port grants (R143). In CLEARING the port makes no transaction (R141). -/
def State.portChoice (s : State) : Option Request :=
  if s.port.isSome ∨ s.engine = .clearing then none
  else if s.wbq ≠ [] then some .writeBack
  else s.readerRequest.or (s.laneRequest.or (s.nextMarked.map (fun _ => .statusItem)))

/-- The fetch of one more attempt (R145). -/
def Lane.beginAttempt (l : Lane) (kind : FetchKind) (slot : Link) : Fetch :=
  match l.fetch with
  | some f => { f with attempts := f.attempts + 1 }
  | none => { kind := kind, slot := slot, attempts := 1 }

/-- What a grant does at its own moment: the latch bit is cleared (R27), re-read wanted is cleared and a NOT-READY
pause ends (R43, R46), a status item's values are taken and its mark cleared (R149). -/
def State.grant (s : State) (r : Request) : State :=
  match r with
  | .writeBack => { s with port := some (.writeBack 0) }
  | .laneEntry n => { s with port := some (.laneEntry n), nudge := s.nudge &&& ~~~(1#9 <<< n.val) }
  | .deviceEntry => { s with port := some .deviceEntry, nudge := s.nudge &&& ~~~(1#9 <<< 8) }
  | .setupRead => { s with port := some .setupRead }
  | .cueFetch n =>
    { s with port := some (.cueFetch n false) }.updLane n (fun l => { l with
      fetch := some (l.beginAttempt .cue l.follow)
      reread := if l.fetch.isNone ∧ l.pause = Pause.notReady then false else l.reread
      pause := if l.fetch.isNone ∧ l.pause = Pause.notReady then .open_ else l.pause })
  | .tailReread n =>
    { s with port := some (.tailReread n false) }.updLane n (fun l => { l with
      fetch := some (l.beginAttempt .tail l.watch)
      reread := if l.fetch.isNone then false else l.reread })
  | .statusItem =>
    match s.nextMarked with
    | none => s
    | some i =>
      { s with
        port := some (.statusItem i (s.itemWords i) 0)
        marks := s.marks &&& ~~~(1#20 <<< i.val)
        statusPos := Fin.ofNat 20 (i.val + 1) }

/-- The transaction under way is the one `r` asked for. -/
def Transaction.serves : Transaction → Request → Bool
  | .writeBack _, .writeBack => true
  | .laneEntry n, .laneEntry m => n == m
  | .deviceEntry, .deviceEntry => true
  | .setupRead, .setupRead => true
  | .cueFetch n _, .cueFetch m => n == m
  | .tailReread n _, .tailReread m => n == m
  | .statusItem _ _ _, .statusItem => true
  | _, _ => false

/-- The transaction of `r` is under way. -/
def State.underWay (s : State) (r : Request) : Bool := s.port.any (fun t => t.serves r)

/-- A command of the transaction `r`: its grant, if the port is free and chooses it, or its end `fin`, with the grant in
the same step on a free port. Otherwise the step cannot come about and nothing changes (log entries 2 and 3). -/
def State.turn (s : State) (r : Request) (p : Part) (fin : State → State) : State :=
  if s.underWay r then
    match p with
    | .grant => s
    | .done => fin s
  else if s.portChoice = some r then
    match p with
    | .grant => s.grant r
    | .done => fin (s.grant r)
  else s

/-- One more word of a write transaction has landed. -/
def Transaction.wordLanded : Transaction → Transaction
  | .writeBack landed => .writeBack (landed + 1)
  | .statusItem i ws landed => .statusItem i ws (landed + 1)
  | other => other

/-- The next word of the write transaction under way lands, where another is left after it (R139, R148). The last word
is the end of the transaction. -/
def State.landWord (ws : Between) (s : State) : State :=
  match s.writesUnderWay with
  | w :: _ :: _ => { s with mem := writeSeq [w] ws s.mem, port := s.port.map Transaction.wordLanded }
  | _ => s

/-- A command of the write transaction `r`: its grant, one word of it, or its end `fin` (log entry 3). -/
def State.writeTurn (s : State) (r : Request) (p : WritePart) (ws : Between) (fin : State → State) : State :=
  match p with
  | .grant => s.turn r .grant fin
  | .word => s.turn r .done (State.landWord ws)
  | .done => s.turn r .done fin

/-- The transaction ends: the port is free, and memory is as the accesses left it. -/
def State.endTransaction (s : State) (m : List Host.Cell) : State := { s with port := none, mem := m }

end Sys2Proof.Machine
end

