-- ==== Sys2Proof/Machine/DeviceOrders.lean ====
section
/-! DEFINITION. The device orders: the read of the device order entry (R167, R168) and the ten orders of Table 8. -/

namespace Sys2Proof.Machine

/-- The device orders by code (Table 8). -/
inductive DeviceOrder where
  | applySetup | snapshot | clearMarks | setStatic | raiseFlag | drainFlag | beatStart | beatStop | flushLink | setMasks
  deriving DecidableEq, Repr

/-- The device order of a code, none for an unknown code (R168). -/
def deviceOrderOf (code : Nat) : Option DeviceOrder :=
  match code with
  | 1 => some .applySetup | 2 => some .snapshot | 3 => some .clearMarks | 4 => some .setStatic
  | 5 => some .raiseFlag | 6 => some .drainFlag | 7 => some .beatStart | 8 => some .beatStop
  | 9 => some .flushLink | 10 => some .setMasks
  | _ => none

/-- How many argument words the order reads (Table 8). -/
def DeviceOrder.arguments : DeviceOrder → Nat
  | .applySetup => 0 | .snapshot => 0 | .flushLink => 0
  | .clearMarks => 1 | .raiseFlag => 1 | .drainFlag => 1 | .beatStop => 1 | .setMasks => 1
  | .setStatic => 2 | .beatStart => 2

/-- A beat number argument: the whole word (11.3). -/
def beatArgument (a : Word) : Option (Fin 8) := if a.toNat < 8 then some (Fin.ofNat 8 a.toNat) else none

/-- A flag number argument: the whole word (11.3). -/
def flagArgument (a : Word) : Option (Fin 16) := if a.toNat < 16 then some (Fin.ofNat 16 a.toNat) else none

/-- The beat named is a HOST beat: the shared checks of BEAT START and BEAT STOP (R103, R104). -/
def State.hostBeat (s : State) (a : Word) : OrderResult :=
  match beatArgument a with
  | none => .badArg
  | some b => if s.beats[b].owner = none then .ok else .notHostBeat

/-- The checks of the order's owning rule, in order (R88, R89, R103, R104, R119, R132, R155, R169, R170). APPLY SETUP
is checked at the end of its setup read (R165). -/
def State.deviceResult (s : State) (o : DeviceOrder) (a b : Word) : OrderResult :=
  if o = .applySetup then .ok
  else if s.engine = .unset then .notReady
  else match o with
    | .applySetup => .ok
    | .snapshot => .ok
    | .clearMarks => .ok
    | .flushLink => .ok
    | .setStatic =>
      if s.engine = .halted then .halted
      else if field b 0 24 &&& s.ownedPins ≠ 0 then .badArg else .ok
    | .raiseFlag =>
      if s.engine = .halted then .halted
      else if (flagArgument a).isNone then .badArg else .ok
    | .drainFlag => if (flagArgument a).isNone then .badArg else .ok
    | .beatStart =>
      if s.engine = .halted then .halted
      else if s.hostBeat a ≠ .ok then s.hostBeat a
      else if b.toNat = 1 ∨ 16777215 < b.toNat then .badArg else .ok
    | .beatStop => s.hostBeat a
    | .setMasks => if field a 7 25 ≠ 0 then .badArg else .ok

/-- SNAPSHOT taken (R169): all 20 items marked and noted as the snapshot set. -/
def State.takeSnapshot (s : State) (seq : Byte) : State :=
  { s with marks := BitVec.allOnes 20, snapSet := BitVec.allOnes 20, devOut := .snapshot seq }

/-- The sources a list of source numbers selects lose their overflow marks (R170). -/
def clearMarksOf (a : Word) : List SourceId → State → State
  | [], s => s
  | i :: is, s => clearMarksOf a is (if a.getLsbD i.val then s.setSource i { s.source i with overflow := false } else s)

/-- The 32 sources in order. -/
def allSources : List SourceId := (List.range 32).map (Fin.ofNat 32)

/-- CLEAR MARKS taken (R170). -/
def State.takeClearMarks (s : State) (a : Word) : State := clearMarksOf a allSources s

/-- SET STATIC taken (R119): the selected pins and their static levels take the pattern's levels. -/
def State.takeSetStatic (s : State) (a b : Word) : State :=
  { s with static := blend (field b 0 24) (field a 0 24) s.static }.setOut (blend (field b 0 24) (field a 0 24) s.out)

/-- RAISE FLAG taken (R88): a claim event of the flag. -/
def State.takeRaiseFlag (s : State) (a : Word) : State :=
  match flagArgument a with
  | some f => s.claimEvent (flagSource f)
  | none => s

/-- DRAIN FLAG taken (R89): the pending count becomes 0. -/
def State.takeDrainFlag (s : State) (a : Word) : State :=
  match flagArgument a with
  | some f => s.setSource (flagSource f) { s.source (flagSource f) with count := 0 }
  | none => s

/-- BEAT START taken (R103): a START with the period argument, or with the next period when it is 0. -/
def State.takeBeatStart (s : State) (a b : Word) : State :=
  match beatArgument a with
  | some n => s.updBeat n (fun t => t.startWith (if b = 0#32 then t.next else b.toNat))
  | none => s

/-- BEAT STOP taken (R104). -/
def State.takeBeatStop (s : State) (a : Word) : State :=
  match beatArgument a with
  | some n => s.updBeat n Beat.stopped
  | none => s

/-- FLUSH LINK taken (R132); each flush marks the link occupancy item (R136). -/
def State.takeFlushLink (s : State) : State := (s.updLink (fun l => { l with rxq := [] })).markItem occupancyItem

/-- SET MASKS taken (R155): all seven masks together. -/
def State.takeSetMasks (s : State) (a : Word) : State := { s with att := { s.att with masks := field a 0 7 } }

/-- What a taken device order does; APPLY SETUP requests its setup read (R165). -/
def State.takeDeviceOrder (s : State) (seq : Byte) (o : DeviceOrder) (a b : Word) : State :=
  match o with
  | .applySetup => { s with devOut := .setup seq }
  | .snapshot => s.takeSnapshot seq
  | .clearMarks => s.takeClearMarks a
  | .setStatic => s.takeSetStatic a b
  | .raiseFlag => s.takeRaiseFlag a
  | .drainFlag => s.takeDrainFlag a
  | .beatStart => s.takeBeatStart a b
  | .beatStop => s.takeBeatStop a
  | .flushLink => s.takeFlushLink
  | .setMasks => s.takeSetMasks a

/-- The order's answer is produced at the taking, but for APPLY SETUP and SNAPSHOT (R167). -/
def DeviceOrder.answersAtOnce (o : DeviceOrder) : Bool := o != .applySetup && o != .snapshot

/-- A new device order is taken or refused, and answered (R167, R168). What a raised flag causes in the lanes is carried
to its end (log entry 30). -/
def State.newDeviceOrder (s : State) (seq : Byte) (order : Option DeviceOrder) (a b : Word) : State :=
  match order with
  | none => s.enqueue (deviceAnswer seq .badOrder 0)
  | some o =>
    let r := s.deviceResult o a b
    if r ≠ .ok then s.enqueue (deviceAnswer seq r 0)
    else
      let s1 := s.takeDeviceOrder seq o a b
      let s2 := if o.answersAtOnce then s1.enqueue (deviceAnswer seq .ok 0) else s1
      if o = .raiseFlag then s2.settle else s2

/-- The order word a device entry read finds, and what is left to read after it. -/
def State.readDeviceOrder (s : State) (ws : Between) : Word × Between × List Host.Cell :=
  let r := readSeq [deviceWord] ws s.mem
  (r.1.getD 0 0, r.2.1, r.2.2)

/-- The end of a device entry read (R167): with no new sequence the read ends and its reservation is released. -/
def State.endDeviceRead (ws : Between) (s : State) : State :=
  let (word, ws1, m1) := s.readDeviceOrder ws
  if orderSeq word = s.devSeq then (s.endTransaction (landAll m1 ws1)).settle
  else
    let order := deviceOrderOf (orderCode word)
    let k := (order.map DeviceOrder.arguments).getD 0
    let r := readSeq ((List.range k).map (fun i => deviceWord + 1 + i)) ws1 m1
    { s.endTransaction (landAll r.2.2 r.2.1) with devSeq := orderSeq word }.newDeviceOrder (orderSeq word) order
      (r.1.getD 0 0) (r.1.getD 1 0)

/-- The device entry read finds a new order `o`. -/
def State.findsDeviceOrder (s : State) (ws : Between) (o : DeviceOrder) : Bool :=
  let (word, _, _) := s.readDeviceOrder ws
  orderSeq word != s.devSeq && deviceOrderOf (orderCode word) == some o

/-- The row of device order `o` (log entry 7): the device entry read that finds a new order of this code. -/
def State.deviceOrderRow (s : State) (ws : Between) (o : DeviceOrder) : State :=
  if s.findsDeviceOrder ws o then s.turn .deviceEntry .done (State.endDeviceRead ws) else s

/-! The commands. -/

/-- DEVICE_ENTRY_READ (R167). -/
def execDeviceEntryRead (p : Part) (ws : Between) (s : State) : Host.Outcome State Fault Refusal :=
  .next (s.turn .deviceEntry p (State.endDeviceRead ws))

/-- APPLY_SETUP (R165). -/
def execApplySetup (ws : Between) (s : State) : Host.Outcome State Fault Refusal :=
  .next (s.deviceOrderRow ws .applySetup)

/-- SNAPSHOT (R169). -/
def execSnapshot (ws : Between) (s : State) : Host.Outcome State Fault Refusal := .next (s.deviceOrderRow ws .snapshot)

/-- CLEAR_MARKS (R170). -/
def execClearMarks (ws : Between) (s : State) : Host.Outcome State Fault Refusal :=
  .next (s.deviceOrderRow ws .clearMarks)

/-- SET_STATIC (R119). -/
def execSetStatic (ws : Between) (s : State) : Host.Outcome State Fault Refusal :=
  .next (s.deviceOrderRow ws .setStatic)

/-- RAISE_FLAG (R88). -/
def execRaiseFlag (ws : Between) (s : State) : Host.Outcome State Fault Refusal :=
  .next (s.deviceOrderRow ws .raiseFlag)

/-- DRAIN_FLAG (R89). -/
def execDrainFlag (ws : Between) (s : State) : Host.Outcome State Fault Refusal :=
  .next (s.deviceOrderRow ws .drainFlag)

/-- BEAT_START (R103). -/
def execBeatStart (ws : Between) (s : State) : Host.Outcome State Fault Refusal :=
  .next (s.deviceOrderRow ws .beatStart)

/-- BEAT_STOP (R104). -/
def execBeatStop (ws : Between) (s : State) : Host.Outcome State Fault Refusal :=
  .next (s.deviceOrderRow ws .beatStop)

/-- FLUSH_LINK (R132). -/
def execFlushLink (ws : Between) (s : State) : Host.Outcome State Fault Refusal :=
  .next (s.deviceOrderRow ws .flushLink)

/-- SET_MASKS (R155). -/
def execSetMasks (ws : Between) (s : State) : Host.Outcome State Fault Refusal :=
  .next (s.deviceOrderRow ws .setMasks)

end Sys2Proof.Machine
end

