-- ==== Sys2Proof/Machine/FetchPort.lean ====
section
/-! DEFINITION. The other transactions: the cue fetch (R40, R145), the tail re-read (R45), the landing of a write-back
entry (R148), the status item write (R149). -/

namespace Sys2Proof.Machine

/-- The void reason of a freshly fetched ARMED record: the lowest failing condition of R18, or none. -/
def State.voidReason (s : State) (n : LaneId) (c : Copy) : Option Nat :=
  let owned := s.ownedBy n
  let guardEdge := (headEdgeLine c.head).any (fun line => s.inputs[line].guard)
  let beatNotOwned := c.beatAction ≠ .none_ ∧ s.beats[c.beatNumber].owner ≠ some n
  let badPeriod := (c.beatAction = .start ∨ c.beatAction = .retune) ∧ c.beatPeriod < 2
  let badMask := if c.action = .mark then c.mask ≠ 0 else c.mask = 0
  let checks : List (Nat × Bool) :=
    [ (1, c.trigger.isNone || guardEdge),
      (2, decide (992 ≤ c.next.toNat ∧ c.next.toNat ≤ 1022)),
      (3, decide (c.mask &&& ~~~owned ≠ 0)),
      (4, decide (badMask ∨ (c.action = .pulse ∧ c.pulseWidth = 0) ∨ (c.trigger = some .now ∧ 0 < c.repeats))),
      (5, decide (beatNotOwned ∨ badPeriod)),
      (6, !c.sparesZero),
      (7, c.isFinal && c.isKeep),
      (8, c.sendGroup.isSome && c.sendCode == 63) ]
  (checks.find? (fun p => p.2)).map Prod.fst

/-- The lane holds one pass count for each slot (R17): the copies of a slot staged before take the count of the copy
just taken. A copy in completion pending has its result, with the count of its own ending, fixed (R73). -/
def sharePass (c : Copy) (q : List Entry) : List Entry :=
  q.map (fun e => match e with
    | .copy k => .copy (if k.slot = c.slot then { k with pass := c.pass } else k)
    | .marker code m => .marker code m)

/-- A copy is appended to lane n's queue, and the follow link, watch slot and pause are set (R38). -/
def State.appendCopy (s : State) (n : LaneId) (c : Copy) : State :=
  s.updLane n (fun l =>
    let l1 := { l with queue := sharePass c l.queue ++ [Entry.copy c], fetch := none }
    if c.isFinal then { l1 with pause := .closed }
    else if c.next = Config.linkEnd then { l1 with follow := c.next, pause := .atEnd, watch := c.slot }
    else { l1 with follow := c.next, pause := .open_ })

/-- A fault marker is appended and prefetch closes (R38, R40). -/
def State.appendMarker (s : State) (n : LaneId) (code : FaultCode) (slot : Link) : State :=
  s.updLane n (fun l => { l with queue := l.queue ++ [Entry.marker code slot], fetch := none, pause := .closed })

/-- The fetch ends with nothing appended and the given pause at the slot (R40). -/
def State.pauseAt (s : State) (n : LaneId) (p : Pause) (slot : Link) : State :=
  s.updLane n (fun l => { l with fetch := none, pause := p, watch := slot })

/-- A write ending lane n's TAKEN state of the slot has not yet landed (R40). -/
def State.endPending (s : State) (n : LaneId) (slot : Link) : Bool :=
  (s.wbq ++ (s.lane n).owed).any (fun e => e.owner == some n &&
    match e.kind with
    | .result k _ ends => k == slot && ends
    | .return_ k => k == slot
    | _ => false)

/-- An attempt whose two header reads differ (R145): a retry, or after the third attempt a TORN marker. -/
def State.tornAttempt (s : State) (n : LaneId) (f : Fetch) : State :=
  if Config.maxAttempts ≤ f.attempts then s.appendMarker n .torn f.slot else s

/-- A header found in a state other than ARMED (R40). -/
def State.foundNotArmed (s : State) (n : LaneId) (slot : Link) (head : Word) : State :=
  match recordState head with
  | .host => s.pauseAt n .notReady slot
  | .spent => s.pauseAt n .notReady slot
  | .taken =>
    if headTaker head = n then
      match (s.lane n).latestCopy slot with
      | some c => if c.isKeep then s.appendCopy n { c with replay := true } else s.pauseAt n .ownCopy slot
      | none =>
        if s.endPending n slot then s.updLane n (fun l => { l with fetch := none })
        else s.appendMarker n .badState slot
    else s.appendMarker n .cueInUse slot
  | .void => s.appendMarker n .badState slot
  | .invalid => s.appendMarker n .badState slot
  | .armed => s

/-- A record found ARMED with equal header reads (R18, R40): staged, or refused. -/
def State.foundArmed (s : State) (n : LaneId) (c : Copy) : State :=
  match s.voidReason n c with
  | none => (s.produceReserved n (takenEntry n c)).appendCopy n c
  | some r => (s.produceReserved n (refusalEntry n c s.timebase (num r))).appendMarker n .voidCue c.slot

/-- The end of a cue fetch attempt (R145). A discarded attempt has no outcome (R146). The pass count is taken from word
7 after the last read (log entry 8). -/
def State.endCueFetch (n : LaneId) (ws : Between) (s : State) : State :=
  match (s.lane n).fetch with
  | none => (s.endTransaction (landAll s.mem ws)).settle
  | some f =>
    let b := slotWord f.slot
    let h := readSeq [b] ws s.mem
    let head := h.1.getD 0 0
    if s.port = some (.cueFetch n true) then (s.endTransaction (landAll s.mem ws)).settle
    else if recordState head = .armed then
      let r := readSeq [b + 1, b + 2, b + 3, b + 4, b + 5, b] h.2.1 h.2.2
      let s1 := s.endTransaction (landAll r.2.2 r.2.1)
      let c : Copy :=
        { slot := f.slot, head := head, w1 := r.1.getD 0 0, w2 := r.1.getD 1 0, w3 := r.1.getD 2 0, w4 := r.1.getD 3 0
          w5 := r.1.getD 4 0, pass := passCount (readWord r.2.2 (b + 7)), replay := false }
      (if r.1.getD 5 0 = head then s1.foundArmed n c else s1.tornAttempt n f).settle
    else ((s.endTransaction (landAll h.2.2 h.2.1)).foundNotArmed n f.slot head).settle

/-- The tail found can be followed (R45). -/
def tailFollows (n : LaneId) (head : Word) : Bool :=
  match recordState head with
  | .spent => true
  | .taken => headTaker head == n
  | .armed => headKeep head
  | .host => false | .void => false | .invalid => false

/-- What a lane does with the tail's header and word 1 (R45). -/
def State.foundTail (s : State) (n : LaneId) (tail : Link) (head w1 : Word) : State :=
  let next : Link := field w1 0 10
  if !tailFollows n head then s.appendMarker n .linkLost tail
  else if next = Config.linkEnd then s.updLane n (fun l => { l with fetch := none })
  else if isSlot next then s.updLane n (fun l => { l with fetch := none, follow := next, pause := .open_ })
  else s.appendMarker n .linkLost tail

/-- The end of a tail re-read attempt (R45, R145). -/
def State.endTailReread (n : LaneId) (ws : Between) (s : State) : State :=
  match (s.lane n).fetch with
  | none => (s.endTransaction (landAll s.mem ws)).settle
  | some f =>
    let b := slotWord f.slot
    let r := readSeq [b, b + 1, b] ws s.mem
    let s1 := s.endTransaction (landAll r.2.2 r.2.1)
    if s.port = some (.tailReread n true) then s1.settle
    else if r.1.getD 2 0 = r.1.getD 0 0 then (s1.foundTail n f.slot (r.1.getD 0 0) (r.1.getD 1 0)).settle
    else (s1.tornAttempt n f).settle

/-- The landing of the header write that ends the lane's last copy of the slot clears an OWN-COPY pause at it (R38, R148):
the lane holds no copy of it. -/
def Lane.ownCopyLanded (l : Lane) (slot : Link) : Lane :=
  if l.pause = .ownCopy ∧ l.watch = slot ∧ l.latestCopy slot = none then { l with pause := .open_ } else l

/-- The progress values an ending's landing changes (R52). -/
def Lane.endingLanded (l : Lane) (slot : Link) (o : CueOutcome) : Lane :=
  { l with lastSlot := slot, lastOutcome := o, endedCount := l.endedCount + 1 }

/-- What waits for an entry's landing (R148, R152). The write ends the lane's last copy of its slot when no other write that
ends the slot's TAKEN state is still to land. -/
def State.entryLanded (s : State) (e : WriteBack) : State :=
  match e.kind with
  | .result slot o ends =>
    match e.owner with
    | some n =>
      let last := ends && !s.endPending n slot
      s.updLane n (fun l =>
        let l1 := l.endingLanded slot o
        if last then l1.ownCopyLanded slot else l1)
    | none => s
  | .return_ slot =>
    match e.owner with
    | some n => if s.endPending n slot then s else s.updLane n (fun l => l.ownCopyLanded slot)
    | none => s
  | .deviceAnswer => s.raise .orderDone
  | .taken _ => s | .refusal _ => s | .laneAnswer => s | .resumeSlot => s

/-- The end of a write-back transaction (R148): the entry's words that are left land, it leaves the queue, and what waits
for it goes on. -/
def State.endWriteBack (ws : Between) (s : State) : State :=
  match s.wbq with
  | [] => s.endTransaction (landAll s.mem ws)
  | e :: q => (({ s.endTransaction (writeSeq s.writesUnderWay ws s.mem) with wbq := q }).entryLanded e).settle

/-- The item leaves the snapshot set; when the set is empty the SNAPSHOT answer is produced (R169). -/
def State.snapshotWritten (s : State) (i : Fin 20) : State :=
  let s1 := { s with snapSet := s.snapSet &&& ~~~(1#20 <<< i.val) }
  match s1.devOut with
  | .snapshot seq => if s1.snapSet = 0 then { s1 with devOut := .none_ }.enqueue (deviceAnswer seq .ok 0) else s1
  | _ => s1

/-- The end of a status item write (R149): the words that are left of the values of the grant land. -/
def State.endStatusItem (between : Between) (s : State) : State :=
  match s.port with
  | some (.statusItem i _ _) => (s.endTransaction (writeSeq s.writesUnderWay between s.mem)).snapshotWritten i
  | _ => s

/-! The commands. -/

/-- CUE_FETCH (R40, R145). -/
def execCueFetch (n : LaneId) (p : Part) (ws : Between) (s : State) : Host.Outcome State Fault Refusal :=
  .next (s.turn (.cueFetch n) p (State.endCueFetch n ws))

/-- TAIL_REREAD (R45). -/
def execTailReread (n : LaneId) (p : Part) (ws : Between) (s : State) : Host.Outcome State Fault Refusal :=
  .next (s.turn (.tailReread n) p (State.endTailReread n ws))

/-- WRITE_BACK_LANDING (R148). -/
def execWriteBackLanding (p : WritePart) (ws : Between) (s : State) : Host.Outcome State Fault Refusal :=
  .next (s.writeTurn .writeBack p ws (State.endWriteBack ws))

/-- STATUS_ITEM_WRITE (R149). -/
def execStatusItemWrite (p : WritePart) (ws : Between) (s : State) : Host.Outcome State Fault Refusal :=
  .next (s.writeTurn .statusItem p ws (State.endStatusItem ws))

end Sys2Proof.Machine
end

