-- ==== Sys2Proof/Machine/Halt.lean ====
section
/-! DEFINITION. The halt trip (R112, R113), RELEASE (R120), the control codes (R172) and the resets (R174, R175). -/

namespace Sys2Proof.Machine

/-- The lanes a halt trip faults (R51): those in PRIMING, RUNNING, STARVED, HELD or STOPPING. -/
def State.tripLanes (s : State) : List LaneId :=
  allLanes.filter (fun n => (s.lane n).st != .idle && (s.lane n).st != .faulted)

/-- Fault the given lanes in one event. The order in which they produce their entries is a free choice (log entry 6), and
the model keeps the entries of one lane together where R147 lets those of different lanes mix (log entry 41). -/
def faultLanes : Nat → List LaneId → FaultCode → State → State
  | 0, _, _, s => s
  | _ + 1, [], _, s => s
  | _ + 1, [n], code, s => s.laneFault n code none
  | k + 1, n :: ns, code, s =>
    let m := pickOne s.choices (n :: ns) n
    faultLanes k ((n :: ns).erase m) code ({ s with choices := s.choices + 1 }.laneFault m code none)

/-- The lane fault code of a halt cause (R112). -/
def HaltCause.faultCode : HaltCause → FaultCode
  | .guard => .guard | .linkStop => .linkStop | .hostHalt => .hostHalt | .none_ => .hostHalt

/-- The halt record, marked for writing at a change of it (R115, R149). -/
def State.setHalt (s : State) (h : HaltRecord) : State :=
  let s1 := { s with halt := h }
  if h = s.halt then s1 else s1.markItem haltItem

/-- A halt trip taken in READY (R113). The transmit queue is emptied, which marks the link occupancy item (R136). -/
def State.trip (s : State) (cause : HaltCause) (line : Fin 8) : State :=
  let lanes := s.tripLanes
  let s1 := faultLanes lanes.length lanes cause.faultCode { s with engine := .halted }
  let s2 := { s1.setOut s1.safe with beats := s1.beats.map Beat.stopped }
  let s3 := s2.updLink (fun l => LinkPort.begin_
    { l with txq := [], relayPending := l.plan.relay && l.plan.enabled } true)
  ((s3.markItem occupancyItem).raise .halt).setHalt
    { cause := cause, line := line, tick := s.timebase, lanes := laneSet (fun n => lanes.contains n), further := 0 }

/-- A further trip taken in HALTED (R112): the further-trip count rises, held at 255, where the record keeps
its value. -/
def State.furtherTrip (s : State) : State :=
  (s.raise .halt).setHalt { s.halt with further := if s.halt.further = 255#8 then 255#8 else s.halt.further + 1 }

/-- A cause of a halt trip is taken (R112). In CLEARING and UNSET no cause trips. -/
def State.haltCause (s : State) (cause : HaltCause) (line : Fin 8) : State :=
  match s.engine with
  | .ready => s.trip cause line
  | .halted => s.furtherTrip
  | .clearing => s | .unset => s

/-- A refused ENGINE CONTROL write (R172). -/
def State.refuse (s : State) : State := { s with refused := true }

/-- RELEASE taken (R120): READY, owned pins at rest levels and STATIC pins at static levels in one transfer. -/
def State.releaseTaken (s : State) : State :=
  { s with engine := .ready }.setOut (blend s.ownedPins s.rest s.static)

/-- Exchange memory after a soft reset: `landed` of the words that the write transaction under way had left land, and the
rest do not (R148, R175). -/
def State.memoryAtReset (s : State) (landed : Nat) : List Host.Cell :=
  writeSeq (s.writesUnderWay.take landed) [] s.mem

/-- A soft reset taken (R175): every block at its values after soft reset, exchange memory and the last-taken sequences
kept, the engine UNSET. -/
def State.softResetTaken (s : State) (landed : Nat) : State :=
  { State.reset with
    engine := .unset
    mem := s.memoryAtReset landed
    lastSeq := s.lastSeq
    devSeq := s.devSeq
    readData := s.readData
    inPins := s.inPins
    choices := s.choices
    pending := s.pending }

/-- The SOFT RESET code (R172). -/
def State.codeSoftReset (s : State) (landed : Nat) : State :=
  if s.engine = .clearing then s.refuse else s.softResetTaken landed

/-- The HALT code (R172). -/
def State.codeHalt (s : State) : State :=
  match s.engine with
  | .ready => s.trip .hostHalt 0
  | .halted => s.furtherTrip
  | .clearing => s.refuse | .unset => s.refuse

/-- The RELEASE code (R172). -/
def State.codeRelease (s : State) : State := if s.engine = .halted ∧ s.allIdle then s.releaseTaken else s.refuse

/-- A host write to ENGINE CONTROL: the whole word is a control code (R172, 11.9). -/
def State.writeControl (s : State) (v : Word) : State :=
  if v = 1#32 then s.codeSoftReset 0
  else if v = 2#32 then s.codeHalt
  else if v = 3#32 then s.codeRelease
  else s.refuse

/-- Power is applied (R174): the reset state. The command queue and the free choices used are the model's own. -/
def State.powerOn (s : State) : State := { State.reset with choices := s.choices, pending := s.pending }

/-- The last word of exchange memory has been zeroed (R141, R171). -/
def State.clearDone (s : State) : State := if s.engine = .clearing then { s with engine := .unset } else s

end Sys2Proof.Machine
end

