-- ==== Sys2Proof/Machine/HostPort.lean ====
section
/-! DEFINITION. The host port: the address map (R140), register accesses and their side effects (R177), and the meanings
of the host's and the engine-wide commands. -/

namespace Sys2Proof.Machine

/-- A write to NUDGE sets the latch bits the value selects; bits 9 to 31 are ignored (R27). -/
def State.writeNudge (s : State) (v : Word) : State := { s with nudge := s.nudge ||| field v 0 9 }

/-- A read of TAKE (R158): the most urgent eligible cause is returned and taken into service; with none, NONE is
returned and nothing changes. -/
def State.readTake (s : State) : State :=
  match s.att.mostUrgent with
  | none => { s with readData := 0 }
  | some c => { s with att := s.att.serve c, readData := takeWord c (s.att.levelOf c) }

/-- A write of any value to END (R159). -/
def State.writeEnd (s : State) : State := { s with att := s.att.endLast }

/-- A read of ENGINE STATUS returns the word and then clears REFUSED (R173). -/
def State.readStatus (s : State) : State := { s with readData := s.statusWord, refused := false }

/-- A host write to exchange memory, discarded in CLEARING (R139, R141). -/
def State.writeMemory (s : State) (w : HostWrite) : State :=
  if s.engine = .clearing then s else { s with mem := landHostWrite s.mem w }

/-- A host write at a byte address (R140, R177): exchange memory, a register, or nothing. -/
def State.hostWrite (s : State) (w : HostWrite) : State :=
  let i := w.addr.toNat / 4
  if w.addr.toNat < Config.memoryEnd then s.writeMemory w
  else if i = 0x8000 / 4 then s.writeControl w.value
  else if i = 0x8008 / 4 then s.writeNudge w.value
  else if i = 0x8010 / 4 then s.writeEnd
  else s

/-- The value a host read of a byte address returns (R95, R140, R141, 11.9). Reads of TAKE and ENGINE STATUS have side
effects, which are those commands; every other read changes nothing (R177; log entry 24). -/
def State.hostRead (s : State) (addr : BitVec 16) : Word :=
  let i := addr.toNat / 4
  if addr.toNat < Config.memoryEnd then (if s.engine = .clearing then 0 else readWord s.mem i)
  else if i = 0x8004 / 4 then s.statusWord
  else if i = 0x8008 / 4 then place 0 s.nudge
  else if i = 0x800C / 4 then (s.att.mostUrgent.map (fun c => takeWord c (s.att.levelOf c))).getD 0
  else if i = 0x8014 / 4 then s.timebase
  else 0

/-! The commands. -/

/-- POWER_ON (R174). -/
def execPowerOn (s : State) : Host.Outcome State Fault Refusal := .next s.powerOn

/-- CLEAR_COMPLETE (R141). -/
def execClearComplete (s : State) : Host.Outcome State Fault Refusal := .next s.clearDone

/-- SOFT_RESET (R172, R175). -/
def execSoftReset (landed : Nat) (s : State) : Host.Outcome State Fault Refusal := .next (s.codeSoftReset landed)

/-- HALT (R172). -/
def execHalt (s : State) : Host.Outcome State Fault Refusal := .next s.codeHalt

/-- RELEASE (R120, R172). -/
def execRelease (s : State) : Host.Outcome State Fault Refusal := .next s.codeRelease

/-- UNKNOWN_CONTROL_CODE (R172). -/
def execUnknownControlCode (v : Word) (s : State) : Host.Outcome State Fault Refusal := .next (s.writeControl v)

/-- REGISTER_WRITE_IGNORED (R177): the write goes through the address map, where the addresses of this row reach
nothing. -/
def execRegisterWriteIgnored (addr : BitVec 16) (v : Word) (s : State) : Host.Outcome State Fault Refusal :=
  .next (s.hostWrite { addr := addr, value := v })

/-- NUDGE (R27). -/
def execNudge (v : Word) (s : State) : Host.Outcome State Fault Refusal := .next (s.writeNudge v)

/-- TAKE (R158). -/
def execTake (s : State) : Host.Outcome State Fault Refusal := .next s.readTake

/-- END (R159). -/
def execEndService (s : State) : Host.Outcome State Fault Refusal := .next s.writeEnd

/-- ENGINE_STATUS_READ (R173). -/
def execEngineStatusRead (s : State) : Host.Outcome State Fault Refusal := .next s.readStatus

/-- HOST_MEMORY_WRITE (R139, R141). -/
def execHostMemoryWrite (addr : BitVec 16) (v : Word) (s : State) : Host.Outcome State Fault Refusal :=
  .next (s.hostWrite { addr := addr, value := v })

end Sys2Proof.Machine
end

