-- ==== Sys2Proof/Machine/LaneOrders.lean ====
section
/-! DEFINITION. The lane orders: the order reader's read of a directory entry (R28), the answer (R29), and what each
order does (R30 to R37). -/

namespace Sys2Proof.Machine

/-- The lane orders by code (R26). -/
inductive LaneOrder where
  | start | hold | resume | stop | abort | clear
  deriving DecidableEq, Repr

/-- The order of a code, none for an unknown code (R26). -/
def laneOrderOf (code : Nat) : Option LaneOrder :=
  match code with
  | 1 => some .start | 2 => some .hold | 3 => some .resume | 4 => some .stop | 5 => some .abort | 6 => some .clear
  | _ => none

/-- The lane states in which an order is taken (Table 6). -/
def LaneOrder.takenIn : LaneOrder → LaneState → Bool
  | .start, st => st == .idle
  | .hold, st => st == .priming || st == .running || st == .starved
  | .resume, st => st == .held
  | .stop, st => st == .running || st == .priming || st == .starved || st == .held
  | .abort, st => st != .idle
  | .clear, st => st == .faulted

/-- The result of a new order, by the checks of R29 in order. -/
def State.laneOrderResult (s : State) (n : LaneId) (order : Option LaneOrder) (argument : Link) : OrderResult :=
  match order with
  | none => .badOrder
  | some o =>
    if s.engine = .unset then .notReady
    else if o = .start ∧ s.engine = .halted then .halted
    else if !o.takenIn (s.lane n).st then .wrongState
    else if o = .start ∧ !isSlot argument then .badSlot
    else .ok

/-- The revisit countdown of an interval: 256 times the interval, or stopped for 0 (R44). -/
def revisitLoad (interval : Byte) : Option Nat := if interval = 0#8 then none else some (256 * interval.toNat)

/-- The revisit interval of an entry read is passed to the lane (R28, R44; log entry 10). -/
def State.passInterval (s : State) (n : LaneId) (interval : Byte) : State :=
  s.updLane n (fun l =>
    if l.st.active ∧ interval ≠ l.interval then { l with interval := interval, revisit := revisitLoad interval } else l)

/-- An occasion for a re-read (R43). While a NOT-READY re-read is in flight the pause is NONE (R46), so an occasion leaves
re-read wanted as it was; during a tail re-read the pause is AT-END, and it sets it again (log entry 39). -/
def Lane.occasion (l : Lane) : Lane :=
  if l.st.active ∧ (l.pause = .atEnd ∨ l.pause = .notReady) then { l with reread := true } else l

/-- START taken (R30). -/
def State.takeStart (s : State) (n : LaneId) (head : Link) (interval : Byte) : State :=
  s.updLane n (fun l => { l with
    st := .priming, follow := head, watch := Config.linkEnd, pause := .open_, heldBegun := false
    faultCode := none, faultSlot := Config.linkEnd, interval := interval, revisit := revisitLoad interval
    gapStart := s.timebase, gapEvent := none })

/-- The wait of a cue held: it ends, and a counting remainder is frozen (R67). A remainder that has reached 0 at this tick
is frozen at 0, and the RESUME makes the limit due at once (log entry 40). -/
def Firing.freeze (f : Firing) : Firing :=
  { f with
    waiting := false
    limit := match f.limit with
      | .counting r => .frozen r
      | other => other }

/-- HOLD taken (R31, R67). A wait that begins after it is not the first after an expiry (log entry 42). -/
def State.takeHold (s : State) (n : LaneId) : State :=
  s.updLane n (fun l => { l with st := .held, expiredOn := none, cur := l.cur.map Firing.freeze })

/-- RESUME taken (R32, R68): the gap record is reset, and the lane goes on with what it holds. -/
def State.takeResume (s : State) (n : LaneId) : State :=
  let s1 := s.updLane n (fun l => { l with gapStart := s.timebase, gapEvent := none })
  if (s.lane n).cur.isSome ∨ (s.lane n).queue ≠ [] then (s1.updLane n (fun l => { l with st := .running })).settle
  else if (s.lane n).heldBegun then (s1.updLane n (fun l => { l with st := .starved })).raise (.starved n)
  else s1.updLane n (fun l => { l with st := .priming })

/-- The levels a STOP in HELD gives: the restore levels of a pulse in flight, the others kept (R35). -/
def State.levelsAfterStop (s : State) (n : LaneId) : Pins :=
  match (s.lane n).cur.bind Firing.pulse, (s.lane n).currentCopy with
  | some p, some c => blend c.mask p.restore s.out
  | _, _ => s.out

/-- STOP taken: in RUNNING the copies behind are held for return and the lane is STOPPING (R33); in PRIMING, STARVED or
HELD the list ends at once and LIST-DONE is raised (R35). -/
def State.takeStop (s : State) (n : LaneId) : State :=
  let l := s.lane n
  if l.st = .running then
    (s.updLane n (fun k => { k with
      st := .stopping, queue := k.queue.take 1, heldReturns := copiesOf k.queue.tail, pause := .closed, fetch := none
      revisit := none })).overtake n
  else
    let entries := l.handBackEntries n .aborted s.timebase 0
    (((s.produceAll n entries).closeLane n .idle).setOut (s.levelsAfterStop n)).raise (.listDone n)

/-- The lane's pins take their rest levels, unless the engine is HALTED (R36, R37). -/
def State.restPins (s : State) (n : LaneId) : State :=
  if s.engine = .halted then s else s.setOut (blend (s.ownedBy n) s.rest s.out)

/-- CLEAR taken, or ABORT taken in FAULTED (R37). -/
def State.takeClear (s : State) (n : LaneId) : State := (s.closeLane n .idle).restPins n

/-- ABORT taken (R36, R37). -/
def State.takeAbort (s : State) (n : LaneId) : State :=
  let l := s.lane n
  if l.st = .faulted then s.takeClear n
  else
    let entries := l.handBackEntries n .aborted s.timebase 0
    ((s.produceAll n entries).closeLane n .idle).restPins n

/-- The resume slot an order's answer carries: for a STOP or ABORT taken in a state other than FAULTED (R26, R29). -/
def State.answerResume (s : State) (n : LaneId) (o : LaneOrder) : Option Link :=
  match o with
  | .stop => some ((s.lane n).resumeSlot none)
  | .abort => if (s.lane n).st = .faulted then none else some ((s.lane n).resumeSlot none)
  | .start => none | .hold => none | .resume => none | .clear => none

/-- What a taken order does. -/
def State.takeLaneOrder (s : State) (n : LaneId) (o : LaneOrder) (argument : Link) (interval : Byte) : State :=
  match o with
  | .start => s.takeStart n argument interval
  | .hold => s.takeHold n
  | .resume => s.takeResume n
  | .stop => s.takeStop n
  | .abort => s.takeAbort n
  | .clear => s.takeClear n

/-- A new order is decided, taken or refused, and answered (R28, R29). -/
def State.newLaneOrder (s : State) (n : LaneId) (seq : Byte) (order : Option LaneOrder) (argument : Link)
    (interval : Byte) : State :=
  let r := s.laneOrderResult n order argument
  match order, r with
  | some o, .ok => (s.takeLaneOrder n o argument interval).produce n (laneAnswer n seq .ok (s.answerResume n o))
  | _, _ => s.produce n (laneAnswer n seq r none)

/-- The two words a lane entry read finds and the memory after it (R142): order word, then argument word. -/
def State.readLaneEntry (s : State) (n : LaneId) (ws : Between) : Word × Word × List Host.Cell :=
  let r := readSeq [laneWord n, laneWord n + 1] ws s.mem
  (r.1.getD 0 0, r.1.getD 1 0, landAll r.2.2 r.2.1)

/-- The end of a lane entry read (R28): a new order, or a nudge without a new order. -/
def State.endLaneRead (n : LaneId) (ws : Between) (s : State) : State :=
  let (order, arg, m) := s.readLaneEntry n ws
  let s1 := (s.endTransaction m).passInterval n (laneInterval arg)
  if orderSeq order = s.lastSeq[n] then s1.updLane n Lane.occasion
  else
    { s1 with lastSeq := s1.lastSeq.set n.val (orderSeq order) }.newLaneOrder n (orderSeq order)
      (laneOrderOf (orderCode order)) (laneArgument arg) (laneInterval arg)

/-- The read of lane n's entry finds a new order `o`. -/
def State.findsLaneOrder (s : State) (n : LaneId) (ws : Between) (o : LaneOrder) : Bool :=
  let (order, _, _) := s.readLaneEntry n ws
  orderSeq order != s.lastSeq[n] && laneOrderOf (orderCode order) == some o

/-- The row of lane order `o` (log entry 7): the lane entry read that finds a new order of this code. -/
def State.laneOrderRow (s : State) (n : LaneId) (ws : Between) (o : LaneOrder) : State :=
  if s.findsLaneOrder n ws o then s.turn (.laneEntry n) .done (State.endLaneRead n ws) else s

/-! The commands. -/

/-- LANE_ENTRY_READ (R28). -/
def execLaneEntryRead (n : LaneId) (p : Part) (ws : Between) (s : State) : Host.Outcome State Fault Refusal :=
  .next (s.turn (.laneEntry n) p (State.endLaneRead n ws))

/-- START (R30). -/
def execStart (n : LaneId) (ws : Between) (s : State) : Host.Outcome State Fault Refusal :=
  .next (s.laneOrderRow n ws .start)

/-- HOLD (R31). -/
def execHold (n : LaneId) (ws : Between) (s : State) : Host.Outcome State Fault Refusal :=
  .next (s.laneOrderRow n ws .hold)

/-- RESUME (R32). -/
def execResume (n : LaneId) (ws : Between) (s : State) : Host.Outcome State Fault Refusal :=
  .next (s.laneOrderRow n ws .resume)

/-- STOP (R33 to R35). -/
def execStop (n : LaneId) (ws : Between) (s : State) : Host.Outcome State Fault Refusal :=
  .next (s.laneOrderRow n ws .stop)

/-- ABORT (R36, R37). -/
def execAbort (n : LaneId) (ws : Between) (s : State) : Host.Outcome State Fault Refusal :=
  .next (s.laneOrderRow n ws .abort)

/-- CLEAR (R37). -/
def execClear (n : LaneId) (ws : Between) (s : State) : Host.Outcome State Fault Refusal :=
  .next (s.laneOrderRow n ws .clear)

end Sys2Proof.Machine
end

