-- ==== Sys2Proof/Machine/LinkReceiver.lean ====
section
/-! DEFINITION. The link receiver (R125 to R130) and the end of a sent frame (R134). -/

namespace Sys2Proof.Machine

/-- The judgements of a frame (R126). -/
inductive Judgement where
  | framing | parity | correct
  deriving DecidableEq, Repr

/-- The judgement at the first stop bit sample (R126): parity is checked with EVEN and ODD only. -/
def judge (p : Parity) (data : Byte) (parityBit stopBit : Bool) : Judgement :=
  if !stopBit then .framing
  else match p with
    | .even => if parityBit = oddHighs data then .correct else .parity
    | .odd => if parityBit = !oddHighs data then .correct else .parity
    | .zero => .correct
    | .none_ => .correct

/-- The receiver enters a state; no status item shows it. -/
def State.setRx (s : State) (r : Receiver) : State := { s with link := { s.link with rx := r } }

/-- An accepted or ignored correct frame (R128, R129). -/
def State.acceptFrame (s : State) (data : Byte) : State :=
  if frameGroup data ≠ s.link.plan.group ∧ frameGroup data ≠ 3#2 then s
  else if frameCode data = 63#6 then (if s.link.plan.obey then s.haltCause .linkStop 0 else s)
  else (s.linkEvent (frameCode data)).settle

/-- A frame is judged (R126 to R128). -/
def State.frameJudged (s : State) (data : Byte) (parityBit stopBit : Bool) : State :=
  if s.link.rx = .frame true then
    match judge s.link.plan.parity data parityBit stopBit with
    | .framing => ((s.setRx .waitHigh).updLink (fun l => { l with framing := l.framing + 1 })).raise .linkError
    | .parity => ((s.setRx .hunt).updLink (fun l => { l with parityErr := l.parityErr + 1 })).raise .linkError
    | .correct => (s.setRx .hunt).acceptFrame data
  else s

/-- The transmitter ends the last stop bit of a frame and begins the next, if it has one (R134). -/
def State.frameSent (s : State) : State :=
  if s.link.sending.isSome then s.updLink (fun l => LinkPort.begin_ { l with sending := none } s.engine.live) else s

/-- The levels of the frame on LTX; empty when the line is idle and high (R124, R134). -/
def State.ltxFrame (s : State) : List Bool := (s.link.sending.map (frameLevels s.link.plan)).getD []

/-! The commands. -/

/-- FRAME_JUDGED (R126). -/
def execFrameJudged (data : Byte) (parityBit stopBit : Bool) (s : State) : Host.Outcome State Fault Refusal :=
  .next (s.frameJudged data parityBit stopBit)

/-- FRAME_SENT (R134). -/
def execFrameSent (s : State) : Host.Outcome State Fault Refusal := .next s.frameSent

/-- LINE_SHOWS_HIGH (R125). -/
def execLineShowsHigh (s : State) : Host.Outcome State Fault Refusal :=
  .next (if s.link.rx = .waitHigh then s.setRx .hunt else s)

/-- START_CANDIDATE (R125). -/
def execStartCandidate (s : State) : Host.Outcome State Fault Refusal :=
  .next (if s.link.rx = .hunt then s.setRx (.frame false) else s)

/-- START_BIT_MIDDLE_SAMPLE (R125): a low line confirms the start bit, a high one drops the candidate. -/
def execStartBitMiddleSample (level : Bool) (s : State) : Host.Outcome State Fault Refusal :=
  .next (if s.link.rx = .frame false then s.setRx (if level then .hunt else .frame true) else s)

end Sys2Proof.Machine
end

