-- ==== Sys2Proof/Machine/Setup.lean ====
section
/-! DEFINITION. The setup block (R163, R164) and APPLY SETUP taken (R165, R166). -/

namespace Sys2Proof.Machine

/-- The word of number i of the setup block as read. -/
def setupWord (ws : List Word) (i : Nat) : Word := ws.getD i 0

def pinWord (ws : List Word) (n : Nat) : Word := setupWord ws (3 + n)
def beatWord (ws : List Word) (n : Nat) : Word := setupWord ws (27 + n)
def inputWord (ws : List Word) (n : Nat) : Word := setupWord ws (35 + n)
def linkWord (ws : List Word) : Word := setupWord ws 43

/-- The field checks that an encoding of 11.4 can fail, as (field index, in range), in ascending index order (R164).
Every other field's encoding holds values in range only, so its index is never reported. -/
def setupChecks (ws : List Word) : List (Nat × Bool) :=
  (List.range 24).map (fun n => (10 + n, decide ((field (pinWord ws n) 0 4).toNat ≤ 8))) ++
  (List.range 8).map (fun n => (82 + n, decide ((field (beatWord ws n) 0 4).toNat ≤ 8))) ++
  (List.range 8).map (fun n => (98 + n, decide (2 ≤ (field (beatWord ws n) 8 24).toNat))) ++
  (List.range 8).map (fun n => (130 + n, decide (1 ≤ (field (inputWord ws n) 4 3).toNat ∧
    (field (inputWord ws n) 4 3).toNat ≤ 4))) ++
  (List.range 8).map (fun n => (138 + n, decide (1 ≤ (field (inputWord ws n) 8 8).toNat))) ++
  [(166, decide ((field (linkWord ws) 20 2).toNat ≤ 2))]

/-- The first field out of range, by its index (R164). -/
def setupBadField (ws : List Word) : Option Nat := ((setupChecks ws).find? (fun p => !p.2)).map Prod.fst

/-- An owner field: lane 0 to 7, or STATIC or HOST (11.7). -/
def ownerOf (x : BitVec 4) : Option LaneId := if x.toNat < 8 then some (Fin.ofNat 8 x.toNat) else none

/-- A beat of the beat plan at the APPLY (R96, R105). -/
def setupBeat (w : Word) : Beat :=
  let p := (field w 8 24).toNat
  { running := w.getLsbD 5, every := w.getLsbD 4, owner := ownerOf (field w 0 4), period := p, next := p
    left := if w.getLsbD 5 then p else 0 }

def edgeSelectOf (x : BitVec 2) : EdgeSelect :=
  match x.toNat with
  | 0 => .off | 1 => .rise | 2 => .fall | _ => .both

/-- An input line of the input plan at the APPLY, with its first sample (R107, R108). -/
def setupInput (w : Word) (level : Bool) : InputLine :=
  let i := (field w 8 8).toNat
  { edge := edgeSelectOf (field w 0 2), filter := (field w 4 3).toNat, interval := i, guard := w.getLsbD 17
    level := level, agree := 0, left := some i }

def parityOf (x : BitVec 2) : Parity :=
  match x.toNat with
  | 0 => .even | 1 => .odd | 2 => .zero | _ => .none_

/-- The link plan (R122, 11.4). -/
def setupLink (w : Word) : LinkPlan :=
  { enabled := w.getLsbD 0, divisor := field w 4 12, parity := parityOf (field w 16 2), twoStops := w.getLsbD 18
    group := field w 20 2, relay := w.getLsbD 24, obey := w.getLsbD 25 }

/-- The source records after APPLY SETUP (R76, R86): modes from the beat and input plans, flags CLAIM, the rest clear. -/
def setupSources (ws : List Word) : Vector Source 32 :=
  Vector.ofFn (fun i : Fin 32 =>
    { claim :=
        if i.val < 8 then (beatWord ws i.val).getLsbD 6
        else if i.val < 16 then (inputWord ws (i.val - 8)).getLsbD 16
        else true })

/-- The status items a taken APPLY SETUP marks (R166): levels, link counts, link occupancy, the source words. -/
def setupMarks : BitVec 20 := 0xFFD00#20

/-- APPLY SETUP taken (R166): every plan in force at tick 0 of the new timebase. `pins` are the levels of IN0 to IN7. Every
lane is IDLE, so none carries a mark of an expiry of the old timebase's last tick into tick 0 (log entry 42). -/
def State.setupTaken (s : State) (ws : List Word) (pins : BitVec 8) : State :=
  let rest : Pins := BitVec.ofFnLE (fun n => (pinWord ws n.val).getLsbD 4)
  let plan := setupLink (linkWord ws)
  { s with
    engine := .ready
    generation := field (setupWord ws 0) 0 16
    timebase := 0
    divider := field (setupWord ws 1) 0 16
    laneUrgent := field (setupWord ws 2) 0 8
    sources := setupSources ws
    beats := Vector.ofFn (fun b => setupBeat (beatWord ws b.val))
    inputs := Vector.ofFn (fun n => setupInput (inputWord ws n.val) (pins.getLsbD n.val))
    inPins := pins
    owner := Vector.ofFn (fun n => ownerOf (field (pinWord ws n.val) 0 4))
    rest := rest
    safe := BitVec.ofFnLE (fun n => (pinWord ws n.val).getLsbD 5)
    static := rest
    out := rest
    link := { plan := plan, rx := if plan.enabled then .waitHigh else .off }
    att := { s.att with masks := field (setupWord ws 44) 0 7, groups := field (setupWord ws 44) 8 7 }
    marks := s.marks ||| setupMarks }

/-- The checks of an APPLY SETUP in order (R165): the result and the detail. -/
def State.setupResult (s : State) (ws : List Word) : OrderResult × Nat :=
  if s.engine = .halted then (.halted, 0)
  else if !s.allIdle then (.busyLanes, 0)
  else match setupBadField ws with
    | some i => (.badSetup, i)
    | none => (.ok, 0)

/-- The end of a setup read: the decision, then the answer into its reserved place (R165). -/
def State.endSetupRead (pins : BitVec 8) (ws : Between) (s : State) : State :=
  match s.devOut with
  | .setup seq =>
    let r := readSeq (List.range 128) ws s.mem
    let s1 := { s.endTransaction (landAll r.2.2 r.2.1) with devOut := .none_ }
    let d := s1.setupResult r.1
    (if d.1 = .ok then s1.setupTaken r.1 pins else s1).enqueue (deviceAnswer seq d.1 d.2)
  | _ => s

/-- SETUP_READ_DONE (R165). -/
def execSetupReadDone (p : Part) (pins : BitVec 8) (ws : Between) (s : State) : Host.Outcome State Fault Refusal :=
  .next (s.turn .setupRead p (State.endSetupRead pins ws))

end Sys2Proof.Machine
end

