-- ==== Sys2Proof/Machine/Time.lean ====
section
/-! DEFINITION. Time: the tick, the events whose countdowns reach their end (R61, R65, R97, R44, R108), and which of
them are due. -/

namespace Sys2Proof.Machine

/-- A count one lower. -/
def Remainder.tick : Remainder → Remainder
  | .counting n => .counting (n - 1)
  | .none_ => .none_
  | .frozen n => .frozen n

/-- A lane at a tick: the remainder of a running wait and an active lane's revisit countdown fall by 1 (R44, R64). An
expiry of the tick before is past (log entry 42). -/
def Lane.tick (l : Lane) : Lane :=
  { l with
    expiredOn := none
    cur := l.cur.map (fun f => if f.waiting then { f with limit := f.limit.tick } else f)
    revisit := if l.st.active then l.revisit.map (fun k => k - 1) else l.revisit }

/-- A beat at a tick (R97). -/
def Beat.tick (b : Beat) : Beat := if b.running then { b with left := b.left - 1 } else b

/-- An input line at a tick (R108). -/
def InputLine.tick (i : InputLine) : InputLine := { i with left := i.left.map (fun k => k - 1) }

/-- One tick (R93): the counter rises by 1 and every quantity counted in ticks advances once; nothing advances in
CLEARING and UNSET, where the counter is stopped. -/
def State.tick (s : State) : State :=
  if s.engine.live then
    { s with
      timebase := s.timebase + 1
      lanes := s.lanes.map Lane.tick
      beats := s.beats.map Beat.tick
      inputs := s.inputs.map InputLine.tick }
  else s

/-! Due events: a countdown stands at its end. -/

/-- A pulse of lane n ends at this tick (R61). -/
def Lane.pulseDue (l : Lane) (now : Word) : Bool := (l.cur.bind Firing.pulse).any (fun p => p.endTick == now)

/-- Lane n's wait limit expires at this tick (R64). -/
def Lane.limitDue (l : Lane) : Bool := l.cur.any (fun f => f.waiting && f.limit == .counting 0)

/-- Lane n's revisit countdown has reached 0 (R44). -/
def Lane.revisitDue (l : Lane) : Bool := l.st.active && l.revisit == some 0

/-- The beat's countdown has reached 0 (R97). -/
def Beat.due (b : Beat) : Bool := b.running && b.left == 0

/-- The line is sampled at this tick (R108). -/
def InputLine.due (i : InputLine) : Bool := i.left == some 0

/-- The pulses, wait limits and beats due: they run in READY only (R92, R97, R114). -/
def State.dueInReady (s : State) : List Instr :=
  if s.engine = .ready then
    (allLanes.filter (fun n => (s.lane n).pulseDue s.timebase)).map .pulseEnd ++
    (allLanes.filter (fun n => (s.lane n).limitDue)).map .waitLimitExpiry ++
    (allLanes.filter (fun b => s.beats[b].due)).map .beatExpiry
  else []

/-- The timed events due, as commands. A line's pin holds the level last seen (log entry 13). -/
def State.due (s : State) : List Instr :=
  s.dueInReady ++
  if s.engine.live then
    (allLanes.filter (fun n => (s.lane n).revisitDue)).map .revisitExpiry ++
    (allLanes.filter (fun i => s.inputs[i].due)).map (fun i => .inputSample i (s.inPins.getLsbD i.val))
  else []

/-! What each timed event does. -/

/-- A beat expires (R97): the event is handed on, and the beat reloads or stops. -/
def State.beatExpires (s : State) (b : Fin 8) : State :=
  if s.engine = .ready ∧ s.beats[b].due then ((s.sourceEvent (beatSource b)).updBeat b Beat.reload).settle else s

/-- A pulse ends (R61): the mask's pins take their restore levels; then a wait begins or the cue completes. -/
def State.pulseEnds (s : State) (n : LaneId) : State :=
  match (s.lane n).cur.bind Firing.pulse, (s.lane n).currentCopy with
  | some p, some c =>
    if s.engine = .ready ∧ p.endTick = s.timebase then
      ((s.updFiring n (fun f => { f with pulse := none })).setOut (blend c.mask p.restore s.out)).settle
    else s
  | _, _ => s

/-- The wait ends and the current copy `c` ends EXPIRED (R65). The trigger of the wait is held while the event is carried to
its end (R66). -/
def Lane.expire (l : Lane) (c : Copy) (now : Word) : Lane :=
  ({ l with
    expiredOn := c.trigger
    gapEvent := none
    cur := l.cur.map (fun f => { f with waiting := false, limit := .none_ }) } : Lane).endCurrent c .expired now

/-- The event of an expiry has been carried to its end: the trigger stays held only where the next cue's first wait on it
has begun in that event (R66, log entry 42). A wait that begins in a later event is a waiter at once (R77). -/
def Lane.afterExpiry (l : Lane) : Lane := { l with expiredOn := l.expiredOn.filter l.standsOn }

/-- A wait limit expires (R65): the copy ends EXPIRED, or with EXPIRY-FAULT the lane faults. -/
def State.limitExpires (s : State) (n : LaneId) : State :=
  match (s.lane n).currentCopy with
  | some c =>
    if s.engine = .ready ∧ (s.lane n).limitDue then
      if c.expiryFault then (s.laneFault n .expired none).settle
      else (s.updLane n (fun l => l.expire c s.timebase)).settle.updLane n Lane.afterExpiry
    else s
  | none => s

/-- A revisit countdown expires (R43, R44): it loads again, and it is an occasion for a re-read, but not while a NOT-READY
re-read is in flight (log entry 39). -/
def Lane.revisitExpires (l : Lane) : Lane :=
  let l1 := { l with revisit := if l.interval = 0#8 then none else some (256 * l.interval.toNat) }
  if l.pause = .atEnd ∨ l.pause = .notReady then { l1 with reread := true } else l1

def State.revisitExpires (s : State) (n : LaneId) : State :=
  if s.engine.live ∧ (s.lane n).revisitDue then s.updLane n Lane.revisitExpires else s

/-- The filter at a sample (R109): the line after it, and whether a change was recognised. The countdown is loaded with
the sample interval (R108). -/
def InputLine.sample (i : InputLine) (level : Bool) : InputLine × Bool :=
  let i1 := { i with left := some i.interval }
  if level = i.level then ({ i1 with agree := 0 }, false)
  else if i.agree + 1 = i.filter then ({ i1 with level := level, agree := 0 }, true)
  else ({ i1 with agree := i.agree + 1 }, false)

/-- A recognised change to `level` matches the edge select (R110). -/
def EdgeSelect.matchesChange (e : EdgeSelect) (level : Bool) : Bool :=
  match e with
  | .off => false | .rise => level | .fall => !level | .both => true

/-- The line after a sample; the levels item is marked when the filtered level changes (R121). -/
def State.sampleLine (s : State) (i : Fin 8) (level : Bool) : State :=
  let r := s.inputs[i].sample level
  let s1 := { s with
    inputs := s.inputs.set i.val r.1
    inPins := (s.inPins &&& ~~~(1#8 <<< i.val)) ||| (if level then 1#8 <<< i.val else 0#8) }
  if r.2 then s1.markItem levelsItem else s1

/-- An input sample (R108 to R111): a matching recognised change is an edge, or on a guard line a guard trip. -/
def State.inputSampled (s : State) (i : Fin 8) (level : Bool) : State :=
  if s.engine.live ∧ s.inputs[i].due then
    let line := s.inputs[i]
    let s1 := s.sampleLine i level
    if (line.sample level).2 ∧ line.edge.matchesChange level then
      if line.guard then s1.haltCause .guard i else (s1.sourceEvent (edgeSource i)).settle
    else s1
  else s

/-! The commands. -/

/-- BEAT_EXPIRY (R97). -/
def execBeatExpiry (b : Fin 8) (s : State) : Host.Outcome State Fault Refusal := .next (s.beatExpires b)

/-- PULSE_END (R61). -/
def execPulseEnd (n : LaneId) (s : State) : Host.Outcome State Fault Refusal := .next (s.pulseEnds n)

/-- WAIT_LIMIT_EXPIRY (R65). -/
def execWaitLimitExpiry (n : LaneId) (s : State) : Host.Outcome State Fault Refusal := .next (s.limitExpires n)

/-- REVISIT_EXPIRY (R44). -/
def execRevisitExpiry (n : LaneId) (s : State) : Host.Outcome State Fault Refusal := .next (s.revisitExpires n)

/-- INPUT_SAMPLE (R108). -/
def execInputSample (line : Fin 8) (level : Bool) (s : State) : Host.Outcome State Fault Refusal :=
  .next (s.inputSampled line level)

end Sys2Proof.Machine
end

