-- ==== Sys2Proof/Machine/Dispatch.lean ====
section
/-! DEFINITION. The meaning of each command: one arm per constructor. -/

namespace Sys2Proof.Machine

/-- The effect of a command on everything but the queue. -/
def exec (i : Instr) (s : State) : Host.Outcome State Fault Refusal :=
  match i with
  | .powerOn => Sys2Proof.Machine.execPowerOn s
  | .clearComplete => Sys2Proof.Machine.execClearComplete s
  | .softReset k => Sys2Proof.Machine.execSoftReset k s
  | .halt => Sys2Proof.Machine.execHalt s
  | .release => Sys2Proof.Machine.execRelease s
  | .unknownControlCode v => Sys2Proof.Machine.execUnknownControlCode v s
  | .registerWriteIgnored a v => Sys2Proof.Machine.execRegisterWriteIgnored a v s
  | .nudge v => Sys2Proof.Machine.execNudge v s
  | .take => Sys2Proof.Machine.execTake s
  | .endService => Sys2Proof.Machine.execEndService s
  | .engineStatusRead => Sys2Proof.Machine.execEngineStatusRead s
  | .hostMemoryWrite a v => Sys2Proof.Machine.execHostMemoryWrite a v s
  | .laneEntryRead n p ws => Sys2Proof.Machine.execLaneEntryRead n p ws s
  | .start n ws => Sys2Proof.Machine.execStart n ws s
  | .hold n ws => Sys2Proof.Machine.execHold n ws s
  | .resume n ws => Sys2Proof.Machine.execResume n ws s
  | .stop n ws => Sys2Proof.Machine.execStop n ws s
  | .abort n ws => Sys2Proof.Machine.execAbort n ws s
  | .clear n ws => Sys2Proof.Machine.execClear n ws s
  | .deviceEntryRead p ws => Sys2Proof.Machine.execDeviceEntryRead p ws s
  | .applySetup ws => Sys2Proof.Machine.execApplySetup ws s
  | .setupReadDone p pins ws => Sys2Proof.Machine.execSetupReadDone p pins ws s
  | .snapshot ws => Sys2Proof.Machine.execSnapshot ws s
  | .clearMarks ws => Sys2Proof.Machine.execClearMarks ws s
  | .setStatic ws => Sys2Proof.Machine.execSetStatic ws s
  | .raiseFlag ws => Sys2Proof.Machine.execRaiseFlag ws s
  | .drainFlag ws => Sys2Proof.Machine.execDrainFlag ws s
  | .beatStart ws => Sys2Proof.Machine.execBeatStart ws s
  | .beatStop ws => Sys2Proof.Machine.execBeatStop ws s
  | .flushLink ws => Sys2Proof.Machine.execFlushLink ws s
  | .setMasks ws => Sys2Proof.Machine.execSetMasks ws s
  | .cueFetch n p ws => Sys2Proof.Machine.execCueFetch n p ws s
  | .tailReread n p ws => Sys2Proof.Machine.execTailReread n p ws s
  | .writeBackLanding p ws => Sys2Proof.Machine.execWriteBackLanding p ws s
  | .statusItemWrite p ws => Sys2Proof.Machine.execStatusItemWrite p ws s
  | .beatExpiry b => Sys2Proof.Machine.execBeatExpiry b s
  | .pulseEnd n => Sys2Proof.Machine.execPulseEnd n s
  | .waitLimitExpiry n => Sys2Proof.Machine.execWaitLimitExpiry n s
  | .revisitExpiry n => Sys2Proof.Machine.execRevisitExpiry n s
  | .inputSample line level => Sys2Proof.Machine.execInputSample line level s
  | .frameJudged data pb sb => Sys2Proof.Machine.execFrameJudged data pb sb s
  | .frameSent => Sys2Proof.Machine.execFrameSent s
  | .lineShowsHigh => Sys2Proof.Machine.execLineShowsHigh s
  | .startCandidate => Sys2Proof.Machine.execStartCandidate s
  | .startBitMiddleSample level => Sys2Proof.Machine.execStartBitMiddleSample level s

end Sys2Proof.Machine
end

