-- ==== Sys2Proof/Machine/Step.lean ====
section
/-! DEFINITION. One step of the machine: the command at the front of the queue, or on an empty queue the passing of
time. -/

namespace Sys2Proof.Machine

/-- The step on an empty queue (log entry 5): a timed event that is due, which of several being a free choice (log
entry 6), or else one tick. -/
def idleStep (s : State) : Host.Outcome State Fault Refusal :=
  match s.due with
  | [] => .next s.tick
  | [c] => exec c s
  | c :: cs => exec (pickOne s.choices (c :: cs) c) { s with choices := s.choices + 1 }

/-- One step: take the command at the front of the queue and run it with the queue's rest. -/
def step (s : State) : Host.Outcome State Fault Refusal :=
  match s.pending with
  | c :: rest => exec c { s with pending := rest }
  | [] => idleStep s

/-- The state with the command a table word spells at the front of its queue; unchanged where the word spells none. -/
def State.withFetchWord (s : State) (nbits w : Nat) : State :=
  match decodeTableWord nbits w with
  | some c => { s with pending := c :: s.pending }
  | none => s

end Sys2Proof.Machine
end

