-- ==== Sys2Proof/Safety.lean ====
section
/-! DEFINITION. What the statements speak of: what an event may change, when a transaction's turn has come, and the
invariants. -/

namespace Sys2Proof.Machine

/-! What an event changes. -/

/-- `t` differs from `s` at most where an event's consequences reach: the write-back queue, the mark of an overtaken
fetch, status item marks, lanes, sources, beats, pin levels, link port, attention unit, and the free orders used. -/
def EventFrame (s t : State) : Prop :=
  t = { s with
    wbq := t.wbq, port := t.port, marks := t.marks, lanes := t.lanes, sources := t.sources, beats := t.beats
    out := t.out, link := t.link, att := t.att, choices := t.choices }

/-- Nothing is left to follow in `s`: every event before has been carried to its end. -/
def State.quiet (s : State) : Prop := s.follow = none

/-- No lane owes a write, is in completion pending, or can go on at once: nothing waits for room in the write-back queue,
and nothing is left to follow. -/
def State.settled (s : State) : Prop :=
  ∀ n, (s.lane n).owed = [] ∧ (s.lane n).pendsFree = false ∧ (s.lane n).canGo = false

/-- How many entries that lane n produces now enter the write-back queue at once (R47). -/
def State.places (s : State) (n : LaneId) : Nat := if (s.lane n).owed = [] then s.room else 0

/-- The entries of lane n, queued and owed, in the order it produced them (R47). -/
def State.pipeline (s : State) (n : LaneId) : List WriteBack :=
  s.wbq.filter (fun e => e.owner == some n) ++ (s.lane n).owed

/-- `s` with lane n's controller replaced, its progress entry marked when a value of it changes (R52). -/
def State.withLane (s : State) (n : LaneId) (l : Lane) : State :=
  { s with
    lanes := s.lanes.set n.val l
    marks := if l.progressWords = (s.lane n).progressWords then s.marks else s.marks ||| (1#20 <<< n.val) }

/-- `s` with lane n's controller replaced, and with the entries the lane produces: they enter the write-back queue while
they find places, and the rest are owed (R47). -/
def State.withEntries (s : State) (n : LaneId) (es : List WriteBack) (l : Lane) : State :=
  { s with wbq := s.wbq ++ es.take (s.places n) }.withLane n
    { l with owed := (s.lane n).owed ++ es.drop (s.places n) }

/-- `s` with new pin levels, the levels item marked when a level changes (R121). -/
def State.withOut (s : State) (p : Pins) : State :=
  { s with out := p, marks := if p = s.out then s.marks else s.marks ||| (1#20 <<< 8) }

/-- `s` with a cause made pending (R153). -/
def State.withCause (s : State) (c : Cause) : State :=
  { s with att := { s.att with pending := s.att.pending.set c.index true } }

/-- `s` with a source record replaced, its source word marked when its count or overflow mark changes (R91). -/
def State.withSource (s : State) (i : SourceId) (r : Source) : State :=
  { s with
    sources := s.sources.set i.val r
    marks := if r.count = (s.source i).count ∧ r.overflow = (s.source i).overflow then s.marks
      else s.marks ||| (1#20 <<< (12 + i.val / 4)) }

/-- `s` with the link port replaced, its two items marked when a value of theirs changes (R136). -/
def State.withLink (s : State) (l : LinkPort) : State :=
  { s with
    link := l
    marks := s.marks ||| (if l.countWords = s.link.countWords then 0#20 else 1#20 <<< 10) |||
      (if l.occupancyWords = s.link.occupancyWords then 0#20 else 1#20 <<< 11) }

/-- Lane n is to fault at a halt trip (R51). -/
def Lane.faultsAtTrip (l : Lane) : Prop := l.st ≠ .idle ∧ l.st ≠ .faulted

/-- `s` with a status item marked (R149). -/
def State.withMark (s : State) (k : Nat) : State := { s with marks := s.marks ||| (1#20 <<< k) }

/-- `t` is `s` after a halt trip taken in READY, with this cause, lane fault code and line (R112, R113, R115, R135). The
entries of the faulted lanes that find room stand behind those in the queue (R147), in an order of lanes that is free
(log entries 6 and 41); the order of one lane's entries is log entry 20, the watch slot at the pause CLOSED log entry 9. -/
def Tripped (s t : State) (cause : HaltCause) (code : FaultCode) (line : Fin 8) : Prop :=
  t = { s with
    engine := .halted, out := s.safe, wbq := t.wbq, port := t.port, marks := t.marks, lanes := t.lanes, beats := t.beats
    link := t.link, att := t.att, choices := t.choices
    halt := { cause := cause, line := line, tick := s.timebase, lanes := t.halt.lanes, further := 0 } } ∧
  (∀ n : LaneId, t.halt.lanes.getLsbD n.val = true ↔ (s.lane n).faultsAtTrip) ∧
  (∀ n, ¬ (s.lane n).faultsAtTrip → t.lane n = s.lane n ∧ t.pipeline n = s.pipeline n) ∧
  (∀ n, (s.lane n).faultsAtTrip →
    t.lane n = { s.lane n with
      st := .faulted, queue := [], cur := none, heldReturns := [], fetch := none, reread := false, revisit := none
      pause := .closed, expiredOn := none, faultCode := some code, faultSlot := (s.lane n).currentSlot
      owed := (t.lane n).owed } ∧
    t.pipeline n = s.pipeline n ++
      (s.lane n).handBackEntries n .faulted s.timebase code.code ++
      [resumeEntry n ((s.lane n).resumeSlot none)]) ∧
  t.port = (match s.port with
    | some (.cueFetch n d) => some (.cueFetch n (d || ((s.lane n).st != .idle && (s.lane n).st != .faulted)))
    | some (.tailReread n d) => some (.tailReread n (d || ((s.lane n).st != .idle && (s.lane n).st != .faulted)))
    | other => other) ∧
  (∀ b : Fin 8, t.beats[b] = { s.beats[b] with running := false, left := 0 }) ∧
  t.link = { s.link with
    txq := []
    relayPending := s.link.plan.relay && s.link.plan.enabled && s.link.sending.isSome
    sending := if s.link.plan.relay && s.link.plan.enabled && s.link.sending.isNone then some 0xFF#8
      else s.link.sending } ∧
  t.att = { s.att with pending := t.att.pending } ∧
  (∀ c, t.att.isPending c = true ↔ s.att.isPending c = true ∨ c = .halt ∨
    ∃ n, (s.lane n).faultsAtTrip ∧ c = .laneFault n) ∧
  (∀ i : Fin 20, s.marks.getLsbD i.val = true → t.marks.getLsbD i.val = true) ∧
  (∃ es, t.wbq = s.wbq ++ es ∧ ∀ e ∈ es, ∃ n, e.owner = some n ∧ (s.lane n).faultsAtTrip) ∧
  (t.halt ≠ s.halt → t.marks.getLsbD 9 = true) ∧ t.marks.getLsbD 11 = true ∧ (s.out ≠ s.safe → t.marks.getLsbD 8 = true) ∧
  (∀ n, (s.lane n).faultsAtTrip → t.marks.getLsbD n.val = true)

/-! The fetch port. -/

/-- The transaction of `r` is under way, or the free port grants it now. -/
def State.atPort (s : State) (r : Request) : Prop := s.underWay r = true ∨ s.portChoice = some r

/-- The state in which the transaction of `r` is under way. -/
def State.granted (s : State) (r : Request) : State := if s.underWay r then s else s.grant r

/-- `s` at the end of a lane entry read that found a new order: the port free, the host's writes landed, the sequence
recorded (R28). -/
def State.afterLaneRead (s : State) (n : LaneId) (ws : Between) : State :=
  { s.granted (.laneEntry n) with
    port := none
    mem := (s.readLaneEntry n ws).2.2
    lastSeq := s.lastSeq.set n.val (orderSeq (s.readLaneEntry n ws).1) }

/-- A lane after the revisit interval of an entry read has been passed to it (R28, R44): an active lane whose interval
differs takes it, and its countdown is loaded with 256 times the interval, or stopped for 0. -/
def Lane.withInterval (l : Lane) (interval : Byte) : Lane :=
  if l.st.active = true ∧ interval ≠ l.interval then
    { l with interval := interval, revisit := if interval = 0#8 then none else some (256 * interval.toNat) }
  else l

/-- The argument words a device entry read finds for the order `o`, and the memory after the read. -/
def State.deviceArguments (s : State) (ws : Between) (o : DeviceOrder) : Word × Word × List Host.Cell :=
  let first := s.readDeviceOrder ws
  let r := readSeq ((List.range o.arguments).map (fun i => deviceWord + 1 + i)) first.2.1 first.2.2
  (r.1.getD 0 0, r.1.getD 1 0, landAll r.2.2 r.2.1)

/-- `s` at the end of a device entry read that found the new order `o`: the port free, the host's writes landed, the
sequence recorded (R167). -/
def State.afterDeviceRead (s : State) (ws : Between) (o : DeviceOrder) : State :=
  { s.granted .deviceEntry with
    port := none
    mem := (s.deviceArguments ws o).2.2
    devSeq := orderSeq (s.readDeviceOrder ws).1 }

/-- The same with the order's answer queued (R167). -/
def State.answeredDevice (s : State) (ws : Between) (o : DeviceOrder) (r : OrderResult) : State :=
  { s.afterDeviceRead ws o with wbq := s.wbq ++ [deviceAnswer (orderSeq (s.readDeviceOrder ws).1) r 0] }

/-- The setup field of index `i` is out of range (R164, 11.4). -/
def setupFieldBad (ws : List Word) (i : Nat) : Bool :=
  if 10 ≤ i ∧ i ≤ 33 then decide (8 < (field (pinWord ws (i - 10)) 0 4).toNat)
  else if 82 ≤ i ∧ i ≤ 89 then decide (8 < (field (beatWord ws (i - 82)) 0 4).toNat)
  else if 98 ≤ i ∧ i ≤ 105 then decide ((field (beatWord ws (i - 98)) 8 24).toNat < 2)
  else if 130 ≤ i ∧ i ≤ 137 then
    decide ((field (inputWord ws (i - 130)) 4 3).toNat = 0 ∨ 4 < (field (inputWord ws (i - 130)) 4 3).toNat)
  else if 138 ≤ i ∧ i ≤ 145 then decide ((field (inputWord ws (i - 138)) 8 8).toNat = 0)
  else if i = 166 then decide (field (linkWord ws) 20 2 = 3#2)
  else false

/-! Lanes and sources, as the statements name them. -/

/-- An entry appended to the queue does not come to its point: it stands behind another, or the lane is HELD
with no current cue. -/
def Lane.queuesBehind (l : Lane) : Prop := l.queue ≠ [] ∨ (l.st = .held ∧ l.cur = none)

/-- The lane with a copy appended, and its follow link, watch slot and pause as R38 gives; the copies of the slot share
the pass count (R17). -/
def Lane.staged (l : Lane) (c : Copy) : Lane :=
  { l with
    queue := sharePass c l.queue ++ [.copy c], fetch := none
    follow := if c.isFinal = true then l.follow else c.next
    watch := if c.isFinal = false ∧ c.next = 1023#10 then c.slot else l.watch
    pause := if c.isFinal = true then .closed else if c.next = 1023#10 then Pause.atEnd else .open_ }

/-- The lane with a fault marker appended (R40, R45). -/
def Lane.marked (l : Lane) (code : FaultCode) (slot : Link) : Lane :=
  { l with queue := l.queue ++ [.marker code slot], fetch := none, pause := .closed }

/-- The firing state of a cue that becomes a waiter: its limit counts from the frozen remainder, or from the cue's wait
limit, or not at all for limit 0 (R54, R64). -/
def Firing.joining (f : Firing) (c : Copy) : Firing :=
  { f with
    waiting := true
    limit := match f.limit with
      | .frozen r => .counting r
      | _ => if c.waitLimit = 0 then .none_ else .counting c.waitLimit }

/-- A wait of the copy that begins now in lane `l` finds no trigger to take at once (R56 to R58). -/
def State.nothingToTake (s : State) (l : Lane) (c : Copy) : Prop :=
  (∃ i, c.trigger = some (.source i) ∧ (c.isFresh = true ∨
    ((s.source i).claim = true ∧ (s.source i).count = 0) ∨
    ((s.source i).claim = false ∧ ∀ t, (s.source i).last = some t →
      2 ^ 31 ≤ (t - l.gapStart).toNat ∨ l.gapEvent = some (i, t)))) ∨
  (∃ code, c.trigger = some (.link code) ∧ (c.isFresh = true ∨ ∀ e ∈ s.link.rxq, e.code ≠ code))

/-- The copy has no post action (R69). -/
def Copy.noPostActions (c : Copy) : Prop :=
  c.raiseFlag = none ∧ c.sendGroup = none ∧ c.beatAction = .none_ ∧ c.hasNote = false

/-- No lane's current cue waits on `t`. -/
def State.unwatched (s : State) (t : Trigger) : Prop := ∀ n, (s.lane n).standsOn t = false

/-- `s` after a CLAIM event of source i that no lane takes: it is counted, or at 15 dropped with the overflow mark and
OVERFLOW (R81, R85). -/
def State.unclaimed (s : State) (i : SourceId) : State :=
  if (s.source i).count < 15 then s.withSource i { s.source i with count := (s.source i).count + 1 }
  else (s.withSource i { s.source i with overflow := true }).withCause .overflow

/-- `s` after an event of source i that no lane waits on: a SHARE event is the source's last event (R79), a CLAIM event
is counted or dropped (R81, R85). -/
def State.unheard (s : State) (i : SourceId) : State :=
  if (s.source i).claim = false then s.withSource i { s.source i with last := some s.timebase } else s.unclaimed i

/-- `s` after a link code that no lane takes: it is queued with its arrival tick, or lost as an overrun with LINK-ERROR
(R90, R130). -/
def State.unclaimedCode (s : State) (code : BitVec 6) : State :=
  if s.link.rxq.length < 8 then
    s.withLink { s.link with rxq := s.link.rxq ++ [{ code := code, tick := s.timebase }] }
  else (s.withLink { s.link with overrun := s.link.overrun + 1 }).withCause .linkError

/-- The levels after the action of a fire: SET and PULSE give the mask's pins the pattern's levels, TOGGLE the opposite
levels, MARK changes none (R60, R61). -/
def Copy.levelsAfter (c : Copy) (out : Pins) : Pins :=
  match c.action with
  | .set => (c.pattern &&& c.mask) ||| (out &&& ~~~c.mask)
  | .pulse => (c.pattern &&& c.mask) ||| (out &&& ~~~c.mask)
  | .toggle => out ^^^ c.mask
  | .mark => out

/-- `s` after lane n takes a fire at this tick (R55, R59 to R61): the wait ends, the gap record is set, fires done rises by
1 and the action is applied; a PULSE fire leaves its pulse in flight. `event` is the SHARE event that made the fire. -/
def State.withFire (s : State) (n : LaneId) (event : Option (SourceId × Word)) : State :=
  match (s.lane n).cur, (s.lane n).queue with
  | some f, .copy c :: _ =>
    (s.withOut (c.levelsAfter s.out)).withLane n { s.lane n with
      gapStart := s.timebase, gapEvent := event, expiredOn := none
      cur := some { f with
        waiting := false, limit := .none_, fires := f.fires + 1
        pulse := if c.action = .pulse then
            some { endTick := s.timebase + c.pulseWidth.setWidth 32, restore := s.out &&& c.mask }
          else none } }
  | _, _ => s

/-- The pins of lane n at their safe levels, the others as they are (R50, R118). -/
def State.faultLevels (s : State) (n : LaneId) : Pins :=
  BitVec.ofFnLE (fun p => if s.owner[p] = some n then s.safe.getLsbD p.val else s.out.getLsbD p.val)

/-- `s` after a lane fault (R50): the entries of what the lane held and the resume slot word are produced, a fetch under
way is overtaken, the lane is FAULTED with the code and slot, its pins are at safe levels, LANE-FAULT is raised. The order
of the entries is log entry 20. -/
def State.withFault (s : State) (n : LaneId) (code : FaultCode) (slot resume : Link) : State :=
  (((({ s with port := (s.overtake n).port } : State).withEntries n
    ((s.lane n).handBackEntries n .faulted s.timebase code.code ++
      [{ owner := some n, kind := .resumeSlot, writes := [(laneWord n + 3, place 0 resume)] }])
    { s.lane n with
      st := .faulted, queue := [], cur := none, heldReturns := [], fetch := none, reread := false, revisit := none
      pause := .closed, expiredOn := none, faultCode := some code, faultSlot := slot }).withOut
        (s.faultLevels n)).withCause (.laneFault n))

/-- An event of `t` reaches lane n: its current cue waits on `t` (R54, R77), and no wait of the lane on `t` expired at this
tick (R66, log entry 42). -/
def State.reaches (s : State) (t : Trigger) (n : LaneId) : Prop :=
  ∃ f c q, (s.lane n).cur = some f ∧ (s.lane n).queue = .copy c :: q ∧ f.waiting = true ∧ c.trigger = some t ∧
    (s.lane n).expiredOn ≠ some t

/-- A lane of the URGENT group before one of the ROUTINE group, then the lowest number (R82, R144). -/
def State.precedes (s : State) (n m : LaneId) : Prop :=
  if s.laneUrgent.getLsbD n.val ≠ s.laneUrgent.getLsbD m.val then s.laneUrgent.getLsbD n.val = true else n ≤ m

/-- The claim arbiter chooses lane n for an event of `t` (R82). -/
def State.chooses (s : State) (t : Trigger) (n : LaneId) : Prop :=
  s.reaches t n ∧ ∀ m, s.reaches t m → s.precedes n m

/-- A lane that an event of `t` passed over by R66 begins its wait again; any other lane stays (log entry 42). -/
def Lane.anew (l : Lane) (t : Trigger) : Lane :=
  match l.cur, l.queue with
  | some f, .copy c :: _ =>
    if f.waiting = true ∧ c.trigger = some t ∧ l.expiredOn = some t then
      { l with expiredOn := none, cur := some { f with waiting := false } }
    else l
  | _, _ => l

/-- Every lane that an event of `t` passed over by R66 begins its wait again. -/
def State.anew (s : State) (t : Trigger) : State := { s with lanes := s.lanes.map (fun l => l.anew t) }

/-- `u` is `s` after a SHARE event of source i at this tick (R79): every lane it reaches fires, in order of number, and the
event is the source's last event. -/
def Shared (s u : State) (i : SourceId) : Prop :=
  ∃ ns : List LaneId, ns.Pairwise (· < ·) ∧ (∀ n, n ∈ ns ↔ s.reaches (.source i) n) ∧
    u = ((ns.foldl (fun v n => v.withFire n (some (i, s.timebase))) s).withSource i
      { s.source i with last := some s.timebase }).anew (.source i)

/-- `u` is `s` after a CLAIM event or link code of `t` at this tick (R81, R82, R90): the lane the arbiter chooses fires, and
with no lane to reach the event goes unclaimed, which leaves `left`. -/
def Claimed (s u : State) (t : Trigger) (left : State) : Prop :=
  (∀ n, s.chooses t n → u = (s.withFire n none).anew t) ∧ ((∀ n, ¬ s.reaches t n) → u = left.anew t)

/-- `u` is `s` after an event of source i, by the source's delivery mode (R75). -/
def Delivered (s u : State) (i : SourceId) : Prop :=
  ((s.source i).claim = false → Shared s u i) ∧ ((s.source i).claim = true → Claimed s u (.source i) (s.unclaimed i))

/-- The link port after a code is appended to the transmit queue (R133, R134): an IDLE transmitter begins a frame in the
same event, the relayed stop code first (log entry 11). -/
def LinkPort.sends (l : LinkPort) (e : TxEntry) : LinkPort :=
  if l.sending.isSome = true then { l with txq := l.txq ++ [e] }
  else if l.relayPending = true then { l with txq := l.txq ++ [e], relayPending := false, sending := some 0xFF#8 }
  else match l.txq with
    | [] => { l with sending := some (e.group ++ e.code) }
    | h :: q => { l with txq := q ++ [e], sending := some (h.group ++ h.code) }

/-- `u` is `s` after the post actions of lane n's copy `c`, in their order (R69 to R71): the flag is raised; the code is
sent, or lost with TX-LOST, LINK-ERROR and the SEND-LOST mark (R133); the beat action reaches the beat (R98 to R100); NOTE
is raised. -/
def Posted (s u : State) (n : LaneId) (c : Copy) : Prop :=
  ∃ u1 u2 u3 : State,
    (c.raiseFlag = none → u1 = s) ∧
    (∀ f, c.raiseFlag = some f → Claimed s u1 (.source (flagSource f)) (s.unclaimed (flagSource f))) ∧
    (c.sendGroup = none → u2 = u1) ∧
    (∀ g, c.sendGroup = some g →
      (u1.link.plan.enabled = true → u1.link.txq.length < 8 →
        u2 = u1.withLink (u1.link.sends { code := c.sendCode, group := g })) ∧
      (u1.link.plan.enabled = false ∨ 8 ≤ u1.link.txq.length →
        u2 = ((u1.withLink { u1.link with txLost := u1.link.txLost + 1 }).withCause .linkError).withLane n
          { u1.lane n with cur := (u1.lane n).cur.map (fun f => { f with sendLost := true }) })) ∧
    u3 = (match c.beatAction with
      | .none_ => u2
      | .start => { u2 with beats := u2.beats.set c.beatNumber.val { u2.beats[c.beatNumber] with
          running := true, period := c.beatPeriod, next := c.beatPeriod, left := c.beatPeriod } }
      | .stop => { u2 with beats := u2.beats.set c.beatNumber.val { u2.beats[c.beatNumber] with
          running := false, left := 0 } }
      | .retune => { u2 with beats := u2.beats.set c.beatNumber.val { u2.beats[c.beatNumber] with
          period := if u2.beats[c.beatNumber].running = true then u2.beats[c.beatNumber].period else c.beatPeriod
          next := c.beatPeriod } }) ∧
    u = if c.hasNote = true then u3.withCause (.note n) else u3

/-- `s` after a further trip in HALTED (R112): counted up to 255, HALT raised again, the halt record marked when
the count rises (R149). -/
def State.trippedAgain (s : State) : State :=
  { s with
    halt := { s.halt with further := if s.halt.further = 255#8 then 255#8 else s.halt.further + 1 }
    att := { s.att with pending := s.att.pending.set 0 true }
    marks := if s.halt.further = 255#8 then s.marks else s.marks ||| (1#20 <<< 9) }

/-! Invariants. -/

/-- Exchange memory has its canonical form. -/
def MemoryOk (s : State) : Prop := Memory.wf s.mem = true

/-- Places filled and reserved never pass 16 (R144, R147); while the device entry is read no device answer is
outstanding (R167). -/
def CapacityOk (s : State) : Prop :=
  s.wbq.length + s.reserved ≤ Config.writeBackPlaces ∧ (s.port = some .deviceEntry → s.devOut = .none_)

/-- A staging queue holds at most 4 entries (R25), and fewer while a fetch of its lane is in flight (R39). -/
def StagingOk (s : State) : Prop :=
  ∀ n, (s.lane n).queue.length ≤ Config.stagingPlaces ∧
    ((s.lane n).fetch.isSome → (s.lane n).queue.length < Config.stagingPlaces)

/-- The link queues hold at most 8 entries (R130, R133). -/
def LinkQueuesOk (s : State) : Prop :=
  s.link.rxq.length ≤ Config.linkPlaces ∧ s.link.txq.length ≤ Config.linkPlaces

/-- A claim pending count lies in 0 to 15 (R83). -/
def CountsOk (s : State) : Prop := ∀ i, (s.source i).count ≤ Config.maxPending

/-- The in-service levels are 1 to 3 and strictly rising, so the list holds at most three entries (R156). -/
def ServiceOk (s : State) : Prop :=
  (s.att.inService.map Service.level).Pairwise (· < ·) ∧ ∀ e ∈ s.att.inService, 1 ≤ e.level ∧ e.level ≤ 3

/-- A lane that is IDLE or FAULTED holds nothing (R25), and no mark of an expiry (log entry 42). -/
def Lane.atRest (l : Lane) : Prop :=
  (l.st = .idle ∨ l.st = .faulted) → l.queue = [] ∧ l.cur = none ∧ l.fetch = none ∧ l.expiredOn = none

/-- The most entries the lane can still produce by a fault or the end of its list (R48, R50): one for each copy it holds,
and the resume slot word. -/
def Lane.mayOwe (l : Lane) : Nat :=
  if l.st = .idle ∨ l.st = .faulted then 0 else l.queue.length + l.heldReturns.length + 1

/-- The lane owes at most 6 writes, with what it can still produce and the order answers to come (R47), and holds at most 4
entries, those held for return among them (R25, R33). Copies are held for return in STOPPING alone, where no fetch is in
flight. A fetch of the lane at the port (`fetching`) finds it owing nothing (R39). -/
def Lane.owesWithin (l : Lane) (answers : Nat) (fetching : Prop) : Prop :=
  l.atRest ∧
  l.owed.length + l.mayOwe + answers ≤ 6 ∧
  l.queue.length + l.heldReturns.length ≤ 4 ∧
  (l.fetch.isSome → l.queue.length < 4) ∧
  (l.heldReturns ≠ [] → l.st = .stopping ∧ l.fetch = none) ∧
  (answers ≠ 0 → l.st = .idle → l.owed.length ≤ 3) ∧
  (fetching → l.owed = [])

/-- The order answers lane n may produce by the read of its entry under way. -/
def State.answerDue (s : State) (n : LaneId) : Nat := if s.port = some (.laneEntry n) then 1 else 0

/-- A fetch or re-read of lane n is under way, not overtaken. -/
def State.fetching (s : State) (n : LaneId) : Prop :=
  s.port = some (.cueFetch n false) ∨ s.port = some (.tailReread n false)

/-- Every lane owes at most 6 writes: one order answer, and at most five entries of a fault (R47). -/
def OwedOk (s : State) : Prop := ∀ n, (s.lane n).owesWithin (s.answerDue n) (s.fetching n)

/-- In CLEARING no transaction is under way (R141); every IDLE or FAULTED lane holds nothing; outside READY every lane is
IDLE or FAULTED (R92, R114); in CLEARING and UNSET every pin is low, and in HALTED every pin is at its safe level
(R118). -/
def PinsOk (s : State) : Prop :=
  (s.engine = .clearing → s.port = none) ∧
  (∀ n, (s.lane n).atRest) ∧
  (s.engine ≠ .ready → ∀ n, (s.lane n).st = .idle ∨ (s.lane n).st = .faulted) ∧
  (s.engine = .clearing ∨ s.engine = .unset → s.out = 0#24) ∧
  (s.engine = .halted → s.out = s.safe)

end Sys2Proof.Machine
end

