-- ==== Sys2Proof/WellFormed.lean ====
section
/-! DEFINITION. Which commands are well formed: an operand lies where its row of the table puts it. -/

namespace Sys2Proof

/-- A host write inside a transaction goes to exchange memory (R140). -/
def HostWrite.inMemory (w : HostWrite) : Bool := w.addr.toNat < Config.memoryEnd

/-- At most one group of host writes before each of `accesses` word accesses and one after the last. -/
def Between.fits (accesses : Nat) (ws : Between) : Bool :=
  ws.length ≤ accesses + 1 && ws.all (fun g => g.all HostWrite.inMemory)

/-- The byte address names a register whose writes are ignored, or nothing (R177: ENGINE STATUS, TAKE, TIMEBASE,
the unused register addresses; R140: 8018h and above). -/
def ignoredAddress (a : BitVec 16) : Bool :=
  let w := a.toNat / 4
  w == 0x8004 / 4 || w == 0x800C / 4 || w == 0x8014 / 4 || 0x8018 / 4 ≤ w

/-- The command is well formed. -/
def Instr.wellFormed : Instr → Bool
  | .powerOn => true
  | .clearComplete => true
  | .softReset landed => landed ≤ 3
  | .halt => true
  | .release => true
  | .unknownControlCode v => v != 1#32 && v != 2#32 && v != 3#32
  | .registerWriteIgnored a _ => ignoredAddress a
  | .nudge _ => true
  | .take => true
  | .endService => true
  | .engineStatusRead => true
  | .hostMemoryWrite a _ => a.toNat < Config.memoryEnd
  | .laneEntryRead _ _ ws => Between.fits 2 ws
  | .start _ ws => Between.fits 2 ws
  | .hold _ ws => Between.fits 2 ws
  | .resume _ ws => Between.fits 2 ws
  | .stop _ ws => Between.fits 2 ws
  | .abort _ ws => Between.fits 2 ws
  | .clear _ ws => Between.fits 2 ws
  | .deviceEntryRead _ ws => Between.fits 3 ws
  | .applySetup ws => Between.fits 1 ws
  | .setupReadDone _ _ ws => Between.fits 128 ws
  | .snapshot ws => Between.fits 1 ws
  | .clearMarks ws => Between.fits 2 ws
  | .setStatic ws => Between.fits 3 ws
  | .raiseFlag ws => Between.fits 2 ws
  | .drainFlag ws => Between.fits 2 ws
  | .beatStart ws => Between.fits 3 ws
  | .beatStop ws => Between.fits 2 ws
  | .flushLink ws => Between.fits 1 ws
  | .setMasks ws => Between.fits 2 ws
  | .cueFetch _ _ ws => Between.fits 7 ws
  | .tailReread _ _ ws => Between.fits 3 ws
  | .writeBackLanding _ ws => Between.fits 3 ws
  | .statusItemWrite _ ws => Between.fits 3 ws
  | .beatExpiry _ => true
  | .pulseEnd _ => true
  | .waitLimitExpiry _ => true
  | .revisitExpiry _ => true
  | .inputSample _ _ => true
  | .frameJudged _ _ _ => true
  | .frameSent => true
  | .lineShowsHigh => true
  | .startCandidate => true
  | .startBitMiddleSample _ => true

end Sys2Proof
end

