-- ==== Sys2Proof/Certificates/Slice0/Obligations.lean ====
section
/-! DEFINITION. The statements for the provers. -/

open Sys2Proof Sys2Proof.Machine

/-! The step and the queue of commands. -/

/-- A step takes the command at the front of the queue and answers what exec answers on the rest. -/
def Obligations.StepRunsFrontCommand : Prop :=
  ∀ (c : Instr) (rest : List Instr) (s : State), s.pending = c :: rest → step s = exec c { s with pending := rest }

/-- On an empty queue a step is one tick when no timed event is due (R93; the model's choice, log entry 5), and one of
the due events otherwise. At a tick an expiry of the tick before is past (log entry 42). Due are, in READY: the end of a
pulse whose end tick is the timebase (R61), the expiry of a wait limit at 0 in a wait (R64), and of a running beat with
remaining count 0 (R97); in READY and HALTED: the expiry of an active lane's revisit countdown at 0 (R44), and the sample of
a line with remaining count 0 (R108), with the level its pin holds (the model's choice, log entry 13). -/
def Obligations.EmptyQueuePassesTime : Prop :=
  (∀ (s : State) (c : Instr), c ∈ s.due ↔
    (s.engine = .ready ∧
      ((∃ n f p, c = .pulseEnd n ∧ (s.lane n).cur = some f ∧ f.pulse = some p ∧ p.endTick = s.timebase) ∨
        (∃ n f, c = .waitLimitExpiry n ∧ (s.lane n).cur = some f ∧ f.waiting = true ∧ f.limit = .counting 0) ∨
        ∃ b : Fin 8, c = .beatExpiry b ∧ s.beats[b].running = true ∧ s.beats[b].left = 0)) ∨
    ((s.engine = .ready ∨ s.engine = .halted) ∧
      ((∃ n, c = .revisitExpiry n ∧ (s.lane n).revisit = some 0 ∧ ((s.lane n).st = .priming ∨ (s.lane n).st = .running ∨
          (s.lane n).st = .starved ∨ (s.lane n).st = .held)) ∨
        ∃ i : Fin 8, c = .inputSample i (s.inPins.getLsbD i.val) ∧ s.inputs[i].left = some 0))) ∧
  ∀ s : State, s.pending = [] →
    (s.due = [] → s.engine = .clearing ∨ s.engine = .unset → step s = .next s) ∧
    (s.due = [] → s.engine = .ready ∨ s.engine = .halted → ∃ t, step s = .next t ∧
      t = { s with timebase := s.timebase + 1, lanes := t.lanes, beats := t.beats, inputs := t.inputs } ∧
      (∀ n, t.lane n = { s.lane n with
        cur := (s.lane n).cur.map (fun f => if f.waiting = true then { f with limit := match f.limit with
          | .counting k => .counting (k - 1)
          | other => other } else f)
        revisit := if (s.lane n).st.active = true then (s.lane n).revisit.map (fun k => k - 1)
          else (s.lane n).revisit
        expiredOn := none }) ∧
      (∀ b : Fin 8, t.beats[b] = { s.beats[b] with
        left := if s.beats[b].running = true then s.beats[b].left - 1 else s.beats[b].left }) ∧
      (∀ i : Fin 8, t.inputs[i] = { s.inputs[i] with left := s.inputs[i].left.map (fun k => k - 1) })) ∧
    (∀ c, s.due = [c] → step s = exec c s) ∧
    (∀ c d ds, s.due = c :: d :: ds → ∃ e ∈ s.due, step s = exec e { s with choices := s.choices + 1 })

/-- Every command completes in every state, and leaves the queue of commands as it is. That it does so also in a state in
which the part could not perform it, that the machine has no fault, and the queue itself, are the model's choices: log
entries 2, 23 and 37. The effects of the commands are the other statements'. -/
def Obligations.EveryCommandCompletes : Prop :=
  ∀ (c : Instr) (s : State), ∃ t, exec c s = .next t ∧ t.pending = s.pending

/-! The engine. -/

/-- Power-on (R174): every register at its value after power-on, the engine CLEARING, every status item marked. That every
byte of memory is 0 from power-on, where R141 clears word by word, is the model's choice: log entry 27. -/
def Obligations.PowerOnEntersClearing : Prop :=
  ∀ s : State, ∃ t, exec .powerOn s = .next t ∧
    t.engine = .clearing ∧ t.generation = 0 ∧ t.refused = false ∧ t.nudge = 0 ∧
    (∀ n : LaneId, t.lastSeq[n] = 0) ∧ t.devSeq = 0 ∧ t.devOut = .none_ ∧ t.snapSet = 0 ∧ t.laneUrgent = 0 ∧
    (∀ a, memByte t.mem a = 0) ∧ t.wbq = [] ∧ t.port = none ∧ t.marks = BitVec.allOnes 20 ∧ t.statusPos = 0 ∧
    (∀ n, (t.lane n).st = .idle ∧ (t.lane n).queue = [] ∧ (t.lane n).follow = 1023#10 ∧ (t.lane n).watch = 1023#10 ∧
      (t.lane n).pause = .closed ∧ (t.lane n).fetch = none ∧ (t.lane n).reread = false ∧ (t.lane n).revisit = none ∧
      (t.lane n).owed = [] ∧ (t.lane n).heldReturns = [] ∧ (t.lane n).heldBegun = false ∧ (t.lane n).cur = none ∧
      (t.lane n).gapStart = 0 ∧ (t.lane n).gapEvent = none ∧ (t.lane n).lastSlot = 1023#10 ∧
      (t.lane n).lastOutcome = .none_ ∧ (t.lane n).endedCount = 0 ∧ (t.lane n).faultCode = none ∧
      (t.lane n).faultSlot = 1023#10) ∧
    (∀ i : SourceId, t.source i = { claim := decide (16 ≤ i.val), count := 0, last := none, overflow := false }) ∧
    t.timebase = 0 ∧ t.divider = 0 ∧
    (∀ b : Fin 8, t.beats[b] = { running := false, every := false, owner := none, period := 2, next := 2, left := 0 }) ∧
    (∀ i : Fin 8, t.inputs[i] = {
      edge := .off, filter := 1, interval := 1, guard := false, level := false, agree := 0, left := none }) ∧
    (∀ p : Fin 24, t.owner[p] = none) ∧ t.rest = 0 ∧ t.safe = 0 ∧ t.static = 0 ∧ t.out = 0 ∧
    t.halt = { cause := .none_, line := 0, tick := 0, lanes := 0, further := 0 } ∧
    t.link.plan = {
      enabled := false, divisor := 0, parity := .none_, twoStops := false, group := 0, relay := false, obey := false } ∧
    t.link = {
      plan := t.link.plan, rx := .off, rxq := [], txq := [], sending := none, relayPending := false
      framing := 0, parityErr := 0, overrun := 0, txLost := 0 } ∧
    (∀ c, t.att.isPending c = false) ∧ t.att.masks = 0 ∧ t.att.groups = 0 ∧ t.att.inService = [] ∧
    t.att.unmatchedEnd = false ∧ t.attn = false

/-- The end of the clear (R141, R171): CLEARING becomes UNSET, and nothing else changes. That memory does not change either
is the model's choice: how far the clear has come is not held, log entry 27. -/
def Obligations.ClearCompleteEntersUnset : Prop :=
  ∀ s : State, s.engine = .clearing → exec .clearComplete s = .next { s with engine := .unset }

/-- A soft reset (R172, R175): in CLEARING it is refused; elsewhere every block takes its values after soft reset, the
engine is UNSET, the last-taken sequences stay, and exchange memory is as it was, but that of a write-back entry or status
item under way the next words may land before the transaction ends (R148). How many land is the command's operand, and
readData, inPins and the revisit interval 0 are the model's choices: log entries 26, 12, 13 and 14. -/
def Obligations.SoftResetTaken : Prop :=
  ∀ (k : Nat) (s : State),
    (s.engine = .clearing → exec (.softReset k) s = .next { s with refused := true }) ∧
    (s.engine ≠ .clearing → ∃ t, exec (.softReset k) s = .next t ∧
      t = { State.reset with
        engine := .unset, lastSeq := s.lastSeq, devSeq := s.devSeq, mem := s.memoryAtReset k
        readData := s.readData, inPins := s.inPins, choices := s.choices, pending := s.pending } ∧
      ((∀ j, s.port ≠ some (.writeBack j)) → (∀ i ws j, s.port ≠ some (.statusItem i ws j)) → t.mem = s.mem) ∧
      (∀ j e q, s.port = some (.writeBack j) → s.wbq = e :: q →
        t.mem = ((e.writes.drop j).take k).foldl (fun m p => writeWord m p.1 p.2) s.mem) ∧
      (∀ i ws j, s.port = some (.statusItem i ws j) →
        t.mem = (((itemWrites i ws).drop j).take k).foldl (fun m p => writeWord m p.1 p.2) s.mem))

/-- HALT in READY (R112, R113, R172): a halt trip with cause HOST-HALT. The entries of the faulted lanes stand behind
those in the write-back queue (R147); the order of one lane's result, returns and resume slot is log entry 20, and that
of the lanes is free (log entries 6 and 41). The watch slot at the pause CLOSED is log entry 9. -/
def Obligations.HaltTripsReadyEngine : Prop :=
  ∀ s : State, s.engine = .ready → ∃ t, exec .halt s = .next t ∧ Tripped s t .hostHalt .hostHalt 0

/-- HALT outside READY (R112, R149, R172): in HALTED a further trip, counted up to 255 with HALT raised again, and the halt
record marked when its count rises; in CLEARING and UNSET refused. -/
def Obligations.HaltOutsideReady : Prop :=
  ∀ s : State,
    (s.engine = .halted → exec .halt s = .next s.trippedAgain) ∧
    (s.engine = .clearing ∨ s.engine = .unset → exec .halt s = .next { s with refused := true })

/-- RELEASE (R120, R172): taken in HALTED with every lane IDLE, it makes the engine READY, every owned pin takes its
rest level and every STATIC pin its static level; in any other case it is refused. -/
def Obligations.ReleaseRestoresLevels : Prop :=
  ∀ s : State,
    (s.engine = .halted → (∀ n, (s.lane n).st = .idle) → ∃ t, exec .release s = .next t ∧
      t = { s with engine := .ready, out := t.out, marks := t.marks } ∧
      (∀ p : Fin 24, t.out.getLsbD p.val =
        if s.owner[p].isSome then s.rest.getLsbD p.val else s.static.getLsbD p.val) ∧
      t.marks = if t.out = s.out then s.marks else s.marks ||| (1#20 <<< 8)) ∧
    (s.engine ≠ .halted ∨ (∃ n, (s.lane n).st ≠ .idle) → exec .release s = .next { s with refused := true })

/-- A control code other than the three is refused in every engine state (R172). A write to ENGINE STATUS, TAKE, TIMEBASE
or an address that reaches nothing changes nothing (R140, R177). -/
def Obligations.RefusedAndIgnoredWrites : Prop :=
  ∀ (a : BitVec 16) (v : Word) (s : State),
    (v ≠ 1#32 → v ≠ 2#32 → v ≠ 3#32 → exec (.unknownControlCode v) s = .next { s with refused := true }) ∧
    ((a.toNat / 4 = 0x8004 / 4 ∨ a.toNat / 4 = 0x800C / 4 ∨ a.toNat / 4 = 0x8014 / 4 ∨ 0x8018 ≤ a.toNat) →
      exec (.registerWriteIgnored a v) s = .next s)

/-- A write to NUDGE sets every latch bit for which the value holds a 1, and leaves the others (R27). -/
def Obligations.NudgeSetsLatchBits : Prop :=
  ∀ (v : Word) (s : State), ∃ t, exec (.nudge v) s = .next t ∧ t = { s with nudge := t.nudge } ∧
    ∀ i : Fin 9, t.nudge.getLsbD i.val = (s.nudge.getLsbD i.val || v.getLsbD i.val)

/-! Attention. -/

/-- ATTN is asserted exactly while some cause is pending, unmasked or HALT, and above the top level of the in-service
list (R154, R157). -/
def Obligations.AttnFollowsEligibility : Prop :=
  ∀ s : State, s.attn = true ↔ ∃ c : Cause, s.att.pending[c.index] = true ∧
    (c = .halt ∨ s.att.masks.getLsbD (c.kind - 2) = false) ∧
    (match s.att.inService.getLast? with | some e => e.level | none => 0) <
      (if c = .halt then 3 else if s.att.groups.getLsbD (c.kind - 2) = true then 2 else 1)

/-- A read of TAKE (R158): the highest level, then the lowest kind code, then the lowest lane among the eligible causes is
returned and taken into service, and UNMATCHED-END is cleared; ATTN stays only for a cause of higher level. With none
eligible NONE is returned and nothing else changes. The word returned stands in readData (log entry 12). -/
def Obligations.TakeReturnsMostUrgentCause : Prop :=
  ∀ s : State,
    ((∀ c, s.att.eligible c = false) → exec .take s = .next { s with readData := 0#32 }) ∧
    (∀ c, s.att.eligible c = true →
      (∀ d, s.att.eligible d = true → s.att.levelOf d < s.att.levelOf c ∨ (s.att.levelOf d = s.att.levelOf c ∧
        (c.kind < d.kind ∨ (c.kind = d.kind ∧ c.lane.val ≤ d.lane.val)))) →
      ∃ t, exec .take s = .next t ∧
        t = { s with
          readData := t.readData
          att := { s.att with
            pending := s.att.pending.set c.index false
            inService := s.att.inService ++ [{ level := s.att.levelOf c, cause := c }]
            unmatchedEnd := false } } ∧
        (t.readData.extractLsb' 0 4).toNat = c.kind ∧ (t.readData.extractLsb' 4 3).toNat = c.lane.val ∧
        (t.readData.extractLsb' 8 2).toNat = s.att.levelOf c ∧
        (t.attn = true ↔ ∃ d, t.att.eligible d = true) ∧
        (∀ d, t.att.eligible d = true → s.att.levelOf c < s.att.levelOf d))

/-- A write to END (R159): the last entry is removed, the top level falls to that of the entry before it or to 0, and ATTN
follows eligibility at once; with the list empty UNMATCHED-END is set and nothing else changes. -/
def Obligations.EndRemovesLastEntry : Prop :=
  ∀ s : State,
    (∀ es e, s.att.inService = es ++ [e] → ∃ t, exec .endService s = .next t ∧
      t = { s with att := { s.att with inService := es } } ∧
      t.att.topLevel = (match es.getLast? with | some k => k.level | none => 0) ∧
      (t.attn = true ↔ ∃ c, t.att.eligible c = true)) ∧
    (s.att.inService = [] → exec .endService s = .next { s with att := { s.att with unmatchedEnd := true } })

/-! The host's registers and memory. -/

/-- A read of ENGINE STATUS (R173) returns engine state, halt cause, UNMATCHED-END, REFUSED, the lanes not IDLE and the
generation in one word (in readData, log entry 12), and then clears REFUSED. That bits 6 and 7 read 0 is the model's choice:
log entry 43. -/
def Obligations.EngineStatusRead : Prop :=
  ∀ s : State, ∃ t, exec .engineStatusRead s = .next t ∧ t = { s with readData := t.readData, refused := false } ∧
    t.readData.extractLsb' 0 2 =
      (match s.engine with | .clearing => 0#2 | .unset => 1#2 | .ready => 2#2 | .halted => 3#2) ∧
    t.readData.extractLsb' 2 2 =
      (match s.halt.cause with | .none_ => 0#2 | .guard => 1#2 | .linkStop => 2#2 | .hostHalt => 3#2) ∧
    t.readData.getLsbD 4 = s.att.unmatchedEnd ∧ t.readData.getLsbD 5 = s.refused ∧
    (∀ n : LaneId, t.readData.getLsbD (8 + n.val) = true ↔ (s.lane n).st ≠ .idle) ∧
    t.readData.extractLsb' 16 16 = s.generation ∧ t.readData.extractLsb' 6 2 = 0#2

/-- A host write to exchange memory (R139, R140, R141): outside CLEARING the word that contains the address takes the
value whole, and every other byte stays; in CLEARING the write is discarded. What a host read of each address returns
(R27, R95, R139 to R141, R158, R173, R177): a word of exchange memory, 0 in CLEARING; the word that the read command of
ENGINE STATUS or TAKE returns; the nudge latch; the timebase; 0 elsewhere. That the reads without a row are a function
and no command is log entry 24; where the word of a read command stands is log entry 12. -/
def Obligations.HostWriteLandsWhole : Prop :=
  (∀ (a : BitVec 16) (s : State),
    (a.toNat < 0x8000 → s.engine = .clearing → s.hostRead a = 0#32) ∧
    (a.toNat < 0x8000 → s.engine ≠ .clearing → s.hostRead a = readWord s.mem (a.toNat / 4)) ∧
    (a.toNat / 4 = 0x8004 / 4 →
      exec .engineStatusRead s = .next { s with readData := s.hostRead a, refused := false }) ∧
    (a.toNat / 4 = 0x8008 / 4 → (s.hostRead a).extractLsb' 0 9 = s.nudge ∧ (s.hostRead a).extractLsb' 9 23 = 0#23) ∧
    (a.toNat / 4 = 0x800C / 4 → ∃ t, exec .take s = .next t ∧ t.readData = s.hostRead a) ∧
    (a.toNat / 4 = 0x8014 / 4 → s.hostRead a = s.timebase) ∧
    (a.toNat / 4 = 0x8000 / 4 ∨ a.toNat / 4 = 0x8010 / 4 ∨ 0x8018 ≤ a.toNat → s.hostRead a = 0#32)) ∧
  ∀ (a : BitVec 16) (v : Word) (s : State), a.toNat < 0x8000 →
    (s.engine = .clearing → exec (.hostMemoryWrite a v) s = .next s) ∧
    (s.engine ≠ .clearing → MemoryOk s → ∃ t, exec (.hostMemoryWrite a v) s = .next t ∧ t = { s with mem := t.mem } ∧
      MemoryOk t ∧ readWord t.mem (a.toNat / 4) = v ∧
      ∀ k, k / 4 ≠ a.toNat / 4 → memByte t.mem k = memByte s.mem k)

/-! The order reader: lane orders. -/

/-- The row of a lane order is the lane entry read that finds a new order of that code, and the row of a device order the
device entry read that finds one (log entry 7). -/
def Obligations.OrderRowsAreEntryReads : Prop :=
  ∀ (n : LaneId) (ws : Between) (s : State),
    (s.findsLaneOrder n ws .start = true → exec (.start n ws) s = exec (.laneEntryRead n .done ws) s) ∧
    (s.findsLaneOrder n ws .hold = true → exec (.hold n ws) s = exec (.laneEntryRead n .done ws) s) ∧
    (s.findsLaneOrder n ws .resume = true → exec (.resume n ws) s = exec (.laneEntryRead n .done ws) s) ∧
    (s.findsLaneOrder n ws .stop = true → exec (.stop n ws) s = exec (.laneEntryRead n .done ws) s) ∧
    (s.findsLaneOrder n ws .abort = true → exec (.abort n ws) s = exec (.laneEntryRead n .done ws) s) ∧
    (s.findsLaneOrder n ws .clear = true → exec (.clear n ws) s = exec (.laneEntryRead n .done ws) s) ∧
    (s.findsDeviceOrder ws .applySetup = true → exec (.applySetup ws) s = exec (.deviceEntryRead .done ws) s) ∧
    (s.findsDeviceOrder ws .snapshot = true → exec (.snapshot ws) s = exec (.deviceEntryRead .done ws) s) ∧
    (s.findsDeviceOrder ws .clearMarks = true → exec (.clearMarks ws) s = exec (.deviceEntryRead .done ws) s) ∧
    (s.findsDeviceOrder ws .setStatic = true → exec (.setStatic ws) s = exec (.deviceEntryRead .done ws) s) ∧
    (s.findsDeviceOrder ws .raiseFlag = true → exec (.raiseFlag ws) s = exec (.deviceEntryRead .done ws) s) ∧
    (s.findsDeviceOrder ws .drainFlag = true → exec (.drainFlag ws) s = exec (.deviceEntryRead .done ws) s) ∧
    (s.findsDeviceOrder ws .beatStart = true → exec (.beatStart ws) s = exec (.deviceEntryRead .done ws) s) ∧
    (s.findsDeviceOrder ws .beatStop = true → exec (.beatStop ws) s = exec (.deviceEntryRead .done ws) s) ∧
    (s.findsDeviceOrder ws .flushLink = true → exec (.flushLink ws) s = exec (.deviceEntryRead .done ws) s) ∧
    (s.findsDeviceOrder ws .setMasks = true → exec (.setMasks ws) s = exec (.deviceEntryRead .done ws) s)

/-- A lane entry read that finds no new order (R28, R43, R44): nothing of the entry is written, no sequence is recorded;
an active lane takes the revisit interval, and if it is paused AT-END or NOT-READY its re-read wanted is set. That a lane
that is not active drops the interval is the model's reading: log entry 10. While a re-read of a NOT-READY slot is in flight
the pause is NONE, and re-read wanted stays as it is: the model's reading of R43 and R46, log entry 39. -/
def Obligations.LaneReadWithoutNewOrder : Prop :=
  ∀ (n : LaneId) (ws : Between) (s : State), s.atPort (.laneEntry n) →
    orderSeq (s.readLaneEntry n ws).1 = s.lastSeq[n] →
    exec (.laneEntryRead n .done ws) s = .next ({ s.granted (.laneEntry n) with
      port := none, mem := (s.readLaneEntry n ws).2.2 }.withLane n
        (if (s.lane n).st.active = true ∧ ((s.lane n).pause = Pause.atEnd ∨ (s.lane n).pause = Pause.notReady) then
          { (s.lane n).withInterval (laneInterval (s.readLaneEntry n ws).2.1) with reread := true }
        else (s.lane n).withInterval (laneInterval (s.readLaneEntry n ws).2.1)))

/-- The result of a new lane order (R29): BAD-ORDER for an unknown code, NOT-READY in UNSET, HALTED for START in HALTED,
WRONG-STATE in a lane state that does not take it, BAD-SLOT for START with a head of 992 or above, else OK. -/
def Obligations.LaneOrderChecksInOrder : Prop :=
  ∀ (s : State) (n : LaneId) (code : Nat) (argument : Link),
    let result := s.laneOrderResult n (laneOrderOf code) argument
    let taken := (code = 1 ∧ (s.lane n).st = .idle) ∨
      (code = 2 ∧ ((s.lane n).st = .priming ∨ (s.lane n).st = .running ∨ (s.lane n).st = .starved)) ∨
      (code = 3 ∧ (s.lane n).st = .held) ∨
      (code = 4 ∧ ((s.lane n).st = .running ∨ (s.lane n).st = .priming ∨ (s.lane n).st = .starved ∨
        (s.lane n).st = .held)) ∨
      (code = 5 ∧ (s.lane n).st ≠ .idle) ∨ (code = 6 ∧ (s.lane n).st = .faulted)
    (code = 0 ∨ 6 < code → result = .badOrder) ∧
    (1 ≤ code ∧ code ≤ 6 → s.engine = .unset → result = .notReady) ∧
    (code = 1 → s.engine = .halted → result = .halted) ∧
    (1 ≤ code ∧ code ≤ 6 → s.engine ≠ .unset → ¬ (code = 1 ∧ s.engine = .halted) → ¬ taken → result = .wrongState) ∧
    (code = 1 → s.engine = .ready → taken → 992 ≤ argument.toNat → result = .badSlot) ∧
    (s.engine = .ready ∨ s.engine = .halted ∧ code ≠ 1 → taken → (code = 1 → argument.toNat < 992) → result = .ok)

/-- A refused lane order (R28, R29): the sequence is recorded, one directory result entry with the sequence and the
result is produced, an active lane takes the revisit interval, and nothing else changes. That a lane that is not active
drops the interval is the model's reading: log entry 10. -/
def Obligations.LaneOrderRefused : Prop :=
  ∀ (n : LaneId) (ws : Between) (s : State), s.atPort (.laneEntry n) →
    orderSeq (s.readLaneEntry n ws).1 ≠ s.lastSeq[n] →
    ∀ r, s.laneOrderResult n (laneOrderOf (orderCode (s.readLaneEntry n ws).1))
        (laneArgument (s.readLaneEntry n ws).2.1) = r → r ≠ .ok →
    exec (.laneEntryRead n .done ws) s = .next ((s.afterLaneRead n ws).withEntries n
      [{ owner := some n
         kind := .laneAnswer
         writes := [(laneWord n + 2, echoWord (orderSeq (s.readLaneEntry n ws).1) r)] }]
      ((s.lane n).withInterval (laneInterval (s.readLaneEntry n ws).2.1)))

/-- START taken (R30): PRIMING at the head slot, the revisit countdown loaded, the gap record begun, the fault code and
slot cleared, and the answer OK produced. -/
def Obligations.StartTaken : Prop :=
  ∀ (n : LaneId) (ws : Between) (s : State), s.atPort (.laneEntry n) → s.findsLaneOrder n ws .start = true →
    s.engine = .ready → (s.lane n).st = .idle → (laneArgument (s.readLaneEntry n ws).2.1).toNat < 992 →
    exec (.start n ws) s = .next ((s.afterLaneRead n ws).withEntries n
      [{ owner := some n
         kind := .laneAnswer
         writes := [(laneWord n + 2, echoWord (orderSeq (s.readLaneEntry n ws).1) .ok)] }]
      { s.lane n with
        st := .priming, follow := laneArgument (s.readLaneEntry n ws).2.1, watch := 1023#10, pause := .open_
        heldBegun := false, faultCode := none, faultSlot := 1023#10
        interval := laneInterval (s.readLaneEntry n ws).2.1
        revisit := if laneInterval (s.readLaneEntry n ws).2.1 = 0#8 then none
          else some (256 * (laneInterval (s.readLaneEntry n ws).2.1).toNat)
        gapStart := s.timebase, gapEvent := none })

/-- HOLD taken (R31, R67): the lane is HELD; a wait of its current cue ends without a fire and a counting remainder is
frozen at its value; a pulse in flight and the gap record stay. That a remainder which has reached 0 is frozen at 0 is the
model's choice: log entry 40. -/
def Obligations.HoldTaken : Prop :=
  ∀ (n : LaneId) (ws : Between) (s : State), s.atPort (.laneEntry n) → s.findsLaneOrder n ws .hold = true →
    s.engine = .ready ∨ s.engine = .halted →
    ((s.lane n).st = .priming ∨ (s.lane n).st = .running ∨ (s.lane n).st = .starved) →
    exec (.hold n ws) s = .next ((s.afterLaneRead n ws).withEntries n
      [{ owner := some n
         kind := .laneAnswer
         writes := [(laneWord n + 2, echoWord (orderSeq (s.readLaneEntry n ws).1) .ok)] }]
      { (s.lane n).withInterval (laneInterval (s.readLaneEntry n ws).2.1) with
        st := .held, expiredOn := none
        cur := (s.lane n).cur.map (fun f => { f with waiting := false, limit := match f.limit with
          | .counting k => .frozen k
          | other => other }) })

/-- RESUME taken (R32, R68): the gap record is reset to the tick of taking. With an empty queue the lane goes to PRIMING,
or to STARVED with STARVED attention when a cue of the list has begun. A current cue with a pulse in flight makes it
RUNNING. A current cue with fires remaining, on a CLAIM source with pending count 0 or on any source with FRESH, waits
again, its remainder counting on from the frozen value or from the whole wait limit. In general a lane that holds a
current cue or an entry goes on as RUNNING, and what follows follows: a copy at the head begins, a marker at the head faults
the lane, a wait begins and may fire at once, a cue with its fires made completes, one in completion pending or in a pulse
stays. That the answer stands behind the entries of what follows is log entry 34. -/
def Obligations.ResumeTaken : Prop :=
  ∀ (n : LaneId) (ws : Between) (s : State), s.atPort (.laneEntry n) → s.findsLaneOrder n ws .resume = true →
    s.engine = .ready ∨ s.engine = .halted → (s.lane n).st = .held →
    let ok : List WriteBack := [{
      owner := some n, kind := .laneAnswer
      writes := [(laneWord n + 2, echoWord (orderSeq (s.readLaneEntry n ws).1) .ok)] }]
    let l : Lane := { (s.lane n).withInterval (laneInterval (s.readLaneEntry n ws).2.1) with
      gapStart := s.timebase, gapEvent := none }
    ((s.lane n).queue = [] → (s.lane n).cur = none → (s.lane n).heldBegun = false →
      exec (.resume n ws) s = .next ((s.afterLaneRead n ws).withEntries n ok { l with st := .priming })) ∧
    ((s.lane n).queue = [] → (s.lane n).cur = none → (s.lane n).heldBegun = true →
      exec (.resume n ws) s =
        .next (((s.afterLaneRead n ws).withEntries n ok { l with st := .starved }).withCause (.starved n))) ∧
    ((s.lane n).queue ≠ [] ∨ (s.lane n).cur ≠ none →
      let u := ((s.afterLaneRead n ws).withLane n { l with st := .running }).settle
      exec (.resume n ws) s = .next (u.withEntries n ok (u.lane n))) ∧
    (s.settled → ∀ f c q, (s.lane n).cur = some f → (s.lane n).queue = .copy c :: q → f.pulse.isSome = true →
      f.fires < c.required →
      exec (.resume n ws) s = .next ((s.afterLaneRead n ws).withEntries n ok { l with st := .running })) ∧
    (s.settled → ∀ f c q i, (s.lane n).cur = some f → (s.lane n).queue = .copy c :: q → f.pulse = none →
      f.waiting = false → f.ended = none → f.fires < c.required → c.trigger = some (.source i) →
      (c.isFresh = true ∨ ((s.source i).claim = true ∧ (s.source i).count = 0)) →
      exec (.resume n ws) s = .next ((s.afterLaneRead n ws).withEntries n ok { l with
        st := .running
        cur := some { f with waiting := true, limit := match f.limit with
          | .frozen r => .counting r
          | _ => if c.waitLimit = 0 then .none_ else .counting c.waitLimit } }))

/-- STOP taken in RUNNING (R33): the lane is STOPPING, every entry behind the current cue is removed and its copies are
held for return, prefetch ends, and the answer carries the resume slot. The resume slot (R49) is that of the first copy
handed back; with none, END for a FINAL current cue; else a marker's slot, or END for LINK-LOST; else the follow link,
or END at a pause AT-END or CLOSED. That the first copy counts when it is of the current cue's slot is log entry 22. The
watch slot at the pause CLOSED is log entry 9. -/
def Obligations.StopTakenInRunning : Prop :=
  (∀ (l : Lane) (marker : Option (FaultCode × Link)),
    let back := l.notBegun ++ l.heldReturns
    l.notBegun = (if l.cur.isSome = true then l.queue.tail else l.queue).filterMap
      (fun e => match e with | .copy c => some c | .marker _ _ => none) ∧
    (∀ c cs, back = c :: cs → l.resumeSlot marker = c.slot) ∧
    (back = [] → ∀ f c q, l.cur = some f → l.queue = .copy c :: q → c.isFinal = true →
      l.resumeSlot marker = 1023#10) ∧
    (back = [] → (l.cur = none ∨ ∃ c q, l.queue = .copy c :: q ∧ c.isFinal = false) →
      (∀ code slot, marker = some (code, slot) →
        l.resumeSlot marker = if code = .linkLost then 1023#10 else slot) ∧
      (marker = none → l.resumeSlot marker =
        if l.pause = Pause.atEnd ∨ l.pause = Pause.closed then 1023#10 else l.follow))) ∧
  ∀ (n : LaneId) (ws : Between) (s : State), s.atPort (.laneEntry n) → s.findsLaneOrder n ws .stop = true →
    s.engine = .ready ∨ s.engine = .halted → (s.lane n).st = .running →
    exec (.stop n ws) s = .next ((s.afterLaneRead n ws).withEntries n
      [{ owner := some n
         kind := .laneAnswer
         writes := [(laneWord n + 3, place 0 ((s.lane n).resumeSlot none)),
           (laneWord n + 2, echoWord (orderSeq (s.readLaneEntry n ws).1) .ok)] }]
      { (s.lane n).withInterval (laneInterval (s.readLaneEntry n ws).2.1) with
        st := .stopping, queue := (s.lane n).queue.take 1, pause := .closed, fetch := none, revisit := none
        heldReturns := (s.lane n).queue.tail.filterMap (fun e => match e with | .copy c => some c | .marker _ _ => none) })

/-- STOP taken in PRIMING, STARVED or HELD (R35): the lane is IDLE, its current cue ends ABORTED, its other copies are
returned, the pins of a pulse in flight take their restore levels and the others stay, LIST-DONE is raised. The entries
of a list that ends (R20, R21, R36, R48, R73, R74): the current cue's result, its own if it is in completion pending,
with the slot's pass count one higher (R17), and then one return for each slot handed back but the current cue's, in the
order of first staging. Which copy's words a
return writes, where the copies of a slot differ, is the model's choice: the first one's, log entry 38. The watch slot
at the pause CLOSED is log entry 9. -/
def Obligations.StopTakenElsewhere : Prop :=
  (∀ (n : LaneId) (l : Lane) (o : CueOutcome) (now reason : Word),
    let back := l.notBegun ++ l.heldReturns
    let returned : Option Link → List WriteBack := fun current =>
      (back.zipIdx.filter (fun p => decide (current ≠ some p.1.slot) &&
        (back.take p.2).all (fun k => decide (k.slot ≠ p.1.slot)))).map (fun p => returnEntry n p.1)
    (∀ f c q own, l.cur = some f → l.queue = .copy c :: q → f.ended = some own →
      l.handBackEntries n o now reason = resultEntry n c f own 0 false :: returned (some c.slot)) ∧
    (∀ f c q, l.cur = some f → l.queue = .copy c :: q → f.ended = none →
      l.handBackEntries n o now reason =
        resultEntry n c f { outcome := o, stamp := now, pass := c.pass + 1 } reason false :: returned (some c.slot)) ∧
    (l.cur = none → l.handBackEntries n o now reason = returned none)) ∧
  ∀ (n : LaneId) (ws : Between) (s : State), s.atPort (.laneEntry n) → s.findsLaneOrder n ws .stop = true →
    s.engine = .ready ∨ s.engine = .halted →
    ((s.lane n).st = .priming ∨ (s.lane n).st = .starved ∨ (s.lane n).st = .held) →
    exec (.stop n ws) s = .next ((((s.afterLaneRead n ws).withEntries n
      ((s.lane n).handBackEntries n .aborted s.timebase 0 ++
        [{ owner := some n
           kind := .laneAnswer
           writes := [(laneWord n + 3, place 0 ((s.lane n).resumeSlot none)),
             (laneWord n + 2, echoWord (orderSeq (s.readLaneEntry n ws).1) .ok)] }])
      { (s.lane n).withInterval (laneInterval (s.readLaneEntry n ws).2.1) with
        st := .idle, queue := [], cur := none, heldReturns := [], fetch := none, reread := false, revisit := none
        pause := .closed, expiredOn := none }).withOut
          (match (s.lane n).cur, (s.lane n).queue with
          | some f, .copy c :: _ => (match f.pulse with
            | some p => (p.restore &&& c.mask) ||| (s.out &&& ~~~c.mask)
            | none => s.out)
          | _, _ => s.out)).withCause (.listDone n))

/-- ABORT taken in any state but IDLE and FAULTED (R36): the lane is IDLE, its current cue ends ABORTED and its other
copies are returned, every pin it owns takes its rest level, the others stay, and no cause is raised. The words of a
return where the copies of its slot differ are log entry 38. The revisit interval read is passed to an active lane; that
a STOPPING lane drops it is the model's reading: log entry 10. The watch slot at the pause CLOSED is log entry 9. -/
def Obligations.AbortTaken : Prop :=
  ∀ (n : LaneId) (ws : Between) (s : State), s.atPort (.laneEntry n) → s.findsLaneOrder n ws .abort = true →
    s.engine = .ready → (s.lane n).st ≠ .idle → (s.lane n).st ≠ .faulted →
    ∃ out : Pins, (∀ p : Fin 24, out.getLsbD p.val =
        if s.owner[p] = some n then s.rest.getLsbD p.val else s.out.getLsbD p.val) ∧
      exec (.abort n ws) s = .next (((s.afterLaneRead n ws).withEntries n
        ((s.lane n).handBackEntries n .aborted s.timebase 0 ++
          [{ owner := some n
             kind := .laneAnswer
             writes := [(laneWord n + 3, place 0 ((s.lane n).resumeSlot none)),
               (laneWord n + 2, echoWord (orderSeq (s.readLaneEntry n ws).1) .ok)] }])
        { (s.lane n).withInterval (laneInterval (s.readLaneEntry n ws).2.1) with
          st := .idle, queue := [], cur := none, heldReturns := [], fetch := none, reread := false, revisit := none
          pause := .closed, expiredOn := none }).withOut out)

/-- CLEAR or ABORT taken in FAULTED (R37): the lane is IDLE; in READY every pin it owns takes its rest level, in HALTED
the pins stay; the answer alone is produced, without a resume slot. That the FAULTED lane drops the revisit
interval of the entry, which R28 passes to the lane in both cases, is the model's reading: log entry 10. -/
def Obligations.ClearTaken : Prop :=
  ∀ (n : LaneId) (ws : Between) (s : State), s.atPort (.laneEntry n) →
    s.engine = .ready ∨ s.engine = .halted → (s.lane n).st = .faulted →
    ∃ out : Pins, (s.engine = .halted → out = s.out) ∧
      (s.engine = .ready → ∀ p : Fin 24, out.getLsbD p.val =
        if s.owner[p] = some n then s.rest.getLsbD p.val else s.out.getLsbD p.val) ∧
      ∀ c, (c = .clear n ws ∧ s.findsLaneOrder n ws .clear = true) ∨
          (c = .abort n ws ∧ s.findsLaneOrder n ws .abort = true) →
        exec c s = .next (((s.afterLaneRead n ws).withEntries n
          [{ owner := some n
             kind := .laneAnswer
             writes := [(laneWord n + 2, echoWord (orderSeq (s.readLaneEntry n ws).1) .ok)] }]
          { s.lane n with
            st := .idle, queue := [], cur := none, heldReturns := [], fetch := none, reread := false, revisit := none
            pause := .closed, expiredOn := none }).withOut out)

/-! The order reader: the device order entry. -/

/-- A device entry read that finds no new order (R167): nothing is written, no cause is raised, the reservation is
released. Where lanes wait for room, the place released goes to them, and what follows from it follows (R144). -/
def Obligations.DeviceReadWithoutNewOrder : Prop :=
  ∀ (ws : Between) (s : State), s.atPort .deviceEntry → orderSeq (s.readDeviceOrder ws).1 = s.devSeq →
    let t : State := { s.granted .deviceEntry with
      port := none
      mem := landAll (s.readDeviceOrder ws).2.2 (s.readDeviceOrder ws).2.1 }
    (s.settled → exec (.deviceEntryRead .done ws) s = .next t) ∧
    exec (.deviceEntryRead .done ws) s = .next t.settle ∧ EventFrame t t.settle

/-- The result of a new device order of known code, in the order of the checks of its owning rule (R88, R89, R103, R104,
R119, R132, R155, R168 to R170). `a` and `b` are the argument words. -/
def Obligations.DeviceOrderChecksInOrder : Prop :=
  ∀ (s : State) (o : DeviceOrder) (a b : Word),
    (s.deviceResult .applySetup a b = .ok) ∧
    (s.engine = .unset → o ≠ .applySetup → s.deviceResult o a b = .notReady) ∧
    (s.engine = .halted → o = .setStatic ∨ o = .raiseFlag ∨ o = .beatStart → s.deviceResult o a b = .halted) ∧
    (s.engine = .ready ∨ s.engine = .halted →
      s.deviceResult .snapshot a b = .ok ∧ s.deviceResult .clearMarks a b = .ok ∧ s.deviceResult .flushLink a b = .ok ∧
      (s.deviceResult .drainFlag a b = if a.toNat < 16 then .ok else .badArg) ∧
      (s.deviceResult .beatStop a b = if h : a.toNat < 8 then
        (if s.beats[a.toNat].owner = none then .ok else .notHostBeat) else .badArg) ∧
      (s.deviceResult .setMasks a b = if a.toNat < 128 then .ok else .badArg)) ∧
    (s.engine = .ready →
      ((∃ p : Fin 24, b.getLsbD p.val = true ∧ s.owner[p].isSome) → s.deviceResult .setStatic a b = .badArg) ∧
      ((∀ p : Fin 24, b.getLsbD p.val = true → s.owner[p] = none) → s.deviceResult .setStatic a b = .ok) ∧
      (s.deviceResult .raiseFlag a b = if a.toNat < 16 then .ok else .badArg) ∧
      (s.deviceResult .beatStart a b = if h : a.toNat < 8 then
        (if s.beats[a.toNat].owner = none then
          (if b.toNat = 1 ∨ 16777215 < b.toNat then .badArg else .ok) else .notHostBeat) else .badArg))

/-- A refused device order (R167, R168): the sequence is recorded and the answer is queued in its reserved place, with
the echo, the result and detail 0; nothing else changes. With an unknown code no argument word is read. -/
def Obligations.DeviceOrderRefused : Prop :=
  ∀ (ws : Between) (s : State), s.atPort .deviceEntry → orderSeq (s.readDeviceOrder ws).1 ≠ s.devSeq →
    let seq := orderSeq (s.readDeviceOrder ws).1
    let code := orderCode (s.readDeviceOrder ws).1
    let refusal : OrderResult → List WriteBack := fun r => [{
      owner := none, kind := .deviceAnswer, writes := [(196, 0#32), (195, echoWord seq r)] }]
    (code = 0 ∨ 10 < code → exec (.deviceEntryRead .done ws) s = .next { s.granted .deviceEntry with
      port := none, mem := landAll (s.readDeviceOrder ws).2.2 (s.readDeviceOrder ws).2.1, devSeq := seq
      wbq := s.wbq ++ refusal .badOrder }) ∧
    (∀ o r, deviceOrderOf code = some o → s.deviceResult o (s.deviceArguments ws o).1 (s.deviceArguments ws o).2.1 = r →
      r ≠ .ok → exec (.deviceEntryRead .done ws) s = .next { s.afterDeviceRead ws o with
        wbq := s.wbq ++ refusal r })

/-- APPLY SETUP found (R165): the setup read is requested, and the answer stays outstanding with its place held. SNAPSHOT
taken (R169): all 20 status items are marked and noted as the snapshot set, and the answer stays outstanding. -/
def Obligations.ApplySetupAndSnapshotFound : Prop :=
  ∀ (ws : Between) (s : State), s.atPort .deviceEntry →
    (s.findsDeviceOrder ws .applySetup = true →
      exec (.applySetup ws) s = .next { s.afterDeviceRead ws .applySetup with
        devOut := .setup (orderSeq (s.readDeviceOrder ws).1) }) ∧
    (s.findsDeviceOrder ws .snapshot = true → s.engine = .ready ∨ s.engine = .halted →
      exec (.snapshot ws) s = .next { s.afterDeviceRead ws .snapshot with
        marks := BitVec.allOnes 20, snapSet := BitVec.allOnes 20
        devOut := .snapshot (orderSeq (s.readDeviceOrder ws).1) })

/-- CLEAR MARKS taken (R170): the overflow mark of each selected source becomes clear, a source word holding a changed
mark is marked, counts, last events and modes stay, and the answer OK is queued. -/
def Obligations.ClearMarksTaken : Prop :=
  ∀ (ws : Between) (s : State), s.atPort .deviceEntry → s.findsDeviceOrder ws .clearMarks = true →
    s.engine = .ready ∨ s.engine = .halted →
    ∃ t, exec (.clearMarks ws) s = .next t ∧
      t = { s.answeredDevice ws .clearMarks .ok with sources := t.sources, marks := t.marks } ∧
      (∀ i, t.source i = { s.source i with
        overflow := (s.source i).overflow && !((s.deviceArguments ws .clearMarks).1.getLsbD i.val) }) ∧
      ∀ k : Fin 20, t.marks.getLsbD k.val = true ↔ s.marks.getLsbD k.val = true ∨
        ∃ i : SourceId, k.val = 12 + i.val / 4 ∧ (s.source i).overflow = true ∧
          (s.deviceArguments ws .clearMarks).1.getLsbD i.val = true

/-- SET STATIC taken (R119): each selected pin takes its level in the pattern, which becomes its static level; the other
pins and static levels stay. -/
def Obligations.SetStaticTaken : Prop :=
  ∀ (ws : Between) (s : State), s.atPort .deviceEntry → s.findsDeviceOrder ws .setStatic = true → s.engine = .ready →
    let a := (s.deviceArguments ws .setStatic).1
    let b := (s.deviceArguments ws .setStatic).2.1
    (∀ p : Fin 24, b.getLsbD p.val = true → s.owner[p] = none) →
    ∃ t out static, exec (.setStatic ws) s = .next t ∧
      t = { (s.answeredDevice ws .setStatic .ok).withOut out with static := static } ∧
      (∀ p : Fin 24, out.getLsbD p.val = if b.getLsbD p.val then a.getLsbD p.val else s.out.getLsbD p.val) ∧
      (∀ p : Fin 24, static.getLsbD p.val = if b.getLsbD p.val then a.getLsbD p.val else s.static.getLsbD p.val)

/-- RAISE FLAG taken (R81, R82, R88): the answer is OK, and the lane the arbiter chooses among those that wait on the
flag fires, with what follows from it. With no lane waiting the pending count rises by 1, or at 15 the raise is dropped,
the overflow mark is set and OVERFLOW is raised (R85). That the answer stands before the entries of what follows is the
model's choice: log entry 30. A lane whose wait on the flag expired at this tick and whose next cue's wait began in that
event is passed over, and that wait begins after the raise (R66, log entry 42). A wait that begins after the raise has
begun before the next command, another raise at this tick among them, is taken: of the two orders of R84 the model's
choice, log entry 45. DRAIN FLAG taken (R89): the flag's pending count becomes 0; its overflow mark and every other
source stay. -/
def Obligations.FlagOrdersTaken : Prop :=
  ∀ (ws : Between) (s : State) (f : Fin 16), s.atPort .deviceEntry →
    let r := s.source (flagSource f)
    (s.findsDeviceOrder ws .raiseFlag = true → s.engine = .ready →
      (s.deviceArguments ws .raiseFlag).1.toNat = f.val →
      (∃ u, Claimed (s.afterDeviceRead ws .raiseFlag) u (.source (flagSource f))
          ((s.afterDeviceRead ws .raiseFlag).unclaimed (flagSource f)) ∧
        exec (.raiseFlag ws) s = .next { u with
          wbq := s.wbq ++ [deviceAnswer (orderSeq (s.readDeviceOrder ws).1) .ok 0] }.settle) ∧
      (s.settled → s.unwatched (.source (flagSource f)) →
        (r.count < 15 → exec (.raiseFlag ws) s = .next ((s.answeredDevice ws .raiseFlag .ok).withSource (flagSource f)
          { r with count := r.count + 1 })) ∧
        (r.count = 15 → exec (.raiseFlag ws) s = .next (((s.answeredDevice ws .raiseFlag .ok).withSource (flagSource f)
          { r with overflow := true }).withCause .overflow)))) ∧
    (s.findsDeviceOrder ws .drainFlag = true → s.engine = .ready ∨ s.engine = .halted →
      (s.deviceArguments ws .drainFlag).1.toNat = f.val →
      exec (.drainFlag ws) s = .next ((s.answeredDevice ws .drainFlag .ok).withSource (flagSource f)
        { r with count := 0 }))

/-- BEAT START taken (R98, R103): the period, the next period and the remaining count take the period argument, or the
stored next period for argument 0, and the beat is RUNNING. BEAT STOP taken (R99, R104): the beat is STOPPED with
remaining count 0. Mode, owner and every other beat stay. -/
def Obligations.BeatOrdersTaken : Prop :=
  ∀ (ws : Between) (s : State) (n : Fin 8), s.atPort .deviceEntry → s.beats[n].owner = none →
    (s.findsDeviceOrder ws .beatStart = true → s.engine = .ready →
      (s.deviceArguments ws .beatStart).1.toNat = n.val → (s.deviceArguments ws .beatStart).2.1.toNat ≠ 1 →
      (s.deviceArguments ws .beatStart).2.1.toNat ≤ 16777215 →
      let p := if (s.deviceArguments ws .beatStart).2.1.toNat = 0 then s.beats[n].next
        else (s.deviceArguments ws .beatStart).2.1.toNat
      exec (.beatStart ws) s = .next { s.answeredDevice ws .beatStart .ok with
        beats := s.beats.set n.val { s.beats[n] with running := true, period := p, next := p, left := p } }) ∧
    (s.findsDeviceOrder ws .beatStop = true → s.engine = .ready ∨ s.engine = .halted →
      (s.deviceArguments ws .beatStop).1.toNat = n.val →
      exec (.beatStop ws) s = .next { s.answeredDevice ws .beatStop .ok with
        beats := s.beats.set n.val { s.beats[n] with running := false, left := 0 } })

/-- FLUSH LINK taken (R132, R136): the receive queue is emptied, the link occupancy item is marked, also when the queue was
empty, and the rest of the link port stays. SET MASKS taken (R155): the seven masks take their new values together; groups,
pending causes and in-service list stay. -/
def Obligations.FlushLinkAndSetMasksTaken : Prop :=
  ∀ (ws : Between) (s : State), s.atPort .deviceEntry → s.engine = .ready ∨ s.engine = .halted →
    (s.findsDeviceOrder ws .flushLink = true → exec (.flushLink ws) s =
      .next (((s.answeredDevice ws .flushLink .ok).withLink { s.link with rxq := [] }).withMark 11)) ∧
    (s.findsDeviceOrder ws .setMasks = true → (s.deviceArguments ws .setMasks).1.toNat < 128 →
      ∃ masks : BitVec 7, masks.toNat = (s.deviceArguments ws .setMasks).1.toNat ∧
        exec (.setMasks ws) s = .next { s.answeredDevice ws .setMasks .ok with
          att := { s.att with masks := masks } })

/-! Setup. -/

/-- The field that refuses a setup is the first out of range in ascending index order (R164). -/
def Obligations.SetupFieldsCheckedInOrder : Prop :=
  ∀ ws : List Word,
    (∀ i, setupBadField ws = some i ↔ setupFieldBad ws i = true ∧ ∀ j, j < i → setupFieldBad ws j = false) ∧
    (setupBadField ws = none ↔ ∀ i, setupFieldBad ws i = false)

/-- APPLY SETUP refused at the end of its setup read (R165): HALTED, then BUSY-LANES, then BAD-SETUP with the field index
as detail; the answer is queued and nothing else changes. -/
def Obligations.SetupRefused : Prop :=
  ∀ (pins : BitVec 8) (ws : Between) (s : State) (seq : Byte), s.atPort .setupRead → s.devOut = .setup seq →
    let r := readSeq (List.range 128) ws s.mem
    let refused : OrderResult → Nat → State := fun result detail => { s with
      port := none, mem := landAll r.2.2 r.2.1, devOut := .none_
      wbq := s.wbq ++ [{
        owner := none, kind := .deviceAnswer
        writes := [(196, BitVec.ofNat 32 detail), (195, echoWord seq result)] }] }
    (s.engine = .halted → exec (.setupReadDone .done pins ws) s = .next (refused .halted 0)) ∧
    (s.engine ≠ .halted → (∃ n, (s.lane n).st ≠ .idle) →
      exec (.setupReadDone .done pins ws) s = .next (refused .busyLanes 0)) ∧
    (s.engine ≠ .halted → (∀ n, (s.lane n).st = .idle) → ∀ i, setupBadField r.1 = some i →
      exec (.setupReadDone .done pins ws) s = .next (refused .badSetup i))

/-- APPLY SETUP taken (R94, R105, R108, R117, R137, R154, R165, R166): every plan of the block is in force at tick 0, the
engine is READY, and the answer OK is queued; pending causes, in-service list, halt record, lanes, nudge latch,
sequences and write-back entries stay. That the levels of the first samples are the command's operand, and that inPins
keeps them, are the model's choices: log entries 35 and 13. -/
def Obligations.SetupTaken : Prop :=
  ∀ (pins : BitVec 8) (ws : Between) (s : State) (seq : Byte), s.atPort .setupRead → s.devOut = .setup seq →
    s.engine = .unset ∨ s.engine = .ready → (∀ n, (s.lane n).st = .idle) →
    let r := readSeq (List.range 128) ws s.mem
    let w : Nat → Word := fun i => r.1.getD i 0
    setupBadField r.1 = none →
    ∃ t, exec (.setupReadDone .done pins ws) s = .next t ∧
      t = { s with
        port := none, mem := landAll r.2.2 r.2.1, devOut := .none_, engine := .ready
        wbq := s.wbq ++ [{ owner := none, kind := .deviceAnswer, writes := [(196, 0#32), (195, echoWord seq .ok)] }]
        timebase := 0, generation := t.generation, divider := t.divider, laneUrgent := t.laneUrgent
        owner := t.owner, rest := t.rest, safe := t.safe, static := t.rest, out := t.rest, beats := t.beats
        sources := t.sources, inputs := t.inputs, inPins := pins, link := t.link, att := t.att
        marks := s.marks ||| 0xFFD00#20 } ∧
      t.generation = (w 0).extractLsb' 0 16 ∧ t.divider = (w 1).extractLsb' 0 16 ∧
      t.laneUrgent = (w 2).extractLsb' 0 8 ∧
      (∀ p : Fin 24, (t.owner[p] = if h : ((w (3 + p.val)).extractLsb' 0 4).toNat < 8
          then some ⟨((w (3 + p.val)).extractLsb' 0 4).toNat, h⟩ else none) ∧
        t.rest.getLsbD p.val = (w (3 + p.val)).getLsbD 4 ∧ t.safe.getLsbD p.val = (w (3 + p.val)).getLsbD 5) ∧
      (∀ b : Fin 8, t.beats[b] = {
        running := (w (27 + b.val)).getLsbD 5, every := (w (27 + b.val)).getLsbD 4
        owner := if h : ((w (27 + b.val)).extractLsb' 0 4).toNat < 8
          then some ⟨((w (27 + b.val)).extractLsb' 0 4).toNat, h⟩ else none
        period := ((w (27 + b.val)).extractLsb' 8 24).toNat, next := ((w (27 + b.val)).extractLsb' 8 24).toNat
        left := if (w (27 + b.val)).getLsbD 5 = true then ((w (27 + b.val)).extractLsb' 8 24).toNat else 0 }) ∧
      (∀ i : SourceId, t.source i = {
        claim := if i.val < 8 then (w (27 + i.val)).getLsbD 6
          else if i.val < 16 then (w (27 + i.val)).getLsbD 16 else true
        count := 0, last := none, overflow := false }) ∧
      (∀ n : Fin 8, t.inputs[n] = {
        edge := (match ((w (35 + n.val)).extractLsb' 0 2).toNat with
          | 0 => .off | 1 => .rise | 2 => .fall | _ => .both)
        filter := ((w (35 + n.val)).extractLsb' 4 3).toNat, interval := ((w (35 + n.val)).extractLsb' 8 8).toNat
        guard := (w (35 + n.val)).getLsbD 17, level := pins.getLsbD n.val, agree := 0
        left := some ((w (35 + n.val)).extractLsb' 8 8).toNat }) ∧
      t.link.plan = {
        enabled := (w 43).getLsbD 0, divisor := (w 43).extractLsb' 4 12
        parity := (match ((w 43).extractLsb' 16 2).toNat with | 0 => .even | 1 => .odd | 2 => .zero | _ => .none_)
        twoStops := (w 43).getLsbD 18, group := (w 43).extractLsb' 20 2, relay := (w 43).getLsbD 24
        obey := (w 43).getLsbD 25 } ∧
      t.link = {
        plan := t.link.plan, rx := if t.link.plan.enabled = true then .waitHigh else .off, rxq := [], txq := []
        sending := none, relayPending := false, framing := 0, parityErr := 0, overrun := 0, txLost := 0 } ∧
      t.att = { s.att with masks := (w 44).extractLsb' 0 7, groups := (w 44).extractLsb' 8 7 }


/-! The fetch port. -/

/-- The request a free port grants (R27, R143): the write-back queue; the order reader, with the setup read alone, or the
lowest nudge bit it may serve; the lanes, lean before not lean, URGENT before ROUTINE, the lowest number first; the
status page writer. A lane requests a cue fetch or a tail re-read when it is in PRIMING, RUNNING, STARVED or HELD, holds
fewer than 4 entries and owes no writes (R39): at pause NONE, at NOT-READY or AT-END with re-read wanted (R43, R46), and
for another attempt of the fetch it is making (R145; log entry 29). It is lean with at most one copy at pause NONE; that
the retry of a NOT-READY re-read, whose pause R46 has cleared, is lean by that test is the model's reading: log entry 44. -/
def Obligations.PortGrantOrder : Prop :=
  (∀ l : Lane,
    let may := (l.st = .priming ∨ l.st = .running ∨ l.st = .starved ∨ l.st = .held) ∧ l.queue.length < 4 ∧ l.owed = []
    (l.wantsCue = true ↔ may ∧ ((∃ f, l.fetch = some f ∧ f.kind = .cue) ∨ (l.fetch = none ∧
      (l.pause = Pause.open_ ∨ (l.pause = Pause.notReady ∧ l.reread = true))))) ∧
    (l.wantsTail = true ↔ may ∧ ((∃ f, l.fetch = some f ∧ f.kind = .tail) ∨
      (l.fetch = none ∧ l.pause = Pause.atEnd ∧ l.reread = true))) ∧
    (l.lean = true ↔ l.pause = Pause.open_ ∧
      (l.queue.filter (fun e => match e with | .copy _ => true | .marker _ _ => false)).length ≤ 1)) ∧
  ∀ s : State, s.port = none → s.engine ≠ .clearing →
    let asks : LaneId → Prop := fun n => (s.lane n).wantsTail = true ∨ (0 < s.room ∧ (s.lane n).wantsCue = true)
    let before : LaneId → LaneId → Prop := fun n m =>
      if (s.lane n).lean ≠ (s.lane m).lean then (s.lane n).lean = true
      else if s.laneUrgent.getLsbD n.val ≠ s.laneUrgent.getLsbD m.val then s.laneUrgent.getLsbD n.val = true
      else n ≤ m
    (s.wbq ≠ [] → s.portChoice = some .writeBack) ∧
    (s.wbq = [] → ∀ seq, s.devOut = .setup seq → s.portChoice = some .setupRead) ∧
    (s.wbq = [] → (∀ seq, s.devOut ≠ .setup seq) →
      (∀ n : LaneId, s.nudge.getLsbD n.val = true → (s.lane n).owed = [] →
        (∀ m : LaneId, m < n → s.nudge.getLsbD m.val = true → (s.lane m).owed ≠ []) →
        s.portChoice = some (.laneEntry n)) ∧
      ((∀ n : LaneId, s.nudge.getLsbD n.val = true → (s.lane n).owed ≠ []) →
        (s.nudge.getLsbD 8 = true → s.devOut = .none_ → 0 < s.room → s.portChoice = some .deviceEntry) ∧
        (s.nudge.getLsbD 8 = false ∨ s.devOut ≠ .none_ ∨ s.room = 0 →
          (∀ n, asks n → (∀ m, asks m → before n m) →
            s.portChoice = some (if (s.lane n).wantsTail = true then .tailReread n else .cueFetch n)) ∧
          ((∀ n, ¬ asks n) → s.portChoice = if s.marks = 0#20 then none else some .statusItem))))

/-- What a grant does at its own moment: the latch bit is cleared (R27); a fetch begins an attempt, the first of a
re-read clearing re-read wanted, and of a NOT-READY re-read the pause (R43, R46, R145); a status item's values are taken
and its mark cleared, the first marked item in cycle order (R149). -/
def Obligations.GrantBeginsTransaction : Prop :=
  ∀ (s : State) (n : LaneId) (pins : BitVec 8) (ws : Between),
    (s.portChoice = some .writeBack →
      exec (.writeBackLanding .grant ws) s = .next { s with port := some (.writeBack 0) }) ∧
    (s.portChoice = some (.laneEntry n) → ∃ nudge : BitVec 9,
      exec (.laneEntryRead n .grant ws) s = .next { s with port := some (.laneEntry n), nudge := nudge } ∧
      ∀ i : Fin 9, nudge.getLsbD i.val = (s.nudge.getLsbD i.val && decide (i.val ≠ n.val))) ∧
    (s.portChoice = some .deviceEntry → ∃ nudge : BitVec 9,
      exec (.deviceEntryRead .grant ws) s = .next { s with port := some .deviceEntry, nudge := nudge } ∧
      ∀ i : Fin 9, nudge.getLsbD i.val = (s.nudge.getLsbD i.val && decide (i.val ≠ 8))) ∧
    (s.portChoice = some .setupRead →
      exec (.setupReadDone .grant pins ws) s = .next { s with port := some .setupRead }) ∧
    (s.portChoice = some (.cueFetch n) →
      exec (.cueFetch n .grant ws) s = .next ({ s with port := some (.cueFetch n false) }.withLane n
        (match (s.lane n).fetch with
        | some f => { s.lane n with fetch := some { f with attempts := f.attempts + 1 } }
        | none => { s.lane n with
            fetch := some { kind := .cue, slot := (s.lane n).follow, attempts := 1 }
            reread := if (s.lane n).pause = Pause.notReady then false else (s.lane n).reread
            pause := .open_ }))) ∧
    (s.portChoice = some (.tailReread n) →
      exec (.tailReread n .grant ws) s = .next ({ s with port := some (.tailReread n false) }.withLane n
        (match (s.lane n).fetch with
        | some f => { s.lane n with fetch := some { f with attempts := f.attempts + 1 } }
        | none => { s.lane n with
            fetch := some { kind := .tail, slot := (s.lane n).watch, attempts := 1 }, reread := false }))) ∧
    (s.portChoice = some .statusItem → ∃ (k : Nat) (marks : BitVec 20),
      let i := Fin.ofNat 20 (s.statusPos.val + k)
      k < 20 ∧ s.marks.getLsbD i.val = true ∧
      (∀ j, j < k → s.marks.getLsbD (Fin.ofNat 20 (s.statusPos.val + j)).val = false) ∧
      (∀ j : Fin 20, marks.getLsbD j.val = (s.marks.getLsbD j.val && decide (j ≠ i))) ∧
      exec (.statusItemWrite .grant ws) s = .next { s with
        port := some (.statusItem i (s.itemWords i) 0), marks := marks, statusPos := i + 1 })

/-- A cue fetch that finds its slot not ARMED (R38, R40): HOST and SPENT pause NOT-READY; TAKEN by this lane gives a
replay copy, an OWN-COPY pause, another fetch of the slot, or a BAD-STATE marker; TAKEN by another lane a CUE-IN-USE
marker; any other state a BAD-STATE marker. A marker appended to an empty queue in PRIMING, RUNNING or STARVED faults
the lane at once (R42). A fetch that was overtaken ends with nothing but the host's writes landed (R146). In every state
what follows from the end of the fetch follows; where nothing waited for room, that is nothing but the begin of an entry
appended to an empty queue. The watch slot at a pause CLOSED is log entry 9, the pass count shared by the copies of a
slot log entry 36, the order of a fault's entries log entry 20. -/
def Obligations.CueFetchOfUnarmedSlot : Prop :=
  (∀ (n : LaneId) (ws : Between) (s : State), s.port = some (.cueFetch n true) →
    let t : State := { s with port := none, mem := landAll s.mem ws }
    exec (.cueFetch n .done ws) s = .next t.settle ∧ (s.settled → exec (.cueFetch n .done ws) s = .next t)) ∧
  ∀ (n : LaneId) (ws : Between) (s : State) (f : Fetch), s.atPort (.cueFetch n) →
    ((s.granted (.cueFetch n)).lane n).fetch = some f →
    let g := s.granted (.cueFetch n)
    let head := (readSeq [slotWord f.slot] ws s.mem).1.getD 0 0
    let t : State := { g with port := none, mem := landAll s.mem ws }
    let l : Lane := { g.lane n with fetch := none }
    let ends : State → Prop := fun u => exec (.cueFetch n .done ws) s = .next u.settle
    let quietly : Lane → Prop := fun k =>
      ends (t.withLane n k) ∧ (s.settled → exec (.cueFetch n .done ws) s = .next (t.withLane n k))
    let appends : FaultCode → Prop := fun code =>
      ends (t.withLane n (l.marked code f.slot)) ∧
      (s.settled → l.queuesBehind → exec (.cueFetch n .done ws) s = .next (t.withLane n (l.marked code f.slot))) ∧
      (s.settled → l.queue = [] → l.cur = none → l.st = .priming ∨ l.st = .running ∨ l.st = .starved →
        exec (.cueFetch n .done ws) s = .next ((t.withLane n (l.marked code f.slot)).withFault n code f.slot
          ((l.marked code f.slot).resumeSlot (some (code, f.slot)))))
    g.port = some (.cueFetch n false) →
    (recordState head = .host ∨ recordState head = .spent → quietly { l with pause := .notReady, watch := f.slot }) ∧
    (recordState head = .taken → headTaker head = n → ∀ c, l.latestCopy f.slot = some c →
      (c.isKeep = true → ends (t.withLane n (l.staged { c with replay := true })) ∧
        (s.settled → l.queuesBehind →
          exec (.cueFetch n .done ws) s = .next (t.withLane n (l.staged { c with replay := true })))) ∧
      (c.isKeep = false → quietly { l with pause := .ownCopy, watch := f.slot })) ∧
    (recordState head = .taken → headTaker head = n → l.latestCopy f.slot = none →
      ((∃ e ∈ s.wbq ++ (s.lane n).owed, e.owner = some n ∧
          ((∃ o, e.kind = .result f.slot o true) ∨ e.kind = .return_ f.slot)) → quietly l) ∧
      ((∀ e ∈ s.wbq ++ (s.lane n).owed, e.owner = some n →
          (∀ o, e.kind ≠ .result f.slot o true) ∧ e.kind ≠ .return_ f.slot) → appends .badState)) ∧
    (recordState head = .taken → headTaker head ≠ n → appends .cueInUse) ∧
    (recordState head = .void ∨ recordState head = .invalid → appends .badState)

/-- A cue fetch that finds its slot ARMED (R18, R19, R38, R40, R145): with equal header reads a valid record is staged
and its TAKEN write queued, and a record with a void reason is refused and a VOID-CUE marker appended; with differing
header reads the fetch is retried, or after the third attempt a TORN marker is appended. A marker appended to an empty
queue faults the lane at once (R42). The void reason is the lowest-numbered of the eight conditions of R18 that fails.
In every state what follows from the end of the fetch follows; a fetch is made by a lane that owes no writes (R39). The
order of a fault's entries is log entry 20. That the pass count is read from word 7 after the last access is log entry
8, that the copies of a slot share it log entry 36. The watch slot at
a pause CLOSED, after a FINAL copy, a VOID-CUE or a TORN marker, is log entry 9. -/
def Obligations.CueFetchOfArmedSlot : Prop :=
  (∀ (n : LaneId) (s : State) (c : Copy),
    let kind := (c.head.extractLsb' 8 3).toNat
    let index := (c.head.extractLsb' 11 6).toNat
    let next := (c.w1.extractLsb' 0 10).toNat
    let repeats := (c.w1.extractLsb' 10 12).toNat
    let action := (c.head.extractLsb' 6 2).toNat
    let mask := c.w3.extractLsb' 0 24
    let beatAction := (c.w3.extractLsb' 24 2).toNat
    let beat : Fin 8 := (c.w3.extractLsb' 26 3).toFin
    let fails : Nat → Prop := fun k =>
      (k = 1 ∧ (5 ≤ kind ∨ (kind = 0 ∧ index ≠ 0) ∨ (kind = 1 ∧ 8 ≤ index) ∨ (kind = 2 ∧ 8 ≤ index) ∨
        (kind = 3 ∧ 16 ≤ index) ∨ (kind = 4 ∧ index = 63) ∨
        (kind = 2 ∧ ∃ line : Fin 8, line.val = index ∧ s.inputs[line].guard = true))) ∨
      (k = 2 ∧ 992 ≤ next ∧ next ≤ 1022) ∨
      (k = 3 ∧ ∃ p : Fin 24, mask.getLsbD p.val = true ∧ s.owner[p] ≠ some n) ∨
      (k = 4 ∧ ((action = 3 ∧ mask ≠ 0#24) ∨ (action ≠ 3 ∧ mask = 0#24) ∨
        (action = 2 ∧ (c.w1.extractLsb' 22 10).toNat = 0) ∨ (kind = 0 ∧ 0 < repeats))) ∨
      (k = 5 ∧ ((beatAction ≠ 0 ∧ s.beats[beat].owner ≠ some n) ∨
        ((beatAction = 1 ∨ beatAction = 3) ∧ (c.w5.extractLsb' 0 24).toNat < 2))) ∨
      (k = 6 ∧ (c.head.extractLsb' 23 9 ≠ 0#9 ∨ c.w2.extractLsb' 29 3 ≠ 0#3 ∨ c.w3.extractLsb' 29 3 ≠ 0#3 ∨
        c.w4.extractLsb' 27 5 ≠ 0#5 ∨ c.w5.extractLsb' 30 2 ≠ 0#2)) ∨
      (k = 7 ∧ c.head.getLsbD 17 = true ∧ c.head.getLsbD 18 = true) ∨
      (k = 8 ∧ c.w4.getLsbD 24 = true ∧ c.w5.extractLsb' 24 6 = 63#6)
    (∀ k, (∀ j, j < k → ¬ fails j) → fails k → s.voidReason n c = some k) ∧
    ((∀ k, ¬ fails k) → s.voidReason n c = none)) ∧
  ∀ (n : LaneId) (ws : Between) (s : State) (f : Fetch), s.atPort (.cueFetch n) →
    ((s.granted (.cueFetch n)).lane n).fetch = some f →
    let g := s.granted (.cueFetch n)
    let b := slotWord f.slot
    let r := readSeq [b, b + 1, b + 2, b + 3, b + 4, b + 5, b] ws s.mem
    let c : Copy := {
      slot := f.slot, head := r.1.getD 0 0, w1 := r.1.getD 1 0, w2 := r.1.getD 2 0, w3 := r.1.getD 3 0
      w4 := r.1.getD 4 0, w5 := r.1.getD 5 0, pass := passCount (readWord r.2.2 (b + 7)), replay := false }
    let t : State := { g with port := none, mem := landAll s.mem ws }
    let l : Lane := { g.lane n with fetch := none }
    let ends : State → Prop := fun u => exec (.cueFetch n .done ws) s = .next u.settle
    let appends : State → FaultCode → Prop := fun u code =>
      (s.settled → l.queuesBehind → exec (.cueFetch n .done ws) s = .next (u.withLane n (l.marked code f.slot))) ∧
      (s.settled → l.queue = [] → l.cur = none → l.st = .priming ∨ l.st = .running ∨ l.st = .starved →
        exec (.cueFetch n .done ws) s = .next ((u.withLane n (l.marked code f.slot)).withFault n code f.slot
          ((l.marked code f.slot).resumeSlot (some (code, f.slot)))))
    g.port = some (.cueFetch n false) → recordState c.head = .armed →
    (r.1.getD 6 0 = c.head → s.voidReason n c = none →
      (l.owed = [] → ends ({ t with wbq := s.wbq ++ [takenEntry n c] }.withLane n (l.staged c))) ∧
      (s.settled → l.queuesBehind →
        exec (.cueFetch n .done ws) s = .next ({ t with wbq := s.wbq ++ [takenEntry n c] }.withLane n (l.staged c)))) ∧
    (r.1.getD 6 0 = c.head → ∀ reason, s.voidReason n c = some reason →
      let u : State := { t with wbq := s.wbq ++ [refusalEntry n c s.timebase (BitVec.ofNat 32 reason)] }
      (l.owed = [] → ends (u.withLane n (l.marked .voidCue f.slot))) ∧ appends u .voidCue) ∧
    (r.1.getD 6 0 ≠ c.head → f.attempts < 3 →
      ends t ∧ (s.settled → exec (.cueFetch n .done ws) s = .next t)) ∧
    (r.1.getD 6 0 ≠ c.head → 3 ≤ f.attempts → ends (t.withLane n (l.marked .torn f.slot)) ∧ appends t .torn)

/-- A copy fetched for an empty queue begins at once (R41, R53, R54, R64): the lane is RUNNING, held-begun is set, and
the cue, finding no trigger to take, waits with its limit counting from the whole wait limit. That the pass count is
read from word 7 after the last access is log entry 8, that the copies of a slot share it log entry 36. For every lane:
a copy at the head begins so, and a cue with fires remaining begins a wait, which fires at once where it finds its
trigger (R56 to R58, R83, R131): NOW; one count drawn from a CLAIM source; a SHARE source's last event in the gap and
not consumed, with the LATE mark, or with LATE-FAULT the lane fault LATE and no fire; the oldest queued link code, which
is removed. A first copy whose wait so fires or faults at the end of its fetch does so in the event of the fetch, and
what follows from it follows: at most 8190 small actions more, the bound of log entry 19. The order of the fault's
entries is log entry 20, the watch slot of a FINAL copy log entry 9. -/
def Obligations.FirstCopyBegins : Prop :=
  (∀ (s : State) (n : LaneId) (c : Copy) (q : List Entry), (s.lane n).queue = .copy c :: q →
    ((s.lane n).cur = none → s.laneGo n = s.withLane n { s.lane n with
      st := .running, heldBegun := true
      cur := some {
        fires := 0, waiting := false, limit := .none_, pulse := none, late := false, sendLost := false
        ended := none } }) ∧
    (∀ f, (s.lane n).cur = some f → f.fires < c.required →
      (s.nothingToTake (s.lane n) c → s.laneGo n = s.withLane n { s.lane n with cur := some (f.joining c) }) ∧
      (c.trigger = some .now → s.laneGo n = s.withFire n none) ∧
      (∀ i, c.trigger = some (.source i) → c.isFresh = false →
        ((s.source i).claim = true → 0 < (s.source i).count →
          s.laneGo n = (s.withSource i { s.source i with count := (s.source i).count - 1 }).withFire n none) ∧
        (∀ t, (s.source i).claim = false → (s.source i).last = some t → (t - (s.lane n).gapStart).toNat < 2 ^ 31 →
          (s.lane n).gapEvent ≠ some (i, t) →
          (c.lateFault = false → s.laneGo n =
            (s.withLane n { s.lane n with cur := some { f with late := true } }).withFire n (some (i, t))) ∧
          (c.lateFault = true → s.laneGo n = s.withFault n .late c.slot ((s.lane n).resumeSlot none)))) ∧
      (∀ code before e after, c.trigger = some (.link code) → c.isFresh = false →
        s.link.rxq = before ++ e :: after → e.code = code → (∀ x ∈ before, x.code ≠ code) →
        s.laneGo n = (s.withLink { s.link with rxq := before ++ after }).withFire n none))) ∧
  ∀ (n : LaneId) (ws : Between) (s : State) (f : Fetch), s.atPort (.cueFetch n) → s.settled →
    ((s.granted (.cueFetch n)).lane n).fetch = some f →
    let g := s.granted (.cueFetch n)
    let b := slotWord f.slot
    let r := readSeq [b, b + 1, b + 2, b + 3, b + 4, b + 5, b] ws s.mem
    let c : Copy := {
      slot := f.slot, head := r.1.getD 0 0, w1 := r.1.getD 1 0, w2 := r.1.getD 2 0, w3 := r.1.getD 3 0
      w4 := r.1.getD 4 0, w5 := r.1.getD 5 0, pass := passCount (readWord r.2.2 (b + 7)), replay := false }
    let l : Lane := { g.lane n with fetch := none }
    let taken : State := { g with port := none, mem := landAll s.mem ws, wbq := s.wbq ++ [takenEntry n c] }
    let begun : Firing := {
      fires := 0, waiting := false, limit := .none_, pulse := none, late := false, sendLost := false, ended := none }
    g.port = some (.cueFetch n false) → recordState c.head = .armed → r.1.getD 6 0 = c.head →
    s.voidReason n c = none → (s.lane n).queue = [] → (s.lane n).cur = none →
    ((s.lane n).st = .priming ∨ (s.lane n).st = .running ∨ (s.lane n).st = .starved) →
    exec (.cueFetch n .done ws) s = .next ((fun u : State => u.follow.getD u)^[8190]
      ((taken.withLane n { l.staged c with st := .running, heldBegun := true, cur := some begun }).laneGo n)) ∧
    (s.nothingToTake l c → exec (.cueFetch n .done ws) s = .next (taken.withLane n
      { l.staged c with st := .running, heldBegun := true, cur := some (begun.joining c) }))

/-- A tail re-read (R45, R145): a tail that can be followed gives its next link as the slot to fetch, or leaves the lane
AT-END; any other, or a next of 992 to 1022, is LINK-LOST; differing header reads retry, and the third time are TORN. A
marker appended to an empty queue in PRIMING, RUNNING or STARVED faults the lane at once (R42), as does, in every lane,
a marker that reaches the head of the queue. A re-read that was overtaken ends with nothing but the host's writes landed
(R146). In every state what follows from the end of the re-read follows. The watch slot after a re-read is log entry 9,
the order of a fault's entries log entry 20. -/
def Obligations.TailRereadOutcomes : Prop :=
  (∀ (n : LaneId) (ws : Between) (s : State), s.port = some (.tailReread n true) →
    let t : State := { s with port := none, mem := landAll s.mem ws }
    exec (.tailReread n .done ws) s = .next t.settle ∧ (s.settled → exec (.tailReread n .done ws) s = .next t)) ∧
  (∀ (s : State) (n : LaneId) (code : FaultCode) (slot : Link) (q : List Entry), (s.lane n).cur = none →
    (s.lane n).queue = .marker code slot :: q →
    s.laneGo n = s.withFault n code slot ((s.lane n).resumeSlot (some (code, slot)))) ∧
  ∀ (n : LaneId) (ws : Between) (s : State) (f : Fetch), s.atPort (.tailReread n) →
    ((s.granted (.tailReread n)).lane n).fetch = some f →
    (s.granted (.tailReread n)).port = some (.tailReread n false) →
    let g := s.granted (.tailReread n)
    let b := slotWord f.slot
    let r := readSeq [b, b + 1, b] ws s.mem
    let head := r.1.getD 0 0
    let next : Link := (r.1.getD 1 0).extractLsb' 0 10
    let follows := recordState head = .spent ∨ (recordState head = .taken ∧ headTaker head = n) ∨
      (recordState head = .armed ∧ headKeep head = true)
    let t : State := { g with port := none, mem := landAll s.mem ws }
    let l : Lane := { g.lane n with fetch := none }
    let quietly : State → Prop := fun u =>
      exec (.tailReread n .done ws) s = .next u.settle ∧ (s.settled → exec (.tailReread n .done ws) s = .next u)
    let appends : FaultCode → Prop := fun code =>
      exec (.tailReread n .done ws) s = .next (t.withLane n (l.marked code f.slot)).settle ∧
      (s.settled → l.queuesBehind → exec (.tailReread n .done ws) s = .next (t.withLane n (l.marked code f.slot))) ∧
      (s.settled → l.queue = [] → l.cur = none → l.st = .priming ∨ l.st = .running ∨ l.st = .starved →
        exec (.tailReread n .done ws) s = .next ((t.withLane n (l.marked code f.slot)).withFault n code f.slot
          ((l.marked code f.slot).resumeSlot (some (code, f.slot)))))
    (r.1.getD 2 0 = head → follows → next.toNat < 992 →
      quietly (t.withLane n { l with follow := next, pause := .open_ })) ∧
    (r.1.getD 2 0 = head → follows → next = 1023#10 → quietly (t.withLane n l)) ∧
    (r.1.getD 2 0 = head → (¬ follows ∨ (992 ≤ next.toNat ∧ next ≠ 1023#10)) → appends .linkLost) ∧
    (r.1.getD 2 0 ≠ head → f.attempts < 3 → quietly t) ∧
    (r.1.getD 2 0 ≠ head → 3 ≤ f.attempts → appends .torn)

/-- The landing of the oldest write-back entry (R38, R52, R148, R152): its words that are left land in order and it
leaves the queue; an ending's header write changes the last ended fields and the ended count, and the write that ends
the last copy of the slot, with no copy of it in the queue and no other ending's write of it to land, clears an OWN-COPY
pause; a device answer raises ORDER-DONE; the other kinds change nothing more. Its words land one at a time: between two
of them the words before have landed and the others are as they were. The room it frees goes to the oldest owed write of
a lane, then to a cue in completion pending, of several lanes to an URGENT one and then to the lowest (R47, R73, R144),
and then the lanes that can go on do, in a free order (log entry 6), one small action at a time until none is left (at
most 8192, log entry 19). All of it comes before the next command, the model's choice: log entry 45. -/
def Obligations.WriteBackLands : Prop :=
  (∀ s : State,
    let owes : LaneId → Prop := fun n => (s.lane n).owed ≠ []
    let pends : LaneId → Prop := fun n => (s.lane n).owed = [] ∧ ∃ f e, (s.lane n).cur = some f ∧ f.ended = some e
    let goes : LaneId → Prop := fun n =>
      ((s.lane n).cur = none ∧ (s.lane n).queue ≠ [] ∧
        ((s.lane n).st = .priming ∨ (s.lane n).st = .running ∨ (s.lane n).st = .starved)) ∨
      (∃ f c q, (s.lane n).cur = some f ∧ (s.lane n).queue = .copy c :: q ∧ f.waiting = false ∧ f.pulse = none ∧
        f.ended = none ∧ (c.required ≤ f.fires ∨ (s.lane n).st = .running ∨ (s.lane n).st = .stopping))
    (∀ n o os, 0 < s.room → (s.lane n).owed = o :: os → (∀ m, owes m → s.precedes n m) →
      s.follow = some ({ s with wbq := s.wbq ++ [o] }.withLane n { s.lane n with owed := os })) ∧
    (∀ n, 0 < s.room → (∀ m, ¬ owes m) → pends n → (∀ m, pends m → s.precedes n m) →
      s.follow = some (s.releasePending n)) ∧
    (s.room = 0 ∨ (∀ m, ¬ owes m ∧ ¬ pends m) →
      ((∃ n, goes n) → ∃ n, goes n ∧
        (s.follow = some (s.laneGo n) ∨ s.follow = some ({ s with choices := s.choices + 1 }.laneGo n))) ∧
      ((∀ n, ¬ goes n) → s.follow = none)) ∧
    (∃ k, k ≤ 8192 ∧ s.settle = (fun u : State => u.follow.getD u)^[k] s ∧ (k < 8192 → s.settle.follow = none))) ∧
  (∀ (ws : Between) (s : State) (e : WriteBack) (q : List WriteBack), s.atPort .writeBack → s.wbq = e :: q →
    ∀ k p p' rest, (s.granted .writeBack).port = some (.writeBack k) → e.writes.drop k = p :: p' :: rest →
      exec (.writeBackLanding .word ws) s = .next { s with
        port := some (.writeBack (k + 1))
        mem := landAll (writeWord (landGroup s.mem (ws.headD [])) p.1 p.2) ws.tail }) ∧
  ∀ (ws : Between) (s : State) (e : WriteBack) (q : List WriteBack) (k : Nat), s.atPort .writeBack →
    s.wbq = e :: q → (s.granted .writeBack).port = some (.writeBack k) →
    let t : State := { s with port := none, wbq := q, mem := writeSeq (e.writes.drop k) ws s.mem }
    let last : LaneId → Link → Prop := fun n slot => (s.lane n).latestCopy slot = none ∧
      (q ++ (s.lane n).owed).all (fun x => match x.kind with
        | .result k _ true => decide (x.owner ≠ some n ∨ k ≠ slot)
        | .return_ k => decide (x.owner ≠ some n ∨ k ≠ slot)
        | _ => true) = true
    let cleared : LaneId → Link → Pause → Prop := fun n slot p =>
      ((s.lane n).pause = .ownCopy ∧ (s.lane n).watch = slot ∧ last n slot → p = .open_) ∧
      (¬ ((s.lane n).pause = .ownCopy ∧ (s.lane n).watch = slot ∧ last n slot) → p = (s.lane n).pause)
    let ends : State → Prop := fun u =>
      exec (.writeBackLanding .done ws) s = .next u.settle ∧
      (s.settled → exec (.writeBackLanding .done ws) s = .next u)
    (MemoryOk s → ws = [] → ∀ i v, e.writes.drop k = [(i, v)] → i < 8192 →
      MemoryOk t ∧ readWord t.mem i = v ∧ ∀ a, a / 4 ≠ i → memByte t.mem a = memByte s.mem a) ∧
    (∀ n slot o, e.owner = some n → e.kind = .result slot o true → ∃ p, cleared n slot p ∧
      ends (t.withLane n { s.lane n with
        lastSlot := slot, lastOutcome := o, endedCount := (s.lane n).endedCount + 1, pause := p })) ∧
    (∀ n slot o, e.owner = some n → e.kind = .result slot o false →
      ends (t.withLane n { s.lane n with
        lastSlot := slot, lastOutcome := o, endedCount := (s.lane n).endedCount + 1 })) ∧
    (∀ n slot, e.owner = some n → e.kind = .return_ slot → ∃ p, cleared n slot p ∧
      ends (t.withLane n { s.lane n with pause := p })) ∧
    (e.kind = .deviceAnswer → ends (t.withCause .orderDone)) ∧
    ((∃ slot, e.kind = .taken slot ∨ e.kind = .refusal slot) ∨ e.kind = .laneAnswer ∨ e.kind = .resumeSlot → ends t)

/-- The end of a status item write (R149, R169): the words left of the values taken at the grant land, the item leaves the
snapshot set, and with the last of the set the SNAPSHOT answer is queued. Its words land one at a time. The words of each
item and their addresses (R52, R91, R115, R121, R136, 11.5): a lane's progress entry, the levels, the halt record, the link
counts, the link occupancy, and the source words with four sources each; every spare position is 0 (R176). -/
def Obligations.StatusItemWritten : Prop :=
  (∀ (s : State) (i : Fin 20),
    (itemWrites i (s.itemWords i)).map Prod.fst =
      (if i.val < 8 then [200 + 3 * i.val, 201 + 3 * i.val, 202 + 3 * i.val]
      else if i.val = 8 then [224] else if i.val = 9 then [225, 226] else if i.val = 10 then [227, 228]
      else if i.val = 11 then [229, 230] else [219 + i.val]) ∧
    (itemWrites i (s.itemWords i)).map Prod.snd = s.itemWords i ∧
    (∀ n : LaneId, i.val = n.val → (s.lane n).queue.length ≤ 4 → ∃ w0 w1 w2 : Word, s.itemWords i = [w0, w1, w2] ∧
      (w0.extractLsb' 0 3).toNat = (match (s.lane n).st with
        | .idle => 0 | .priming => 1 | .running => 2 | .starved => 3 | .held => 4 | .stopping => 5 | .faulted => 6) ∧
      (w0.extractLsb' 3 3).toNat = (match (s.lane n).pause with
        | .open_ => 0 | .atEnd => 1 | .notReady => 2 | .ownCopy => 3 | .closed => 4) ∧
      (w0.extractLsb' 6 3).toNat = (s.lane n).queue.length ∧
      (∀ f c q, (s.lane n).cur = some f → (s.lane n).queue = .copy c :: q → w0.extractLsb' 10 10 = c.slot) ∧
      ((s.lane n).cur = none → w0.extractLsb' 10 10 = 1023#10) ∧ w0.extractLsb' 20 10 = (s.lane n).watch ∧
      w1.extractLsb' 0 10 = (s.lane n).lastSlot ∧
      (w1.extractLsb' 12 3).toNat = (match (s.lane n).lastOutcome with
        | .none_ => 0 | .done => 1 | .expired => 2 | .aborted => 3 | .faulted => 4 | .returned => 5 | .void => 6) ∧
      (w1.extractLsb' 16 4).toNat = (match (s.lane n).faultCode with
        | none => 0 | some .voidCue => 1 | some .cueInUse => 2 | some .badState => 3 | some .linkLost => 4
        | some .torn => 5 | some .expired => 6 | some .late => 7 | some .guard => 8 | some .linkStop => 9
        | some .hostHalt => 10) ∧
      w1.extractLsb' 20 10 = (s.lane n).faultSlot ∧ w2.extractLsb' 0 16 = (s.lane n).endedCount ∧
      w2.extractLsb' 16 16 = 0#16 ∧
      w0.getLsbD 9 = false ∧ w0.extractLsb' 30 2 = 0#2 ∧
      w1.extractLsb' 10 2 = 0#2 ∧ w1.getLsbD 15 = false ∧ w1.extractLsb' 30 2 = 0#2) ∧
    (i.val = 8 → ∃ w : Word, s.itemWords i = [w] ∧ w.extractLsb' 0 24 = s.out ∧
      ∀ n : Fin 8, w.getLsbD (24 + n.val) = s.inputs[n].level) ∧
    (i.val = 9 → ∃ w : Word, s.itemWords i = [s.halt.tick, w] ∧
      (w.extractLsb' 0 2).toNat = (match s.halt.cause with | .none_ => 0 | .guard => 1 | .linkStop => 2 | .hostHalt => 3) ∧
      (w.extractLsb' 2 3).toNat = s.halt.line.val ∧ w.extractLsb' 8 8 = s.halt.lanes ∧
      w.extractLsb' 16 8 = s.halt.further ∧ w.extractLsb' 5 3 = 0#3 ∧ w.extractLsb' 24 8 = 0#8) ∧
    (i.val = 10 → ∃ w0 w1 : Word, s.itemWords i = [w0, w1] ∧
      w0.extractLsb' 0 16 = s.link.framing ∧ w0.extractLsb' 16 16 = s.link.parityErr ∧
      w1.extractLsb' 0 16 = s.link.overrun ∧ w1.extractLsb' 16 16 = s.link.txLost) ∧
    (i.val = 11 → LinkQueuesOk s → ∃ w0 w1 : Word, s.itemWords i = [w0, w1] ∧
      (w0.extractLsb' 0 4).toNat = s.link.rxq.length ∧ w0.getLsbD 4 = !s.link.rxq.isEmpty ∧
      (∀ e q, s.link.rxq = e :: q → w0.extractLsb' 8 6 = e.code ∧ w1 = e.tick) ∧
      (s.link.rxq = [] → w0.extractLsb' 8 6 = 0#6 ∧ w1 = 0#32) ∧
      (w0.extractLsb' 16 4).toNat = s.link.txq.length ∧ w0.getLsbD 20 = s.link.sending.isSome ∧
      w0.getLsbD 21 = s.link.relayPending ∧
      w0.extractLsb' 5 3 = 0#3 ∧ w0.extractLsb' 14 2 = 0#2 ∧ w0.extractLsb' 22 10 = 0#10) ∧
    (12 ≤ i.val → CountsOk s → ∃ w : Word, s.itemWords i = [w] ∧
      ∀ (k : Fin 4) (j : SourceId), j.val = 4 * (i.val - 12) + k.val →
        (w.extractLsb' (8 * k.val) 4).toNat = (s.source j).count ∧ w.getLsbD (8 * k.val + 4) = (s.source j).overflow ∧
        w.extractLsb' (8 * k.val + 5) 3 = 0#3)) ∧
  ∀ (between : Between) (s : State) (i : Fin 20) (words : List Word) (k : Nat), s.atPort .statusItem →
    (s.granted .statusItem).port = some (.statusItem i words k) →
    (∀ p p' rest, (itemWrites i words).drop k = p :: p' :: rest →
      exec (.statusItemWrite .word between) s = .next { s.granted .statusItem with
        port := some (.statusItem i words (k + 1))
        mem := landAll (writeWord (landGroup s.mem (between.headD [])) p.1 p.2) between.tail }) ∧
    ∃ left : BitVec 20, (∀ j : Fin 20, left.getLsbD j.val = (s.snapSet.getLsbD j.val && decide (j ≠ i))) ∧
      let t : State := { s.granted .statusItem with
        port := none, mem := writeSeq ((itemWrites i words).drop k) between s.mem, snapSet := left }
      ((∀ seq, s.devOut ≠ .snapshot seq) ∨ left ≠ 0#20 → exec (.statusItemWrite .done between) s = .next t) ∧
      (∀ seq, s.devOut = .snapshot seq → left = 0#20 →
        exec (.statusItemWrite .done between) s = .next { t with
          devOut := .none_
          wbq := s.wbq ++ [{
            owner := none, kind := .deviceAnswer, writes := [(196, 0#32), (195, echoWord seq .ok)] }] })

/-- The words of the cue entries (R11, R14, R17, R19, R20, R21): the result, stamp and header of an ending and of a refusal,
the result and header of a return, the header alone of a TAKEN write. The fields of a cue record (R2 to R9, 11.2): a
header's state and taker, and what a copy's words give, its trigger among them. The fields of a directory entry (11.3): the
order code and sequence of word 0, the argument and revisit interval of word 1, and the echo and result word, every spare
position of which is 0 (R176). -/
def Obligations.CueEntryWords : Prop :=
  (∀ w : Word,
    (recordState w = match (w.extractLsb' 0 3).toNat with
      | 0 => .host | 1 => .armed | 2 => .taken | 3 => .spent | 4 => .void | _ => .invalid) ∧
    (headTaker w).val = (w.extractLsb' 3 3).toNat ∧ headKeep w = w.getLsbD 18 ∧
    orderCode w = (w.extractLsb' 0 8).toNat ∧ orderSeq w = w.extractLsb' 8 8 ∧
    laneArgument w = w.extractLsb' 0 10 ∧ laneInterval w = w.extractLsb' 16 8) ∧
  (∀ (seq : Byte) (r : OrderResult), (echoWord seq r).extractLsb' 0 8 = seq ∧
    ((echoWord seq r).extractLsb' 8 4).toNat = (match r with
      | .ok => 0 | .notReady => 1 | .halted => 2 | .busyLanes => 3 | .badSetup => 4
      | .badArg => 5 | .notHostBeat => 6 | .badOrder => 7 | .wrongState => 8 | .badSlot => 9) ∧
    (echoWord seq r).extractLsb' 12 20 = 0#20) ∧
  (∀ c : Copy,
    let kind := (c.head.extractLsb' 8 3).toNat
    let index := (c.head.extractLsb' 11 6).toNat
    ((c.head.extractLsb' 6 2).toNat = match c.action with | .set => 0 | .toggle => 1 | .pulse => 2 | .mark => 3) ∧
    (c.trigger = some .now ↔ kind = 0 ∧ index = 0) ∧
    (∀ i : SourceId, c.trigger = some (.source i) ↔ (kind = 1 ∧ index < 8 ∧ i.val = index) ∨
      (kind = 2 ∧ index < 8 ∧ i.val = 8 + index) ∨ (kind = 3 ∧ index < 16 ∧ i.val = 16 + index)) ∧
    (∀ code, c.trigger = some (.link code) ↔ kind = 4 ∧ index < 63 ∧ code = c.head.extractLsb' 11 6) ∧
    c.isFinal = c.head.getLsbD 17 ∧ c.isKeep = c.head.getLsbD 18 ∧ c.hasNote = c.head.getLsbD 19 ∧
    c.isFresh = c.head.getLsbD 20 ∧ c.lateFault = c.head.getLsbD 21 ∧ c.expiryFault = c.head.getLsbD 22 ∧
    c.next = c.w1.extractLsb' 0 10 ∧ c.required = (c.w1.extractLsb' 10 12).toNat + 1 ∧
    c.pulseWidth = c.w1.extractLsb' 22 10 ∧ c.pattern = c.w2.extractLsb' 0 24 ∧
    c.raiseFlag.map Fin.val = (if c.w2.getLsbD 24 = true then some (c.w2.extractLsb' 25 4).toNat else none) ∧
    c.mask = c.w3.extractLsb' 0 24 ∧
    ((c.w3.extractLsb' 24 2).toNat = match c.beatAction with | .none_ => 0 | .start => 1 | .stop => 2 | .retune => 3) ∧
    c.beatNumber.val = (c.w3.extractLsb' 26 3).toNat ∧ c.waitLimit = (c.w4.extractLsb' 0 24).toNat ∧
    c.sendGroup = (if c.w4.getLsbD 24 = true then some (c.w4.extractLsb' 25 2) else none) ∧
    c.beatPeriod = (c.w5.extractLsb' 0 24).toNat ∧ c.sendCode = c.w5.extractLsb' 24 6) ∧
  ∀ (n : LaneId) (c : Copy),
    let isHeader : Word → Nat → Prop := fun w code =>
      (w.extractLsb' 0 3).toNat = code ∧ (w.extractLsb' 3 3).toNat = n.val ∧ w.extractLsb' 6 26 = c.head.extractLsb' 6 26
    let isResult : Word → Nat → Byte → CueOutcome → Bool → Bool → Nat → Prop := fun w fires pass outcome late lost reason =>
      (w.extractLsb' 0 13).toNat = fires ∧ w.extractLsb' 13 8 = pass ∧
      (w.extractLsb' 21 3).toNat = (match outcome with
        | .none_ => 0 | .done => 1 | .expired => 2 | .aborted => 3 | .faulted => 4 | .returned => 5 | .void => 6) ∧
      w.getLsbD 24 = late ∧ w.getLsbD 25 = lost ∧ (w.extractLsb' 26 4).toNat = reason ∧ w.extractLsb' 30 2 = 0#2
    let b := 256 + 8 * c.slot.toNat
    (∃ w, (takenEntry n c).writes = [(b, w)] ∧ isHeader w 2) ∧
    (∀ stamp reason, 1 ≤ reason → reason ≤ 8 → ∃ w7 w0,
      (refusalEntry n c stamp (BitVec.ofNat 32 reason)).writes = [(b + 7, w7), (b + 6, stamp), (b, w0)] ∧
      isHeader w0 4 ∧ isResult w7 0 c.pass .void false false reason) ∧
    (∀ (f : Firing) (e : Ending) (reason : Nat) (remains : Bool), f.fires ≤ 4096 → reason ≤ 10 → ∃ w7 w0,
      (resultEntry n c f e (BitVec.ofNat 32 reason) remains).writes = [(b + 7, w7), (b + 6, e.stamp), (b, w0)] ∧
      isHeader w0 (if c.isKeep = true then (if remains = true then 2 else 1) else 3) ∧
      isResult w7 f.fires e.pass e.outcome f.late f.sendLost reason) ∧
    (∃ w7 w0, (returnEntry n c).writes = [(b + 7, w7), (b, w0)] ∧
      isHeader w0 1 ∧ isResult w7 0 c.pass .returned false false 0)

/-! Timed events. -/

/-- A beat expires (R55, R59 to R61, R77 to R82, R97). With no lane waiting, a SHARE event is the source's last event
and a CLAIM event is counted or dropped. With one waiter of a SHARE source, or the waiter the arbiter chooses of a CLAIM
source, that lane fires: its action is applied, and it is in a pulse or waits again. The beat reloads, or in ONCE mode
stops. In general every lane that a SHARE event reaches fires, and what follows from the fires follows, a completion
among it; a lane whose wait on the beat expired at this tick and whose next cue's wait began in that event is passed
over, and that wait begins after the event (R66, log entry 42). What follows is over before the next command is taken,
of the orders of R84 the model's choice: log entry 45. -/
def Obligations.BeatExpiryDelivered : Prop :=
  ∀ (b : Fin 8) (s : State), s.engine = .ready → s.beats[b].running = true → s.beats[b].left = 0 →
    let i := beatSource b
    let beat : Beat := { s.beats[b] with
      period := s.beats[b].next, left := if s.beats[b].every = true then s.beats[b].next else 0
      running := s.beats[b].every }
    let t : State := { s with beats := s.beats.set b.val beat }
    (∃ u, Delivered s u i ∧ exec (.beatExpiry b) s = .next { u with beats := s.beats.set b.val beat }.settle) ∧
    (s.settled → s.unwatched (.source i) → exec (.beatExpiry b) s = .next (t.unheard i)) ∧
    (s.settled → (∀ m, (s.lane m).expiredOn ≠ some (.source i)) →
      ∀ n f c q, (s.lane n).waitsOn (.source i) = true → (s.lane n).cur = some f → (s.lane n).queue = .copy c :: q →
      ((s.source i).claim = false → ∀ m, (s.lane m).waitsOn (.source i) = true → m = n) →
      ((s.source i).claim = true → ∀ m, (s.lane m).waitsOn (.source i) = true →
        if s.laneUrgent.getLsbD n.val ≠ s.laneUrgent.getLsbD m.val then s.laneUrgent.getLsbD n.val = true else n ≤ m) →
      let fired : Firing := { f with waiting := false, limit := .none_, fires := f.fires + 1 }
      let l : Lane := { s.lane n with
        gapStart := s.timebase, gapEvent := if (s.source i).claim = true then none else some (i, s.timebase)
        expiredOn := none }
      let out : Pins := match c.action with
        | .set => (c.pattern &&& c.mask) ||| (s.out &&& ~~~c.mask)
        | .pulse => (c.pattern &&& c.mask) ||| (s.out &&& ~~~c.mask)
        | .toggle => s.out ^^^ c.mask
        | .mark => s.out
      let u := (if (s.source i).claim = true then t
        else t.withSource i { s.source i with last := some s.timebase }).withOut out
      (c.action = .pulse → exec (.beatExpiry b) s = .next (u.withLane n { l with
        cur := some { fired with
          pulse := some { endTick := s.timebase + c.pulseWidth.setWidth 32, restore := s.out &&& c.mask } } })) ∧
      (c.action ≠ .pulse → f.ended = none → f.fires + 1 < c.required →
        (s.lane n).st = .running ∨ (s.lane n).st = .stopping →
        (c.isFresh = true ∨ (s.source i).claim = false ∨ (s.source i).count = 0) →
        exec (.beatExpiry b) s = .next (u.withLane n { l with
          cur := some ({ fired with pulse := none }.joining c) })))

/-- A pulse ends (R55, R61): the mask's pins take their restore levels, the pulse is cleared, and what follows follows. With
fires remaining, in RUNNING or STOPPING a cue that finds no trigger to take at once waits again, while in HELD no wait
begins. -/
def Obligations.PulseEndRestoresPins : Prop :=
  (∀ (n : LaneId) (s : State) (f : Firing) (c : Copy) (q : List Entry) (p : Pulse), s.engine = .ready →
    (s.lane n).cur = some f → (s.lane n).queue = .copy c :: q → f.pulse = some p → p.endTick = s.timebase →
    exec (.pulseEnd n) s = .next ((s.withOut ((p.restore &&& c.mask) ||| (s.out &&& ~~~c.mask))).withLane n
      { s.lane n with cur := some { f with pulse := none } }).settle) ∧
  ∀ (n : LaneId) (s : State) (f : Firing) (c : Copy) (q : List Entry) (p : Pulse), s.engine = .ready → s.settled →
    (s.lane n).cur = some f → (s.lane n).queue = .copy c :: q → f.pulse = some p → p.endTick = s.timebase →
    f.waiting = false → f.ended = none → f.fires < c.required →
    let t := s.withOut ((p.restore &&& c.mask) ||| (s.out &&& ~~~c.mask))
    ((s.lane n).st = .held →
      exec (.pulseEnd n) s = .next (t.withLane n { s.lane n with cur := some { f with pulse := none } })) ∧
    ((s.lane n).st = .running ∨ (s.lane n).st = .stopping → s.nothingToTake (s.lane n) c →
      exec (.pulseEnd n) s = .next (t.withLane n { s.lane n with
        cur := some ({ f with pulse := none }.joining c) }))

/-- The last pulse of a cue without post actions ends (R20, R41, R55, R61, R69, R72): the cue completes DONE with the
stamp of this tick, its result is queued and it leaves the queue. A FINAL cue takes the lane to IDLE with LIST-DONE;
with nothing behind, a RUNNING lane is STARVED with STARVED attention. With no room the cue stays in completion pending.
For every lane: a cue with its fires made completes by its post actions and completion pending (R69 to R71; no other
lane goes on between them, log entry 32); a cue in completion pending that finds room has its result queued and leaves
(R20, R41, R72, R73). A FINAL cue, or any in STOPPING, takes the lane to IDLE with LIST-DONE and its held returns (R34);
else, in HELD or with an entry behind, the entries behind move up; else the lane is STARVED. The pass count of the slot
rises by 1 at the completion (R17), in every copy of it staged (log entry 36), and the result keeps it. A lane whose
wait on the raised flag expired at this tick and whose next cue's wait began in that event is passed over (R66, log
entry 42), and an idle transmitter begins the sent code's frame in the same event (log entry 11). The watch slot at the
pause CLOSED of a list that ends is log entry 9. -/
def Obligations.PulseEndCompletesCue : Prop :=
  (∀ (s : State) (n : LaneId) (f : Firing) (c : Copy) (q : List Entry), s.engine = .ready → (s.lane n).cur = some f →
    (s.lane n).queue = .copy c :: q → c.required ≤ f.fires → ∃ u, Posted s u n c ∧
      s.laneGo n = u.withLane n { u.lane n with
        gapStart := s.timebase
        queue := (u.lane n).queue.map (fun x => match x with
          | .copy k => .copy (if k.slot = c.slot then { k with pass := k.pass + 1 } else k)
          | .marker code m => .marker code m)
        cur := (u.lane n).cur.map (fun k =>
          { k with ended := some { outcome := .done, stamp := s.timebase, pass := c.pass + 1 } }) }) ∧
  (∀ (s : State) (n : LaneId) (f : Firing) (c : Copy) (q : List Entry) (e : Ending), (s.lane n).cur = some f →
    (s.lane n).queue = .copy c :: q → f.ended = some e →
    let remains := q.any (fun x => match x with
      | .copy k => decide (k.slot = c.slot)
      | .marker _ _ => false)
    let t : State := { s with wbq := s.wbq ++ [resultEntry n c f e 0 remains] }
    (c.isFinal = true ∨ (s.lane n).st = .stopping → s.releasePending n =
      ({ t with port := (s.overtake n).port }.withEntries n (returnEntries n (some c) (s.lane n).heldReturns)
        { s.lane n with
          st := .idle, queue := [], cur := none, heldReturns := [], fetch := none, reread := false, revisit := none
          pause := .closed, expiredOn := none }).withCause (.listDone n)) ∧
    (c.isFinal = false → (s.lane n).st ≠ .stopping → (s.lane n).st = .held ∨ q ≠ [] →
      s.releasePending n = t.withLane n { s.lane n with queue := q, cur := none }) ∧
    (c.isFinal = false → (s.lane n).st ≠ .stopping → (s.lane n).st ≠ .held → q = [] → s.releasePending n =
      (t.withLane n { s.lane n with queue := [], cur := none, st := .starved }).withCause (.starved n))) ∧
  ∀ (n : LaneId) (s : State) (f : Firing) (c : Copy) (p : Pulse), s.engine = .ready → s.settled →
    (s.lane n).cur = some f → (s.lane n).queue = [.copy c] → f.pulse = some p → p.endTick = s.timebase →
    f.waiting = false → f.ended = none → c.required ≤ f.fires → c.noPostActions → (s.lane n).st = .running →
    let t := s.withOut ((p.restore &&& c.mask) ||| (s.out &&& ~~~c.mask))
    let done : Ending := { outcome := .done, stamp := s.timebase, pass := c.pass + 1 }
    let u : State := { t with wbq := s.wbq ++ [resultEntry n c { f with pulse := none } done 0 false] }
    let l : Lane := { s.lane n with gapStart := s.timebase, queue := [], cur := none }
    (0 < s.room → c.isFinal = false →
      exec (.pulseEnd n) s = .next ((u.withLane n { l with st := .starved }).withCause (.starved n))) ∧
    (0 < s.room → c.isFinal = true → (s.lane n).heldReturns = [] →
      exec (.pulseEnd n) s = .next (({ u with port := (s.overtake n).port }.withLane n { l with
        st := .idle, fetch := none, reread := false, revisit := none, pause := .closed, expiredOn := none }).withCause
          (.listDone n))) ∧
    (s.room = 0 → exec (.pulseEnd n) s = .next (t.withLane n { s.lane n with
      gapStart := s.timebase, queue := [.copy { c with pass := c.pass + 1 }]
      cur := some { f with pulse := none, ended := some done } }))

/-- A wait limit expires (R20, R41, R50, R55, R65). Without EXPIRY-FAULT the copy ends EXPIRED with the stamp of this
tick, the slot's pass count one higher (R17, log entry 36) and no post action; with room, a RUNNING lane with nothing
behind it is STARVED; with no room the cue stays in completion pending. With EXPIRY-FAULT the lane faults with code
EXPIRED: its result, its returns and the resume slot are produced, its pins take their safe levels, and LANE-FAULT is
raised. The order of the fault's entries is log entry 20, the watch slot at its pause CLOSED log entry 9. In general,
with a FINAL cue, in STOPPING or with an entry behind, what follows is the leaving of a cue in completion pending. Where
the next cue's first wait on the trigger of the wait has begun at the end of that, the trigger stays held, and an event
of it at this tick does not reach the lane (R66, log entry 42); in every other lane nothing stays held, and a wait that
begins later is a waiter at once (R77). -/
def Obligations.WaitLimitExpires : Prop :=
  (∀ (s : State) (n : LaneId) (t : Trigger), (s.lane n).expiredOn = some t → (s.lane n).waitsOn t = false) ∧
  (∀ (n : LaneId) (s : State) (f : Firing) (c : Copy) (q : List Entry), s.engine = .ready → (s.lane n).cur = some f →
    (s.lane n).queue = .copy c :: q → f.waiting = true → f.limit = .counting 0 → c.expiryFault = false →
    let u : State := (s.withLane n { s.lane n with
      gapStart := s.timebase, gapEvent := none, expiredOn := c.trigger
      queue := (s.lane n).queue.map (fun x => match x with
        | .copy k => .copy (if k.slot = c.slot then { k with pass := k.pass + 1 } else k)
        | .marker code m => .marker code m)
      cur := some { f with
        waiting := false, limit := .none_
        ended := some { outcome := .expired, stamp := s.timebase, pass := c.pass + 1 } } }).settle
    exec (.waitLimitExpiry n) s = .next (u.withLane n { u.lane n with
      expiredOn := (u.lane n).expiredOn.filter (fun t => (u.lane n).standsOn t) })) ∧
  (∀ (l : Lane) (t : Trigger), l.standsOn t = true ↔
    ∃ f c q, l.cur = some f ∧ l.queue = .copy c :: q ∧ f.waiting = true ∧ c.trigger = some t) ∧
  ∀ (n : LaneId) (s : State) (f : Firing) (c : Copy) (q : List Entry), s.engine = .ready → s.settled →
    (s.lane n).cur = some f → (s.lane n).queue = .copy c :: q → f.waiting = true → f.limit = .counting 0 →
    f.pulse = none → f.ended = none →
    let ended : Firing := { f with waiting := false, limit := .none_ }
    let expired : Ending := { outcome := .expired, stamp := s.timebase, pass := c.pass + 1 }
    let counted : List Entry := (s.lane n).queue.map (fun x => match x with
      | .copy k => .copy (if k.slot = c.slot then { k with pass := k.pass + 1 } else k)
      | .marker code m => .marker code m)
    let l : Lane := { s.lane n with gapStart := s.timebase, gapEvent := none, expiredOn := none }
    let resume : List WriteBack := [{
      owner := some n, kind := .resumeSlot, writes := [(laneWord n + 3, place 0 ((s.lane n).resumeSlot none))] }]
    (c.expiryFault = false → s.room = 0 → exec (.waitLimitExpiry n) s = .next (s.withLane n { l with
      queue := counted, cur := some { ended with ended := some expired } })) ∧
    (c.expiryFault = false → 0 < s.room → q = [] → c.isFinal = false → (s.lane n).st = .running →
      exec (.waitLimitExpiry n) s = .next (({ s with
        wbq := s.wbq ++ [resultEntry n c ended expired 0 false] }.withLane n
          { l with queue := [], cur := none, st := .starved }).withCause (.starved n))) ∧
    (c.expiryFault = true → ∃ out : Pins,
      (∀ p : Fin 24, out.getLsbD p.val = if s.owner[p] = some n then s.safe.getLsbD p.val else s.out.getLsbD p.val) ∧
      exec (.waitLimitExpiry n) s = .next ((({ s with port := (s.overtake n).port }.withEntries n
        ((s.lane n).handBackEntries n .faulted s.timebase 6#32 ++ resume)
        { s.lane n with
          st := .faulted, queue := [], cur := none, heldReturns := [], fetch := none, reread := false, revisit := none
          pause := .closed, expiredOn := none, faultCode := some .expired, faultSlot := c.slot }).withOut out).withCause
            (.laneFault n)))

/-- A revisit countdown expires (R43, R44): it loads again with 256 times the interval, and in a lane paused AT-END or
NOT-READY sets re-read wanted. While a re-read of a NOT-READY slot is in flight the pause is NONE, and re-read wanted stays
as it is: the model's reading of R43 and R46, log entry 39. -/
def Obligations.RevisitExpires : Prop :=
  ∀ (n : LaneId) (s : State), s.engine = .ready ∨ s.engine = .halted → (s.lane n).revisit = some 0 →
    ((s.lane n).st = .priming ∨ (s.lane n).st = .running ∨ (s.lane n).st = .starved ∨ (s.lane n).st = .held) →
    let loaded : Option Nat := if (s.lane n).interval = 0#8 then none else some (256 * (s.lane n).interval.toNat)
    exec (.revisitExpiry n) s = .next (s.withLane n { s.lane n with
      revisit := loaded
      reread := if (s.lane n).pause = Pause.atEnd ∨ (s.lane n).pause = Pause.notReady then true
        else (s.lane n).reread })

/-- An input sample (R108 to R111, R121): the filter counts samples that differ from the filtered level; a recognised
change takes the level and marks the levels item, and when it matches the edge select it is an edge, an event of the
edge's source, which reaches the lanes that wait on it, or on a guard line a guard trip, and in HALTED a further trip.
That inPins keeps the level is the model's choice, log entry 13; the order of a trip's entries is log entries 20, 6 and
41, the watch slot at its pause CLOSED log entry 9. A lane whose wait on the edge expired at this tick and whose next
cue's wait began in that event is passed over, and that wait begins after the edge (R66, log entry 42). What follows is
over before the next command is taken, of the orders of R84 the model's choice: log entry 45. -/
def Obligations.InputSampleFiltered : Prop :=
  ∀ (i : Fin 8) (level : Bool) (s : State), s.engine = .ready ∨ s.engine = .halted → s.inputs[i].left = some 0 →
    let line := s.inputs[i]
    let loaded : InputLine := { line with left := some line.interval }
    ∃ pins : BitVec 8, (∀ j : Fin 8, pins.getLsbD j.val = if j = i then level else s.inPins.getLsbD j.val) ∧
      let sampled : InputLine → State := fun l => { s with inputs := s.inputs.set i.val l, inPins := pins }
      (level = line.level → exec (.inputSample i level) s = .next (sampled { loaded with agree := 0 })) ∧
      (level ≠ line.level → line.agree + 1 ≠ line.filter →
        exec (.inputSample i level) s = .next (sampled { loaded with agree := line.agree + 1 })) ∧
      (level ≠ line.level → line.agree + 1 = line.filter →
        let t : State := { sampled { loaded with level := level, agree := 0 } with marks := s.marks ||| (1#20 <<< 8) }
        let edge := (line.edge = .rise ∧ level = true) ∨ (line.edge = .fall ∧ level = false) ∨ line.edge = .both
        (¬ edge → exec (.inputSample i level) s = .next t) ∧
        (edge → line.guard = false → ∃ u, Delivered t u (edgeSource i) ∧
          exec (.inputSample i level) s = .next u.settle) ∧
        (edge → line.guard = false → s.settled → s.unwatched (.source (edgeSource i)) →
          exec (.inputSample i level) s = .next (t.unheard (edgeSource i))) ∧
        (edge → line.guard = true → s.engine = .ready →
          ∃ u, exec (.inputSample i level) s = .next u ∧ Tripped t u .guard .guard i) ∧
        (edge → line.guard = true → s.engine = .halted → exec (.inputSample i level) s = .next t.trippedAgain))

/-! The link. -/

/-- A frame is judged (R126 to R130, R135): FRAMING and PARITY are counted and raise LINK-ERROR; a correct frame is
ignored by its group, or its code fires the lane the arbiter chooses among those that wait on it, with what follows, or
goes to the receive queue when no lane waits on it, or is an overrun; the stop code trips a halt when the plan obeys it.
The order of a trip's entries is log entries 20, 6 and 41, the watch slot at its pause CLOSED log entry 9. A lane whose
wait on the code expired at this tick and whose next cue's wait began in that event is passed over, and that wait begins
after the code (R66, log entry 42). What follows is over before the next command is taken, of the orders of R84 the
model's choice: log entry 45. -/
def Obligations.FrameJudged : Prop :=
  ∀ (data : Byte) (parityBit stopBit : Bool) (s : State), s.link.rx = .frame true →
    let code : BitVec 6 := data.extractLsb' 0 6
    let group : BitVec 2 := data.extractLsb' 6 2
    let odd := (data.getLsbD 0 ^^ data.getLsbD 1 ^^ data.getLsbD 2 ^^ data.getLsbD 3 ^^ data.getLsbD 4 ^^
      data.getLsbD 5 ^^ data.getLsbD 6 ^^ data.getLsbD 7)
    let wrong := (s.link.plan.parity = .even ∧ parityBit ≠ odd) ∨ (s.link.plan.parity = .odd ∧ parityBit = odd)
    let hunting : LinkPort := { s.link with rx := .hunt }
    let mine := group = s.link.plan.group ∨ group = 3#2
    (stopBit = false → exec (.frameJudged data parityBit stopBit) s =
      .next ((s.withLink { s.link with rx := .waitHigh, framing := s.link.framing + 1 }).withCause .linkError)) ∧
    (stopBit = true → wrong → exec (.frameJudged data parityBit stopBit) s =
      .next ((s.withLink { hunting with parityErr := s.link.parityErr + 1 }).withCause .linkError)) ∧
    (stopBit = true → ¬ wrong → ¬ mine → exec (.frameJudged data parityBit stopBit) s = .next (s.withLink hunting)) ∧
    (stopBit = true → ¬ wrong → mine → code ≠ 63#6 →
      ∃ u, Claimed (s.withLink hunting) u (.link code) ((s.withLink hunting).unclaimedCode code) ∧
        exec (.frameJudged data parityBit stopBit) s = .next u.settle) ∧
    (stopBit = true → ¬ wrong → mine → code ≠ 63#6 → s.settled → s.unwatched (.link code) →
      (s.link.rxq.length < 8 → exec (.frameJudged data parityBit stopBit) s = .next (s.withLink { hunting with
        rxq := s.link.rxq ++ [{ code := code, tick := s.timebase }] })) ∧
      (8 ≤ s.link.rxq.length → exec (.frameJudged data parityBit stopBit) s =
        .next ((s.withLink { hunting with overrun := s.link.overrun + 1 }).withCause .linkError))) ∧
    (stopBit = true → ¬ wrong → mine → code = 63#6 →
      (s.link.plan.obey = false → exec (.frameJudged data parityBit stopBit) s = .next (s.withLink hunting)) ∧
      (s.link.plan.obey = true → s.engine = .ready → ∃ u, exec (.frameJudged data parityBit stopBit) s = .next u ∧
        Tripped (s.withLink hunting) u .linkStop .linkStop 0) ∧
      (s.link.plan.obey = true → s.engine = .halted → exec (.frameJudged data parityBit stopBit) s =
        .next (s.withLink hunting).trippedAgain))

/-- The transmitter ends a frame (R124, R134): it begins the relayed stop code, or the oldest queued code, or is IDLE. The
receiver's states before a frame (R125): a high sample ends WAIT-HIGH, a low one in HUNT is a start candidate, and the
sample at the middle of the start bit confirms it or drops it. -/
def Obligations.FrameSentAndReceiverStates : Prop :=
  ∀ s : State,
    (∀ b, s.link.sending = some b → s.link.plan.enabled = true → s.engine = .ready ∨ s.engine = .halted →
      (s.link.relayPending = true → exec .frameSent s = .next (s.withLink { s.link with
        sending := some 0xFF#8, relayPending := false })) ∧
      (s.link.relayPending = false → ∀ e q, s.link.txq = e :: q → ∃ data : Byte,
        data.extractLsb' 0 6 = e.code ∧ data.extractLsb' 6 2 = e.group ∧
        exec .frameSent s = .next (s.withLink { s.link with sending := some data, txq := q })) ∧
      (s.link.relayPending = false → s.link.txq = [] →
        exec .frameSent s = .next (s.withLink { s.link with sending := none }))) ∧
    (s.link.rx = .waitHigh → exec .lineShowsHigh s = .next { s with link := { s.link with rx := .hunt } }) ∧
    (s.link.rx = .hunt → exec .startCandidate s = .next { s with link := { s.link with rx := .frame false } }) ∧
    (s.link.rx = .frame false → ∀ level, exec (.startBitMiddleSample level) s =
      .next { s with link := { s.link with rx := if level = true then .hunt else .frame true } })

/-! Invariants. -/

/-- Every step keeps exchange memory in its canonical form. -/
def Obligations.EveryStepKeepsMemoryForm : Prop :=
  ∀ s t : State, MemoryOk s → step s = .next t → MemoryOk t

/-- Every step keeps the bounds of the queues and counts: the write-back places filled and reserved, the staging queues,
the six writes a lane may owe, the link queues, the pending counts, and the rising in-service list (R25, R47, R83, R130,
R133, R144, R147, R156). -/
def Obligations.EveryStepKeepsBounds : Prop :=
  ∀ s t : State, step s = .next t →
    (CapacityOk s → CapacityOk t) ∧ (StagingOk s → StagingOk t) ∧ (OwedOk s → OwedOk t) ∧
    (LinkQueuesOk s → LinkQueuesOk t) ∧ (CountsOk s → CountsOk t) ∧ (ServiceOk s → ServiceOk t)

/-- Every step keeps what stands outside READY: every lane IDLE or FAULTED and holding nothing (no mark of an expiry, log
entry 42), every pin low in CLEARING and UNSET, and every pin at its safe level in HALTED (R25, R92, R114, R118). -/
def Obligations.EveryStepKeepsPinLevels : Prop :=
  ∀ s t : State, PinsOk s → step s = .next t → PinsOk t

/-- The state after power-on meets every invariant. -/
def Obligations.ResetMeetsInvariants : Prop :=
  MemoryOk State.reset ∧ CapacityOk State.reset ∧ StagingOk State.reset ∧ OwedOk State.reset ∧
  LinkQueuesOk State.reset ∧ CountsOk State.reset ∧ ServiceOk State.reset ∧ PinsOk State.reset
end

