-- ==== Sys2Proof/Laws/State.lean ====
section
/-! SUPPORT. One lemma for each update of State: what it sets, and what it leaves as it was. -/

namespace Sys2Proof.Machine

/-- Marking an item changes the marks alone. -/
@[simp] theorem markItem_frame (s : State) (i : Fin 20) :
    (s.markItem i).engine = s.engine ∧ (s.markItem i).generation = s.generation ∧
    (s.markItem i).refused = s.refused ∧ (s.markItem i).nudge = s.nudge ∧ (s.markItem i).lastSeq = s.lastSeq ∧
    (s.markItem i).devSeq = s.devSeq ∧ (s.markItem i).devOut = s.devOut ∧ (s.markItem i).snapSet = s.snapSet ∧
    (s.markItem i).laneUrgent = s.laneUrgent ∧ (s.markItem i).readData = s.readData ∧ (s.markItem i).mem = s.mem ∧
    (s.markItem i).wbq = s.wbq ∧ (s.markItem i).port = s.port ∧ (s.markItem i).statusPos = s.statusPos ∧
    (s.markItem i).lanes = s.lanes ∧ (s.markItem i).sources = s.sources ∧ (s.markItem i).timebase = s.timebase ∧
    (s.markItem i).divider = s.divider ∧ (s.markItem i).beats = s.beats ∧ (s.markItem i).inputs = s.inputs ∧
    (s.markItem i).inPins = s.inPins ∧ (s.markItem i).owner = s.owner ∧ (s.markItem i).rest = s.rest ∧
    (s.markItem i).safe = s.safe ∧ (s.markItem i).static = s.static ∧ (s.markItem i).out = s.out ∧
    (s.markItem i).halt = s.halt ∧ (s.markItem i).link = s.link ∧ (s.markItem i).att = s.att ∧
    (s.markItem i).choices = s.choices ∧ (s.markItem i).pending = s.pending := by
  and_intros <;> rfl

/-- Replacing a lane's controller changes the lanes alone. -/
@[simp] theorem setLane_frame (s : State) (n : LaneId) (l : Lane) :
    (s.setLane n l).engine = s.engine ∧ (s.setLane n l).generation = s.generation ∧
    (s.setLane n l).refused = s.refused ∧ (s.setLane n l).nudge = s.nudge ∧ (s.setLane n l).lastSeq = s.lastSeq ∧
    (s.setLane n l).devSeq = s.devSeq ∧ (s.setLane n l).devOut = s.devOut ∧ (s.setLane n l).snapSet = s.snapSet ∧
    (s.setLane n l).laneUrgent = s.laneUrgent ∧ (s.setLane n l).readData = s.readData ∧
    (s.setLane n l).mem = s.mem ∧ (s.setLane n l).wbq = s.wbq ∧ (s.setLane n l).port = s.port ∧
    (s.setLane n l).marks = s.marks ∧ (s.setLane n l).statusPos = s.statusPos ∧
    (s.setLane n l).sources = s.sources ∧ (s.setLane n l).timebase = s.timebase ∧
    (s.setLane n l).divider = s.divider ∧ (s.setLane n l).beats = s.beats ∧ (s.setLane n l).inputs = s.inputs ∧
    (s.setLane n l).inPins = s.inPins ∧ (s.setLane n l).owner = s.owner ∧ (s.setLane n l).rest = s.rest ∧
    (s.setLane n l).safe = s.safe ∧ (s.setLane n l).static = s.static ∧ (s.setLane n l).out = s.out ∧
    (s.setLane n l).halt = s.halt ∧ (s.setLane n l).link = s.link ∧ (s.setLane n l).att = s.att ∧
    (s.setLane n l).choices = s.choices ∧ (s.setLane n l).pending = s.pending := by
  and_intros <;> rfl

/-- Changing a lane's controller changes the lanes and the marks alone (R52). -/
@[simp] theorem updLane_frame (s : State) (n : LaneId) (f : Lane → Lane) :
    (s.updLane n f).engine = s.engine ∧ (s.updLane n f).generation = s.generation ∧
    (s.updLane n f).refused = s.refused ∧ (s.updLane n f).nudge = s.nudge ∧ (s.updLane n f).lastSeq = s.lastSeq ∧
    (s.updLane n f).devSeq = s.devSeq ∧ (s.updLane n f).devOut = s.devOut ∧ (s.updLane n f).snapSet = s.snapSet ∧
    (s.updLane n f).laneUrgent = s.laneUrgent ∧ (s.updLane n f).readData = s.readData ∧
    (s.updLane n f).mem = s.mem ∧ (s.updLane n f).wbq = s.wbq ∧ (s.updLane n f).port = s.port ∧
    (s.updLane n f).statusPos = s.statusPos ∧ (s.updLane n f).sources = s.sources ∧
    (s.updLane n f).timebase = s.timebase ∧ (s.updLane n f).divider = s.divider ∧ (s.updLane n f).beats = s.beats ∧
    (s.updLane n f).inputs = s.inputs ∧ (s.updLane n f).inPins = s.inPins ∧ (s.updLane n f).owner = s.owner ∧
    (s.updLane n f).rest = s.rest ∧ (s.updLane n f).safe = s.safe ∧ (s.updLane n f).static = s.static ∧
    (s.updLane n f).out = s.out ∧ (s.updLane n f).halt = s.halt ∧ (s.updLane n f).link = s.link ∧
    (s.updLane n f).att = s.att ∧ (s.updLane n f).choices = s.choices ∧ (s.updLane n f).pending = s.pending := by
  unfold State.updLane; dsimp only; split <;> (and_intros <;> rfl)

/-- Replacing a source record changes the sources and the marks alone (R91). -/
@[simp] theorem setSource_frame (s : State) (i : SourceId) (r : Source) :
    (s.setSource i r).engine = s.engine ∧ (s.setSource i r).generation = s.generation ∧
    (s.setSource i r).refused = s.refused ∧ (s.setSource i r).nudge = s.nudge ∧
    (s.setSource i r).lastSeq = s.lastSeq ∧ (s.setSource i r).devSeq = s.devSeq ∧
    (s.setSource i r).devOut = s.devOut ∧ (s.setSource i r).snapSet = s.snapSet ∧
    (s.setSource i r).laneUrgent = s.laneUrgent ∧ (s.setSource i r).readData = s.readData ∧
    (s.setSource i r).mem = s.mem ∧ (s.setSource i r).wbq = s.wbq ∧ (s.setSource i r).port = s.port ∧
    (s.setSource i r).statusPos = s.statusPos ∧ (s.setSource i r).lanes = s.lanes ∧
    (s.setSource i r).timebase = s.timebase ∧ (s.setSource i r).divider = s.divider ∧
    (s.setSource i r).beats = s.beats ∧ (s.setSource i r).inputs = s.inputs ∧ (s.setSource i r).inPins = s.inPins ∧
    (s.setSource i r).owner = s.owner ∧ (s.setSource i r).rest = s.rest ∧ (s.setSource i r).safe = s.safe ∧
    (s.setSource i r).static = s.static ∧ (s.setSource i r).out = s.out ∧ (s.setSource i r).halt = s.halt ∧
    (s.setSource i r).link = s.link ∧ (s.setSource i r).att = s.att ∧ (s.setSource i r).choices = s.choices ∧
    (s.setSource i r).pending = s.pending := by
  unfold State.setSource; dsimp only; split <;> (and_intros <;> rfl)

/-- Raising a cause changes the attention unit alone (R153). -/
@[simp] theorem raise_frame (s : State) (c : Cause) :
    (s.raise c).engine = s.engine ∧ (s.raise c).generation = s.generation ∧ (s.raise c).refused = s.refused ∧
    (s.raise c).nudge = s.nudge ∧ (s.raise c).lastSeq = s.lastSeq ∧ (s.raise c).devSeq = s.devSeq ∧
    (s.raise c).devOut = s.devOut ∧ (s.raise c).snapSet = s.snapSet ∧ (s.raise c).laneUrgent = s.laneUrgent ∧
    (s.raise c).readData = s.readData ∧ (s.raise c).mem = s.mem ∧ (s.raise c).wbq = s.wbq ∧
    (s.raise c).port = s.port ∧ (s.raise c).marks = s.marks ∧ (s.raise c).statusPos = s.statusPos ∧
    (s.raise c).lanes = s.lanes ∧ (s.raise c).sources = s.sources ∧ (s.raise c).timebase = s.timebase ∧
    (s.raise c).divider = s.divider ∧ (s.raise c).beats = s.beats ∧ (s.raise c).inputs = s.inputs ∧
    (s.raise c).inPins = s.inPins ∧ (s.raise c).owner = s.owner ∧ (s.raise c).rest = s.rest ∧
    (s.raise c).safe = s.safe ∧ (s.raise c).static = s.static ∧ (s.raise c).out = s.out ∧
    (s.raise c).halt = s.halt ∧ (s.raise c).link = s.link ∧ (s.raise c).choices = s.choices ∧
    (s.raise c).pending = s.pending := by
  and_intros <;> rfl

/-- New pin levels change the levels and the marks alone (R121). -/
@[simp] theorem setOut_frame (s : State) (p : Pins) :
    (s.setOut p).engine = s.engine ∧ (s.setOut p).generation = s.generation ∧ (s.setOut p).refused = s.refused ∧
    (s.setOut p).nudge = s.nudge ∧ (s.setOut p).lastSeq = s.lastSeq ∧ (s.setOut p).devSeq = s.devSeq ∧
    (s.setOut p).devOut = s.devOut ∧ (s.setOut p).snapSet = s.snapSet ∧ (s.setOut p).laneUrgent = s.laneUrgent ∧
    (s.setOut p).readData = s.readData ∧ (s.setOut p).mem = s.mem ∧ (s.setOut p).wbq = s.wbq ∧
    (s.setOut p).port = s.port ∧ (s.setOut p).statusPos = s.statusPos ∧ (s.setOut p).lanes = s.lanes ∧
    (s.setOut p).sources = s.sources ∧ (s.setOut p).timebase = s.timebase ∧ (s.setOut p).divider = s.divider ∧
    (s.setOut p).beats = s.beats ∧ (s.setOut p).inputs = s.inputs ∧ (s.setOut p).inPins = s.inPins ∧
    (s.setOut p).owner = s.owner ∧ (s.setOut p).rest = s.rest ∧ (s.setOut p).safe = s.safe ∧
    (s.setOut p).static = s.static ∧ (s.setOut p).halt = s.halt ∧ (s.setOut p).link = s.link ∧
    (s.setOut p).att = s.att ∧ (s.setOut p).choices = s.choices ∧ (s.setOut p).pending = s.pending := by
  unfold State.setOut; split <;> (and_intros <;> rfl)

/-- An entry that joins the queue changes the queue alone (R147). -/
@[simp] theorem enqueue_frame (s : State) (e : WriteBack) :
    (s.enqueue e).engine = s.engine ∧ (s.enqueue e).generation = s.generation ∧ (s.enqueue e).refused = s.refused ∧
    (s.enqueue e).nudge = s.nudge ∧ (s.enqueue e).lastSeq = s.lastSeq ∧ (s.enqueue e).devSeq = s.devSeq ∧
    (s.enqueue e).devOut = s.devOut ∧ (s.enqueue e).snapSet = s.snapSet ∧ (s.enqueue e).laneUrgent = s.laneUrgent ∧
    (s.enqueue e).readData = s.readData ∧ (s.enqueue e).mem = s.mem ∧ (s.enqueue e).port = s.port ∧
    (s.enqueue e).marks = s.marks ∧ (s.enqueue e).statusPos = s.statusPos ∧ (s.enqueue e).lanes = s.lanes ∧
    (s.enqueue e).sources = s.sources ∧ (s.enqueue e).timebase = s.timebase ∧ (s.enqueue e).divider = s.divider ∧
    (s.enqueue e).beats = s.beats ∧ (s.enqueue e).inputs = s.inputs ∧ (s.enqueue e).inPins = s.inPins ∧
    (s.enqueue e).owner = s.owner ∧ (s.enqueue e).rest = s.rest ∧ (s.enqueue e).safe = s.safe ∧
    (s.enqueue e).static = s.static ∧ (s.enqueue e).out = s.out ∧ (s.enqueue e).halt = s.halt ∧
    (s.enqueue e).link = s.link ∧ (s.enqueue e).att = s.att ∧ (s.enqueue e).choices = s.choices ∧
    (s.enqueue e).pending = s.pending := by
  and_intros <;> rfl

/-- Changing the link port changes the link port and the marks alone (R136). -/
@[simp] theorem updLink_frame (s : State) (f : LinkPort → LinkPort) :
    (s.updLink f).engine = s.engine ∧ (s.updLink f).generation = s.generation ∧ (s.updLink f).refused = s.refused ∧
    (s.updLink f).nudge = s.nudge ∧ (s.updLink f).lastSeq = s.lastSeq ∧ (s.updLink f).devSeq = s.devSeq ∧
    (s.updLink f).devOut = s.devOut ∧ (s.updLink f).snapSet = s.snapSet ∧ (s.updLink f).laneUrgent = s.laneUrgent ∧
    (s.updLink f).readData = s.readData ∧ (s.updLink f).mem = s.mem ∧ (s.updLink f).wbq = s.wbq ∧
    (s.updLink f).port = s.port ∧ (s.updLink f).statusPos = s.statusPos ∧ (s.updLink f).lanes = s.lanes ∧
    (s.updLink f).sources = s.sources ∧ (s.updLink f).timebase = s.timebase ∧ (s.updLink f).divider = s.divider ∧
    (s.updLink f).beats = s.beats ∧ (s.updLink f).inputs = s.inputs ∧ (s.updLink f).inPins = s.inPins ∧
    (s.updLink f).owner = s.owner ∧ (s.updLink f).rest = s.rest ∧ (s.updLink f).safe = s.safe ∧
    (s.updLink f).static = s.static ∧ (s.updLink f).out = s.out ∧ (s.updLink f).halt = s.halt ∧
    (s.updLink f).att = s.att ∧ (s.updLink f).choices = s.choices ∧ (s.updLink f).pending = s.pending := by
  unfold State.updLink; dsimp only; split <;> split <;> (and_intros <;> rfl)

/-- Changing a beat changes the beats alone. -/
@[simp] theorem updBeat_frame (s : State) (b : Fin 8) (f : Beat → Beat) :
    (s.updBeat b f).engine = s.engine ∧ (s.updBeat b f).generation = s.generation ∧
    (s.updBeat b f).refused = s.refused ∧ (s.updBeat b f).nudge = s.nudge ∧ (s.updBeat b f).lastSeq = s.lastSeq ∧
    (s.updBeat b f).devSeq = s.devSeq ∧ (s.updBeat b f).devOut = s.devOut ∧ (s.updBeat b f).snapSet = s.snapSet ∧
    (s.updBeat b f).laneUrgent = s.laneUrgent ∧ (s.updBeat b f).readData = s.readData ∧
    (s.updBeat b f).mem = s.mem ∧ (s.updBeat b f).wbq = s.wbq ∧ (s.updBeat b f).port = s.port ∧
    (s.updBeat b f).marks = s.marks ∧ (s.updBeat b f).statusPos = s.statusPos ∧ (s.updBeat b f).lanes = s.lanes ∧
    (s.updBeat b f).sources = s.sources ∧ (s.updBeat b f).timebase = s.timebase ∧
    (s.updBeat b f).divider = s.divider ∧ (s.updBeat b f).inputs = s.inputs ∧ (s.updBeat b f).inPins = s.inPins ∧
    (s.updBeat b f).owner = s.owner ∧ (s.updBeat b f).rest = s.rest ∧ (s.updBeat b f).safe = s.safe ∧
    (s.updBeat b f).static = s.static ∧ (s.updBeat b f).out = s.out ∧ (s.updBeat b f).halt = s.halt ∧
    (s.updBeat b f).link = s.link ∧ (s.updBeat b f).att = s.att ∧ (s.updBeat b f).choices = s.choices ∧
    (s.updBeat b f).pending = s.pending := by
  and_intros <;> rfl

/-- Setting the halt record changes the record and the marks alone (R115). -/
@[simp] theorem setHalt_frame (s : State) (h : HaltRecord) :
    (s.setHalt h).engine = s.engine ∧ (s.setHalt h).generation = s.generation ∧ (s.setHalt h).refused = s.refused ∧
    (s.setHalt h).nudge = s.nudge ∧ (s.setHalt h).lastSeq = s.lastSeq ∧ (s.setHalt h).devSeq = s.devSeq ∧
    (s.setHalt h).devOut = s.devOut ∧ (s.setHalt h).snapSet = s.snapSet ∧ (s.setHalt h).laneUrgent = s.laneUrgent ∧
    (s.setHalt h).readData = s.readData ∧ (s.setHalt h).mem = s.mem ∧ (s.setHalt h).wbq = s.wbq ∧
    (s.setHalt h).port = s.port ∧ (s.setHalt h).statusPos = s.statusPos ∧ (s.setHalt h).lanes = s.lanes ∧
    (s.setHalt h).sources = s.sources ∧ (s.setHalt h).timebase = s.timebase ∧ (s.setHalt h).divider = s.divider ∧
    (s.setHalt h).beats = s.beats ∧ (s.setHalt h).inputs = s.inputs ∧ (s.setHalt h).inPins = s.inPins ∧
    (s.setHalt h).owner = s.owner ∧ (s.setHalt h).rest = s.rest ∧ (s.setHalt h).safe = s.safe ∧
    (s.setHalt h).static = s.static ∧ (s.setHalt h).out = s.out ∧ (s.setHalt h).link = s.link ∧
    (s.setHalt h).att = s.att ∧ (s.setHalt h).choices = s.choices ∧ (s.setHalt h).pending = s.pending := by
  unfold State.setHalt; dsimp only; split <;> (and_intros <;> rfl)

/-- Setting the receiver's state changes the link port alone. -/
@[simp] theorem setRx_frame (s : State) (r : Receiver) :
    (s.setRx r).engine = s.engine ∧ (s.setRx r).generation = s.generation ∧ (s.setRx r).refused = s.refused ∧
    (s.setRx r).nudge = s.nudge ∧ (s.setRx r).lastSeq = s.lastSeq ∧ (s.setRx r).devSeq = s.devSeq ∧
    (s.setRx r).devOut = s.devOut ∧ (s.setRx r).snapSet = s.snapSet ∧ (s.setRx r).laneUrgent = s.laneUrgent ∧
    (s.setRx r).readData = s.readData ∧ (s.setRx r).mem = s.mem ∧ (s.setRx r).wbq = s.wbq ∧
    (s.setRx r).port = s.port ∧ (s.setRx r).marks = s.marks ∧ (s.setRx r).statusPos = s.statusPos ∧
    (s.setRx r).lanes = s.lanes ∧ (s.setRx r).sources = s.sources ∧ (s.setRx r).timebase = s.timebase ∧
    (s.setRx r).divider = s.divider ∧ (s.setRx r).beats = s.beats ∧ (s.setRx r).inputs = s.inputs ∧
    (s.setRx r).inPins = s.inPins ∧ (s.setRx r).owner = s.owner ∧ (s.setRx r).rest = s.rest ∧
    (s.setRx r).safe = s.safe ∧ (s.setRx r).static = s.static ∧ (s.setRx r).out = s.out ∧
    (s.setRx r).halt = s.halt ∧ (s.setRx r).att = s.att ∧ (s.setRx r).choices = s.choices ∧
    (s.setRx r).pending = s.pending := by
  and_intros <;> rfl

/-- Overtaking a fetch changes the transaction under way alone (R146). -/
@[simp] theorem overtake_frame (s : State) (n : LaneId) :
    (s.overtake n).engine = s.engine ∧ (s.overtake n).generation = s.generation ∧
    (s.overtake n).refused = s.refused ∧ (s.overtake n).nudge = s.nudge ∧ (s.overtake n).lastSeq = s.lastSeq ∧
    (s.overtake n).devSeq = s.devSeq ∧ (s.overtake n).devOut = s.devOut ∧ (s.overtake n).snapSet = s.snapSet ∧
    (s.overtake n).laneUrgent = s.laneUrgent ∧ (s.overtake n).readData = s.readData ∧ (s.overtake n).mem = s.mem ∧
    (s.overtake n).wbq = s.wbq ∧ (s.overtake n).marks = s.marks ∧ (s.overtake n).statusPos = s.statusPos ∧
    (s.overtake n).lanes = s.lanes ∧ (s.overtake n).sources = s.sources ∧ (s.overtake n).timebase = s.timebase ∧
    (s.overtake n).divider = s.divider ∧ (s.overtake n).beats = s.beats ∧ (s.overtake n).inputs = s.inputs ∧
    (s.overtake n).inPins = s.inPins ∧ (s.overtake n).owner = s.owner ∧ (s.overtake n).rest = s.rest ∧
    (s.overtake n).safe = s.safe ∧ (s.overtake n).static = s.static ∧ (s.overtake n).out = s.out ∧
    (s.overtake n).halt = s.halt ∧ (s.overtake n).link = s.link ∧ (s.overtake n).att = s.att ∧
    (s.overtake n).choices = s.choices ∧ (s.overtake n).pending = s.pending := by
  unfold State.overtake; split <;> (and_intros <;> rfl)

/-! What each update sets. -/

@[simp] theorem markItem_marks (s : State) (i : Fin 20) : (s.markItem i).marks = s.marks ||| (1#20 <<< i.val) := rfl

@[simp] theorem setLane_lane_self (s : State) (n : LaneId) (l : Lane) : (s.setLane n l).lane n = l := by
  simp [State.setLane, State.lane]

@[simp] theorem setLane_lane_ne (s : State) (n m : LaneId) (l : Lane) (h : m ≠ n) : (s.setLane n l).lane m = s.lane m := by
  have : n.val ≠ m.val := fun e => h (Fin.ext e.symm)
  simp [State.setLane, State.lane, Vector.getElem_set_ne, this]

@[simp] theorem markItem_lane (s : State) (i : Fin 20) (n : LaneId) : (s.markItem i).lane n = s.lane n := rfl

/-! An update that leaves the lanes leaves each lane. -/

@[simp] theorem setSource_lane (s : State) (i : SourceId) (r : Source) (n : LaneId) : (s.setSource i r).lane n = s.lane n := by simp [State.lane]

@[simp] theorem raise_lane (s : State) (c : Cause) (n : LaneId) : (s.raise c).lane n = s.lane n := by simp [State.lane]

@[simp] theorem setOut_lane (s : State) (p : Pins) (n : LaneId) : (s.setOut p).lane n = s.lane n := by simp [State.lane]

@[simp] theorem enqueue_lane (s : State) (e : WriteBack) (n : LaneId) : (s.enqueue e).lane n = s.lane n := by simp [State.lane]

@[simp] theorem updLink_lane (s : State) (f : LinkPort → LinkPort) (n : LaneId) : (s.updLink f).lane n = s.lane n := by simp [State.lane]

@[simp] theorem updBeat_lane (s : State) (b : Fin 8) (f : Beat → Beat) (n : LaneId) : (s.updBeat b f).lane n = s.lane n := by simp [State.lane]

@[simp] theorem setHalt_lane (s : State) (h : HaltRecord) (n : LaneId) : (s.setHalt h).lane n = s.lane n := by simp [State.lane]

@[simp] theorem setRx_lane (s : State) (r : Receiver) (n : LaneId) : (s.setRx r).lane n = s.lane n := by simp [State.lane]

@[simp] theorem overtake_lane (s : State) (m : LaneId) (n : LaneId) : (s.overtake m).lane n = s.lane n := by simp [State.lane]

theorem updLane_lanes (s : State) (n : LaneId) (f : Lane → Lane) :
    (s.updLane n f).lanes = s.lanes.set n.val (f (s.lane n)) := by
  unfold State.updLane; dsimp only; split <;> rfl

@[simp] theorem updLane_lane_self (s : State) (n : LaneId) (f : Lane → Lane) : (s.updLane n f).lane n = f (s.lane n) := by
  simp [State.lane, updLane_lanes]

@[simp] theorem updLane_lane_ne (s : State) (n m : LaneId) (f : Lane → Lane) (h : m ≠ n) :
    (s.updLane n f).lane m = s.lane m := by
  have : n.val ≠ m.val := fun e => h (Fin.ext e.symm)
  simp [State.lane, updLane_lanes, Vector.getElem_set_ne, this]

theorem updLane_marks (s : State) (n : LaneId) (f : Lane → Lane) :
    (s.updLane n f).marks = if (f (s.lane n)).progressWords = (s.lane n).progressWords then s.marks
      else s.marks ||| (1#20 <<< n.val) := by
  unfold State.updLane; dsimp only; split <;> rfl

@[simp] theorem setSource_source_self (s : State) (i : SourceId) (r : Source) : (s.setSource i r).source i = r := by
  unfold State.setSource; dsimp only; split <;> simp [State.source, State.markItem]

@[simp] theorem setSource_source_ne (s : State) (i j : SourceId) (r : Source) (h : j ≠ i) :
    (s.setSource i r).source j = s.source j := by
  have : i.val ≠ j.val := fun e => h (Fin.ext e.symm)
  unfold State.setSource; dsimp only
  split <;> simp [State.source, State.markItem, Vector.getElem_set_ne, this]

@[simp] theorem raise_att (s : State) (c : Cause) : (s.raise c).att = s.att.raise c := rfl

@[simp] theorem setOut_out (s : State) (p : Pins) : (s.setOut p).out = p := by
  unfold State.setOut; split
  · rename_i h; exact h.symm
  · rfl

theorem setOut_marks (s : State) (p : Pins) :
    (s.setOut p).marks = if p = s.out then s.marks else s.marks ||| (1#20 <<< 8) := by
  unfold State.setOut; split <;> rfl

@[simp] theorem enqueue_wbq (s : State) (e : WriteBack) : (s.enqueue e).wbq = s.wbq ++ [e] := rfl

@[simp] theorem updLink_link (s : State) (f : LinkPort → LinkPort) : (s.updLink f).link = f s.link := by
  unfold State.updLink; dsimp only; split <;> split <;> rfl

/-- A halt record set: it is marked where it differs from the one before (R115, R149). -/
theorem setHalt_eq (s : State) (h : HaltRecord) :
    s.setHalt h = { s with halt := h, marks := if h = s.halt then s.marks else s.marks ||| (1#20 <<< 9) } := by
  unfold State.setHalt; dsimp only; split <;> rfl

@[simp] theorem setHalt_halt (s : State) (h : HaltRecord) : (s.setHalt h).halt = h := by rw [setHalt_eq]

end Sys2Proof.Machine
end

