-- ==== Sys2Proof/Laws/Memory.lean ====
section
/-! SUPPORT. Exchange memory: what a byte and a word read after a write, and the canonical form, which every memory
operation keeps. -/

namespace Sys2Proof.Machine

theorem Memory.wf_cons {a : Nat} {b : Byte} {m : List Host.Cell} :
    Memory.wf ((a, b) :: m) = true ↔
      b ≠ 0 ∧ a < Config.memoryEnd ∧ (∀ c ∈ m, a < c.1) ∧ Memory.wf m = true := by
  simp [Memory.wf, and_assoc]

/-- An address below every listed one reads 0. -/
theorem memByte_of_below {m : List Host.Cell} {k : Nat} (h : ∀ c ∈ m, k < c.1) : memByte m k = 0 := by
  induction m with
  | nil => rfl
  | cons c m ih =>
    have h1 : k < c.1 := h c (by simp)
    simp [memByte, Nat.ne_of_lt h1, ih (fun d hd => h d (by simp [hd]))]

theorem setByte_mem {m : List Host.Cell} {k : Nat} {v : Byte} {c : Host.Cell} (h : c ∈ setByte m k v) :
    c ∈ m ∨ c = (k, v) := by
  induction m with
  | nil => simp only [setByte] at h; split at h <;> simp_all
  | cons d m ih =>
    obtain ⟨a, b⟩ := d
    simp only [setByte] at h
    split at h
    · split at h <;> simp_all
      tauto
    · split at h
      · split at h <;> simp_all
        tauto
      · rcases List.mem_cons.mp h with h | h
        · exact Or.inl (by simp [h])
        · rcases ih h with h | h
          · exact Or.inl (by simp [h])
          · exact Or.inr h

/-- A byte write inside exchange memory keeps the canonical form. -/
theorem setByte_wf {m : List Host.Cell} {k : Nat} {v : Byte} (hm : Memory.wf m = true) (hk : k < Config.memoryEnd) :
    Memory.wf (setByte m k v) = true := by
  induction m with
  | nil => unfold setByte; split <;> simp_all [Memory.wf]
  | cons d m ih =>
    obtain ⟨a, b⟩ := d
    have h := Memory.wf_cons.mp hm
    obtain ⟨hb, ha, hlt, hwf⟩ := h
    simp only [setByte]
    split
    · rename_i hka
      split
      · exact hm
      · rename_i hv
        refine Memory.wf_cons.mpr ⟨hv, hk, ?_, hm⟩
        intro c hc
        rcases List.mem_cons.mp hc with hc | hc
        · simpa [hc] using hka
        · exact Nat.lt_trans hka (hlt c hc)
    · split
      · rename_i hka
        split
        · exact hwf
        · rename_i hv
          exact Memory.wf_cons.mpr ⟨hv, hk, fun c hc => hka ▸ hlt c hc, hwf⟩
      · rename_i h1 h2
        refine Memory.wf_cons.mpr ⟨hb, ha, ?_, ih hwf⟩
        intro c hc
        rcases setByte_mem hc with hc | hc
        · exact hlt c hc
        · have : a < k := by omega
          simpa [hc] using this

/-- A byte write is read back, in a memory of canonical form. -/
theorem memByte_setByte_self {m : List Host.Cell} (hm : Memory.wf m = true) (k : Nat) (v : Byte) :
    memByte (setByte m k v) k = v := by
  induction m with
  | nil => simp only [setByte]; split <;> simp_all [memByte]
  | cons d m ih =>
    obtain ⟨a, b⟩ := d
    obtain ⟨_, _, hlt, hwf⟩ := Memory.wf_cons.mp hm
    simp only [setByte]
    split
    · rename_i hka
      split
      · rename_i hv
        rw [memByte_of_below, hv]
        intro c hc
        rcases List.mem_cons.mp hc with hc | hc
        · simpa [hc] using hka
        · exact Nat.lt_trans hka (hlt c hc)
      · simp [memByte]
    · split
      · rename_i hka
        split
        · rename_i hv
          rw [memByte_of_below (fun c hc => hka ▸ hlt c hc), hv]
        · simp [memByte]
      · rename_i h1 h2
        simp only [memByte, if_neg h2]
        exact ih hwf

/-- A byte write leaves every other byte. -/
theorem memByte_setByte_ne {m : List Host.Cell} {k j : Nat} (v : Byte) (h : j ≠ k) :
    memByte (setByte m k v) j = memByte m j := by
  induction m with
  | nil => simp only [setByte]; split <;> simp_all [memByte]
  | cons d m ih =>
    obtain ⟨a, b⟩ := d
    simp only [setByte]
    split
    · split
      · rfl
      · simp [memByte, h]
    · split
      · rename_i hka
        have hja : j ≠ a := hka ▸ h
        split <;> simp [memByte, hja, h]
      · simp only [memByte]
        split
        · rfl
        · exact ih

theorem writeWord_wf {m : List Host.Cell} (hm : Memory.wf m = true) (i : Nat) (w : Word) :
    Memory.wf (writeWord m i w) = true := by
  unfold writeWord
  split
  · exact setByte_wf (setByte_wf (setByte_wf (setByte_wf hm (by omega)) (by omega)) (by omega)) (by omega)
  · exact hm

/-- A word write leaves every byte outside the word. -/
theorem memByte_writeWord_ne {m : List Host.Cell} {i a : Nat} (w : Word) (h : a / 4 ≠ i) :
    memByte (writeWord m i w) a = memByte m a := by
  unfold writeWord
  split
  · rw [memByte_setByte_ne _ (by omega), memByte_setByte_ne _ (by omega), memByte_setByte_ne _ (by omega),
      memByte_setByte_ne _ (by omega)]
  · rfl

/-- A word write leaves every other word. -/
theorem readWord_writeWord_ne {m : List Host.Cell} {i j : Nat} (w : Word) (h : j ≠ i) :
    readWord (writeWord m i w) j = readWord m j := by
  unfold readWord
  rw [memByte_writeWord_ne _ (by omega), memByte_writeWord_ne _ (by omega), memByte_writeWord_ne _ (by omega),
    memByte_writeWord_ne _ (by omega)]

/-- The four bytes of a word make the word. -/
theorem bytes_of_word (w : Word) : field w 24 8 ++ field w 16 8 ++ field w 8 8 ++ field w 0 8 = w := by
  ext i hi
  simp only [field, BitVec.getElem_append, BitVec.getElem_extractLsb']
  split
  · simp [BitVec.getLsbD, BitVec.getElem_eq_testBit_toNat]
  · split
    · rw [← BitVec.getLsbD_eq_getElem]; congr 1; omega
    · split
      · rw [← BitVec.getLsbD_eq_getElem]; congr 1; omega
      · rw [← BitVec.getLsbD_eq_getElem]; congr 1; omega

/-- A word write inside exchange memory is read back. -/
theorem readWord_writeWord_self {m : List Host.Cell} (hm : Memory.wf m = true) {i : Nat} (hi : i < 8192) (w : Word) :
    readWord (writeWord m i w) i = w := by
  have hin : 4 * i + 3 < Config.memoryEnd := by show 4 * i + 3 < 0x8000; omega
  unfold readWord writeWord
  rw [if_pos hin]
  have h1 := setByte_wf (v := field w 0 8) hm (k := 4 * i) (by omega)
  have h2 := setByte_wf (v := field w 8 8) h1 (k := 4 * i + 1) (by omega)
  have h3 := setByte_wf (v := field w 16 8) h2 (k := 4 * i + 2) (by omega)
  rw [memByte_setByte_self h3, memByte_setByte_ne _ (by omega), memByte_setByte_self h2,
    memByte_setByte_ne _ (by omega), memByte_setByte_ne _ (by omega), memByte_setByte_self h1,
    memByte_setByte_ne _ (by omega), memByte_setByte_ne _ (by omega), memByte_setByte_ne _ (by omega),
    memByte_setByte_self hm]
  exact bytes_of_word w

theorem landHostWrite_wf {m : List Host.Cell} (hm : Memory.wf m = true) (w : HostWrite) :
    Memory.wf (landHostWrite m w) = true := writeWord_wf hm _ _

theorem landGroup_wf {m : List Host.Cell} (hm : Memory.wf m = true) (g : List HostWrite) :
    Memory.wf (landGroup m g) = true := by
  unfold landGroup
  induction g generalizing m with
  | nil => exact hm
  | cons w g ih => exact ih (landHostWrite_wf hm w)

theorem landAll_wf {m : List Host.Cell} (hm : Memory.wf m = true) (ws : Between) : Memory.wf (landAll m ws) = true := by
  unfold landAll
  induction ws generalizing m with
  | nil => exact hm
  | cons g ws ih => exact ih (landGroup_wf hm g)

theorem readSeq_wf {m : List Host.Cell} (hm : Memory.wf m = true) (is : List Nat) (ws : Between) :
    Memory.wf (readSeq is ws m).2.2 = true := by
  induction is generalizing ws m with
  | nil => exact hm
  | cons i is ih => exact ih (landGroup_wf hm _) _

theorem writeSeq_wf {m : List Host.Cell} (hm : Memory.wf m = true) (ps : List (Nat × Word)) (ws : Between) :
    Memory.wf (writeSeq ps ws m) = true := by
  induction ps generalizing ws m with
  | nil => exact landAll_wf hm ws
  | cons p ps ih => exact ih (writeWord_wf (landGroup_wf hm _) _ _) _

/-- With no host write inside it, a reading transaction reads the words as they stand and leaves memory. -/
@[simp] theorem readSeq_quiet (is : List Nat) (m : List Host.Cell) : readSeq is [] m = (is.map (readWord m), [], m) := by
  induction is with
  | nil => rfl
  | cons i is ih => simp [readSeq, landGroup, ih]

@[simp] theorem landAll_nil (m : List Host.Cell) : landAll m [] = m := rfl

end Sys2Proof.Machine
end

