-- ==== Sys2Proof/Laws/Events.lean ====
section
/-! SUPPORT. What the operations of an event leave as they were, each said once as an EventFrame, and the rule by which
what every small action keeps is kept by the whole event. -/

namespace Sys2Proof.Machine

namespace EventFrame

@[refl] theorem refl (s : State) : EventFrame s s := rfl

@[trans] theorem trans {s t u : State} (h1 : EventFrame s t) (h2 : EventFrame t u) : EventFrame s u := by
  unfold EventFrame at *
  cases s; cases t; cases u
  simp only [State.mk.injEq] at *
  simp_all

/-- The fields no event changes. -/
theorem fields {s t : State} (h : EventFrame s t) :
    t.engine = s.engine ∧ t.generation = s.generation ∧ t.refused = s.refused ∧ t.nudge = s.nudge ∧
    t.lastSeq = s.lastSeq ∧ t.devSeq = s.devSeq ∧ t.devOut = s.devOut ∧ t.snapSet = s.snapSet ∧
    t.laneUrgent = s.laneUrgent ∧ t.readData = s.readData ∧ t.mem = s.mem ∧ t.statusPos = s.statusPos ∧
    t.timebase = s.timebase ∧ t.divider = s.divider ∧ t.inputs = s.inputs ∧ t.inPins = s.inPins ∧
    t.owner = s.owner ∧ t.rest = s.rest ∧ t.safe = s.safe ∧ t.static = s.static ∧ t.halt = s.halt ∧
    t.pending = s.pending := by
  unfold EventFrame at h
  cases s; cases t
  simp only [State.mk.injEq] at h
  simp_all

theorem updLane (s : State) (n : LaneId) (f : Lane → Lane) : EventFrame s (s.updLane n f) := by
  unfold EventFrame State.updLane; dsimp only; split <;> rfl

theorem setSource (s : State) (i : SourceId) (r : Source) : EventFrame s (s.setSource i r) := by
  unfold EventFrame State.setSource; dsimp only; split <;> rfl

theorem raise (s : State) (c : Cause) : EventFrame s (s.raise c) := rfl

theorem setOut (s : State) (p : Pins) : EventFrame s (s.setOut p) := by
  unfold EventFrame State.setOut; split <;> rfl

theorem enqueue (s : State) (e : WriteBack) : EventFrame s (s.enqueue e) := rfl

theorem updLink (s : State) (f : LinkPort → LinkPort) : EventFrame s (s.updLink f) := by
  unfold EventFrame State.updLink; dsimp only; split <;> split <;> rfl

theorem updBeat (s : State) (b : Fin 8) (f : Beat → Beat) : EventFrame s (s.updBeat b f) := rfl

theorem updFiring (s : State) (n : LaneId) (f : Firing → Firing) : EventFrame s (s.updFiring n f) := updLane _ _ _

theorem overtake (s : State) (n : LaneId) : EventFrame s (s.overtake n) := by
  unfold EventFrame State.overtake; split <;> rfl

theorem choices (s : State) (k : Nat) : EventFrame s { s with choices := k } := rfl

theorem produce (s : State) (n : LaneId) (e : WriteBack) : EventFrame s (s.produce n e) := by
  unfold State.produce; split
  · exact enqueue s e
  · exact updLane _ _ _

theorem produceAll (s : State) (n : LaneId) (es : List WriteBack) : EventFrame s (s.produceAll n es) := by
  unfold State.produceAll
  induction es generalizing s with
  | nil => rfl
  | cons e es ih => exact (produce s n e).trans (ih _)

theorem produceReserved (s : State) (n : LaneId) (e : WriteBack) : EventFrame s (s.produceReserved n e) := by
  unfold State.produceReserved; split
  · exact enqueue s e
  · exact (enqueue s _).trans (updLane _ _ _)

theorem fireLane (s : State) (n : LaneId) (v : Option (SourceId × Word)) : EventFrame s (s.fireLane n v) := by
  unfold State.fireLane; split
  · rfl
  · exact (updLane _ _ _).trans (setOut _ _)

theorem fold {α : Type} (g : State → α → State) (hg : ∀ s a, EventFrame s (g s a)) (as : List α) (s : State) :
    EventFrame s (as.foldl g s) := by
  induction as generalizing s with
  | nil => rfl
  | cons a as ih => exact (hg s a).trans (ih _)

theorem afterEvent (s : State) (t : Trigger) : EventFrame s (s.afterEvent t) :=
  fold _ (fun u n => updLane u n _) _ s

theorem shareEvent (s : State) (i : SourceId) : EventFrame s (s.shareEvent i) :=
  ((fold _ (fun t n => fireLane t n _) _ s).trans (setSource _ _ _)).trans (afterEvent _ _)

theorem claimTaken (s : State) (i : SourceId) : EventFrame s (s.claimTaken i) := by
  unfold State.claimTaken; split
  · exact fireLane _ _ _
  · split
    · exact setSource _ _ _
    · exact (setSource _ _ _).trans (raise _ _)

theorem claimEvent (s : State) (i : SourceId) : EventFrame s (s.claimEvent i) :=
  (claimTaken s i).trans (afterEvent _ _)

theorem sourceEvent (s : State) (i : SourceId) : EventFrame s (s.sourceEvent i) := by
  unfold State.sourceEvent; split
  · exact claimEvent s i
  · exact shareEvent s i

theorem codeTaken (s : State) (c : BitVec 6) : EventFrame s (s.codeTaken c) := by
  unfold State.codeTaken; split
  · exact fireLane _ _ _
  · split
    · exact updLink _ _
    · exact (updLink _ _).trans (raise _ _)

theorem linkEvent (s : State) (c : BitVec 6) : EventFrame s (s.linkEvent c) :=
  (codeTaken s c).trans (afterEvent _ _)

theorem send (s : State) (n : LaneId) (c : BitVec 6) (g : BitVec 2) : EventFrame s (s.send n c g) := by
  unfold State.send; split
  · exact updLink _ _
  · exact ((updLink _ _).trans (raise _ _)).trans (updFiring _ _ _)

theorem closeLane (s : State) (n : LaneId) (st : LaneState) : EventFrame s (s.closeLane n st) :=
  (updLane s n _).trans (overtake _ n)

theorem laneFault (s : State) (n : LaneId) (code : FaultCode) (m : Option Link) :
    EventFrame s (s.laneFault n code m) := by
  unfold State.laneFault
  exact ((((produceAll s n _).trans (closeLane _ n _)).trans (updLane _ n _)).trans (setOut _ _)).trans (raise _ _)

theorem leaveQueue (s : State) (n : LaneId) (c : Copy) (f : Firing) (e : Ending) :
    EventFrame s (s.leaveQueue n c f e) := by
  unfold State.leaveQueue; dsimp only
  split
  · exact (((enqueue s _).trans (produceAll _ n _)).trans (closeLane _ n _)).trans (raise _ _)
  · split
    · exact (enqueue s _).trans (updLane _ n _)
    · exact ((enqueue s _).trans (updLane _ n _)).trans (raise _ _)

theorem beginWait (s : State) (n : LaneId) (c : Copy) : EventFrame s (s.beginWait n c) := by
  unfold State.beginWait; split
  · exact updFiring _ _ _
  · exact fireLane _ _ _
  · split
    · exact updFiring _ _ _
    · split
      · split
        · exact (setSource _ _ _).trans (fireLane _ _ _)
        · exact updFiring _ _ _
      · split
        · exact updFiring _ _ _
        · split
          · exact laneFault _ _ _ _
          · exact (updFiring _ _ _).trans (fireLane _ _ _)
  · split
    · exact (updLink _ _).trans (fireLane _ _ _)
    · exact updFiring _ _ _

theorem beatPost (s : State) (c : Copy) : EventFrame s (s.beatPost c) := by
  unfold State.beatPost; split
  · rfl
  · exact updBeat _ _ _
  · exact updBeat _ _ _
  · exact updBeat _ _ _

theorem postActions (s : State) (n : LaneId) (c : Copy) : EventFrame s (s.postActions n c) := by
  unfold State.postActions; dsimp only
  have h1 : EventFrame s (match c.raiseFlag with | some f => s.claimEvent (flagSource f) | none => s) := by
    split
    · exact claimEvent _ _
    · rfl
  have h2 : ∀ s1 : State, EventFrame s1 (match c.sendGroup with | some g => s1.send n c.sendCode g | none => s1) := by
    intro s1; split
    · exact send _ _ _ _
    · rfl
  have h3 := (h1.trans (h2 _)).trans (beatPost _ c)
  split
  · exact h3.trans (raise _ _)
  · exact h3

theorem complete (s : State) (n : LaneId) (c : Copy) : EventFrame s (s.complete n c) :=
  (postActions s n c).trans (updLane _ n _)

theorem laneGo (s : State) (n : LaneId) : EventFrame s (s.laneGo n) := by
  unfold State.laneGo; split
  · exact updLane _ _ _
  · exact laneFault _ _ _ _
  · split
    · exact complete _ _ _
    · exact beginWait _ _ _
  · rfl

theorem enterOwed (s : State) (n : LaneId) : EventFrame s (s.enterOwed n) := by
  unfold State.enterOwed; split
  · rfl
  · exact (enqueue s _).trans (updLane _ n _)

theorem releasePending (s : State) (n : LaneId) : EventFrame s (s.releasePending n) := by
  unfold State.releasePending; split
  · split
    · exact leaveQueue _ _ _ _ _
    · rfl
  · rfl

end EventFrame

/-- The lane put first among those with a property has it (R82, R144). -/
theorem firstOf_filter {s : State} {p : LaneId → Bool} {n : LaneId} (h : s.firstOf (allLanes.filter p) = some n) :
    p n = true := by
  unfold State.firstOf at h
  have : n ∈ allLanes.filter p := by
    cases hf : (allLanes.filter p).find? s.isUrgent with
    | some m => rw [hf] at h; simp at h; subst h; exact List.mem_of_find?_eq_some hf
    | none => rw [hf] at h; simp at h; exact List.mem_filter.mpr ⟨List.mem_of_find?_eq_some h, List.find?_some h⟩
  exact (List.mem_filter.mp this).2

/-- The small actions: what `follow` answers is one of these three, or one of them after a free choice. -/
theorem follow_cases {s t : State} (h : s.follow = some t) :
    (∃ n, 0 < s.room ∧ (s.lane n).owed ≠ [] ∧ t = s.enterOwed n) ∨
    (∃ n, 0 < s.room ∧ (s.lane n).pendsFree = true ∧ t = s.releasePending n) ∨
    (∃ n, (s.lane n).canGo = true ∧ (t = s.laneGo n ∨ t = { s with choices := s.choices + 1 }.laneGo n)) := by
  unfold State.follow at h
  split at h
  · rename_i n hn
    split at hn
    · rename_i hr
      exact Or.inl ⟨n, hr, by have := firstOf_filter hn; simpa using this, (Option.some.inj h).symm⟩
    · cases hn
  · split at h
    · rename_i n hn
      split at hn
      · rename_i hr
        exact Or.inr (Or.inl ⟨n, hr, firstOf_filter hn, (Option.some.inj h).symm⟩)
      · cases hn
    · split at h
      · cases h
      · rename_i n hn
        have : n ∈ allLanes.filter (fun n => (s.lane n).canGo) := by rw [hn]; simp
        exact Or.inr (Or.inr ⟨n, (List.mem_filter.mp this).2, Or.inl (Option.some.inj h).symm⟩)
      · rename_i n ns _ hn
        have hp : pickOne s.choices (n :: ns) n ∈ allLanes.filter (fun n => (s.lane n).canGo) := by
          rw [hn]
          unfold pickOne
          have hl : Config.freeOrder s.choices % (n :: ns).length < (n :: ns).length := Nat.mod_lt _ (by simp)
          rw [List.getD_eq_getElem _ _ hl]
          exact List.getElem_mem hl
        exact Or.inr (Or.inr ⟨_, (List.mem_filter.mp hp).2, Or.inr (Option.some.inj h).symm⟩)

/-- What every small action keeps, the whole event keeps. -/
theorem settle_keeps (P : State → Prop) (h : ∀ s t, P s → s.follow = some t → P t) {s : State} (hs : P s) :
    P s.settle := by
  unfold State.settle
  generalize settleBound = k
  induction k generalizing s with
  | zero => exact hs
  | succ k ih =>
    unfold settleUpTo
    split
    · exact hs
    · rename_i t ht
      exact ih (h s t hs ht)

/-- A state in which nothing follows is left as it is. -/
theorem settle_quiet {s : State} (h : s.quiet) : s.settle = s := by
  unfold State.quiet at h
  simp [State.settle, settleBound, settleUpTo, h]

/-- One small action of the event is made first. -/
theorem settle_follow {s t : State} (h : s.follow = some t) (ht : t.quiet) : s.settle = t := by
  unfold State.quiet at ht
  simp [State.settle, settleBound, settleUpTo, h, ht]

theorem EventFrame.follow {s t : State} (h : s.follow = some t) : EventFrame s t := by
  rcases follow_cases h with ⟨n, _, _, rfl⟩ | ⟨n, _, _, rfl⟩ | ⟨n, _, rfl | rfl⟩
  · exact EventFrame.enterOwed s n
  · exact EventFrame.releasePending s n
  · exact EventFrame.laneGo s n
  · exact (EventFrame.choices s _).trans (EventFrame.laneGo _ n)

/-- Carrying an event to its end changes only what an event's consequences reach. -/
theorem EventFrame.settle (s : State) : EventFrame s s.settle :=
  settle_keeps (EventFrame s) (fun _ _ h1 h2 => h1.trans (EventFrame.follow h2)) (EventFrame.refl s)

end Sys2Proof.Machine
end

