-- ==== Sys2Proof/Laws/Port.lean ====
section
/-! SUPPORT. The turn of a fetch port transaction, what follows from a state, and what a lane's entries become. -/

namespace Sys2Proof.Machine

/-! The turn. -/

/-- A command that ends its transaction, where its turn has come. -/
theorem turn_done {s : State} {r : Request} (h : s.atPort r) (fin : State → State) :
    s.turn r .done fin = fin (s.granted r) := by
  unfold State.turn State.granted
  rcases h with h | h
  · simp [h]
  · split
    · rfl
    · rfl

/-- A command whose turn has not come changes nothing (log entry 2). -/
theorem turn_refused {s : State} {r : Request} (h : ¬ s.atPort r) (p : Part) (fin : State → State) :
    s.turn r p fin = s := by
  unfold State.atPort at h
  push Not at h
  simp [State.turn, h.1, h.2]

/-- A grant alone. -/
theorem turn_grant {s : State} {r : Request} (hu : s.underWay r = false) (h : s.portChoice = some r)
    (fin : State → State) : s.turn r .grant fin = s.grant r := by
  simp [State.turn, hu, h]

/-- What the grant and the end of a transaction keep, its command keeps. -/
theorem turn_keeps (P : State → Prop) {s : State} {r : Request} {p : Part} {fin : State → State} (hs : P s)
    (hg : s.portChoice = some r → P (s.grant r))
    (hf : ∀ t, t.underWay r = true → P t → P (fin t)) (hu : s.portChoice = some r → (s.grant r).underWay r = true) :
    P (s.turn r p fin) := by
  unfold State.turn
  split
  · rename_i h
    cases p
    · exact hs
    · exact hf s h hs
  · split
    · rename_i h
      cases p
      · exact hg h
      · exact hf _ (hu h) (hg h)
    · exact hs

/-- The port grants only when it is free. -/
theorem portChoice_free {s : State} {r : Request} (h : s.portChoice = some r) : s.port = none := by
  unfold State.portChoice at h
  split at h
  · cases h
  · rename_i hp
    push Not at hp
    simpa using hp.1

/-- What no grant changes. -/
theorem grant_frame (s : State) (r : Request) :
    (s.grant r).engine = s.engine ∧ (s.grant r).mem = s.mem ∧ (s.grant r).wbq = s.wbq ∧ (s.grant r).devOut = s.devOut ∧
    (s.grant r).lastSeq = s.lastSeq ∧ (s.grant r).devSeq = s.devSeq ∧ (s.grant r).pending = s.pending ∧
    (s.grant r).sources = s.sources ∧ (s.grant r).beats = s.beats ∧ (s.grant r).inputs = s.inputs ∧
    (s.grant r).out = s.out ∧ (s.grant r).safe = s.safe ∧ (s.grant r).link = s.link ∧ (s.grant r).att = s.att ∧
    (s.grant r).timebase = s.timebase ∧ (s.grant r).halt = s.halt := by
  unfold State.grant
  split
  · and_intros <;> rfl
  · and_intros <;> rfl
  · and_intros <;> rfl
  · and_intros <;> rfl
  · and_intros <;> simp
  · and_intros <;> simp
  · split
    · and_intros <;> rfl
    · and_intros <;> rfl

/-! What follows. -/

/-- Nothing follows in a state exactly when no owed write or pending completion finds room and no lane can go on. -/
theorem quiet_iff (s : State) :
    s.quiet ↔ (0 < s.room → ∀ n, (s.lane n).owed = [] ∧ (s.lane n).pendsFree = false) ∧
      ∀ n, (s.lane n).canGo = false := by
  have all : ∀ n : LaneId, n ∈ allLanes := by decide
  have first : ∀ ns : List LaneId, s.firstOf ns = none ↔ ns = [] := by
    intro ns
    unfold State.firstOf
    cases ns with
    | nil => simp
    | cons n ns => simp
  have empty : ∀ p : LaneId → Bool, allLanes.filter p = [] ↔ ∀ n, p n = false := by
    intro p
    rw [List.filter_eq_nil_iff]
    exact ⟨fun h n => by simpa using h n (all n), fun h n _ => by simp [h n]⟩
  unfold State.quiet State.follow
  constructor
  · intro h
    split at h
    · cases h
    · rename_i h1
      split at h
      · cases h
      · rename_i h2
        split at h
        · rename_i h3
          refine ⟨fun hr n => ?_, (empty _).mp h3⟩
          rw [if_pos hr, first, empty] at h1 h2
          exact ⟨by simpa using h1 n, h2 n⟩
        · cases h
        · cases h
  · rintro ⟨h1, h2⟩
    have e1 : (if 0 < s.room then s.firstOf (allLanes.filter (fun n => !(s.lane n).owed.isEmpty)) else none) = none := by
      split
      · rename_i hr
        rw [first, empty]
        intro n
        simp [(h1 hr n).1]
      · rfl
    have e2 : (if 0 < s.room then s.firstOf (allLanes.filter (fun n => (s.lane n).pendsFree)) else none) = none := by
      split
      · rename_i hr
        rw [first, empty]
        intro n
        exact (h1 hr n).2
      · rfl
    rw [e1]; dsimp only
    rw [e2]; dsimp only
    rw [(empty _).mpr h2]

/-- A state with the same lanes and no more room is quiet when the first is. -/
theorem quiet_of_same_lanes {s t : State} (h : s.quiet) (hl : t.lanes = s.lanes) (hr : t.room ≤ s.room) : t.quiet := by
  have e : ∀ n, t.lane n = s.lane n := fun n => by simp [State.lane, hl]
  rw [quiet_iff] at *
  refine ⟨fun hp n => ?_, fun n => ?_⟩
  · rw [e]; exact h.1 (by omega) n
  · rw [e]; exact h.2 n

/-! Entries. -/

/-- The entries a lane produces in order enter the queue while they find places, and the rest are owed (R47). -/
theorem produceAll_spec (s : State) (n : LaneId) (es : List WriteBack) :
    (s.produceAll n es).wbq = s.wbq ++ es.take (s.places n) ∧
    (s.produceAll n es).lane n = { s.lane n with owed := (s.lane n).owed ++ es.drop (s.places n) } ∧
    (∀ m, m ≠ n → (s.produceAll n es).lane m = s.lane m) ∧
    (s.produceAll n es).marks = s.marks ∧ (s.produceAll n es).port = s.port ∧ (s.produceAll n es).out = s.out ∧
    (s.produceAll n es).att = s.att ∧ (s.produceAll n es).sources = s.sources ∧ (s.produceAll n es).beats = s.beats ∧
    (s.produceAll n es).link = s.link ∧ (s.produceAll n es).choices = s.choices := by
  induction es generalizing s with
  | nil => simp [State.produceAll]
  | cons e es ih =>
    have hstep : s.produceAll n (e :: es) = (s.produce n e).produceAll n es := rfl
    obtain ⟨i1, i2, i3, i4, i5, i6, i7, i8, i9, i10, i11⟩ := ih (s.produce n e)
    rw [hstep, i1, i2, i4, i5, i6, i7, i8, i9, i10, i11]
    by_cases hq : (s.lane n).owed = [] ∧ 0 < s.room
    · have hp : s.produce n e = s.enqueue e := by simp [State.produce, hq]
      have hroom : (s.enqueue e).room = s.room - 1 := by
        simp [State.room, State.reserved]; omega
      have hpl : (s.enqueue e).places n = s.places n - 1 := by simp [State.places, hq.1, hroom]
      have hpos : s.places n = (s.places n - 1) + 1 := by simp [State.places, hq.1]; omega
      rw [hp] at i3
      rw [hp, hpl]
      refine ⟨?_, ?_, fun m hm => ?_, by simp, by simp, by simp, by simp, by simp, by simp, by simp, by simp⟩
      · rw [hpos]; simp
      · rw [hpos]; simp
      · rw [i3 m hm]; simp
    · have hp : s.produce n e = s.updLane n (fun l => { l with owed := l.owed ++ [e] }) := by simp [State.produce, hq]
      have hz : s.places n = 0 := by
        unfold State.places; split
        · rename_i h; have : ¬ 0 < s.room := fun hr => hq ⟨h, hr⟩; omega
        · rfl
      have hz' : (s.produce n e).places n = 0 := by simp [State.places, hp]
      have hm : (s.updLane n (fun l => { l with owed := l.owed ++ [e] })).marks = s.marks := by
        rw [updLane_marks, if_pos]; rfl
      rw [hp] at i3
      rw [hz, hz', hp]
      refine ⟨by simp, by simp, fun m hm' => ?_, hm, by simp, by simp, by simp, by simp, by simp, by simp, by simp⟩
      rw [i3 m hm']; simp [hm']

/-- Two lane vectors that agree on every lane are equal. -/
theorem lanes_ext {s : State} {v : Vector Lane 8} (h : ∀ m : LaneId, s.lane m = v[m]) : s.lanes = v := by
  ext i hi
  exact h ⟨i, hi⟩

/-- The whole state after a lane produces entries. -/
theorem produceAll_eq (s : State) (n : LaneId) (es : List WriteBack) :
    s.produceAll n es = { s with
      wbq := s.wbq ++ es.take (s.places n)
      lanes := s.lanes.set n.val { s.lane n with owed := (s.lane n).owed ++ es.drop (s.places n) } } := by
  obtain ⟨h1, h2, h3, h4, h5, h6, h7, h8, h9, h10, h11⟩ := produceAll_spec s n es
  have hf := EventFrame.produceAll s n es
  unfold EventFrame at hf
  rw [hf, h1, h4, h5, h6, h7, h8, h9, h10, h11]
  congr 1
  apply lanes_ext
  intro m
  by_cases hm : m = n
  · subst hm; rw [h2]; simp
  · have : n.val ≠ m.val := fun e => hm (Fin.ext e.symm)
    rw [h3 m hm]; simp [State.lane, Vector.getElem_set_ne, this]

/-- One entry is a list of one. -/
theorem produce_eq (s : State) (n : LaneId) (e : WriteBack) : s.produce n e = s.produceAll n [e] := rfl

/-! Write transactions, word by word (R139, R148). -/

/-- The state in which a write-back transaction is under way differs in the port alone. -/
theorem granted_writeBack {s : State} {k : Nat} (h : (s.granted .writeBack).port = some (.writeBack k)) :
    s.granted .writeBack = { s with port := some (.writeBack k) } := by
  unfold State.granted at *
  split
  · rename_i hu
    rw [if_pos hu] at h
    rw [← h]
  · rename_i hu
    rw [if_neg hu] at h
    show ({ s with port := some (.writeBack 0) } : State) = _
    have : some (Transaction.writeBack 0) = some (Transaction.writeBack k) := h
    rw [this]

/-- One word of a write transaction lands, with the host's writes around it. -/
theorem landWord_eq {s : State} {ws : Between} {p p' : Nat × Word} {rest : List (Nat × Word)}
    (h : s.writesUnderWay = p :: p' :: rest) : s.landWord ws = { s with
      mem := landAll (writeWord (landGroup s.mem (ws.headD [])) p.1 p.2) ws.tail
      port := s.port.map Transaction.wordLanded } := by
  unfold State.landWord
  rw [h]
  rfl

/-- The last word of a write transaction is not landed by itself. -/
theorem landWord_last {s : State} {ws : Between} (h : s.writesUnderWay.length ≤ 1) : s.landWord ws = s := by
  unfold State.landWord
  split
  · rename_i heq; rw [heq] at h; simp at h
  · rfl

/-- The end of a write-back transaction (R148). -/
theorem endWriteBack_eq {s : State} {ws : Between} {e : WriteBack} {q : List WriteBack} (h : s.wbq = e :: q) :
    State.endWriteBack ws s =
      (State.entryLanded { s with port := none, wbq := q, mem := writeSeq s.writesUnderWay ws s.mem } e).settle := by
  unfold State.endWriteBack
  split
  · rename_i hq; rw [h] at hq; cases hq
  · rename_i e' q' hq
    rw [h] at hq
    cases hq
    rfl

/-- What is left of the oldest entry while it is under way. -/
theorem writesUnderWay_entry {s : State} {k : Nat} {e : WriteBack} {q : List WriteBack} (hp : s.port = some (.writeBack k))
    (hq : s.wbq = e :: q) : s.writesUnderWay = e.writes.drop k := by
  unfold State.writesUnderWay
  rw [hp]
  dsimp only
  rw [hq]
  rfl

end Sys2Proof.Machine
end

