-- ==== Sys2Proof/Laws/Lanes.lean ====
section
/-! SUPPORT. The shared operations as whole states after (withLane, withEntries, withOut, withSource, withLink), and the
order rows: what a taken or refused order comes to. -/

namespace Sys2Proof.Machine

/-- New pin levels, as the whole state after. -/
theorem setOut_eq (s : State) (p : Pins) : s.setOut p = s.withOut p := by
  unfold State.setOut State.withOut
  split
  · rename_i h; subst h; rfl
  · rfl

/-- A lane update, as the whole state after. -/
theorem updLane_eq (s : State) (n : LaneId) (f : Lane → Lane) : s.updLane n f = s.withLane n (f (s.lane n)) := by
  unfold State.updLane State.withLane
  dsimp only
  split <;> rfl

/-- Of two replacements of a lane the last stands. -/
theorem set_set (v : Vector Lane 8) (n : LaneId) (a b : Lane) : (v.set n.val a).set n.val b = v.set n.val b := by
  ext i hi; simp [Vector.getElem_set]

/-- The lane just replaced. -/
theorem withLane_lane (s : State) (n : LaneId) (l : Lane) : (s.withLane n l).lane n = l := by
  simp [State.withLane, State.lane]

/-- Owed writes are no progress value (R52). -/
theorem owed_words (l : Lane) (o : List WriteBack) : ({ l with owed := o } : Lane).progressWords = l.progressWords := rfl

/-- Two replacements of a lane with one mark decision: one of them leaves the progress values as they are. -/
theorem withLane_withLane (s : State) (n : LaneId) (a b : Lane)
    (h : a.progressWords = (s.lane n).progressWords ∨ b.progressWords = a.progressWords) :
    (s.withLane n a).withLane n b = s.withLane n b := by
  have e : (s.withLane n a).lane n = a := withLane_lane s n a
  unfold State.withLane at *
  dsimp only at *
  rw [e, set_set]
  rcases h with h | h
  · rw [if_pos h, h]
  · rw [h, if_pos rfl]

/-- Room depends on the queue and the reservations alone. -/
theorem room_congr {s t : State} (h1 : t.wbq = s.wbq) (h2 : t.reserved = s.reserved) : t.room = s.room := by
  simp [State.room, h1, h2]

/-- What the grant of a lane entry read leaves. -/
theorem granted_lane (s : State) (n : LaneId) (h : s.atPort (.laneEntry n)) :
    (s.granted (.laneEntry n)).lanes = s.lanes ∧ (s.granted (.laneEntry n)).mem = s.mem ∧ (s.granted (.laneEntry n)).wbq = s.wbq ∧
    (s.granted (.laneEntry n)).lastSeq = s.lastSeq ∧ (s.granted (.laneEntry n)).engine = s.engine ∧
    (s.granted (.laneEntry n)).timebase = s.timebase ∧ (s.granted (.laneEntry n)).devOut = s.devOut ∧ (s.granted (.laneEntry n)).marks = s.marks
    ∧ s.room = Config.writeBackPlaces - (s.wbq.length + (if s.devOut ≠ .none_ then 1 else 0)) := by
  unfold State.granted
  have hr : s.reserved = (if s.devOut ≠ .none_ then 1 else 0) := by
    rcases h with h | h
    · unfold State.underWay at h
      cases hp : s.port with
      | none => simp [hp] at h
      | some t =>
        rw [hp] at h
        cases t <;> simp [Transaction.serves] at h
        simp [State.reserved, hp]
    · simp [State.reserved, portChoice_free h]
  refine ⟨?_, ?_, ?_, ?_, ?_, ?_, ?_, ?_, by simp [State.room, hr]⟩ <;> split <;> rfl

/-- The revisit interval passed to a lane, as the whole state after. -/
theorem passInterval_eq (s : State) (n : LaneId) (i : Byte) : s.passInterval n i = s.withLane n ((s.lane n).withInterval i) := by
  unfold State.passInterval
  rw [updLane_eq]
  rfl

/-- The revisit interval is no progress value. -/
theorem interval_words (l : Lane) (i : Byte) : (l.withInterval i).progressWords = l.progressWords := by
  unfold Lane.withInterval; split <;> rfl

/-- A lane replaced, then its entries. -/
theorem withLane_produceAll {t : State} {n : LaneId} {l : Lane} (es : List WriteBack) (h : l.owed = (t.lane n).owed) :
    (t.withLane n l).produceAll n es = t.withEntries n es l := by
  have hp : (t.withLane n l).places n = t.places n := by
    unfold State.places
    rw [withLane_lane, h]
    rfl
  rw [produceAll_eq, hp, withLane_lane, h]
  unfold State.withEntries State.withLane
  dsimp only
  rw [set_set]
  rfl

/-- A lane's entries, then the lane replaced. -/
theorem produceAll_withLane {t : State} {n : LaneId} {l : Lane} (es : List WriteBack)
    (h : l.owed = ((t.produceAll n es).lane n).owed) :
    (t.produceAll n es).withLane n l = t.withEntries n es l := by
  have hl : (t.produceAll n es).lane n = { t.lane n with owed := (t.lane n).owed ++ es.drop (t.places n) } := (produceAll_spec t n es).2.1
  rw [hl] at h
  have h' : l.owed = (t.lane n).owed ++ es.drop (t.places n) := h
  unfold State.withEntries
  rw [← h']
  unfold State.withLane
  rw [hl, produceAll_eq]
  dsimp only
  rw [set_set]
  rfl

/-- The end of a lane entry read that finds a new order. -/
theorem newOrder_eq {n : LaneId} {ws : Between} {s : State} (hp : s.atPort (.laneEntry n))
    (hs : orderSeq (s.readLaneEntry n ws).1 ≠ s.lastSeq[n]) :
    s.turn (.laneEntry n) .done (State.endLaneRead n ws) =
      ((s.afterLaneRead n ws).withLane n ((s.lane n).withInterval (laneInterval (s.readLaneEntry n ws).2.1))).newLaneOrder n
        (orderSeq (s.readLaneEntry n ws).1) (laneOrderOf (orderCode (s.readLaneEntry n ws).1))
        (laneArgument (s.readLaneEntry n ws).2.1) (laneInterval (s.readLaneEntry n ws).2.1) := by
  obtain ⟨g1, g2, g3, g4, g5, g6, g7, g8, g9⟩ := granted_lane s n hp
  rw [turn_done hp]
  unfold State.endLaneRead
  have hre : (s.granted (.laneEntry n)).readLaneEntry n ws = s.readLaneEntry n ws := by
    simp [State.readLaneEntry, g2]
  rw [hre]
  dsimp only
  rw [passInterval_eq]
  have hl : ((s.granted (.laneEntry n)).endTransaction (s.readLaneEntry n ws).2.2).lane n = s.lane n := by
    simp [State.endTransaction, State.lane, g1]
  rw [hl]
  rw [if_neg (by show ¬ _ = (s.granted (.laneEntry n)).lastSeq[n]; simpa [g4] using hs)]
  unfold State.afterLaneRead State.withLane State.endTransaction
  have e1 : (({ s.granted (.laneEntry n) with port := none, mem := (s.readLaneEntry n ws).2.2 } : State).lane n) = s.lane n := hl
  have e2 : (({ s.granted (.laneEntry n) with port := none, mem := (s.readLaneEntry n ws).2.2, lastSeq := s.lastSeq.set n.val (orderSeq (s.readLaneEntry n ws).1) } : State).lane n) = s.lane n := by
    simp [State.lane, g1]
  dsimp only at *
  rw [e1, e2]
  simp only [g4]

/-- What the end of a lane entry read leaves. -/
theorem after_facts {n : LaneId} {ws : Between} {s : State} (hp : s.atPort (.laneEntry n)) :
    (s.afterLaneRead n ws).lane n = s.lane n ∧ (s.afterLaneRead n ws).engine = s.engine ∧
    (s.afterLaneRead n ws).timebase = s.timebase ∧ (s.afterLaneRead n ws).lanes = s.lanes ∧
    (s.afterLaneRead n ws).wbq = s.wbq ∧ (s.afterLaneRead n ws).devOut = s.devOut ∧ (s.afterLaneRead n ws).port = none ∧
    (s.afterLaneRead n ws).out = s.out ∧ (s.afterLaneRead n ws).rest = s.rest ∧ (s.afterLaneRead n ws).owner = s.owner
    ∧ (s.afterLaneRead n ws).sources = s.sources ∧ (s.afterLaneRead n ws).choices = s.choices ∧ (s.afterLaneRead n ws).laneUrgent = s.laneUrgent := by
  obtain ⟨g1, g2, g3, g4, g5, g6, g7, g8, g9⟩ := granted_lane s n hp
  unfold State.afterLaneRead
  refine ⟨?_, g5, g6, g1, g3, g7, rfl, ?_, ?_, ?_, ?_, ?_, ?_⟩
  · simp [State.lane, g1]
  all_goals (unfold State.granted; split <;> rfl)

/-- What passing the revisit interval leaves in the lane. -/
theorem interval_facts (l : Lane) (i : Byte) : (l.withInterval i).st = l.st ∧ (l.withInterval i).owed = l.owed ∧
    (l.withInterval i).queue = l.queue ∧ (l.withInterval i).cur = l.cur ∧ (l.withInterval i).heldBegun = l.heldBegun ∧ (l.withInterval i).heldReturns = l.heldReturns ∧
    (l.withInterval i).pause = l.pause ∧ (l.withInterval i).follow = l.follow := by
  unfold Lane.withInterval; split <;> and_intros <;> rfl

/-- The result of an order depends on the engine state and the lane state alone. -/
theorem result_congr {s t : State} {n : LaneId} (h1 : t.engine = s.engine) (h2 : (t.lane n).st = (s.lane n).st) (o a) :
    t.laneOrderResult n o a = s.laneOrderResult n o a := by
  unfold State.laneOrderResult; rw [h1, h2]

/-- What it is for a lane entry read to find an order. -/
theorem finds {s : State} {n : LaneId} {ws : Between} {o : LaneOrder} (h : s.findsLaneOrder n ws o = true) :
    orderSeq (s.readLaneEntry n ws).1 ≠ s.lastSeq[n] ∧ laneOrderOf (orderCode (s.readLaneEntry n ws).1) = some o := by
  simpa [State.findsLaneOrder] using h

/-- The row of a lane order that is taken. -/
theorem row_taken {s : State} {n : LaneId} {ws : Between} {o : LaneOrder} (hp : s.atPort (.laneEntry n))
    (h : s.findsLaneOrder n ws o = true)
    (hr : s.laneOrderResult n (some o) (laneArgument (s.readLaneEntry n ws).2.1) = .ok) :
    s.laneOrderRow n ws o =
      let b := (s.afterLaneRead n ws).withLane n ((s.lane n).withInterval (laneInterval (s.readLaneEntry n ws).2.1))
      (b.takeLaneOrder n o (laneArgument (s.readLaneEntry n ws).2.1) (laneInterval (s.readLaneEntry n ws).2.1)).produce n
        (laneAnswer n (orderSeq (s.readLaneEntry n ws).1) .ok (b.answerResume n o)) := by
  obtain ⟨h1, h2⟩ := finds h
  obtain ⟨a1, a2, a3, a4⟩ := @after_facts n ws s hp
  unfold State.laneOrderRow
  rw [if_pos h, newOrder_eq hp h1]
  unfold State.newLaneOrder
  rw [h2]
  have : ((s.afterLaneRead n ws).withLane n ((s.lane n).withInterval (laneInterval (s.readLaneEntry n ws).2.1))).laneOrderResult n
      (some o) (laneArgument (s.readLaneEntry n ws).2.1) = .ok := by
    rw [← hr]
    apply result_congr
    · exact a2
    · rw [withLane_lane]; exact (interval_facts _ _).1
  rw [this]

/-- Entries and pin levels commute. -/
theorem produceAll_withOut (t : State) (n : LaneId) (es) (p : Pins) : (t.withOut p).produceAll n es = (t.produceAll n es).withOut p := by
  rw [produceAll_eq, produceAll_eq]; rfl

/-- Entries and causes commute. -/
theorem produceAll_withCause (t : State) (n : LaneId) (es) (c : Cause) : (t.withCause c).produceAll n es = (t.produceAll n es).withCause c := by
  rw [produceAll_eq, produceAll_eq]; rfl

/-- Entries in two batches are the entries in one. -/
theorem produceAll_append (t : State) (n : LaneId) (a b : List WriteBack) : (t.produceAll n a).produceAll n b = t.produceAll n (a ++ b) := by
  simp [State.produceAll]

/-- With no transaction under way nothing is overtaken. -/
theorem overtake_free (t : State) (n : LaneId) (h : t.port = none) : t.overtake n = t := by
  unfold State.overtake; rw [h]

/-- A lane's entries, then the end of its list. -/
theorem entries_close {t : State} {n : LaneId} {l : Lane} (es : List WriteBack) (st : LaneState) (hp : t.port = none)
    (h : l.owed = (t.lane n).owed) (hw : l.progressWords = (t.lane n).progressWords) :
    ((t.withLane n l).produceAll n es).closeLane n st = t.withEntries n es (l.closed st) := by
  rw [withLane_produceAll es h]
  unfold State.closeLane
  rw [updLane_eq]
  have e1 : (t.withEntries n es l).lane n = { l with owed := (t.lane n).owed ++ es.drop (t.places n) } := by
    unfold State.withEntries; rw [withLane_lane]
  rw [e1, overtake_free _ _ (by exact hp)]
  unfold State.withEntries
  rw [withLane_withLane _ _ _ _ (by left; rw [owed_words, hw]; rfl)]
  rfl

/-- More entries of the same lane. -/
theorem withEntries_more {t : State} {n : LaneId} {l : Lane} (a b : List WriteBack) :
    (t.withEntries n a l).produceAll n b = t.withEntries n (a ++ b) l := by
  have h1 := fun es => @withLane_produceAll t n { l with owed := (t.lane n).owed } es rfl
  have h2 : ∀ es, t.withEntries n es l = t.withEntries n es { l with owed := (t.lane n).owed } := fun _ => rfl
  rw [h2, h2, ← h1, ← h1, produceAll_append]

/-- A blend, pin by pin. -/
theorem blend_bits (m a b : Pins) (p : Fin 24) : (blend m a b).getLsbD p.val = if m.getLsbD p.val then a.getLsbD p.val else b.getLsbD p.val := by
  have := p.isLt
  simp only [blend, BitVec.getLsbD_or, BitVec.getLsbD_and, BitVec.getLsbD_not]
  cases m.getLsbD p.val <;> simp [this]

/-- The pins of a lane, pin by pin. -/
theorem ownedBy_bits (s : State) (n : LaneId) (p : Fin 24) : (s.ownedBy n).getLsbD p.val = (s.owner[p] == some n) := by
  have := p.isLt
  simp [State.ownedBy]

/-- With one lane alone able to go on, that lane goes on. -/
theorem follow_one {s : State} {n : LaneId} (h1 : ∀ m, (s.lane m).owed = [] ∧ (s.lane m).pendsFree = false)
    (h2 : ∀ m, (s.lane m).canGo = true ↔ m = n) : s.follow = some (s.laneGo n) := by
  have e : allLanes.filter (fun m => (s.lane m).canGo) = [n] := by
    have : (fun m => (s.lane m).canGo) = (fun m => decide (m = n)) := by
      funext m
      have := h2 m
      cases hc : (s.lane m).canGo <;> simp_all
    rw [this]; clear this h2; revert n; decide
  have e1 : (if 0 < s.room then s.firstOf (allLanes.filter (fun n => !(s.lane n).owed.isEmpty)) else none) = none := by
    split
    · have : allLanes.filter (fun n => !(s.lane n).owed.isEmpty) = [] := by
        rw [List.filter_eq_nil_iff]; intro m _; simp [(h1 m).1]
      rw [this]; rfl
    · rfl
  have e2 : (if 0 < s.room then s.firstOf (allLanes.filter (fun n => (s.lane n).pendsFree)) else none) = none := by
    split
    · have : allLanes.filter (fun n => (s.lane n).pendsFree) = [] := by
        rw [List.filter_eq_nil_iff]; intro m _; simp [(h1 m).2]
      rw [this]; rfl
    · rfl
  unfold State.follow
  rw [e1]; dsimp only
  rw [e2]; dsimp only
  rw [e]

/-- In a settled state nothing follows. -/
theorem settled_quiet {s : State} (h : s.settled) : s.quiet := by
  rw [quiet_iff]; exact ⟨fun _ n => ⟨(h n).1, (h n).2.1⟩, fun n => (h n).2.2⟩

/-- A lane other than the one replaced. -/
theorem withLane_lane_ne (s : State) {n m : LaneId} (l : Lane) (h : m ≠ n) : (s.withLane n l).lane m = s.lane m := by
  have : n.val ≠ m.val := fun e => h (Fin.ext e.symm)
  simp [State.withLane, State.lane, Vector.getElem_set_ne, this]

/-- A lane replaced by one that is settled. -/
theorem withLane_settled {s : State} {n : LaneId} {l : Lane} (h : s.settled) (hl : l.owed = [] ∧ l.pendsFree = false ∧ l.canGo = false) :
    (s.withLane n l).settled := by
  intro m
  by_cases hm : m = n
  · subst hm; rw [withLane_lane]; exact hl
  · rw [withLane_lane_ne _ _ hm]; exact h m

/-- An event in which one lane makes one action. -/
theorem settle_one {s : State} {n : LaneId} (h1 : ∀ m, (s.lane m).owed = [] ∧ (s.lane m).pendsFree = false)
    (h2 : ∀ m, (s.lane m).canGo = true ↔ m = n) (h3 : (s.laneGo n).quiet) : s.settle = s.laneGo n :=
  settle_follow (follow_one h1 h2) h3

/-- A settled state stays settled at the end of a lane entry read. -/
theorem after_settled {n : LaneId} {ws : Between} {s : State} (hp : s.atPort (.laneEntry n)) (h : s.settled) :
    (s.afterLaneRead n ws).settled := by
  obtain ⟨a1, a2, a3, a4, _⟩ := @after_facts n ws s hp
  intro m
  have : (s.afterLaneRead n ws).lane m = s.lane m := by simp [State.lane, a4]
  rw [this]; exact h m

/-- What the grant of a device entry read or of a setup read leaves. -/
theorem granted_dev (s : State) : ∀ r, r = Request.deviceEntry ∨ r = Request.setupRead → 
    (s.granted r).lanes = s.lanes ∧ (s.granted r).mem = s.mem ∧ (s.granted r).wbq = s.wbq ∧
    (s.granted r).devSeq = s.devSeq ∧ (s.granted r).engine = s.engine ∧ (s.granted r).devOut = s.devOut ∧ 
    (s.granted r).timebase = s.timebase ∧ (s.granted r).marks = s.marks ∧ (s.granted r).beats = s.beats ∧ (s.granted r).sources = s.sources
    ∧ (s.granted r).owner = s.owner ∧ (s.granted r).out = s.out ∧ (s.granted r).static = s.static ∧ (s.granted r).link = s.link ∧ (s.granted r).att = s.att
    ∧ (s.granted r).laneUrgent = s.laneUrgent := by
  intro r hr
  unfold State.granted
  rcases hr with rfl | rfl <;> split <;> (and_intros <;> rfl)

/-- The grant of a device entry read does not change what is read. -/
theorem devRead_eq {s : State} {ws : Between} : (s.granted .deviceEntry).readDeviceOrder ws = s.readDeviceOrder ws := by
  obtain ⟨g1, g2, _⟩ := granted_dev s _ (.inl rfl)
  unfold State.readDeviceOrder; rw [g2]

/-- The end of a device entry read that finds a new order. -/
theorem newDev_eq {s : State} {ws : Between} {o : DeviceOrder} (hp : s.atPort .deviceEntry)
    (hs : orderSeq (s.readDeviceOrder ws).1 ≠ s.devSeq) (ho : deviceOrderOf (orderCode (s.readDeviceOrder ws).1) = some o) :
    s.turn .deviceEntry .done (State.endDeviceRead ws) =
      (s.afterDeviceRead ws o).newDeviceOrder (orderSeq (s.readDeviceOrder ws).1) (some o) (s.deviceArguments ws o).1 (s.deviceArguments ws o).2.1 := by
  obtain ⟨g1, g2, g3, g4, g5, g6, g7, g8, g9⟩ := granted_dev s _ (.inl rfl)
  rw [turn_done hp]
  unfold State.endDeviceRead
  rw [devRead_eq]
  dsimp only
  rw [if_neg (by rw [g4]; exact hs), ho]
  rfl

/-- The row of a device order that is taken. -/
theorem taken_row {s : State} {ws : Between} {o : DeviceOrder} (hp : s.atPort .deviceEntry) (hf : s.findsDeviceOrder ws o = true)
    (hr : s.deviceResult o (s.deviceArguments ws o).1 (s.deviceArguments ws o).2.1 = .ok) :
    s.deviceOrderRow ws o = 
      let s1 := (s.afterDeviceRead ws o).takeDeviceOrder (orderSeq (s.readDeviceOrder ws).1) o (s.deviceArguments ws o).1 (s.deviceArguments ws o).2.1
      let s2 := if o.answersAtOnce then s1.enqueue (deviceAnswer (orderSeq (s.readDeviceOrder ws).1) .ok 0) else s1
      if o = .raiseFlag then s2.settle else s2 := by
  obtain ⟨g1, g2, g3, g4, g5, g6, g7, g8, g9, g10, g11, _⟩ := granted_dev s _ (.inl rfl)
  have h : orderSeq (s.readDeviceOrder ws).1 ≠ s.devSeq ∧ deviceOrderOf (orderCode (s.readDeviceOrder ws).1) = some o := by
    simpa [State.findsDeviceOrder] using hf
  unfold State.deviceOrderRow
  rw [if_pos hf, newDev_eq hp h.1 h.2]
  unfold State.newDeviceOrder
  have : (s.afterDeviceRead ws o).deviceResult o (s.deviceArguments ws o).1 (s.deviceArguments ws o).2.1 = .ok := by
    rw [← hr]
    unfold State.deviceResult State.hostBeat State.ownedPins
    rw [show (s.afterDeviceRead ws o).engine = s.engine from g5, show (s.afterDeviceRead ws o).beats = s.beats from g9, show (s.afterDeviceRead ws o).owner = s.owner from g11]
  dsimp only
  rw [this]
  simp only [ne_eq, not_true_eq_false, if_false]

/-- A flag argument in range. -/
theorem flag_some {w : Word} {f : Fin 16} (h : w.toNat = f.val) : flagArgument w = some f := by
  unfold flagArgument
  rw [if_pos (by omega)]
  congr 1
  apply Fin.ext
  simp [Fin.ofNat, h]

/-- A beat argument in range. -/
theorem beat_some {w : Word} {f : Fin 8} (h : w.toNat = f.val) : beatArgument w = some f := by
  unfold beatArgument
  rw [if_pos (by omega)]
  congr 1
  apply Fin.ext
  simp [Fin.ofNat, h]

/-- A source update, as the whole state after. -/
theorem setSource_eq (s : State) (i : SourceId) (r : Source) : s.setSource i r = s.withSource i r := by
  unfold State.setSource State.withSource
  dsimp only
  split <;> rfl

/-- A link port update, as the whole state after. -/
theorem updLink_eq (s : State) (f : LinkPort → LinkPort) : s.updLink f = s.withLink (f s.link) := by
  unfold State.updLink State.withLink
  dsimp only
  split <;> split <;> simp [State.markItem, countsItem, occupancyItem, BitVec.or_assoc]

end Sys2Proof.Machine
end

