-- ==== Sys2Proof/Laws/Settle.lean ====
section
/-! SUPPORT. What follows from an event (settle) where little does: waits, fires, cues that leave; and the lemmas about settled
states. -/

namespace Sys2Proof.Machine

set_option maxHeartbeats 2000000

/-- A state whose lanes are those of a settled state but for lane n, which is settled, is settled. -/
theorem settled_of_others {s t : State} {n : LaneId} (h : s.settled) (ho : ∀ m, m ≠ n → t.lane m = s.lane m)
    (hn : (t.lane n).owed = [] ∧ (t.lane n).pendsFree = false ∧ (t.lane n).canGo = false) : t.settled := by
  intro m
  by_cases hm : m = n
  · subst hm; exact hn
  · rw [ho m hm]; exact h m

/-- A settled state stays as it is. -/
theorem settle_settled {s : State} (h : s.settled) : s.settle = s := settle_quiet (settled_quiet h)

/-- What lets a lane go on is its current cue, its queue and its lane state. -/
theorem canGo_congr {l k : Lane} (h1 : k.cur = l.cur) (h2 : k.queue = l.queue) (h3 : k.st = l.st) : k.canGo = l.canGo
    := by
  unfold Lane.canGo; rw [h1, h2, h3]

/-- Completion pending depends on the current cue and the owed writes. -/
theorem pendsFree_congr {l k : Lane} (h1 : k.cur = l.cur) (h2 : k.owed = l.owed) : k.pendsFree = l.pendsFree := by
  unfold Lane.pendsFree; rw [h1, h2]

/-- A settled lane put into a state whose other lanes are settled. -/
theorem withLane_settled_of {s t : State} {n : LaneId} {l : Lane} (h : s.settled) (hm : ∀ m, m ≠ n → t.lane m = s.lane
    m)
    (hl : l.owed = [] ∧ l.pendsFree = false ∧ l.canGo = false) : (t.withLane n l).settled :=
  settled_of_others h (fun m hn => by rw [withLane_lane_ne _ _ hn]; exact hm m hn) (by rw [withLane_lane]; exact hl)

/-- Being settled depends on the lanes alone. -/
theorem settled_lanes {s t : State} (h : s.settled) (hl : t.lanes = s.lanes) : t.settled := by
  intro m
  have : t.lane m = s.lane m := by unfold State.lane; rw [hl]
  rw [this]; exact h m

/-- An event of two small actions. -/
theorem settle_two {s t u : State} (h1 : s.follow = some t) (h2 : t.follow = some u) (h3 : u.quiet) : s.settle = u :=
    by
  unfold State.quiet at h3
  simp [State.settle, settleBound, settleUpTo, h1, h2, h3]

/-- The first of the lanes with a property is the lowest. -/
theorem find_lowest (q : LaneId → Bool) (n : LaneId) (hq : q n = true) (hle : ∀ m, q m = true → n ≤ m) :
    allLanes.find? q = some n := by
  have hsub : ∀ x : LaneId, x ∈ allLanes := by decide
  cases hf : allLanes.find? q with
  | none => rw [List.find?_eq_none] at hf; exact absurd hq (hf n (hsub n))
  | some m =>
    have hm := List.find?_some hf
    have h1 := hle m hm
    obtain ⟨_, i, hi, h2, h3⟩ := List.find?_eq_some_iff_getElem.mp hf
    by_contra hne
    have hlt : n < m := by
      rcases Nat.lt_or_ge n.val m.val with h | h
      · exact h
      · exfalso; apply hne; congr 1; apply Fin.ext; have : n.val ≤ m.val := h1; omega
    have hi8 : i < 8 := hi
    have all : ∀ j : Fin 8, allLanes[j.val]'(by exact j.isLt) = j := by decide
    have hmi : m.val = i := by rw [← h2]; exact congrArg Fin.val (all ⟨i, hi8⟩)
    have hlt' : n.val < m.val := hlt
    have h4 := h3 n.val (by omega)
    exact absurd (h4.symm.trans (congrArg (fun x => !q x) (all n))) (by simp [hq])

/-- Of some lanes, the one the group and the number put first (R82, R144). -/
theorem firstOf_spec (s : State) (p : LaneId → Bool) (n : LaneId) (hn : p n = true)
    (h : ∀ m, p m = true → if s.laneUrgent.getLsbD n.val ≠ s.laneUrgent.getLsbD m.val then s.laneUrgent.getLsbD n.val
      = true else n ≤ m) :
    s.firstOf (allLanes.filter p) = some n := by
  unfold State.firstOf
  rw [List.find?_filter, List.head?_filter]
  have hfun : (fun a => decide (p a = true ∧ s.isUrgent a = true)) = fun a => p a && s.isUrgent a := by
    funext a; simp
  rw [hfun]
  by_cases hu : s.laneUrgent.getLsbD n.val = true
  · rw [find_lowest (fun a => p a && s.isUrgent a) n]
    · rfl
    · simp [hn, State.isUrgent, hu]
    · intro m hm
      simp only [Bool.and_eq_true] at hm
      have := h m hm.1
      rw [if_neg] at this
      · exact this
      · have h2 : s.laneUrgent.getLsbD m.val = true := hm.2
        rw [hu, h2]; simp
  · have hno : allLanes.find? (fun a => p a && s.isUrgent a) = none := by
      rw [List.find?_eq_none]
      intro m _ hm
      simp only [Bool.and_eq_true] at hm
      have h2 : s.laneUrgent.getLsbD m.val = true := hm.2
      have := h m hm.1
      rw [if_pos (by rw [h2]; exact hu)] at this
      exact hu this
    rw [hno, find_lowest p n hn]
    · rfl
    · intro m hm
      have := h m hm
      split at this
      · exact absurd this hu
      · exact this

/-- The first staged entry changes the progress entry (R52). -/
theorem progressWords_staged {a b : Lane} (ha : a.queue = []) (hb : ∃ e, b.queue = [e]) : b.progressWords ≠ a.progressWords :=
    by
  obtain ⟨e, hb⟩ := hb
  intro h
  unfold Lane.progressWords at h
  have h1 := (List.cons.inj h).1
  have h2 := congrArg (fun w : Word => w.getLsbD 6) h1
  simp only [BitVec.getLsbD_or] at h2
  rw [ha, hb] at h2
  have hs : ∀ s : LaneState, s.code.getLsbD 6 = false := by intro s; cases s <;> decide
  have hp : ∀ s : Pause, (s.code <<< 3).getLsbD 6 = false := by intro s; cases s <;> decide
  rw [hs, hs, hp, hp] at h2
  simp [place, num] at h2

/-- A cue becomes a waiter (R54, R64). -/
theorem joinWait_eq {t : State} {n : LaneId} {c : Copy} {l : Lane} {f : Firing} (h : l.cur = some f) :
    (t.withLane n l).joinWait n c = t.withLane n { l with cur := some (f.joining c) } := by
  unfold State.joinWait State.updFiring
  rw [updLane_eq, withLane_lane, withLane_withLane]
  · rw [h]; rfl
  · right
    unfold Lane.progressWords Lane.currentSlot
    dsimp only
    rw [h]
    cases l.queue with
    | nil => rfl
    | cons e q' => cases e <;> rfl

/-- A wait that finds no trigger to take makes the lane a waiter (R56 to R58). -/
theorem beginWait_joins {s t : State} {l : Lane} {n : LaneId} {c : Copy} (hn : s.nothingToTake l c) (hs : t.sources =
    s.sources)
    (hl : t.link.rxq = s.link.rxq) (hg : (t.lane n).gapStart = l.gapStart ∧ (t.lane n).gapEvent = l.gapEvent) :
    t.beginWait n c = t.joinWait n c := by
  have hsrc : ∀ i, t.source i = s.source i := by intro i; unfold State.source; rw [hs]
  unfold State.beginWait
  rcases hn with ⟨i, htr, h⟩ | ⟨code, htr, h⟩
  · rw [htr]
    dsimp only
    rw [hsrc]
    rcases h with h | ⟨h1, h2⟩ | ⟨h1, h2⟩
    · rw [if_pos h]
    · split
      · rfl
      · rw [if_neg (by omega)]
    · split
      · rfl
      · rw [if_neg (by rw [h1]; simp)]
        have : lateEvent (t.lane n) i (s.source i).last = none := by
          unfold lateEvent
          split
          · rfl
          · rename_i tk hk
            rw [if_neg]
            rintro ⟨h3, h4⟩
            rcases h2 tk hk with h5 | h5
            · unfold atOrAfter at h3
              rw [hg.1] at h3
              exact absurd (of_decide_eq_true h3) (by omega)
            · exact h4 (by rw [hg.2]; exact h5)
        rw [this]
  · rw [htr]
    dsimp only
    rw [if_neg]
    rw [hl]
    rcases h with h | h
    · rw [h]; simp
    · simp only [Bool.and_eq_true, List.any_eq_true, not_and, not_exists]
      intro _ e he
      simpa using h e he

/-- New pin levels leave the lanes. -/
theorem withOut_lane (s : State) (p : Pins) (m : LaneId) : (s.withOut p).lane m = s.lane m := rfl

/-- A new source record leaves the lanes. -/
theorem withSource_lane (s : State) (i : SourceId) (r : Source) (m : LaneId) : (s.withSource i r).lane m = s.lane m
    := rfl

/-- What the progress entry shows of a lane (R52). -/
theorem progressWords_congr {a b : Lane} (h1 : a.st = b.st) (h2 : a.pause = b.pause) (h3 : a.queue = b.queue) (h4 : a.cur.isSome
    = b.cur.isSome)
    (h5 : a.watch = b.watch) (h6 : a.lastSlot = b.lastSlot) (h7 : a.lastOutcome = b.lastOutcome) (h8 : a.faultCode =
      b.faultCode)
    (h9 : a.faultSlot = b.faultSlot) (h10 : a.endedCount = b.endedCount) : a.progressWords = b.progressWords := by
  have hs : a.currentSlot = b.currentSlot := by
    unfold Lane.currentSlot
    rw [h3]
    cases hq : b.queue with
    | nil => cases a.cur <;> cases b.cur <;> rfl
    | cons x q =>
      cases x with
      | marker => cases a.cur <;> cases b.cur <;> rfl
      | copy c => cases ha : a.cur <;> cases hb : b.cur <;> simp_all
  unfold Lane.progressWords
  rw [h1, h2, h3, h5, h6, h7, h8, h9, h10, hs]

/-- A wait that begins again does not show in the progress entry. -/
theorem waitAnew_words (l : Lane) : l.waitAnew.progressWords = l.progressWords :=
  progressWords_congr rfl rfl rfl (by unfold Lane.waitAnew; simp) rfl rfl rfl rfl rfl rfl

/-- The lanes an event passed over, in one form (R66). -/
theorem anew_eq (l : Lane) (t : Trigger) : l.anew t =
    if (l.standsOn t && l.expiredOn == some t) = true then l.waitAnew else l := by
  unfold Lane.anew Lane.standsOn Lane.waitAnew Lane.currentCopy
  cases hc : l.cur with
  | none => simp
  | some f =>
    cases hq : l.queue with
    | nil => simp
    | cons e q =>
      cases e with
      | marker => simp
      | copy c => simp only [Option.map_some, Bool.and_eq_true, beq_iff_eq, and_assoc]

/-- The lanes passed over begin their waits again (R66, log entry 42). -/
theorem afterEvent_eq (s : State) (t : Trigger) : s.afterEvent t = s.anew t := by
  have key : ∀ (ns : List LaneId), ns.Nodup → ∀ u : State,
      ns.foldl (fun v n => v.updLane n Lane.waitAnew) u =
        { u with lanes := Vector.ofFn (fun n : Fin 8 => if n ∈ ns then (u.lane n).waitAnew else u.lane n) } := by
    intro ns
    induction ns with
    | nil =>
      intro _ u
      have : Vector.ofFn (fun n : Fin 8 => if n ∈ ([] : List LaneId) then (u.lane n).waitAnew else u.lane n) = u.lanes := by
        apply Vector.ext; intro i hi; simp [State.lane]
      rw [this]; rfl
    | cons m ns ih =>
      intro hn u
      obtain ⟨h1, h2⟩ := List.nodup_cons.mp hn
      rw [List.foldl_cons, ih h2, updLane_eq]
      have hl : ∀ n, (u.withLane m (u.lane m).waitAnew).lane n = if n = m then (u.lane m).waitAnew else u.lane n := by
        intro n
        by_cases h : n = m
        · subst h; rw [withLane_lane, if_pos rfl]
        · rw [withLane_lane_ne _ _ h, if_neg h]
      have : (Vector.ofFn (fun n : Fin 8 => if n ∈ ns then ((u.withLane m (u.lane m).waitAnew).lane n).waitAnew else
          (u.withLane m (u.lane m).waitAnew).lane n)) =
          Vector.ofFn (fun n : Fin 8 => if n ∈ m :: ns then (u.lane n).waitAnew else u.lane n) := by
        congr 1
        funext n
        rw [hl]
        by_cases h : n = m
        · subst h; simp [h1]
        · simp [h]
      rw [this]
      unfold State.withLane
      rw [if_pos (waitAnew_words _)]
  have hnd : (allLanes.filter (fun n => (s.lane n).standsOn t && (s.lane n).expiredOn == some t)).Nodup :=
    List.Nodup.filter _ (by decide)
  unfold State.afterEvent State.anew
  rw [key _ hnd]
  have hall : ∀ x : LaneId, x ∈ allLanes := by decide
  congr 1
  apply Vector.ext
  intro i hi
  simp only [Vector.getElem_ofFn, Vector.getElem_map]
  rw [anew_eq]
  have : s.lane ⟨i, hi⟩ = s.lanes[i] := rfl
  simp only [List.mem_filter, hall, true_and, this]

/-- With no lane passed over, nothing begins again. -/
theorem anew_none {s : State} {t : Trigger} (h : ∀ n, (s.lane n).standsOn t = true → (s.lane n).expiredOn ≠ some t) :
    s.anew t = s := by
  unfold State.anew
  have : s.lanes.map (fun l => l.anew t) = s.lanes := by
    apply Vector.ext
    intro i hi
    rw [Vector.getElem_map, anew_eq, if_neg]
    simp only [Bool.and_eq_true, beq_iff_eq, not_and]
    exact h ⟨i, hi⟩
  rw [this]

/-- A trigger that no lane waits on has no waiters, and passes no lane over. -/
theorem unwatched_waiters {s : State} {t : Trigger} (h : s.unwatched t) : s.waiters t = [] := by
  unfold State.waiters
  rw [List.filter_eq_nil_iff]
  intro n _
  unfold Lane.waitsOn
  rw [h n]; simp

/-- After an event of a trigger that no lane waits on, no wait begins again. -/
theorem unwatched_after {s u : State} {t : Trigger} (h : s.unwatched t) (hl : u.lanes = s.lanes) : u.afterEvent t = u := by
  rw [afterEvent_eq]
  apply anew_none
  intro n hn
  have : u.lane n = s.lane n := by unfold State.lane; rw [hl]
  rw [this, h n] at hn
  cases hn

/-- An unclaimed event leaves the lanes. -/
theorem unclaimed_lanes (s : State) (i : SourceId) : (s.unclaimed i).lanes = s.lanes := by
  unfold State.unclaimed; split <;> rfl

/-- A CLAIM event that no lane takes (R81, R85). -/
theorem claimTaken_none {s : State} {i : SourceId} (h : s.waiters (.source i) = []) : s.claimTaken i = s.unclaimed i := by
  unfold State.claimTaken State.unclaimed
  rw [h]
  simp only [State.firstOf, List.find?_nil, List.head?_nil, Option.or_none, setSource_eq]
  rfl

/-- An event of a source that no lane waits on (R79, R81, R85). -/
theorem unheard_eq {s : State} {i : SourceId} (h : s.unwatched (.source i)) : s.sourceEvent i = s.unheard i := by
  have hw := unwatched_waiters h
  unfold State.sourceEvent State.unheard
  cases hc : (s.source i).claim
  · rw [if_neg (by simp), if_pos rfl]
    unfold State.shareEvent
    have : s.shareTaken i = s.withSource i { s.source i with last := some s.timebase } := by
      unfold State.shareTaken
      rw [hw]
      simp only [List.foldl_nil, setSource_eq]
    rw [this]
    exact unwatched_after h rfl
  · rw [if_pos rfl, if_neg (by simp)]
    unfold State.claimEvent
    rw [claimTaken_none hw, unwatched_after h (unclaimed_lanes s i)]

/-- An unheard event leaves the lanes. -/
theorem unheard_lanes (s : State) (i : SourceId) : (s.unheard i).lanes = s.lanes := by
  unfold State.unheard; split
  · rfl
  · exact unclaimed_lanes s i

/-- An unheard event and new beats do not touch each other. -/
theorem unheard_beats (s : State) (i : SourceId) (v : Vector Beat 8) : ({ s.unheard i with beats := v } : State) =
    ({ s with beats := v } : State).unheard i := by
  have hs : ({ s with beats := v } : State).source i = s.source i := rfl
  unfold State.unheard State.unclaimed
  rw [hs]
  by_cases h : (s.source i).claim = false
  · rw [if_pos h, if_pos h]; rfl
  · rw [if_neg h, if_neg h]
    by_cases h2 : (s.source i).count < 15
    · rw [if_pos h2, if_pos h2]; rfl
    · rw [if_neg h2, if_neg h2]; rfl

/-- An unheard event leaves the beats. -/
theorem unheard_beats_eq (s : State) (i : SourceId) : (s.unheard i).beats = s.beats := by
  unfold State.unheard State.unclaimed; split
  · rfl
  · split <;> rfl

/-- A fire, as the whole state after (R55, R59 to R61). -/
theorem fireLane_eq {s : State} {n : LaneId} {f : Firing} {c : Copy} {q : List Entry} (ev : Option (SourceId × Word))
    (hc : (s.lane n).cur = some f) (hq : (s.lane n).queue = .copy c :: q) :
    s.fireLane n ev = (s.withOut (firedLevels c s.out)).withLane n { s.lane n with
      gapStart := s.timebase, gapEvent := ev, expiredOn := none
      cur := some
        { f with waiting := false, limit := .none_, fires := f.fires + 1, pulse := firedPulse c s.timebase s.out }
        } := by
  unfold State.fireLane
  have : (s.lane n).currentCopy = some c := by unfold Lane.currentCopy; rw [hc, hq]
  rw [this]
  dsimp only
  rw [updLane_eq, setOut_eq]
  unfold Lane.fire
  rw [hc]
  have hw : ({ s.lane n with gapStart := s.timebase, gapEvent := ev, expiredOn := none, cur := some { f with waiting := false, limit := .none_, fires := f.fires + 1, pulse := firedPulse c s.timebase s.out } } : Lane).progressWords = (s.lane n).progressWords := by
    unfold Lane.progressWords Lane.currentSlot
    dsimp only
    rw [hc, hq]
  dsimp only [Option.map_some]
  unfold State.withLane State.withOut
  dsimp only
  rw [if_pos hw]
  have hl : ({ s with out := firedLevels c s.out, marks := if firedLevels c s.out = s.out then s.marks else s.marks ||| (1#20 <<< 8) } : State).lane n = s.lane n := rfl
  rw [hl, if_pos hw]

/-- The waiter set of one lane. -/
theorem waiters_one {s : State} {t : Trigger} {n : LaneId} (hn : (s.lane n).waitsOn t = true) (h : ∀ m, (s.lane
    m).waitsOn t = true → m = n) : s.waiters t = [n] := by
  have : (fun m => (s.lane m).waitsOn t) = (fun m => decide (m = n)) := by
    funext m
    cases hc : (s.lane m).waitsOn t
    · by_cases hm : m = n
      · subst hm; rw [hn] at hc; cases hc
      · simp [hm]
    · simp [h m hc]
  unfold State.waiters
  rw [this]
  clear this h hn; revert n; decide

/-- A cue with fires remaining and no trigger to take waits again, and nothing more follows. -/
theorem wait_settle {s u : State} {n : LaneId} {k : Lane} {f : Firing} {c : Copy} {q : List Entry} (hs : s.settled)
    (hu : ∀ m, m ≠ n → u.lane m = s.lane m) (ho : k.owed = []) (hc : k.cur = some f) (hq : k.queue = .copy c :: q)
    (hw : f.waiting = false) (hp : f.pulse = none) (he : f.ended = none) (hf : f.fires < c.required)
    (hst : k.st = .running ∨ k.st = .stopping) (hnt : u.nothingToTake k c) :
    (u.withLane n k).settle = u.withLane n { k with cur := some (f.joining c) } := by
  have hgo : (u.withLane n k).laneGo n = u.withLane n { k with cur := some (f.joining c) } := by
    unfold State.laneGo
    rw [withLane_lane, hc, hq]
    dsimp only
    rw [if_neg (by omega), beginWait_joins hnt (t := u.withLane n k) rfl rfl (by rw [withLane_lane]; exact ⟨rfl, rfl⟩), joinWait_eq hc, hq]
  rw [settle_one (n := n)]
  · rw [hgo]
  · intro m
    by_cases hm : m = n
    · subst hm; rw [withLane_lane]; exact ⟨ho, by unfold Lane.pendsFree; rw [hc]; simp [he]⟩
    · rw [withLane_lane_ne _ _ hm, hu m hm]; exact ⟨(hs m).1, (hs m).2.1⟩
  · intro m
    by_cases hm : m = n
    · subst hm; rw [withLane_lane]
      unfold Lane.canGo
      rw [hc, hq]
      rcases hst with h | h <;> simp [he, hw, h, hp]
    · rw [withLane_lane_ne _ _ hm, hu m hm, (hs m).2.2]; simp [hm]
  · rw [hgo]
    apply settled_quiet
    refine withLane_settled_of hs hu ⟨ho, ?_, ?_⟩
    · unfold Lane.pendsFree Firing.joining; dsimp only; simp [he]
    · unfold Lane.canGo Firing.joining; dsimp only; rw [hq]; simp

/-- Marks in another order. -/
theorem or_swap {w : Nat} (a b c : BitVec w) : a ||| b ||| c = a ||| c ||| b := by rw [BitVec.or_assoc, BitVec.or_comm b
    c, ← BitVec.or_assoc]

/-- New pin levels and a new lane commute. -/
theorem withOut_withLane (s : State) (p : Pins) (n : LaneId) (l : Lane) : (s.withLane n l).withOut p = (s.withOut
    p).withLane n l := by
  have hl : (s.withOut p).lane n = s.lane n := rfl
  unfold State.withLane
  rw [hl]
  unfold State.withOut
  dsimp only
  congr 1
  split <;> split <;> first | rfl | exact or_swap _ _ _

/-- The overtaking of a fetch depends on the port. -/
theorem overtake_port {s t : State} (n : LaneId) (h : t.port = s.port) : (t.overtake n).port = (s.overtake n).port :=
    by
  unfold State.overtake
  rw [h]
  cases hp : s.port with
  | none => exact h.trans hp |>.trans hp.symm
  | some x => cases x <;> first | rfl | exact h.trans hp |>.trans hp.symm

/-- With room, the one lane in completion pending leaves its queue (R73, R144). -/
theorem follow_pend {s : State} {n : LaneId} (hr : 0 < s.room) (h1 : ∀ m, (s.lane m).owed = []) (h2 : ∀ m, (s.lane
    m).pendsFree = true ↔ m = n) :
    s.follow = some (s.releasePending n) := by
  have e1 : allLanes.filter (fun m => !(s.lane m).owed.isEmpty) = [] := by
    rw [List.filter_eq_nil_iff]; intro m _; simp [h1 m]
  have e2 : allLanes.filter (fun m => (s.lane m).pendsFree) = [n] := by
    have : (fun m => (s.lane m).pendsFree) = (fun m => decide (m = n)) := by
      funext m
      have := h2 m
      cases hc : (s.lane m).pendsFree <;> simp_all
    rw [this]; clear this h2 h1; revert n; decide
  have e3 : s.firstOf [] = none := rfl
  have e4 : s.firstOf [n] = some n := by unfold State.firstOf; cases h : s.isUrgent n <;> simp [h]
  unfold State.follow
  rw [if_pos hr, e1, e3]
  dsimp only
  rw [if_pos hr, e2, e4]

/-- The last cue of an open list leaves: STARVED with its attention (R41). -/
theorem leave_starved {t : State} {n : LaneId} {k : Lane} {c : Copy} {f : Firing} {e : Ending} (hq : k.queue = [.copy
    c]) (hw : k.progressWords = (t.lane n).progressWords) (hf : c.isFinal = false) (hst : k.st = .running) :
    (t.withLane n k).leaveQueue n c f e = (({ t with wbq := t.wbq ++ [resultEntry n c f e 0 false] } :
      State).withLane n { k with queue := [], cur := none, st := .starved }).withCause (.starved n) := by
  unfold State.leaveQueue
  simp only [withLane_lane, hq, hst, List.tail_cons]
  have hE : ∀ x, ((t.withLane n k).enqueue x).lane n = k := fun x => withLane_lane _ _ _
  rw [if_neg (by simp [hf]), if_neg (by simp), updLane_eq, hE]
  show State.withCause (((({ t with wbq := t.wbq ++ [resultEntry n c f e 0 false] } : State).withLane n k).withLane n _)) _ = _
  rw [withLane_withLane _ _ _ _ (by left; exact hw)]

/-- A FINAL cue leaves: IDLE with LIST-DONE (R41). -/
theorem leave_final {t : State} {n : LaneId} {k : Lane} {c : Copy} {f : Firing} {e : Ending} (hq : k.queue = [.copy
    c]) (hw : k.progressWords = (t.lane n).progressWords) (hf : c.isFinal = true) (hh : k.heldReturns = []) :
    (t.withLane n k).leaveQueue n c f e =
      (({ t with wbq := t.wbq ++ [resultEntry n c f e 0 false], port := (t.overtake n).port } : State).withLane n
      (k.closed .idle)).withCause (.listDone n) := by
  unfold State.leaveQueue
  simp only [withLane_lane, hq, hh, List.tail_cons]
  rw [if_pos (by left; exact hf)]
  show State.withCause (State.closeLane (({ t with wbq := t.wbq ++ [resultEntry n c f e 0 false] } : State).withLane n k) n .idle) _ = _
  congr 1
  unfold State.closeLane
  rw [updLane_eq, withLane_withLane _ _ _ _ (by left; exact hw), withLane_lane]
  have hov : ∀ x : State, x.port = t.port → x.overtake n = { x with port := (t.overtake n).port } := by
    intro x hx
    unfold State.overtake
    rw [hx]
    split
    · rfl
    · rfl
    · rw [← hx]
  rw [hov ((({ t with wbq := t.wbq ++ [resultEntry n c f e 0 false] } : State)).withLane n (k.closed .idle)) rfl]
  rfl

/-- A cue in completion pending leaves as soon as there is room (R72). -/
theorem follow_pending_room {s t : State} {n : LaneId} {k : Lane} {c : Copy} {f : Firing} {e : Ending} {q : List Entry} (hs :
    s.settled)
    (hu : ∀ m, m ≠ n → t.lane m = s.lane m) (ho : k.owed = []) (hc : k.cur = some f) (he : f.ended = some e) (hq :
      k.queue = .copy c :: q) (hr : 0 < t.room) :
    (t.withLane n k).follow = some ((t.withLane n k).leaveQueue n c f e) := by
  have hrel : (t.withLane n k).releasePending n = (t.withLane n k).leaveQueue n c f e := by
    unfold State.releasePending
    rw [withLane_lane]
    have : k.currentCopy = some c := by unfold Lane.currentCopy; rw [hc, hq]
    rw [this, hc]
    dsimp only
    rw [he]
  rw [follow_pend (n := n) (show 0 < (t.withLane n k).room from hr), hrel]
  · intro m
    by_cases hm : m = n
    · subst hm; rw [withLane_lane]; exact ho
    · rw [withLane_lane_ne _ _ hm, hu m hm]; exact (hs m).1
  · intro m
    by_cases hm : m = n
    · subst hm; rw [withLane_lane]; unfold Lane.pendsFree; simp [ho, hc, he]
    · rw [withLane_lane_ne _ _ hm, hu m hm, (hs m).2.1]; simp [hm]

/-- With no room a cue stays in completion pending (R72). -/
theorem quiet_pending_full {s t : State} {n : LaneId} {k : Lane} {c : Copy} {f : Firing} {e : Ending} {q : List Entry} (hs :
    s.settled)
    (hu : ∀ m, m ≠ n → t.lane m = s.lane m) (hc : k.cur = some f) (he : f.ended = some e) (hq : k.queue = .copy c ::
      q) (hr : t.room = 0) :
    (t.withLane n k).quiet := by
  rw [quiet_iff]
  refine ⟨fun h => ?_, fun m => ?_⟩
  · have : (t.withLane n k).room = 0 := hr
    omega
  · by_cases hm : m = n
    · subst hm; rw [withLane_lane]; unfold Lane.canGo; rw [hc, hq]; simp [he]
    · rw [withLane_lane_ne _ _ hm, hu m hm]; exact (hs m).2.2

/-- PULSE_END of a pulse that is due (R61). -/
theorem exec_pulseEnd {n : LaneId} {s : State} {f : Firing} {c : Copy} {q : List Entry} {p : Pulse} (he : s.engine =
    .ready)
    (hc : (s.lane n).cur = some f) (hq : (s.lane n).queue = .copy c :: q) (hp : f.pulse = some p) (ht : p.endTick =
      s.timebase) :
    exec (.pulseEnd n) s = .next (((s.withOut ((p.restore &&& c.mask) ||| (s.out &&& ~~~c.mask))).withLane n
      { s.lane n with cur := some { f with pulse := none } }).settle) := by
  show Host.Outcome.next (s.pulseEnds n) = _
  unfold State.pulseEnds
  have : (s.lane n).currentCopy = some c := by unfold Lane.currentCopy; rw [hc, hq]
  rw [this, hc]
  dsimp only [Option.bind_some]
  rw [hp]
  dsimp only
  rw [if_pos ⟨he, ht⟩]
  unfold State.updFiring
  rw [updLane_eq, setOut_eq, hc]
  rw [withOut_withLane]
  rfl

/-- A trigger that stays held after an expiry is one the lane stands on, and the one held before (R66). -/
theorem afterExpiry_expiredOn {l : Lane} {t : Trigger} :
    l.afterExpiry.expiredOn = some t ↔ l.expiredOn = some t ∧ l.standsOn t = true := by
  unfold Lane.afterExpiry; simp [Option.filter_eq_some_iff]

/-- What the end of the current copy leaves (R17, R55, R73). -/
theorem endCurrent_eq (l : Lane) (c : Copy) (o : CueOutcome) (now : Word) : l.endCurrent c o now =
    { l with
      gapStart := now
      queue := bumpPass c.slot l.queue
      cur := l.cur.map (fun f => { f with ended := some { outcome := o, stamp := now, pass := c.pass + 1 } }) } := rfl

/-- The rise of a pass count leaves the queue's length (R17). -/
@[simp] theorem bumpPass_length (slot : Link) (q : List Entry) : (bumpPass slot q).length = q.length := by
  simp [bumpPass]

/-- A queue is empty after the rise of a pass count just when it was before (R17). -/
@[simp] theorem bumpPass_nil (slot : Link) (q : List Entry) : bumpPass slot q = [] ↔ q = [] := by simp [bumpPass]

/-- WAIT_LIMIT_EXPIRY of a limit that is due (R65). -/
theorem exec_waitLimitExpiry {n : LaneId} {s : State} {f : Firing} {c : Copy} {q : List Entry} (he : s.engine = .ready)
    (hc : (s.lane n).cur = some f) (hq : (s.lane n).queue = .copy c :: q) (hw : f.waiting = true) (hl : f.limit =
      .counting 0) :
    exec (.waitLimitExpiry n) s = .next (if c.expiryFault = true then (s.laneFault n .expired none).settle else
      let u := (s.withLane n
        { s.lane n with
          gapStart := s.timebase, gapEvent := none, expiredOn := c.trigger, queue := bumpPass c.slot (s.lane n).queue
          cur := some { f with
            waiting := false, limit := .none_
            ended := some { outcome := .expired, stamp := s.timebase, pass := c.pass + 1 } } }).settle
      u.withLane n { u.lane n with expiredOn := (u.lane n).expiredOn.filter (u.lane n).standsOn }) := by
  show Host.Outcome.next (s.limitExpires n) = _
  unfold State.limitExpires
  have hcc : (s.lane n).currentCopy = some c := by unfold Lane.currentCopy; rw [hc, hq]
  have hd : (s.lane n).limitDue = true := by unfold Lane.limitDue; rw [hc]; simp [hw, hl]
  rw [hcc]
  dsimp only
  rw [if_pos ⟨he, hd⟩]
  split
  · rfl
  · rw [updLane_eq, updLane_eq]; unfold Lane.expire; rw [endCurrent_eq, hc]; rfl

end Sys2Proof.Machine
end

