-- ==== Sys2Proof/Laws/Faults.lean ====
section
/-! SUPPORT. Lane faults and halt trips as whole states. -/

namespace Sys2Proof.Machine

set_option maxHeartbeats 2000000

/-- The overtaking of a fetch changes the port alone. -/
theorem overtake_eq (x s : State) (n : LaneId) (hx : x.port = s.port) : x.overtake n =
    { x with port := (s.overtake n).port } := by
  unfold State.overtake
  rw [hx]
  split
  · rfl
  · rfl
  · rw [← hx]

/-- An overtaken fetch keeps its reserved place (R146). -/
theorem overtake_reserved (s : State) (n : LaneId) : ({ s with port := (s.overtake n).port } : State).reserved =
    s.reserved := by
    unfold State.reserved
    dsimp only
    cases hp : s.port with
    | none => have : (s.overtake n).port = none := by { unfold State.overtake; rw [hp]; exact hp }
              rw [this]
    | some x =>
      cases x with
      | cueFetch m d => have : (s.overtake n).port = some (.cueFetch m (d || m == n)) := by { unfold State.overtake; rw [hp] }
                        rw [this]; simp
      | tailReread m d => have : (s.overtake n).port = some (.tailReread m (d || m == n)) := by { unfold State.overtake; rw [hp] }
                          rw [this]; simp
      | _ => have : (s.overtake n).port = s.port := by { unfold State.overtake; rw [hp]; exact hp }
             rw [this, hp]

/-- An overtaken fetch leaves the room. -/
theorem overtake_room (s : State) (n : LaneId) : ({ s with port := (s.overtake n).port } : State).room = s.room := by
  unfold State.room
  rw [overtake_reserved]

/-- An overtaken fetch leaves the places. -/
theorem overtake_places (s : State) (n : LaneId) : ({ s with port := (s.overtake n).port } : State).places n =
    s.places n := by
  unfold State.places
  rw [overtake_room]
  rfl

/-- A lane replaced twice. -/
theorem withLane_twice (s : State) (n : LaneId) (a b : Lane)
    (h : b.progressWords = (s.lane n).progressWords ↔ a.progressWords = (s.lane n).progressWords ∧ b.progressWords =
      a.progressWords) :
    (s.withLane n a).withLane n b = s.withLane n b := by
  have e : (s.withLane n a).lane n = a := withLane_lane s n a
  unfold State.withLane at *
  dsimp only at *
  rw [e, set_set]
  congr 1
  by_cases h1 : a.progressWords = (s.lane n).progressWords
  · rw [if_pos h1]; rw [h1]
  · rw [if_neg h1, if_neg (fun hb => h1 (h.mp hb).1)]
    split
    · rfl
    · rw [BitVec.or_assoc, BitVec.or_self]

/-- A lane fault, as the whole state after (R50). -/
theorem laneFault_eq (s : State) (n : LaneId) (code : FaultCode) (m : Option Link) :
    s.laneFault n code m = ((({ s with port := (s.overtake n).port } : State).withEntries n
      ((s.lane n).handBackEntries n .faulted s.timebase code.code ++ [resumeEntry n ((s.lane
        n).resumeSlot (m.map (fun k => (code, k))))])
      { (s.lane n).closed .faulted with faultCode := some code, faultSlot := m.getD (s.lane n).currentSlot }).withOut
        (blend (s.ownedBy n) s.safe s.out)).withCause (.laneFault n) := by
  unfold State.laneFault
  dsimp only
  generalize (s.lane n).handBackEntries n .faulted s.timebase code.code ++ [resumeEntry n ((s.lane n).resumeSlot (m.map (fun k => (code, k))))] = es
  have h0 : s.produceAll n es = s.withEntries n es (s.lane n) := by
    rw [← withLane_produceAll es rfl]
    congr 1
    unfold State.withLane
    simp [State.lane]
  rw [h0]
  have hl : (s.withEntries n es (s.lane n)).lane n = { s.lane n with owed := (s.lane n).owed ++ es.drop (s.places n) } := by
    unfold State.withEntries; rw [withLane_lane]
  unfold State.closeLane
  rw [updLane_eq (s.withEntries n es (s.lane n)) n, hl]
  rw [overtake_eq ((s.withEntries n es (s.lane n)).withLane n _) s n rfl, updLane_eq, setOut_eq]
  generalize hk : ({ s.lane n with owed := (s.lane n).owed ++ es.drop (s.places n) } : Lane).closed .faulted = k
  have hm : ({ (s.withEntries n es (s.lane n)).withLane n k with port := (s.overtake n).port } : State) =
      (({ s with port := (s.overtake n).port } : State).withEntries n es (s.lane n)).withLane n k := by
    unfold State.withEntries
    rw [overtake_places]
    rfl
  rw [hm, withLane_lane]
  have hf : ((({ s with port := (s.overtake n).port } : State).withEntries n es (s.lane n)).withLane n k).withLane n { k with faultCode := some code, faultSlot := m.getD (s.lane n).currentSlot } =
      ({ s with port := (s.overtake n).port } : State).withEntries n es { (s.lane n).closed .faulted with faultCode := some code, faultSlot := m.getD (s.lane n).currentSlot } := by
    have hx : (({ s with port := (s.overtake n).port } : State).withEntries n es (s.lane n)).lane n = { s.lane n with owed := (s.lane n).owed ++ es.drop (s.places n) } := by
      unfold State.withEntries; rw [withLane_lane, overtake_places]; rfl
    rw [withLane_twice]
    · unfold State.withEntries
      rw [withLane_withLane _ _ _ _ (by left; rfl), overtake_places, ← hk]
      rfl
    · rw [hx, ← hk]
      generalize s.lane n = j
      generalize j.owed ++ es.drop _ = o
      unfold Lane.progressWords Lane.closed Lane.currentSlot
      dsimp only
      simp only [List.cons.injEq, and_true]
      tauto
  rw [hf]
  rfl

/-- Entries handed back are the lane's own. -/
theorem handBack_owner (l : Lane) (n : LaneId) (o : CueOutcome) (now r : Word) : ∀ x ∈ l.handBackEntries n o now r,
    x.owner = some n := by
  intro x hx
  unfold Lane.handBackEntries at hx
  rw [List.mem_append] at hx
  rcases hx with hx | hx
  · unfold Lane.endEntry at hx
    split at hx
    · split at hx <;> (rw [List.mem_singleton] at hx; subst hx; rfl)
    · simp at hx
  · unfold returnEntries at hx
    rw [List.mem_map] at hx
    obtain ⟨c, _, rfl⟩ := hx
    rfl

/-- A lane fault changes the progress entry (R52). -/
theorem progressWords_fault (l : Lane) (code : FaultCode) (o : List WriteBack) (h : l.st ≠ .idle ∧ l.st ≠ .faulted) (sl :
    Link) :
    ({ l.closed .faulted with faultCode := some code, faultSlot := sl, owed := o } : Lane).progressWords ≠
      l.progressWords := by
  intro he
  unfold Lane.progressWords at he
  have h1 := (List.cons.inj he).1
  have key : ∀ (a : LaneState) (p : Pause) (k : Word) (x y : Link), 
      ((a.code ||| p.code <<< 3 ||| k <<< 6 ||| place 10 x ||| place 20 y).extractLsb' 0 3) = a.code.extractLsb' 0 3 := by
    intro a p k x y
    apply BitVec.eq_of_getLsbD_eq
    intro i hi
    have hp : ∀ p : Pause, ∀ i, i < 3 → (p.code <<< 3).getLsbD i = false := by intro p; cases p <;> decide
    simp only [BitVec.getLsbD_extractLsb', BitVec.getLsbD_or, place, BitVec.getLsbD_shiftLeft (x := k), BitVec.getLsbD_shiftLeft (x := BitVec.setWidth 32 x), BitVec.getLsbD_shiftLeft (x := BitVec.setWidth 32 y), Nat.zero_add, hp p i hi]
    have z6 : i < 6 := by omega
    have z10 : i < 10 := by omega
    have z20 : i < 20 := by omega
    simp [z6, z10, z20]
  have h2 := congrArg (fun w : Word => w.extractLsb' 0 3) h1
  simp only at h2
  rw [key, key] at h2
  revert h2
  obtain ⟨ha, hb⟩ := h
  show LaneState.faulted.code.extractLsb' 0 3 = l.st.code.extractLsb' 0 3 → False
  cases hst : l.st <;> simp_all <;> decide

/-- What faulting the lanes `ns` with one code changes, whatever the order (R50, R51). -/
structure Faulted (s t : State) (ns : List LaneId) (code : FaultCode) : Prop where
  frame : t =
    { s with wbq := t.wbq, port := t.port, marks := t.marks, lanes := t.lanes, out := t.out, att := t.att, choices := t.choices }
  other : ∀ n, n ∉ ns → t.lane n = s.lane n ∧ t.pipeline n = s.pipeline n
  lane : ∀ n, n ∈ ns → t.lane n = { s.lane n with
      st := .faulted, queue := [], cur := none, heldReturns := [], fetch := none, reread := false, revisit := none
      pause := .closed, expiredOn := none, faultCode := some code, faultSlot := (s.lane n).currentSlot
      owed := (t.lane n).owed } ∧
    t.pipeline n = s.pipeline n ++
      (s.lane n).handBackEntries n .faulted s.timebase code.code ++
      [resumeEntry n ((s.lane n).resumeSlot none)]
  port : t.port = (match s.port with
    | some (.cueFetch n d) => some (.cueFetch n (d || ns.contains n))
    | some (.tailReread n d) => some (.tailReread n (d || ns.contains n))
    | other => other)
  att : t.att = { s.att with pending := t.att.pending }
  pend : ∀ c, t.att.isPending c = true ↔ s.att.isPending c = true ∨ ∃ n ∈ ns, c = .laneFault n
  mono : ∀ i : Fin 20, s.marks.getLsbD i.val = true → t.marks.getLsbD i.val = true
  out : s.out ≠ t.out → t.marks.getLsbD 8 = true
  mark : ∀ n : LaneId, n ∈ ns → ((s.lane n).st ≠ .idle ∧ (s.lane n).st ≠ .faulted) → t.marks.getLsbD n.val = true
  queued : ∃ es, t.wbq = s.wbq ++ es ∧ ∀ e ∈ es, ∃ n ∈ ns, e.owner = some n

/-- Causes with one place are one cause. -/
theorem cause_index_inj : ∀ a b : Cause, a.index = b.index → a = b := by
  intro a b h
  have h' := congrArg Fin.val h
  cases a <;> cases b <;> simp only [Cause.index] at h' <;> first | rfl | (exfalso; revert h'; simp; done) | (exfalso; omega) | (congr 1; apply Fin.ext; omega)

/-- What is pending after a raise (R153). -/
theorem raise_pending (a : Attention) (c d : Cause) : (a.raise c).isPending d = true ↔ a.isPending d = true ∨ d = c
    := by
  unfold Attention.raise Attention.isPending
  dsimp only
  by_cases h : d = c
  · subst h; simp
  · have hne : c.index ≠ d.index := fun e => h (cause_index_inj _ _ e).symm
    have hv : c.index.val ≠ d.index.val := fun e => hne (Fin.ext e)
    simp [Vector.getElem_set_ne, hv, h]

/-- The mark of one status item. -/
theorem bit_shift20 (k i : Nat) (hk : k < 20) : (1#20 <<< k).getLsbD i = decide (i = k) := by
  simp only [BitVec.getLsbD_shiftLeft, BitVec.getLsbD_one]
  by_cases h : i = k
  · subst h; simp [hk]
  · simp [h]; omega

/-- One lane fault. -/
theorem laneFault_faulted (s : State) (n : LaneId) (code : FaultCode) : Faulted s (s.laneFault n code none) [n] code := by
  rw [laneFault_eq, Option.getD_none, Option.map_none]
  have hown := handBack_owner (s.lane n) n .faulted s.timebase code.code
  generalize hes : (s.lane n).handBackEntries n .faulted s.timebase code.code ++ [resumeEntry n ((s.lane n).resumeSlot none)] = es
  have hown' : ∀ x ∈ es, x.owner = some n := by
    rw [← hes]; intro x hx; rw [List.mem_append] at hx
    rcases hx with hx | hx
    · exact hown x hx
    · rw [List.mem_singleton] at hx; subst hx; rfl
  have hlane : ((((({ s with port := (s.overtake n).port } : State).withEntries n es
      { (s.lane n).closed .faulted with faultCode := some code, faultSlot := (s.lane n).currentSlot }).withOut
        (blend (s.ownedBy n) s.safe s.out)).withCause (.laneFault n))).lane n = { (s.lane n).closed .faulted with faultCode := some code, faultSlot := (s.lane n).currentSlot, owed := (s.lane n).owed ++ es.drop (s.places n) } := by
    show ((({ s with port := (s.overtake n).port } : State).withEntries n es _).lane n) = _
    unfold State.withEntries; rw [withLane_lane, overtake_places]; rfl
  have hother : ∀ m, m ≠ n → ((((({ s with port := (s.overtake n).port } : State).withEntries n es
      { (s.lane n).closed .faulted with faultCode := some code, faultSlot := (s.lane n).currentSlot }).withOut
        (blend (s.ownedBy n) s.safe s.out)).withCause (.laneFault n))).lane m = s.lane m := by
    intro m hm
    show ((({ s with port := (s.overtake n).port } : State).withEntries n es _).lane m) = _
    unfold State.withEntries; rw [withLane_lane_ne _ _ hm]; rfl
  have hwbq : ((((({ s with port := (s.overtake n).port } : State).withEntries n es
      { (s.lane n).closed .faulted with faultCode := some code, faultSlot := (s.lane n).currentSlot }).withOut
        (blend (s.ownedBy n) s.safe s.out)).withCause (.laneFault n))).wbq = s.wbq ++ es.take (s.places n) := by
    show s.wbq ++ es.take (({ s with port := (s.overtake n).port } : State).places n) = _
    rw [overtake_places]
  have hmarks : ((((({ s with port := (s.overtake n).port } : State).withEntries n es
      { (s.lane n).closed .faulted with faultCode := some code, faultSlot := (s.lane n).currentSlot }).withOut
        (blend (s.ownedBy n) s.safe s.out)).withCause (.laneFault n))).marks = (if blend (s.ownedBy n) s.safe s.out = s.out then
          (if ({ (s.lane n).closed .faulted with faultCode := some code, faultSlot := (s.lane n).currentSlot, owed := (s.lane n).owed ++ es.drop (({ s with port := (s.overtake n).port } : State).places n) } : Lane).progressWords = (s.lane n).progressWords then s.marks else s.marks ||| (1#20 <<< n.val))
        else (if ({ (s.lane n).closed .faulted with faultCode := some code, faultSlot := (s.lane n).currentSlot, owed := (s.lane n).owed ++ es.drop (({ s with port := (s.overtake n).port } : State).places n) } : Lane).progressWords = (s.lane n).progressWords then s.marks else s.marks ||| (1#20 <<< n.val)) ||| (1#20 <<< 8)) := rfl
  generalize ht : ((((({ s with port := (s.overtake n).port } : State).withEntries n es
      { (s.lane n).closed .faulted with faultCode := some code, faultSlot := (s.lane n).currentSlot }).withOut
        (blend (s.ownedBy n) s.safe s.out)).withCause (.laneFault n))) = t at *
  refine ⟨?_, ?_, ?_, ?_, ?_, ?_, ?_, ?_, ?_, ?_⟩
  · rw [← ht]; rfl
  · intro m hm
    have hm' : m ≠ n := by simpa using hm
    refine ⟨hother m hm', ?_⟩
    unfold State.pipeline
    rw [hother m hm', hwbq, List.filter_append]
    have : (es.take (s.places n)).filter (fun e => e.owner == some m) = [] := by
      rw [List.filter_eq_nil_iff]
      intro x hx
      rw [hown' x (List.mem_of_mem_take hx)]
      simpa using fun h => hm' h.symm
    rw [this, List.append_nil]
  · intro m hm
    have hm' : m = n := by simpa using hm
    subst hm'
    refine ⟨by rw [hlane]; rfl, ?_⟩
    unfold State.pipeline
    rw [hlane, hwbq, List.filter_append, List.append_assoc ((s.wbq.filter _)), List.append_assoc, hes]
    have : (es.take (s.places m)).filter (fun e => e.owner == some m) = es.take (s.places m) := by
      rw [List.filter_eq_self]
      intro x hx
      rw [hown' x (List.mem_of_mem_take hx)]
      simp
    rw [this]
    dsimp only
    rw [List.append_assoc]
    congr 1
    by_cases ho : (s.lane m).owed = []
    · rw [ho]; simp
    · have : s.places m = 0 := by unfold State.places; rw [if_neg ho]
      rw [this]; simp
  · rw [← ht]
    show (s.overtake n).port = _
    have hc : ∀ m : LaneId, ([n] : List LaneId).contains m = (m == n) := by
      intro m; rw [Bool.eq_iff_iff]; simp
    unfold State.overtake
    rcases hp : s.port with _ | x
    · simp [hp]
    · cases x <;> simp only [hp, hc]
  · rw [← ht]; rfl
  · intro c
    rw [← ht]
    have h := raise_pending s.att (.laneFault n) c
    show (s.att.raise (.laneFault n)).isPending c = true ↔ _
    rw [h]
    simp
  · intro i hi
    rw [hmarks]
    split <;> split <;> simp [hi]
  · intro h
    have : t.out = blend (s.ownedBy n) s.safe s.out := by rw [← ht]; rfl
    rw [hmarks, if_neg (by rw [← this]; exact fun e => h e.symm)]
    simp
  · intro m hm hst
    have hm' : m = n := by simpa using hm
    subst hm'
    have hw := progressWords_fault (s.lane m) code ((s.lane m).owed ++ es.drop (({ s with port := (s.overtake m).port } : State).places m)) hst (s.lane m).currentSlot
    rw [hmarks, if_neg hw]
    have := m.isLt
    split <;> simp [bit_shift20 m.val m.val (by omega)]
  · exact ⟨es.take (s.places n), hwbq, fun e he => ⟨n, by simp, hown' e (List.mem_of_mem_take he)⟩⟩

/-- Faults of some lanes and then of others. -/
theorem Faulted.comp {s t u : State} {a b : List LaneId} {code : FaultCode} (h1 : Faulted s t a code) (h2 : Faulted t
    u b code)
    (hd : ∀ n, n ∈ a → n ∉ b) : Faulted s u (a ++ b) code := by
  have htb : t.timebase = s.timebase := by rw [h1.frame]
  refine ⟨?_, ?_, ?_, ?_, ?_, ?_, ?_, ?_, ?_, ?_⟩
  · have e1 := h1.frame
    have e2 := h2.frame
    rw [e2, e1]
  · intro n hn
    rw [List.mem_append, not_or] at hn
    rw [(h2.other n hn.2).1, (h2.other n hn.2).2]; exact h1.other n hn.1
  · intro n hn
    by_cases ha : n ∈ a
    · rw [(h2.other n (hd n ha)).1, (h2.other n (hd n ha)).2]; exact h1.lane n ha
    · have hb : n ∈ b := by rw [List.mem_append] at hn; exact hn.resolve_left ha
      have e := h2.lane n hb
      rw [(h1.other n ha).1, (h1.other n ha).2, htb] at e
      exact e
  · rw [h2.port, h1.port]
    rcases s.port with _ | x
    · rfl
    · cases x <;> simp [Bool.or_assoc]
  · rw [h2.att, h1.att]
  · intro c
    rw [h2.pend, h1.pend]
    constructor
    · rintro ((h | ⟨n, hn, h⟩) | ⟨n, hn, h⟩)
      · left; exact h
      · right; exact ⟨n, by simp [hn], h⟩
      · right; exact ⟨n, by simp [hn], h⟩
    · rintro (h | ⟨n, hn, h⟩)
      · left; left; exact h
      · rw [List.mem_append] at hn
        rcases hn with hn | hn
        · left; right; exact ⟨n, hn, h⟩
        · right; exact ⟨n, hn, h⟩
  · intro i hi; exact h2.mono i (h1.mono i hi)
  · intro h
    by_cases he : s.out = t.out
    · exact h2.out (by rw [← he]; exact h)
    · exact h2.mono 8 (h1.out he)
  · intro n hn hst
    by_cases ha : n ∈ a
    · exact h2.mono ⟨n.val, by omega⟩ (h1.mark n ha hst)
    · have hb : n ∈ b := by rw [List.mem_append] at hn; exact hn.resolve_left ha
      exact h2.mark n hb (by rw [(h1.other n ha).1]; exact hst)
  · obtain ⟨x, hx, ox⟩ := h1.queued
    obtain ⟨y, hy, oy⟩ := h2.queued
    refine ⟨x ++ y, by rw [hy, hx, List.append_assoc], fun e he => ?_⟩
    rcases List.mem_append.mp he with h | h
    · obtain ⟨n, hn, ho⟩ := ox e h; exact ⟨n, by simp [hn], ho⟩
    · obtain ⟨n, hn, ho⟩ := oy e h; exact ⟨n, by simp [hn], ho⟩

/-- The order of the lanes does not matter. -/
theorem Faulted.perm {s t : State} {a b : List LaneId} {code : FaultCode} (h : Faulted s t a code) (hp : ∀ n, n ∈ a ↔
    n ∈ b) : Faulted s t b code := by
  have hc : ∀ n, a.contains n = b.contains n := by
    intro n; rw [Bool.eq_iff_iff]; simp [hp]
  refine ⟨h.frame, fun n hn => h.other n (fun x => hn ((hp n).mp x)), fun n hn => h.lane n ((hp n).mpr hn), ?_, h.att, ?_, h.mono, h.out, fun n hn => h.mark n ((hp n).mpr hn), ?_⟩
  · rw [h.port]; simp only [hc]
  · intro c; rw [h.pend]; simp only [hp]
  · obtain ⟨x, hx, ox⟩ := h.queued
    exact ⟨x, hx, fun e he => by obtain ⟨n, hn, ho⟩ := ox e he; exact ⟨n, (hp n).mp hn, ho⟩⟩

/-- A free choice is one of the things to choose from. -/
theorem pickOne_mem {α : Type} (k : Nat) (ns : List α) (d : α) (h : ns ≠ []) : pickOne k ns d ∈ ns := by
  unfold pickOne
  have hl : Config.freeOrder k % ns.length < ns.length := Nat.mod_lt _ (List.length_pos_of_ne_nil h)
  rw [List.getD_eq_getElem _ _ hl]
  exact List.getElem_mem hl

/-- The free choices used do not matter. -/
theorem Faulted.choice {s t : State} {a : List LaneId} {code : FaultCode} {k : Nat} (h : Faulted
    { s with choices := k } t a code) : Faulted s t a code :=
  ⟨by have := h.frame; rw [this], h.other, h.lane, h.port, h.att, h.pend, h.mono, h.out, h.mark, h.queued⟩

/-- The lanes of one halt trip fault, in whatever order (R51). -/
theorem faultLanes_faulted (code : FaultCode) : ∀ (k : Nat) (ns : List LaneId) (s : State), ns.length ≤ k → ns.Nodup →
    Faulted s (faultLanes k ns code s) ns code := by
  have nil : ∀ s, Faulted s s [] code := by
    intro s
    refine ⟨rfl, fun n _ => ⟨rfl, rfl⟩, fun n hn => by simp at hn, ?_, rfl, fun c => by simp, fun _ h => h, fun h => absurd rfl h, fun n hn => by simp at hn, [], by simp, by simp⟩
    rcases s.port with _ | x
    · rfl
    · cases x <;> simp
  intro k
  induction k with
  | zero =>
    intro ns s hl _
    have : ns = [] := List.length_eq_zero_iff.mp (by omega)
    subst this
    exact nil s
  | succ k ih =>
    intro ns s hl hn
    match ns with
    | [] => exact nil s
    | [n] => exact laneFault_faulted s n code
    | n :: m :: ns =>
      show Faulted s (faultLanes k ((n :: m :: ns).erase (pickOne s.choices (n :: m :: ns) n)) code ({ s with choices := s.choices + 1 }.laneFault (pickOne s.choices (n :: m :: ns) n) code none)) _ code
      have hmem := pickOne_mem s.choices (n :: m :: ns) n (by simp)
      generalize pickOne s.choices (n :: m :: ns) n = p at *
      have h1 := (laneFault_faulted { s with choices := s.choices + 1 } p code).choice
      have h2 := ih ((n :: m :: ns).erase p) ({ s with choices := s.choices + 1 }.laneFault p code none) (by rw [List.length_erase_of_mem hmem]; omega) (hn.erase p)
      refine (h1.comp h2 ?_).perm ?_
      · intro x hx
        rw [List.mem_singleton] at hx; subst hx
        exact fun h => absurd rfl ((List.Nodup.mem_erase_iff hn).mp h).1
      · intro x
        rw [List.mem_append, List.mem_singleton, List.Nodup.mem_erase_iff hn]
        constructor
        · rintro (rfl | ⟨_, h⟩)
          · exact hmem
          · exact h
        · intro h
          by_cases hx : x = p
          · left; exact hx
          · right; exact ⟨hx, h⟩

/-- The lanes a halt trip faults (R51). -/
theorem tripLanes_mem (s : State) (n : LaneId) : n ∈ s.tripLanes ↔ (s.lane n).faultsAtTrip := by
  unfold State.tripLanes Lane.faultsAtTrip
  rw [List.mem_filter]
  have : n ∈ allLanes := by revert n; decide
  simp [this]

/-- A halt trip after its faults, as one record: the marks of the pins and the link, and of the halt record where it
differs from the one before (R113, R115, R136, R149). -/
theorem trip_eq {s u : State} (cause : HaltCause) (line : Fin 8)
    (hu : faultLanes s.tripLanes.length s.tripLanes cause.faultCode { s with engine := .halted } = u) :
    ∃ K : LinkPort, K = LinkPort.begin_
      { u.link with txq := [], relayPending := u.link.plan.relay && u.link.plan.enabled } true ∧
    ∃ N : BitVec 20, N = ((u.withOut u.safe).marks |||
      (if K.countWords = u.link.countWords then 0#20 else 1#20 <<< 10) |||
      (if K.occupancyWords = u.link.occupancyWords then 0#20 else 1#20 <<< 11)) ||| (1#20 <<< 11) ∧
    ∃ R : HaltRecord, R = { cause := cause, line := line, tick := s.timebase
                            lanes := laneSet (fun n => s.tripLanes.contains n), further := 0 } ∧
    s.trip cause line = { u with
      out := u.safe, beats := u.beats.map Beat.stopped, link := K, att := u.att.raise .halt, halt := R
      marks := if R = u.halt then N else N ||| (1#20 <<< 9) } := by
  refine ⟨_, rfl, _, rfl, _, rfl, ?_⟩
  unfold State.trip
  simp only [hu]
  generalize laneSet (fun n => s.tripLanes.contains n) = L
  generalize s.timebase = tb
  clear hu
  rw [setHalt_eq, updLink_eq, setOut_eq]
  unfold State.raise State.markItem State.withLink State.withOut
  dsimp only
  rfl

/-- A halt trip, in the words of the statements (R112, R113, R115). -/
theorem trip_tripped (s : State) (cause : HaltCause) (code : FaultCode) (line : Fin 8) (hc : cause.faultCode = code) :
    Tripped s (s.trip cause line) cause code line := by
  have hn : s.tripLanes.Nodup := by unfold State.tripLanes; exact List.Nodup.filter _ (by decide)
  have hF := faultLanes_faulted code s.tripLanes.length s.tripLanes { s with engine := .halted } (le_refl _) hn
  generalize hu : faultLanes s.tripLanes.length s.tripLanes code { s with engine := .halted } = u at hF
  obtain ⟨K, hK, N, hN, R, hR, ht⟩ := trip_eq (s := s) (u := u) cause line (by rw [hc]; exact hu)
  rw [ht]
  clear hu ht
  obtain ⟨w, p, mk, ls, o, a, ch, rfl⟩ : ∃ w p mk ls o a ch, u = { s with engine := .halted, wbq := w, port := p, marks := mk, lanes := ls, out := o, att := a, choices := ch } := ⟨_, _, _, _, _, _, _, hF.frame⟩
  generalize hU : ({ s with engine := .halted, wbq := w, port := p, marks := mk, lanes := ls, out := o, att := a, choices := ch } : State) = u at hF hK hN ⊢
  have hfr : u = { s with engine := .halted, wbq := w, port := p, marks := mk, lanes := ls, out := o, att := a, choices := ch } := hU.symm
  have hlink : u.link = s.link := by rw [hfr]
  have hsafe : u.safe = s.safe := by rw [hfr]
  have hbeats : u.beats = s.beats := by rw [hfr]
  have hatt := hF.att
  have hhalt : u.halt = s.halt := by rw [hfr]
  rw [hsafe] at hN
  have hmem := tripLanes_mem s
  obtain ⟨M, hM⟩ : ∃ M : BitVec 20, M = if R = u.halt then N else N ||| (1#20 <<< 9) := ⟨_, rfl⟩
  rw [hsafe, ← hM]
  have hNM : ∀ k, N.getLsbD k = true → M.getLsbD k = true := by
    intro k hk; rw [hM]; split <;> simp [hk]
  have hmono : ∀ k, (u.withOut s.safe).marks.getLsbD k = true → M.getLsbD k = true := by
    intro k hk; apply hNM; rw [hN]; simp [hk]
  refine ⟨?_, ?_, ?_, ?_, ?_, ?_, ?_, ?_, ?_, ?_, ?_, ?_, ?_, ?_, ?_⟩
  · rw [hfr, hR]
  · intro n
    show R.lanes.getLsbD n.val = true ↔ _
    rw [hR]
    unfold laneSet
    rw [show (BitVec.ofFnLE (fun n => s.tripLanes.contains n)).getLsbD n.val = s.tripLanes.contains n by simp, ← hmem]; simp
  · intro n h
    exact hF.other n (fun x => h ((hmem n).mp x))
  · intro n h
    exact hF.lane n ((hmem n).mpr h)
  · show u.port = _
    rw [hF.port]
    have hc : ∀ m : LaneId, s.tripLanes.contains m = ((s.lane m).st != .idle && (s.lane m).st != .faulted) := by
      intro m; rw [Bool.eq_iff_iff]; simp [hmem, Lane.faultsAtTrip]
    show (match s.port with | _ => _) = _
    rcases hp : s.port with _ | x
    · rfl
    · cases x <;> simp only [hc]
  · intro b
    show (u.beats.map Beat.stopped)[b] = _
    rw [hbeats]; simp [Beat.stopped]
  · show K = _
    rw [hK, hlink]
    unfold LinkPort.begin_
    cases s.link.plan.relay <;> cases s.link.plan.enabled <;> cases hs : s.link.sending <;> simp [hs, stopFrame, frameByte]
  · show u.att.raise .halt = _
    rw [hatt]; rfl
  · intro c
    show (u.att.raise .halt).isPending c = true ↔ _
    rw [raise_pending, hF.pend]
    constructor
    · rintro ((h | ⟨n, hn, h⟩) | h)
      · left; exact h
      · right; right; exact ⟨n, (hmem n).mp hn, h⟩
      · right; left; exact h
    · rintro (h | h | ⟨n, hn, h⟩)
      · left; left; exact h
      · right; exact h
      · left; right; exact ⟨n, (hmem n).mpr hn, h⟩
  · intro i hi
    have h1 := hF.mono i hi
    apply hmono
    show (if s.safe = u.out then u.marks else u.marks ||| (1#20 <<< 8)).getLsbD i.val = true
    split <;> simp [h1]
  · obtain ⟨x, hx, ox⟩ := hF.queued
    exact ⟨x, hx, fun e he => by obtain ⟨n, hn, ho⟩ := ox e he; exact ⟨n, ho, (hmem n).mp hn⟩⟩
  · intro h
    show M.getLsbD 9 = true
    rw [hM, if_neg (show ¬ R = u.halt by rw [hhalt]; exact h)]; simp
  · exact hNM 11 (by rw [hN]; simp)
  · intro h
    apply hmono
    show (if s.safe = u.out then u.marks else u.marks ||| (1#20 <<< 8)).getLsbD 8 = true
    split
    · rename_i he; exact hF.out (by show s.out ≠ u.out; rw [← he]; exact h)
    · simp
  · intro n h
    have h1 := hF.mark n ((hmem n).mpr h) h
    apply hmono
    show (if s.safe = u.out then u.marks else u.marks ||| (1#20 <<< 8)).getLsbD n.val = true
    split <;> simp [h1]

end Sys2Proof.Machine
end

