-- ==== Sys2Proof/Laws/Delivery.lean ====
section
/-! SUPPORT. What one small action does, each said once in the words of the statements: a fire, an event delivered, a
lane fault, post actions, a cue that leaves, and which small action comes next. -/

namespace Sys2Proof.Machine

set_option maxHeartbeats 2000000

/-! Events. -/

/-- The levels after a fire (R60, R61). -/
theorem firedLevels_eq (c : Copy) (out : Pins) : firedLevels c out = c.levelsAfter out := by
  unfold firedLevels Copy.levelsAfter blend; cases c.action <;> rfl

/-- The pulse a fire leaves (R61). -/
theorem firedPulse_eq (c : Copy) (now : Word) (out : Pins) : firedPulse c now out =
    if c.action = .pulse then some { endTick := now + c.pulseWidth.setWidth 32, restore := out &&& c.mask } else none := by
  unfold firedPulse; cases h : c.action <;> simp

/-- A fire, in the words of the statements (R55, R59 to R61). -/
theorem fireLane_withFire (s : State) (n : LaneId) (ev : Option (SourceId × Word)) : s.fireLane n ev = s.withFire n ev := by
  unfold State.withFire
  split
  · rename_i f c q hc hq
    rw [fireLane_eq ev hc hq, firedLevels_eq, firedPulse_eq]
  · rename_i h
    unfold State.fireLane
    have : (s.lane n).currentCopy = none := by
      unfold Lane.currentCopy
      split
      · rename_i f c q hc hq; exact absurd hq (h f c q hc)
      · rfl
    rw [this]

/-- A lane waits on `t` (R54, R66, R77). -/
theorem waitsOn_iff (s : State) (t : Trigger) (n : LaneId) : (s.lane n).waitsOn t = true ↔ s.reaches t n := by
  unfold Lane.waitsOn Lane.standsOn Lane.currentCopy State.reaches
  cases hc : (s.lane n).cur with
  | none => simp
  | some f =>
    cases hq : (s.lane n).queue with
    | nil => simp
    | cons e q =>
      cases e with
      | marker => simp
      | copy c => simp [and_assoc]

/-- The waiter set (R76, R77). -/
theorem waiters_mem (s : State) (t : Trigger) (n : LaneId) : n ∈ s.waiters t ↔ s.reaches t n := by
  unfold State.waiters
  rw [List.mem_filter, waitsOn_iff]
  have : n ∈ allLanes := by revert n; decide
  simp [this]

/-- The waiter set stands in order of number. -/
theorem waiters_sorted (s : State) (t : Trigger) : (s.waiters t).Pairwise (· < ·) := by
  unfold State.waiters
  exact List.Pairwise.filter _ (by decide)

/-- The lane the arbiter chooses (R82). -/
theorem firstOf_chooses {s : State} {t : Trigger} {n : LaneId} (h : s.chooses t n) : s.firstOf (s.waiters t) = some n :=
  firstOf_spec s (fun m => (s.lane m).waitsOn t) n ((waitsOn_iff s t n).mpr h.1)
    (fun m hm => h.2 m ((waitsOn_iff s t m).mp hm))

/-- With no lane to choose from. -/
theorem waiters_none {s : State} {t : Trigger} (h : ∀ n, ¬ s.reaches t n) : s.waiters t = [] :=
  List.eq_nil_iff_forall_not_mem.mpr (fun n hn => h n ((waiters_mem s t n).mp hn))

/-- A fold of fires. -/
theorem fold_fires (ns : List LaneId) (ev : Option (SourceId × Word)) : ∀ s : State,
    ns.foldl (fun u n => u.fireLane n ev) s = ns.foldl (fun u n => u.withFire n ev) s := by
  induction ns with
  | nil => intro s; rfl
  | cons n ns ih => intro s; rw [List.foldl_cons, List.foldl_cons, fireLane_withFire]; exact ih _

/-- A SHARE event (R66, R79). -/
theorem shareEvent_shared (s : State) (i : SourceId) : Shared s (s.shareEvent i) i := by
  refine ⟨s.waiters (.source i), waiters_sorted _ _, waiters_mem s _, ?_⟩
  unfold State.shareEvent State.shareTaken
  rw [fold_fires, afterEvent_eq]
  generalize hu : (s.waiters (.source i)).foldl _ s = u
  have hsrc : u.source i = s.source i := by
    rw [← hu]
    have : ∀ ns : List LaneId, ∀ v : State, (ns.foldl (fun u n => u.withFire n (some (i, s.timebase))) v).source i =
        v.source i := by
      intro ns
      induction ns with
      | nil => intro v; rfl
      | cons n ns ih =>
        intro v
        rw [List.foldl_cons, ih]
        unfold State.withFire
        split <;> rfl
    exact this _ s
  dsimp only
  rw [setSource_eq, hsrc]

/-- A CLAIM event (R66, R81, R82, R85). -/
theorem claimEvent_claimed (s : State) (i : SourceId) : Claimed s (s.claimEvent i) (.source i) (s.unclaimed i) := by
  unfold State.claimEvent
  refine ⟨fun n h => ?_, fun h => ?_⟩
  · rw [afterEvent_eq]
    unfold State.claimTaken
    rw [firstOf_chooses h]
    dsimp only
    rw [fireLane_withFire]
  · rw [afterEvent_eq, claimTaken_none (waiters_none h)]

/-- An event of a source, by its delivery mode (R75). -/
theorem sourceEvent_delivered (s : State) (i : SourceId) : Delivered s (s.sourceEvent i) i := by
  unfold State.sourceEvent
  refine ⟨fun h => ?_, fun h => ?_⟩
  · rw [h]; exact shareEvent_shared s i
  · rw [h]; exact claimEvent_claimed s i

/-- A link code (R66, R90, R130). -/
theorem linkEvent_claimed (s : State) (code : BitVec 6) : Claimed s (s.linkEvent code) (.link code) (s.unclaimedCode code) := by
  unfold State.linkEvent
  refine ⟨fun n h => ?_, fun h => ?_⟩
  · rw [afterEvent_eq]
    unfold State.codeTaken
    rw [firstOf_chooses h]
    dsimp only
    rw [fireLane_withFire]
  · rw [afterEvent_eq]
    unfold State.codeTaken State.unclaimedCode
    rw [waiters_none h]
    simp only [State.firstOf, List.find?_nil, List.head?_nil, Option.or_none, updLink_eq]
    rfl

/-! Lane faults. -/

/-- The pins of a faulted lane (R50, R118). -/
theorem faultLevels_eq (s : State) (n : LaneId) : blend (s.ownedBy n) s.safe s.out = s.faultLevels n := by
  apply BitVec.eq_of_getLsbD_eq
  intro p hp
  have h1 := blend_bits (s.ownedBy n) s.safe s.out ⟨p, hp⟩
  have h2 := ownedBy_bits s n ⟨p, hp⟩
  rw [h2] at h1
  rw [h1]
  unfold State.faultLevels
  rw [BitVec.getLsbD_ofFnLE]
  simp [hp]

/-- A lane fault, as the whole state after (R50). -/
theorem laneFault_withFault (s : State) (n : LaneId) (code : FaultCode) (m : Option Link) :
    s.laneFault n code m = s.withFault n code (m.getD (s.lane n).currentSlot)
      ((s.lane n).resumeSlot (m.map (fun k => (code, k)))) := by
  rw [laneFault_eq, faultLevels_eq]; rfl

/-! A lane goes on. -/

/-- A copy at the head begins (R41). -/
theorem laneGo_begin {s : State} {n : LaneId} {c : Copy} {q : List Entry} (hc : (s.lane n).cur = none)
    (hq : (s.lane n).queue = .copy c :: q) :
    s.laneGo n = s.withLane n { s.lane n with st := .running, heldBegun := true, cur := some {} } := by
  unfold State.laneGo
  rw [hc, hq]
  dsimp only
  unfold State.beginCopy
  rw [updLane_eq]

/-- A marker at the head faults the lane (R42). -/
theorem laneGo_marker {s : State} {n : LaneId} {code : FaultCode} {slot : Link} {q : List Entry}
    (hc : (s.lane n).cur = none) (hq : (s.lane n).queue = .marker code slot :: q) :
    s.laneGo n = s.withFault n code slot ((s.lane n).resumeSlot (some (code, slot))) := by
  unfold State.laneGo
  rw [hc, hq]
  dsimp only
  rw [laneFault_withFault]
  rfl

/-- A current cue with fires remaining begins a wait (R54). -/
theorem laneGo_wait {s : State} {n : LaneId} {f : Firing} {c : Copy} {q : List Entry} (hc : (s.lane n).cur = some f)
    (hq : (s.lane n).queue = .copy c :: q) (hf : f.fires < c.required) : s.laneGo n = s.beginWait n c := by
  unfold State.laneGo
  rw [hc, hq]
  dsimp only
  rw [if_neg (by omega)]

/-- A wait for NOW fires at once (R58). -/
theorem beginWait_now {s : State} {n : LaneId} {c : Copy} (h : c.trigger = some .now) : s.beginWait n c = s.withFire n none := by
  unfold State.beginWait
  rw [h]
  exact fireLane_withFire s n none

/-- A wait for a CLAIM source with a pending count draws one (R56, R83). -/
theorem beginWait_claim {s : State} {n : LaneId} {c : Copy} {i : SourceId} (h : c.trigger = some (.source i))
    (hf : c.isFresh = false) (hm : (s.source i).claim = true) (hn : 0 < (s.source i).count) :
    s.beginWait n c = (s.withSource i { s.source i with count := (s.source i).count - 1 }).withFire n none := by
  unfold State.beginWait
  rw [h]
  dsimp only
  rw [if_neg (by simp [hf]), if_pos hm, if_pos hn, setSource_eq, fireLane_withFire]

/-- A wait whose SHARE source's last event lies in its gap fires late, or with LATE-FAULT faults the lane (R57). -/
theorem beginWait_late {s : State} {n : LaneId} {f : Firing} {c : Copy} {q : List Entry} {i : SourceId} {t : Word}
    (hc : (s.lane n).cur = some f) (hq : (s.lane n).queue = .copy c :: q) (h : c.trigger = some (.source i))
    (hf : c.isFresh = false) (hm : (s.source i).claim = false) (hl : (s.source i).last = some t)
    (ht : (t - (s.lane n).gapStart).toNat < 2 ^ 31) (hg : (s.lane n).gapEvent ≠ some (i, t)) :
    s.beginWait n c = if c.lateFault = true then s.withFault n .late c.slot ((s.lane n).resumeSlot none)
      else (s.withLane n { s.lane n with cur := some { f with late := true } }).withFire n (some (i, t)) := by
  unfold State.beginWait
  rw [h]
  dsimp only
  have hlate : lateEvent (s.lane n) i (s.source i).last = some t := by
    unfold lateEvent
    rw [hl]
    dsimp only
    rw [if_pos ⟨by unfold atOrAfter; exact decide_eq_true ht, hg⟩]
  rw [if_neg (by simp [hf]), if_neg (by simp [hm]), hlate]
  dsimp only
  split
  · rw [laneFault_withFault]
    have : (s.lane n).currentSlot = c.slot := by unfold Lane.currentSlot; rw [hc, hq]
    rw [Option.getD_none, Option.map_none, this]
  · unfold State.updFiring
    rw [fireLane_withFire, updLane_eq, hc]
    rfl

/-- A wait for a link code takes the oldest queued entry of the code (R131). -/
theorem beginWait_link {s : State} {n : LaneId} {c : Copy} {code : BitVec 6} {before after : List RxEntry} {e : RxEntry}
    (h : c.trigger = some (.link code)) (hf : c.isFresh = false) (hq : s.link.rxq = before ++ e :: after)
    (he : e.code = code) (hb : ∀ x ∈ before, x.code ≠ code) :
    s.beginWait n c = (s.withLink { s.link with rxq := before ++ after }).withFire n none := by
  unfold State.beginWait
  rw [h]
  dsimp only
  have hany : s.link.rxq.any (fun e => e.code == code) = true := by
    rw [List.any_eq_true]; exact ⟨e, by rw [hq]; simp, by simp [he]⟩
  rw [if_pos (by rw [hf, hany]; rfl), updLink_eq, fireLane_withFire]
  have : dropCode code s.link.rxq = before ++ after := by
    unfold dropCode
    rw [hq, List.eraseP_append_right _ (fun x hx => by simpa using hb x hx), List.eraseP_cons_of_pos (by simp [he])]
  rw [this]

/-! Completions. -/

/-- The engine stays as it is through an event's parts. -/
theorem frame_engine {s t : State} (h : EventFrame s t) : t.engine = s.engine := h.fields.1

/-- A code appended to the transmit queue (R133, R134). -/
theorem sends_eq (l : LinkPort) (e : TxEntry) (h : l.plan.enabled = true) :
    LinkPort.begin_ { l with txq := l.txq ++ [e] } true = l.sends e := by
  unfold LinkPort.begin_ LinkPort.sends
  cases hs : l.sending with
  | some b => simp
  | none =>
    cases hr : l.relayPending
    · cases hq : l.txq <;> simp [h, frameByte]
    · simp [h, stopFrame, frameByte]

/-- The post actions of a completion, in their order (R69 to R71). -/
theorem postActions_posted {s : State} (he : s.engine = .ready) (n : LaneId) (c : Copy) : Posted s (s.postActions n c) n c := by
  unfold State.postActions
  obtain ⟨u1, h1⟩ : ∃ u1, u1 = (match c.raiseFlag with | some f => s.claimEvent (flagSource f) | none => s) := ⟨_, rfl⟩
  obtain ⟨u2, h2⟩ : ∃ u2, u2 = (match c.sendGroup with | some g => u1.send n c.sendCode g | none => u1) := ⟨_, rfl⟩
  have hf1 : EventFrame s u1 := by
    rw [h1]; split
    · exact EventFrame.claimEvent _ _
    · rfl
  have hlive : u1.engine.live = true := by rw [frame_engine hf1, he]; rfl
  refine ⟨u1, u2, u2.beatPost c, ?_, ?_, ?_, ?_, ?_, ?_⟩
  · intro h; rw [h1, h]
  · intro f h; rw [h1, h]; exact claimEvent_claimed s _
  · intro h; rw [h2, h]
  · intro g h
    rw [h2, h]
    dsimp only
    unfold State.send
    refine ⟨fun ha hb => ?_, fun hab => ?_⟩
    · rw [if_pos ⟨ha, hb⟩, updLink_eq, hlive, sends_eq _ _ ha]
    · rw [if_neg]
      · unfold State.updFiring
        rw [updLane_eq, updLink_eq]
        rfl
      · rintro ⟨ha, hb⟩
        rcases hab with h | h
        · rw [ha] at h; cases h
        · exact absurd hb (by simpa [Config.linkPlaces] using h)
  · unfold State.beatPost
    cases c.beatAction with
    | none_ => rfl
    | start => rfl
    | stop => rfl
    | retune =>
      dsimp only
      unfold State.updBeat Beat.retune
      congr 2
      dsimp only
      generalize u2.beats[c.beatNumber] = b
      cases h : b.running <;> simp
  · rw [h2, h1]
    dsimp only
    split <;> rfl

/-- A cue with its fires made completes (R69). -/
theorem laneGo_completes {s : State} {n : LaneId} {f : Firing} {c : Copy} {q : List Entry} (hc : (s.lane n).cur = some f)
    (hq : (s.lane n).queue = .copy c :: q) (hf : c.required ≤ f.fires) :
    s.laneGo n = (s.postActions n c).withLane n { (s.postActions n c).lane n with
      gapStart := s.timebase
      queue := bumpPass c.slot ((s.postActions n c).lane n).queue
      cur := ((s.postActions n c).lane n).cur.map (fun k =>
        { k with ended := some { outcome := .done, stamp := s.timebase, pass := c.pass + 1 } }) } := by
  unfold State.laneGo
  rw [hc, hq]
  dsimp only
  rw [if_pos hf]
  unfold State.complete
  rw [updLane_eq, endCurrent_eq]

/-- A lane's entries, then the end of its list with a fetch overtaken. -/
theorem produceAll_close (t : State) (n : LaneId) (es : List WriteBack) (st : LaneState) :
    (t.produceAll n es).closeLane n st =
      ({ t with port := (t.overtake n).port } : State).withEntries n es ((t.lane n).closed st) := by
  have h0 : t.produceAll n es = t.withEntries n es (t.lane n) := by
    rw [← withLane_produceAll es rfl]
    congr 1
    unfold State.withLane
    simp [State.lane]
  have hl : (t.withEntries n es (t.lane n)).lane n = { t.lane n with owed := (t.lane n).owed ++ es.drop (t.places n) } := by
    unfold State.withEntries; rw [withLane_lane]
  rw [h0]
  unfold State.closeLane
  rw [updLane_eq, hl, overtake_eq ((t.withEntries n es (t.lane n)).withLane n _) t n rfl]
  have hm : ∀ k, ({ (t.withEntries n es (t.lane n)).withLane n k with port := (t.overtake n).port } : State) =
      (({ t with port := (t.overtake n).port } : State).withEntries n es (t.lane n)).withLane n k := by
    intro k
    unfold State.withEntries
    rw [overtake_places]
    rfl
  rw [hm]
  unfold State.withEntries
  rw [withLane_withLane _ _ _ _ (by left; rfl), overtake_places]
  rfl

/-- The copies of the slot share the pass count, one higher (R17, log entry 36). -/
theorem bumpPass_eq (slot : Link) (q : List Entry) : bumpPass slot q = q.map (fun x => match x with
    | .copy k => .copy (if k.slot = slot then { k with pass := k.pass + 1 } else k)
    | .marker code m => .marker code m) := rfl

/-- Another copy of the slot is staged behind. -/
theorem remains_eq (slot : Link) (q : List Entry) : (copiesOf q).any (fun k => k.slot == slot) =
    q.any (fun x => match x with | .copy k => decide (k.slot = slot) | .marker _ _ => false) := by
  induction q with
  | nil => rfl
  | cons e q ih =>
    cases e with
    | marker code m => exact ih
    | copy k => exact congrArg (fun b => decide (k.slot = slot) || b) ih

/-- A cue in completion pending leaves (R41, R72, R73). -/
theorem releasePending_eq {s : State} {n : LaneId} {f : Firing} {c : Copy} {q : List Entry} {e : Ending}
    (hc : (s.lane n).cur = some f) (hq : (s.lane n).queue = .copy c :: q) (he : f.ended = some e) :
    let t : State := { s with wbq := s.wbq ++ [resultEntry n c f e 0
      (q.any (fun x => match x with | .copy k => decide (k.slot = c.slot) | .marker _ _ => false))] }
    s.releasePending n =
      if c.isFinal = true ∨ (s.lane n).st = .stopping then
        (({ t with port := (s.overtake n).port } : State).withEntries n (returnEntries n (some c) (s.lane n).heldReturns)
          ((s.lane n).closed .idle)).withCause (.listDone n)
      else if (s.lane n).st = .held ∨ q ≠ [] then
        t.withLane n { s.lane n with queue := q, cur := none }
      else (t.withLane n { s.lane n with queue := [], cur := none, st := .starved }).withCause (.starved n) := by
  intro t
  have hcc : (s.lane n).currentCopy = some c := by unfold Lane.currentCopy; rw [hc, hq]
  have hrel : s.releasePending n = s.leaveQueue n c f e := by
    unfold State.releasePending; rw [hc, hcc]; dsimp only; rw [he]
  have ht : s.enqueue (resultEntry n c f e 0 ((copiesOf (s.lane n).queue.tail).any (fun k => k.slot == c.slot))) = t := by
    rw [hq, List.tail_cons, remains_eq]; rfl
  rw [hrel]
  unfold State.leaveQueue
  dsimp only
  rw [ht, hq, List.tail_cons]
  by_cases h1 : c.isFinal = true ∨ (s.lane n).st = .stopping
  · rw [if_pos h1, if_pos h1, produceAll_close]
    have : (t.overtake n).port = (s.overtake n).port := overtake_port n rfl
    rw [this]
    rfl
  · rw [if_neg h1, if_neg h1]
    have hl : t.lane n = s.lane n := rfl
    by_cases h2 : (s.lane n).st = .held ∨ q ≠ []
    · rw [if_pos h2, if_pos h2, updLane_eq, hl]
    · rw [if_neg h2, if_neg h2, updLane_eq, hl]
      rfl

/-! Which small action comes next. -/

/-- A lane owes writes. -/
theorem owes_iff (l : Lane) : (!l.owed.isEmpty) = true ↔ l.owed ≠ [] := by simp

/-- A lane in completion pending that owes nothing. -/
theorem pendsFree_iff (l : Lane) : l.pendsFree = true ↔ l.owed = [] ∧ ∃ f e, l.cur = some f ∧ f.ended = some e := by
  unfold Lane.pendsFree
  cases hc : l.cur with
  | none => simp
  | some f => cases he : f.ended <;> simp [he]

/-- A lane that can go on (R41, R42, R54). -/
theorem canGo_iff (l : Lane) : l.canGo = true ↔
    (l.cur = none ∧ l.queue ≠ [] ∧ (l.st = .priming ∨ l.st = .running ∨ l.st = .starved)) ∨
    (∃ f c q, l.cur = some f ∧ l.queue = .copy c :: q ∧ f.waiting = false ∧ f.pulse = none ∧
      f.ended = none ∧ (c.required ≤ f.fires ∨ l.st = .running ∨ l.st = .stopping)) := by
  unfold Lane.canGo
  cases hc : l.cur with
  | none => cases hq : l.queue <;> simp [or_assoc]
  | some f =>
    cases hq : l.queue with
    | nil => simp
    | cons e q => cases e <;> simp [or_assoc, and_assoc]

/-- Room goes to the oldest owed write of the lane that comes first (R47, R144). -/
theorem follow_owed {s : State} {n : LaneId} {o : WriteBack} {os : List WriteBack} (hr : 0 < s.room)
    (ho : (s.lane n).owed = o :: os) (h : ∀ m, (s.lane m).owed ≠ [] → s.precedes n m) :
    s.follow = some (({ s with wbq := s.wbq ++ [o] } : State).withLane n { s.lane n with owed := os }) := by
  have e1 : s.firstOf (allLanes.filter (fun m => !(s.lane m).owed.isEmpty)) = some n :=
    firstOf_spec s _ n (by simp [ho]) (fun m hm => h m ((owes_iff _).mp hm))
  unfold State.follow
  rw [if_pos hr, e1]
  dsimp only
  unfold State.enterOwed
  rw [ho]
  dsimp only
  rw [updLane_eq]
  rfl

/-- With no write owed, room goes to the cue in completion pending of the lane that comes first (R73, R144). -/
theorem follow_pends {s : State} {n : LaneId} (hr : 0 < s.room) (ho : ∀ m, (s.lane m).owed = [])
    (hn : (s.lane n).pendsFree = true) (h : ∀ m, (s.lane m).pendsFree = true → s.precedes n m) :
    s.follow = some (s.releasePending n) := by
  have e1 : allLanes.filter (fun m => !(s.lane m).owed.isEmpty) = [] := by
    rw [List.filter_eq_nil_iff]; intro m _; simp [ho m]
  have e2 : s.firstOf (allLanes.filter (fun m => (s.lane m).pendsFree)) = some n := firstOf_spec s _ n hn h
  unfold State.follow
  rw [if_pos hr, e1]
  have e3 : s.firstOf [] = none := rfl
  rw [e3]
  dsimp only
  rw [if_pos hr, e2]

/-- With no room, or nothing waiting for it, some lane that can go on does, or nothing follows (log entry 6). -/
theorem follow_goes {s : State} (h : s.room = 0 ∨ ∀ m, (s.lane m).owed = [] ∧ (s.lane m).pendsFree = false) :
    ((∃ n, (s.lane n).canGo = true) → ∃ n, (s.lane n).canGo = true ∧
      (s.follow = some (s.laneGo n) ∨ s.follow = some ({ s with choices := s.choices + 1 }.laneGo n))) ∧
    ((∀ n, (s.lane n).canGo = false) → s.follow = none) := by
  have e1 : (if 0 < s.room then s.firstOf (allLanes.filter (fun n => !(s.lane n).owed.isEmpty)) else none) = none := by
    split
    · rcases h with h | h
      · omega
      · have : allLanes.filter (fun n => !(s.lane n).owed.isEmpty) = [] := by
          rw [List.filter_eq_nil_iff]; intro m _; simp [(h m).1]
        rw [this]; rfl
    · rfl
  have e2 : (if 0 < s.room then s.firstOf (allLanes.filter (fun n => (s.lane n).pendsFree)) else none) = none := by
    split
    · rcases h with h | h
      · omega
      · have : allLanes.filter (fun n => (s.lane n).pendsFree) = [] := by
          rw [List.filter_eq_nil_iff]; intro m _; simp [(h m).2]
        rw [this]; rfl
    · rfl
  have hall : ∀ x : LaneId, x ∈ allLanes := by decide
  constructor
  · rintro ⟨n, hn⟩
    have hne : s.follow ≠ none := by
      unfold State.follow
      rw [e1]; dsimp only
      rw [e2]; dsimp only
      have : n ∈ allLanes.filter (fun n => (s.lane n).canGo) := List.mem_filter.mpr ⟨hall n, hn⟩
      cases hl : allLanes.filter (fun n => (s.lane n).canGo) with
      | nil => rw [hl] at this; cases this
      | cons a as => cases as <;> simp
    obtain ⟨t, ht⟩ := Option.ne_none_iff_exists'.mp hne
    rcases follow_cases ht with ⟨m, hr, ho, _⟩ | ⟨m, hr, hp, _⟩ | ⟨m, hm, hx⟩
    · rcases h with h | h
      · omega
      · exact absurd (h m).1 ho
    · rcases h with h | h
      · omega
      · rw [(h m).2] at hp; cases hp
    · refine ⟨m, hm, ?_⟩
      rw [ht]
      exact hx.imp (congrArg some) (congrArg some)
  · intro hn
    unfold State.follow
    rw [e1]; dsimp only
    rw [e2]; dsimp only
    have : allLanes.filter (fun n => (s.lane n).canGo) = [] := by
      rw [List.filter_eq_nil_iff]; intro m _; simp [hn m]
    rw [this]

/-- At most `k` small actions are `k` times one small action, where nothing happens once none follows. -/
theorem settleUpTo_eq_iterate (k : Nat) (s : State) : settleUpTo k s = (fun u : State => u.follow.getD u)^[k] s := by
  induction k generalizing s with
  | zero => rfl
  | succ k ih =>
    rw [Function.iterate_succ_apply, ← ih, settleUpTo]
    cases hf : s.follow with
    | some t => rfl
    | none =>
      show s = settleUpTo k s
      cases k with
      | zero => rfl
      | succ k => rw [settleUpTo, hf]

/-- An event is carried to its end one small action at a time (log entry 19). -/
theorem settle_iterates (s : State) : ∃ k, k ≤ settleBound ∧ s.settle = (fun u : State => u.follow.getD u)^[k] s ∧
    (k < settleBound → s.settle.follow = none) := by
  have key : ∀ b : Nat, ∀ s : State, ∃ k, k ≤ b ∧ settleUpTo b s = (fun u : State => u.follow.getD u)^[k] s ∧
      (k < b → (settleUpTo b s).follow = none) := by
    intro b
    induction b with
    | zero => intro s; exact ⟨0, le_refl _, rfl, fun h => absurd h (lt_irrefl _)⟩
    | succ b ih =>
      intro s
      cases hf : s.follow with
      | none =>
        have : settleUpTo (b + 1) s = s := by unfold settleUpTo; rw [hf]
        exact ⟨0, by omega, this, fun _ => by rw [this]; exact hf⟩
      | some t =>
        have : settleUpTo (b + 1) s = settleUpTo b t := by conv => lhs; unfold settleUpTo; rw [hf]
        obtain ⟨k, h1, h2, h3⟩ := ih t
        refine ⟨k + 1, by omega, ?_, fun h => ?_⟩
        · rw [this, h2, Function.iterate_succ_apply]
          simp [hf]
        · rw [this]; exact h3 (by omega)
  exact key settleBound s

/-! A marker at the head of a settled lane. -/

/-- After a lane fault in a state whose other lanes are settled, nothing follows. -/
theorem withFault_quiet {s : State} {n : LaneId} {code : FaultCode} {slot resume : Link}
    (h : ∀ m, m ≠ n → (s.lane m).owed = [] ∧ (s.lane m).pendsFree = false ∧ (s.lane m).canGo = false)
    (ho : (s.lane n).owed = []) : (s.withFault n code slot resume).quiet := by
  unfold State.withFault
  generalize (s.lane n).handBackEntries n .faulted s.timebase code.code ++
    [{ owner := some n, kind := .resumeSlot, writes := [(laneWord n + 3, place 0 resume)] }] = es
  rw [quiet_iff]
  have hpl : ({ s with port := (s.overtake n).port } : State).places n = s.room := by
    rw [overtake_places]; unfold State.places; rw [if_pos ho]
  have hl : ∀ k : Lane, (((({ s with port := (s.overtake n).port } : State).withEntries n es k).withOut
      (s.faultLevels n)).withCause (.laneFault n)).lane n = { k with owed := es.drop s.room } := by
    intro k
    show (({ s with port := (s.overtake n).port } : State).withEntries n es k).lane n = _
    unfold State.withEntries
    rw [withLane_lane, hpl]
    show ({ k with owed := (s.lane n).owed ++ _ } : Lane) = _
    rw [ho, List.nil_append]
  have hm : ∀ (k : Lane) (m : LaneId), m ≠ n → (((({ s with port := (s.overtake n).port } : State).withEntries n es k).withOut
      (s.faultLevels n)).withCause (.laneFault n)).lane m = s.lane m := by
    intro k m hmn
    show (({ s with port := (s.overtake n).port } : State).withEntries n es k).lane m = _
    unfold State.withEntries
    rw [withLane_lane_ne _ _ hmn]
    rfl
  have hr : ∀ k : Lane, 0 < (((({ s with port := (s.overtake n).port } : State).withEntries n es k).withOut
      (s.faultLevels n)).withCause (.laneFault n)).room → es.drop s.room = [] := by
    intro k hk
    have e1 : (((({ s with port := (s.overtake n).port } : State).withEntries n es k).withOut
      (s.faultLevels n)).withCause (.laneFault n)).room =
        Config.writeBackPlaces - ((s.wbq ++ es.take s.room).length + s.reserved) := by
      rw [← overtake_reserved s n, ← hpl]
      rfl
    rw [e1, List.length_append, List.length_take] at hk
    apply List.drop_eq_nil_of_le
    have e2 : s.room = Config.writeBackPlaces - (s.wbq.length + s.reserved) := rfl
    omega
  refine ⟨fun hroom m => ?_, fun m => ?_⟩
  · by_cases hmn : m = n
    · subst hmn
      rw [hl]
      exact ⟨hr _ hroom, by unfold Lane.pendsFree; simp⟩
    · rw [hm _ _ hmn]
      exact ⟨(h m hmn).1, (h m hmn).2.1⟩
  · by_cases hmn : m = n
    · subst hmn
      rw [hl]
      unfold Lane.canGo
      simp
    · rw [hm _ _ hmn]
      exact (h m hmn).2.2

/-- A marker that comes to the head of a lane in PRIMING, RUNNING or STARVED faults it in the same event (R42). -/
theorem marker_settle {s u : State} {n : LaneId} {k : Lane} {code : FaultCode} {slot : Link} (hs : s.settled)
    (hu : ∀ m, m ≠ n → u.lane m = s.lane m) (ho : k.owed = []) (hc : k.cur = none) (hq : k.queue = [.marker code slot])
    (hst : k.st = .priming ∨ k.st = .running ∨ k.st = .starved) :
    (u.withLane n k).settle = (u.withLane n k).withFault n code slot (k.resumeSlot (some (code, slot))) := by
  have hln : (u.withLane n k).lane n = k := withLane_lane _ _ _
  have hgo : (u.withLane n k).laneGo n = (u.withLane n k).withFault n code slot (k.resumeSlot (some (code, slot))) := by
    rw [laneGo_marker (by rw [hln]; exact hc) (by rw [hln]; exact hq), hln]
  have hom : ∀ m, m ≠ n → (u.withLane n k).lane m = s.lane m := by
    intro m hm; rw [withLane_lane_ne _ _ hm, hu m hm]
  rw [settle_one (n := n), hgo]
  · intro m
    by_cases hm : m = n
    · subst hm; rw [hln]; exact ⟨ho, by unfold Lane.pendsFree; rw [hc]; simp⟩
    · rw [hom m hm]; exact ⟨(hs m).1, (hs m).2.1⟩
  · intro m
    by_cases hm : m = n
    · subst hm
      rw [hln, canGo_iff]
      simp only [hc, hq, iff_true]
      left
      exact ⟨trivial, by simp, hst⟩
    · rw [hom m hm, (hs m).2.2]; simp [hm]
  · rw [hgo]
    apply withFault_quiet
    · intro m hm; rw [hom m hm]; exact hs m
    · rw [hln]; exact ho

end Sys2Proof.Machine
end

