-- ==== Sys2Proof/Laws/Fetch.lean ====
section
/-! SUPPORT. The end of a cue fetch: its reads, and a copy or marker appendCopy_settle in a settled state. -/

namespace Sys2Proof.Machine

set_option maxHeartbeats 2000000

/-- Host writes land group by group. -/
theorem landAll_cons (m : List Host.Cell) (ws : Between) : landAll (landGroup m (ws.headD [])) ws.tail = landAll m ws
    := by
  cases ws <;> rfl

/-- After a read sequence and the rest of the host writes, memory is as after the host writes alone. -/
theorem readSeq_land (is : List Nat) (ws : Between) (m : List Host.Cell) :
    landAll (readSeq is ws m).2.2 (readSeq is ws m).2.1 = landAll m ws := by
  induction is generalizing ws m with
  | nil => rfl
  | cons i is ih => simp only [readSeq]; rw [ih, landAll_cons]

/-- A read sequence in two parts. -/
theorem readSeq_append (a b : List Nat) (ws : Between) (m : List Host.Cell) :
    readSeq (a ++ b) ws m = ((readSeq a ws m).1 ++ (readSeq b (readSeq a ws m).2.1 (readSeq a ws m).2.2).1,
      (readSeq b (readSeq a ws m).2.1 (readSeq a ws m).2.2).2) := by
  induction a generalizing ws m with
  | nil => rfl
  | cons i is ih => simp [readSeq, ih]

/-- What the grant of a fetch or re-read changes in the lanes. -/
theorem grantFetch_lane (s : State) (n : LaneId) (r : Request) (hr : r = .cueFetch n ∨ r = .tailReread n) :
    (∀ m, m ≠ n → (s.granted r).lane m = s.lane m) ∧
    ((s.granted r).lane n) = { s.lane n with
      fetch := ((s.granted r).lane n).fetch, reread := ((s.granted r).lane n).reread, pause := ((s.granted r).lane
        n).pause } := by
  unfold State.granted
  split
  · exact ⟨fun _ _ => rfl, rfl⟩
  · rcases hr with rfl | rfl
    · unfold State.grant
      dsimp only
      rw [updLane_eq, withLane_lane]
      refine ⟨fun m hm => ?_, rfl⟩
      rw [withLane_lane_ne _ _ hm]; rfl
    · unfold State.grant
      dsimp only
      rw [updLane_eq, withLane_lane]
      refine ⟨fun m hm => ?_, rfl⟩
      rw [withLane_lane_ne _ _ hm]; rfl

/-- What a grant leaves unchanged. -/
theorem granted_frame (s : State) (r : Request) :
    (s.granted r).engine = s.engine ∧ (s.granted r).mem = s.mem ∧ (s.granted r).wbq = s.wbq ∧ (s.granted r).devOut =
      s.devOut ∧
    (s.granted r).sources = s.sources ∧ (s.granted r).beats = s.beats ∧ (s.granted r).inputs = s.inputs ∧
    (s.granted r).owner = s.owner ∧ (s.granted r).link = s.link ∧ (s.granted r).att = s.att ∧
    (s.granted r).timebase = s.timebase ∧ (s.granted r).snapSet = s.snapSet := by
  unfold State.granted
  split
  · and_intros <;> rfl
  · cases r
    case cueFetch => unfold State.grant; dsimp only; rw [updLane_eq]; and_intros <;> rfl
    case tailReread => unfold State.grant; dsimp only; rw [updLane_eq]; and_intros <;> rfl
    case statusItem => unfold State.grant; dsimp only; split <;> (and_intros <;> rfl)
    all_goals and_intros <;> rfl

/-- The grant of a fetch or re-read keeps a settled state settled. -/
theorem granted_settled {s : State} {n : LaneId} {r : Request} (hr : r = .cueFetch n ∨ r = .tailReread n) (h :
    s.settled) :
    (s.granted r).settled := by
  obtain ⟨h1, h2⟩ := grantFetch_lane s n r hr
  refine settled_of_others h h1 ?_
  rw [h2]
  obtain ⟨a, b, c⟩ := h n
  exact ⟨a, by rw [← b]; rfl, by rw [← c]; rfl⟩

/-- CUE_FETCH at its turn. -/
theorem exec_cueFetch {s : State} {n : LaneId} {ws : Between} (hp : s.atPort (.cueFetch n)) :
    exec (.cueFetch n .done ws) s = .next (State.endCueFetch n ws (s.granted (.cueFetch n))) := by
  show Host.Outcome.next (s.turn (.cueFetch n) .done (State.endCueFetch n ws)) = _
  rw [turn_done hp]

/-- The end of a transaction leaves the lanes. -/
theorem endTransaction_lane (s : State) (n : LaneId) (m : List Host.Cell) : (s.endTransaction m).lane n = s.lane n := rfl

/-- An entry appendCopy_settle behind another does not let the lane go on. -/
theorem canGo_append {l k : Lane} {x : Entry} (h : l.canGo = false) (hq : k.queue = l.queue ++ [x]) (hc : k.cur =
    l.cur)
    (hs : k.st = l.st) (hb : l.queue ≠ [] ∨ (l.st = .held ∧ l.cur = none)) : k.canGo = false := by
  unfold Lane.canGo at *
  rw [hq, hc, hs]
  cases hqq : l.queue with
  | nil =>
    rcases hb with hb | ⟨hb, hb2⟩
    · exact absurd hqq hb
    · rw [hb2, hb]; rfl
  | cons e q => rw [hqq] at h; cases hcur : l.cur <;> rw [hcur] at h <;> cases e <;> exact h

/-- The same for a copy, which shares its pass count with the copies staged before (R17). -/
theorem canGo_share {l k : Lane} {c : Copy} {x : Entry} (h : l.canGo = false) (hq : k.queue = sharePass c l.queue ++
    [x]) (hc : k.cur = l.cur)
    (hs : k.st = l.st) (hb : l.queue ≠ [] ∨ (l.st = .held ∧ l.cur = none)) : k.canGo = false := by
  unfold Lane.canGo at *
  rw [hq, hc, hs]
  cases hqq : l.queue with
  | nil =>
    rcases hb with hb | ⟨hb, hb2⟩
    · exact absurd hqq hb
    · rw [hb2, hb]; rfl
  | cons e q =>
    rw [hqq] at h
    cases e with
    | marker a b => cases hcur : l.cur <;> rw [hcur] at h <;> exact h
    | copy k =>
      simp only [sharePass, List.map_cons, List.cons_append]
      have hr : (if k.slot = c.slot then { k with pass := c.pass } else k).required = k.required := by split <;> rfl
      cases hcur : l.cur with
      | none => rw [hcur] at h; exact h
      | some f => rw [hcur] at h; simp only [hr]; exact h

/-- A change of the lane at the end of a fetch, in a settled state. -/
theorem updLane_settle {g : State} {n : LaneId} {m : List Host.Cell} {F : Lane → Lane} (hg : g.settled)
    (hl : (F (g.lane n)).owed = [] ∧ (F (g.lane n)).pendsFree = false ∧ (F (g.lane n)).canGo = false) :
    ((g.endTransaction m).updLane n F).settle = ({ g with port := none, mem := m } : State).withLane n (F (g.lane n))
      := by
  rw [updLane_eq, endTransaction_lane]
  rw [settle_settled]
  · rfl
  · exact withLane_settled_of hg (fun _ _ => rfl) hl

/-- A fetch that ends without a change, in a settled state. -/
theorem endTransaction_settle {g : State} {m : List Host.Cell} (hg : g.settled) : (g.endTransaction m).settle =
    { g with port := none, mem := m } := by
  rw [settle_settled]
  · rfl
  · exact hg

/-- A copy is appended, in the statements' words (R38). -/
theorem appendCopy_eq (t : State) (n : LaneId) (c : Copy) :
    t.appendCopy n c = t.withLane n ({ t.lane n with fetch := none }.staged c) := by
  unfold State.appendCopy
  rw [updLane_eq]
  congr 1
  unfold Lane.staged
  by_cases h1 : c.isFinal = true
  · simp [h1]
  · by_cases h2 : c.next = 1023#10 <;> simp [h1, h2, Config.linkEnd]

/-- A fault marker is appended, in the statements' words (R40). -/
theorem appendMarker_eq (t : State) (n : LaneId) (code : FaultCode) (slot : Link) :
    t.appendMarker n code slot = t.withLane n ({ t.lane n with fetch := none }.marked code slot) := updLane_eq _ _ _

/-- A copy appendCopy_settle behind others, as the whole state after (R38). -/
theorem appendCopy_settle {g : State} {n : LaneId} {m : List Host.Cell} (hg : g.settled) (c : Copy)
    (hb : (g.lane n).queuesBehind) :
    ((g.endTransaction m).appendCopy n c).settle = ({ g with port := none, mem := m } : State).withLane n
      ({ g.lane n with fetch := none }.staged c) := by
  unfold State.appendCopy
  rw [updLane_settle hg]
  · congr 1
    unfold Lane.staged
    by_cases h1 : c.isFinal = true
    · simp [h1]
    · by_cases h2 : c.next = Config.linkEnd
      · have h2' : c.next = 1023#10 := h2
        simp [h1, h2']
      · have h2' : ¬ c.next = 1023#10 := h2
        simp [h1, h2']
  · obtain ⟨a, b, c'⟩ := hg n
    refine ⟨?_, ?_, ?_⟩
    · rw [← a]; dsimp only; split
      · rfl
      · split <;> rfl
    · rw [← b]; apply pendsFree_congr <;> (dsimp only; split; rfl; split <;> rfl)
    · refine canGo_share c' (c := c) (x := .copy c) ?_ ?_ ?_ hb <;> (dsimp only; split; rfl; split <;> rfl)

/-- A fault marker appendCopy_settle behind others, as the whole state after (R40). -/
theorem appendMarker_settle {g : State} {n : LaneId} {m : List Host.Cell} (hg : g.settled) (code : FaultCode) (slot : Link)
    (hb : (g.lane n).queuesBehind) :
    ((g.endTransaction m).appendMarker n code slot).settle = ({ g with port := none, mem := m } : State).withLane n
      ({ g.lane n with fetch := none }.marked code slot) := by
  unfold State.appendMarker
  rw [updLane_settle hg]
  · rfl
  · obtain ⟨a, b, c'⟩ := hg n
    exact ⟨a, b, canGo_append c' rfl rfl rfl hb⟩

/-- A marker appended to the empty queue of a lane in PRIMING, RUNNING or STARVED faults it at once (R42). -/
theorem appendMarker_fault {g : State} {n : LaneId} {m : List Host.Cell} (hg : g.settled) (code : FaultCode) (slot : Link)
    (hq : (g.lane n).queue = []) (hc : (g.lane n).cur = none)
    (hst : (g.lane n).st = .priming ∨ (g.lane n).st = .running ∨ (g.lane n).st = .starved) :
    ((g.endTransaction m).appendMarker n code slot).settle =
      (({ g with port := none, mem := m } : State).withLane n ({ g.lane n with fetch := none }.marked code slot)).withFault n
        code slot (({ g.lane n with fetch := none }.marked code slot).resumeSlot (some (code, slot))) := by
  unfold State.appendMarker
  rw [updLane_eq]
  refine marker_settle (s := g) hg (fun _ _ => rfl) (hg n).1 hc ?_ hst
  show (g.lane n).queue ++ [_] = _
  rw [hq]; rfl

/-- The end of a cue fetch by what its reads find (R40, R145). -/
theorem endCueFetch_eq {n : LaneId} {ws : Between} {s : State} {f : Fetch} (hf : ((s.granted (.cueFetch n)).lane n).fetch
    = some f) :
    State.endCueFetch n ws (s.granted (.cueFetch n)) =
    (let head := (readSeq [slotWord f.slot] ws s.mem).1.getD 0 0
     let g := s.granted (.cueFetch n)
     if g.port = some (.cueFetch n true) then (g.endTransaction (landAll s.mem ws)).settle
     else if recordState head = .armed then
      let b := slotWord f.slot
      let r := readSeq [b, b + 1, b + 2, b + 3, b + 4, b + 5, b] ws s.mem
      let s1 := g.endTransaction (landAll s.mem ws)
      let c : Copy :=
        { slot := f.slot, head := r.1.getD 0 0, w1 := r.1.getD 1 0, w2 := r.1.getD 2 0, w3 := r.1.getD 3 0, w4 := r.1.getD 4 0
          w5 := r.1.getD 5 0, pass := passCount (readWord r.2.2 (b + 7)), replay := false }
      (if r.1.getD 6 0 = c.head then s1.foundArmed n c else s1.tornAttempt n f).settle
     else ((g.endTransaction (landAll s.mem ws)).foundNotArmed n f.slot head).settle) := by
  obtain ⟨g1, g2, g3, g4, g5, g6, g7, g8, g9, g10, g11, g12⟩ := granted_frame s (.cueFetch n)
  unfold State.endCueFetch
  rw [hf]
  dsimp only
  rw [g2]
  simp only [readSeq_land]
  generalize slotWord f.slot = b
  have h1 : readSeq [b] ws s.mem = ([readWord (landGroup s.mem (ws.headD [])) b], ws.tail, landGroup s.mem (ws.headD [])) := rfl
  have h2 : ∀ l, readSeq (b :: l) ws s.mem = (readWord (landGroup s.mem (ws.headD [])) b :: (readSeq l ws.tail (landGroup s.mem (ws.headD []))).1,
    (readSeq l ws.tail (landGroup s.mem (ws.headD []))).2) := fun _ => rfl
  rw [h1, h2 [b + 1, b + 2, b + 3, b + 4, b + 5, b]]
  generalize readSeq [b + 1, b + 2, b + 3, b + 4, b + 5, b] ws.tail (landGroup s.mem (ws.headD [])) = r
  simp only [List.getD_cons_zero, List.getD_cons_succ]

/-- An entry produced into its reserved place by a lane that owes nothing (R144). -/
theorem produceReserved_eq {t : State} {n : LaneId} {e : WriteBack} (h : (t.lane n).owed = []) : t.produceReserved n e =
    t.enqueue e := by
  unfold State.produceReserved; rw [h]

end Sys2Proof.Machine
end

