-- ==== Sys2Proof/Laws/Owed.lean ====
section
/-! SUPPORT. The writes a lane owes (R47): what each operation leaves of the bound of six, said once for the
    operations that
change nothing of it (Inert), for an event (Within, Keeps), for a lane order
    (Answering), and for the ends of transactions. -/

namespace Sys2Proof.Machine

set_option maxHeartbeats 2000000

/-! One lane. -/

/-- `k` differs from `l` in nothing the bound speaks of but for a fetch that has ended and copies that stay as many. -/
structure Alike (l k : Lane) : Prop where
  st : k.st = l.st
  queue : k.queue.length = l.queue.length
  cur : k.cur.isSome = l.cur.isSome
  fetch : k.fetch = none ∨ k.fetch = l.fetch
  held : k.heldReturns = l.heldReturns
  owed : k.owed = l.owed
  mark : l.cur = none → l.expiredOn = none → k.expiredOn = none

/-- A lane is like itself. -/
theorem Alike.refl (l : Lane) : Alike l l := ⟨rfl, rfl, rfl, Or.inr rfl, rfl, rfl, fun _ h => h⟩

/-- Likeness carries on. -/
theorem Alike.trans {l k j : Lane} (h : Alike l k) (g : Alike k j) : Alike l j :=
  ⟨g.st.trans h.st, g.queue.trans h.queue, g.cur.trans h.cur, (g.fetch.imp_right fun x => x).elim Or.inl
      (fun x => h.fetch.imp x.trans x.trans), g.held.trans h.held,
    g.owed.trans h.owed, fun hc he => g.mark (by have := h.cur; rw [hc] at this; simpa using this) (h.mark hc he)⟩

/-- A like lane keeps the bound. -/
theorem Lane.owesWithin.alike {l k : Lane} {a : Nat} {b c : Prop} (h : l.owesWithin a b) (g : Alike l k) (hb : c → b) :
    k.owesWithin a c := by
  obtain ⟨h1, h2, h3, h4, h5, h6, h7⟩ := h
  obtain ⟨g1, g2, g3, g4, g5, g6, g7⟩ := g
  refine ⟨?_, ?_, ?_, ?_, ?_, ?_, ?_⟩
  · unfold Lane.atRest at *; rw [g1]; intro hr
    obtain ⟨q, c, f, e⟩ := h1 hr
    refine ⟨by rw [q] at g2; simpa using g2, by rw [c] at g3; simpa using g3, by rcases g4 with g4 | g4 <;> simp [g4,
        f], g7 c e⟩
  · unfold Lane.mayOwe at *; rw [g1, g2, g5, g6]; exact h2
  · rw [g2, g5]; exact h3
  · rw [g2]; rcases g4 with g4 | g4
    · simp [g4]
    · rw [g4]; exact h4
  · rw [g5, g1]; exact fun x => ⟨(h5 x).1, g4.elim id (fun y => y.trans (h5 x).2)⟩
  · rw [g1, g6]; exact h6
  · rw [g6]; exact fun x => h7 (hb x)

/-! What changes nothing of the bound. -/

/-- Every lane keeps the bound with `a n` order answers to come. -/
def Within (a : LaneId → Nat) (s : State) : Prop := ∀ n, (s.lane n).owesWithin (a n) (s.fetching n)

/-- `t` differs from `s` in nothing the bound speaks of. -/
structure Inert (s t : State) : Prop where
  lane : ∀ n, Alike (s.lane n) (t.lane n)
  port : t.port = s.port

namespace Inert
theorem refl (s : State) : Inert s s := ⟨fun _ => Alike.refl _, rfl⟩
theorem trans {s t u : State} (h : Inert s t) (g : Inert t u) : Inert s u :=
  ⟨fun n => (h.lane n).trans (g.lane n), g.port.trans h.port⟩
theorem same {s t : State} (h : t.lanes = s.lanes) (hp : t.port = s.port) : Inert s t :=
  ⟨fun n => by have : t.lane n = s.lane n := by unfold State.lane; rw [h]
               rw [this]; exact Alike.refl _, hp⟩
theorem updLane (s : State) (n : LaneId) (f : Lane → Lane) (h : Alike (s.lane n) (f (s.lane n))) : Inert s
    (s.updLane n f) := by
  refine ⟨fun m => ?_, by simp⟩
  by_cases hm : m = n
  · subst hm; rw [updLane_lane_self]; exact h
  · rw [updLane_lane_ne _ _ _ _ hm]; exact Alike.refl _
theorem setOut (s : State) (p : Pins) : Inert s (s.setOut p) := same (by simp) (by simp)
theorem raise (s : State) (c : Cause) : Inert s (s.raise c) := same rfl rfl
theorem setSource (s : State) (i : SourceId) (r : Source) : Inert s (s.setSource i r) := same (by simp) (by simp)
theorem updLink (s : State) (f : LinkPort → LinkPort) : Inert s (s.updLink f) := same (by simp) (by simp)
theorem updBeat (s : State) (b : Fin 8) (f : Beat → Beat) : Inert s (s.updBeat b f) := same rfl rfl
theorem enqueue (s : State) (e : WriteBack) : Inert s (s.enqueue e) := same rfl rfl
theorem updFiring (s : State) (n : LaneId) (f : Firing → Firing) : Inert s (s.updFiring n f) :=
  updLane s n _ ⟨rfl, rfl, by simp, Or.inr rfl, rfl, rfl, fun _ h => h⟩
theorem fold {α : Type} (g : State → α → State) (hg : ∀ s a, Inert s (g s a)) (as : List α) (s : State) :
    Inert s (as.foldl g s) := by
  induction as generalizing s with
  | nil => exact refl s
  | cons a as ih => exact (hg s a).trans (ih _)
theorem fireLane (s : State) (n : LaneId) (v : Option (SourceId × Word)) : Inert s (s.fireLane n v) := by
  unfold State.fireLane; split
  · exact refl s
  · exact (updLane s n _ ⟨rfl, rfl, by simp [Lane.fire], Or.inr rfl, rfl, rfl, fun _ _ => rfl⟩).trans (setOut _ _)
theorem afterExpiry (s : State) (n : LaneId) : Inert s (s.updLane n Lane.afterExpiry) :=
  updLane s n _ ⟨rfl, rfl, rfl, Or.inr rfl, rfl, rfl, fun _ h => by simp [Lane.afterExpiry, h]⟩
theorem afterEvent (s : State) (t : Trigger) : Inert s (s.afterEvent t) :=
  fold _ (fun u n => updLane u n _ ⟨rfl, rfl, by simp [Lane.waitAnew], Or.inr rfl, rfl, rfl, fun _ _ => rfl⟩) _ s
theorem shareEvent (s : State) (i : SourceId) : Inert s (s.shareEvent i) :=
  ((fold _ (fun u n => fireLane u n _) _ s).trans (setSource _ _ _)).trans (afterEvent _ _)
theorem claimEvent (s : State) (i : SourceId) : Inert s (s.claimEvent i) := by
  refine trans ?_ (afterEvent _ _)
  unfold State.claimTaken; split
  · exact fireLane _ _ _
  · split
    · exact setSource _ _ _
    · exact (setSource _ _ _).trans (raise _ _)
theorem sourceEvent (s : State) (i : SourceId) : Inert s (s.sourceEvent i) := by
  unfold State.sourceEvent; split
  · exact claimEvent s i
  · exact shareEvent s i
theorem linkEvent (s : State) (c : BitVec 6) : Inert s (s.linkEvent c) := by
  refine trans ?_ (afterEvent _ _)
  unfold State.codeTaken; split
  · exact fireLane _ _ _
  · split
    · exact updLink _ _
    · exact (updLink _ _).trans (raise _ _)
theorem send (s : State) (n : LaneId) (c : BitVec 6) (g : BitVec 2) : Inert s (s.send n c g) := by
  unfold State.send; split
  · exact updLink _ _
  · exact ((updLink _ _).trans (raise _ _)).trans (updFiring _ _ _)
theorem beatPost (s : State) (c : Copy) : Inert s (s.beatPost c) := by
  unfold State.beatPost; split
  · exact refl s
  all_goals exact updBeat _ _ _
theorem postActions (s : State) (n : LaneId) (c : Copy) : Inert s (s.postActions n c) := by
  have h1 : Inert s (match c.raiseFlag with | some f => s.claimEvent (flagSource f) | none => s) := by
    split
    · exact claimEvent _ _
    · exact refl s
  have h2 : ∀ u : State, Inert u (match c.sendGroup with | some g => u.send n c.sendCode g | none => u) := by
    intro u; split
    · exact send _ _ _ _
    · exact refl _
  have h3 := (h1.trans (h2 _)).trans (beatPost _ c)
  unfold State.postActions
  dsimp only
  split
  · exact h3.trans (raise _ _)
  · exact h3
theorem complete (s : State) (n : LaneId) (c : Copy) : Inert s (s.complete n c) :=
  (postActions s n c).trans (updLane _ n _
    ⟨rfl, bumpPass_length _ _, by simp [endCurrent_eq], Or.inr rfl, rfl, rfl, fun _ h => h⟩)
theorem joinWait (s : State) (n : LaneId) (c : Copy) : Inert s (s.joinWait n c) := updFiring _ _ _
end Inert

/-- What is inert keeps the bound. -/
theorem Within.inert {a : LaneId → Nat} {s t : State} (h : Within a s) (g : Inert s t) : Within a t := fun n =>
  (h n).alike (g.lane n) (by unfold State.fetching; rw [g.port]; exact id)

/-- One lane replaced. -/
theorem Within.lane {a b : LaneId → Nat} {s t : State} {n : LaneId} (h : Within a s)
    (ho : ∀ m, m ≠ n → t.lane m = s.lane m ∧ b m = a m ∧ (t.fetching m → s.fetching m))
    (hn : (t.lane n).owesWithin (b n) (t.fetching n)) : Within b t := by
  intro m
  by_cases hm : m = n
  · subst hm; exact hn
  · obtain ⟨h1, h2, h3⟩ := ho m hm
    rw [h1, h2]; exact (h m).alike (Alike.refl _) h3

/-- An overtaken fetch is no fetch of its lane (R146). -/
theorem overtake_fetching (s : State) (n m : LaneId) : ((s.overtake n).fetching m → s.fetching m) ∧ ¬
    (s.overtake n).fetching n := by
  unfold State.overtake State.fetching
  split
  · rename_i k d h
    rw [h]; constructor
    · simp; rintro rfl rfl; simp; 
    · simp; rintro rfl; simp
  · rename_i k d h
    rw [h]; constructor
    · simp; rintro rfl rfl; simp
    · simp; rintro rfl; simp
  · rename_i h1 h2
    constructor
    · exact id
    · rintro (h | h)
      · exact h1 _ _ h
      · exact h2 _ _ h

/-- No fetch or re-read. -/
def Plain (x : Option Transaction) : Prop := ∀ m d, x ≠ some (.cueFetch m d) ∧ x ≠ some (.tailReread m d)

/-- An overtaking leaves every other transaction. -/
theorem overtake_answer (s : State) (n : LaneId) {x : Option Transaction} (hx : Plain x) :
    (s.overtake n).port = x ↔ s.port = x := by
  unfold State.overtake
  split
  · rename_i k d h; rw [h]
    exact ⟨fun e => absurd e.symm (hx _ _).1, fun e => absurd e.symm (hx _ _).1⟩
  · rename_i k d h; rw [h]
    exact ⟨fun e => absurd e.symm (hx _ _).2, fun e => absurd e.symm (hx _ _).2⟩
  · rfl

/-- One copy a slot at most. -/
theorem firstPerSlot_length (seen : List Link) (cs : List Copy) : (firstPerSlot seen cs).length ≤ cs.length := by
  induction cs generalizing seen with
  | nil => simp [firstPerSlot]
  | cons c cs ih =>
    unfold firstPerSlot; split
    · exact (ih _).trans (by simp)
    · simpa using ih _

/-- At most one return a copy (R21). -/
theorem returnEntries_length (n : LaneId) (c : Option Copy) (cs : List Copy) :
    (returnEntries n c cs).length ≤ cs.length := by
  unfold returnEntries; simpa using firstPerSlot_length _ cs

/-- At most one copy an entry. -/
theorem copiesOf_length (q : List Entry) : (copiesOf q).length ≤ q.length := List.length_filterMap_le _ _

/-- A list that ends gives at most one entry for each copy it holds (R48). -/
theorem handBack_length (l : Lane) (n : LaneId) (o : CueOutcome) (now r : Word) :
    (l.handBackEntries n o now r).length ≤ l.queue.length + l.heldReturns.length := by
  unfold Lane.handBackEntries
  have h1 := returnEntries_length n l.currentCopy (l.notBegun ++ l.heldReturns)
  rw [List.length_append] at *
  have h2 : (l.endEntry n o now r).length + l.notBegun.length ≤ l.queue.length := by
    unfold Lane.endEntry Lane.currentCopy Lane.notBegun
    cases hc : l.cur with
    | none => simpa using copiesOf_length _
    | some f =>
      cases hq : l.queue with
      | nil => simp [copiesOf]
      | cons x q =>
        have := copiesOf_length q
        cases x with
        | marker => simp; omega
        | copy c => dsimp only; split <;> simp <;> omega
  omega

/-- A lane whose list has ended keeps the bound by what it owes. -/
theorem closed_owes {l : Lane} {st : LaneState} {a : Nat} {b : Prop} (hs : st = .idle ∨ st = .faulted)
    (o : List WriteBack)
    (ho : o.length + a ≤ 6) (hi : a ≠ 0 → st = .idle → o.length ≤ 3) (hb : ¬ b) :
    ({ l.closed st with owed := o } : Lane).owesWithin a b := by
  refine ⟨fun _ => ⟨rfl, rfl, rfl, rfl⟩, ?_, by simp [Lane.closed], by simp [Lane.closed], by simp [Lane.closed], hi,
      fun h => absurd h hb⟩
  unfold Lane.mayOwe
  rw [if_pos (by simpa [Lane.closed] using hs)]
  simpa using ho

/-- A lane produces entries and its list ends. -/
theorem Within.close {a b : LaneId → Nat} {s : State} {n : LaneId} (h : Within a s) (es : List WriteBack)
    (st : LaneState)
    (hs : st = .idle ∨ st = .faulted) (ho : (s.lane n).owed.length + es.length + b n ≤ 6)
    (hi : b n ≠ 0 → st = .idle → (s.lane n).owed.length + es.length ≤ 3) (hb : ∀ m, m ≠ n → b m = a m) :
    Within b ((s.produceAll n es).closeLane n st) := by
  have hp : (s.produceAll n es).port = s.port := (produceAll_spec s n es).2.2.2.2.1
  have hl : (s.produceAll n es).lane n = { s.lane n with owed := (s.lane n).owed ++ es.drop (s.places n) } :=
      (produceAll_spec s n es).2.1
  have hlen : ((s.lane n).owed ++ es.drop (s.places n)).length ≤ (s.lane n).owed.length + es.length := by simp
  have hport : ((s.produceAll n es).updLane n (fun l => l.closed st)).port = s.port := by simp [hp]
  have hf : ∀ m, ((s.produceAll n es).closeLane n st).fetching m → (s.overtake n).fetching m := by
    intro m hm
    unfold State.closeLane at hm
    unfold State.fetching at *
    rw [overtake_port n hport] at hm
    exact hm
  refine h.lane (n := n) (fun m hm => ⟨?_, hb m hm, fun hx => (overtake_fetching s n m).1 (hf m hx)⟩) ?_
  · unfold State.closeLane
    rw [overtake_lane, updLane_lane_ne _ _ _ _ hm, (produceAll_spec s n es).2.2.1 m hm]
  · have : ((s.produceAll n es).closeLane n st).lane n =
        { (s.lane n).closed st with owed := (s.lane n).owed ++ es.drop (s.places n) } := by
      unfold State.closeLane
      rw [overtake_lane, updLane_lane_self, hl]; rfl
    rw [this]
    exact closed_owes hs _ (by omega) (fun h1 h2 => by have := hi h1 h2; omega) (fun hx =>
        (overtake_fetching s n n).2 (hf n hx))

/-- A lane fault keeps the bound (R50). -/
theorem Within.laneFault {a : LaneId → Nat} {s : State} (h : Within a s) (n : LaneId) (code : FaultCode)
    (m : Option Link)
    (hn : (s.lane n).st ≠ .idle ∧ (s.lane n).st ≠ .faulted) : Within a (s.laneFault n code m) := by
  unfold State.laneFault
  refine Within.inert ?_ ((Inert.setOut _ _).trans (Inert.raise _ _))
  refine Within.inert ?_ (Inert.updLane _ _ _ ⟨rfl, rfl, rfl, Or.inr rfl, rfl, rfl, fun _ h => h⟩)
  refine h.close _ _ (Or.inr rfl) ?_ (fun _ h => by cases h) (fun _ _ => rfl)
  have h2 := (h n).2.1
  unfold Lane.mayOwe at h2
  rw [if_neg (by tauto)] at h2
  have := handBack_length (s.lane n) n .faulted s.timebase code.code
  rw [List.length_append, List.length_singleton]
  omega

/-- An owed write that enters the queue keeps the bound. -/
theorem Within.enterOwed {a : LaneId → Nat} {s : State} (h : Within a s) (n : LaneId) : Within a (s.enterOwed n) := by
  unfold State.enterOwed; split
  · exact h
  · rename_i o os ho
    refine Within.lane (n := n) h (fun m hm => ⟨by simp [hm], rfl, by unfold State.fetching; simp⟩) ?_
    rw [updLane_lane_self]
    show Lane.owesWithin { s.lane n with owed := os } _ _
    obtain ⟨h1, h2, h3, h4, h5, h6, h7⟩ := h n
    rw [ho] at h2 h6 h7
    refine ⟨h1, ?_, h3, h4, h5, ?_, ?_⟩
    · unfold Lane.mayOwe at *; simp at *; omega
    · intro x y; have := h6 x y; simp at *; omega
    · intro x; have := h7 (by unfold State.fetching at *; simpa using x); simp at this

/-- A cue that leaves keeps the bound (R41, R72). -/
theorem Within.leaveQueue {a : LaneId → Nat} {s : State} (h : Within a s) (n : LaneId) (c : Copy) (f : Firing)
    (e : Ending)
    (ho : (s.lane n).owed = []) (hc : (s.lane n).cur ≠ none) (hq : (s.lane n).queue ≠ []) : Within a
        (s.leaveQueue n c f e) := by
  obtain ⟨h1, h2, h3, h4, h5, h6, h7⟩ := h n
  have hst : (s.lane n).st ≠ .idle ∧ (s.lane n).st ≠ .faulted := ⟨fun hx => hc (h1 (Or.inl hx)).2.1, fun hx => hc
    (h1 (Or.inr hx)).2.1⟩
  have hpos : 0 < (s.lane n).queue.length := List.length_pos_iff.mpr hq
  unfold Lane.mayOwe at h2
  rw [if_neg (by tauto)] at h2
  unfold State.leaveQueue
  dsimp only
  generalize hx : resultEntry n c f e 0 _ = x
  have he : Within a (s.enqueue x) := h.inert (Inert.enqueue s x)
  have hl : (s.enqueue x).lane n = s.lane n := rfl
  split
  · refine Within.inert ?_ (Inert.raise _ _)
    have := returnEntries_length n (some c) (s.lane n).heldReturns
    refine he.close _ _ (Or.inl rfl) ?_ ?_ (fun _ _ => rfl)
    · rw [hl]; omega
    · intro _ _; rw [hl, ho]; simp; omega
  · rename_i hns
    have hheld : (s.lane n).heldReturns = [] := by
      by_contra hx; exact hns (Or.inr (h5 hx).1)
    split
    · refine he.lane (n := n) (fun m hm => ⟨by rw [updLane_lane_ne _ _ _ _ hm], rfl, by unfold State.fetching; simp⟩) ?_
      rw [updLane_lane_self]
      refine ⟨fun hx => absurd hx (by rw [hl]; tauto), ?_, ?_, ?_, h5, h6, ?_⟩
      · unfold Lane.mayOwe; rw [if_neg (by rw [hl]; tauto)]
        simp only [List.length_tail, hl]; omega
      · simp only [List.length_tail, hl]; omega
      · simp only [List.length_tail, hl]; intro hx; have := h4 hx; omega
      · intro _; exact ho
    · refine Within.inert ?_ (Inert.raise _ _)
      refine he.lane (n := n) (fun m hm => ⟨by rw [updLane_lane_ne _ _ _ _ hm], rfl, by unfold State.fetching; simp⟩) ?_
      rw [updLane_lane_self]
      refine ⟨by simp [Lane.atRest], ?_, ?_, ?_, ?_, by simp, fun _ => ho⟩
      · unfold Lane.mayOwe; simp [hl, hheld, ho]
        rw [ho, hheld] at h2; simp at h2; omega
      · simp [hl, hheld]
      · simp
      · simp [hl, hheld]

/-- The end of a completion pending keeps the bound (R73). -/
theorem Within.releasePending {a : LaneId → Nat} {s : State} (h : Within a s) (n : LaneId) (hp : (s.lane n).owed = []) :
    Within a (s.releasePending n) := by
  unfold State.releasePending; split
  · rename_i f c hf hc
    split
    · refine h.leaveQueue n _ _ _ hp (by rw [hf]; simp) ?_
      intro hq
      unfold Lane.currentCopy at hc
      rw [hf, hq] at hc; simp at hc
    · exact h
  · exact h

/-- A wait that begins keeps the bound (R56 to R58). -/
theorem Within.beginWait {a : LaneId → Nat} {s : State} (h : Within a s) (n : LaneId) (c : Copy)
    (hc : (s.lane n).cur ≠ none) :
    Within a (s.beginWait n c) := by
  have hst : (s.lane n).st ≠ .idle ∧ (s.lane n).st ≠ .faulted :=
    ⟨fun hx => hc ((h n).1 (Or.inl hx)).2.1, fun hx => hc ((h n).1 (Or.inr hx)).2.1⟩
  unfold State.beginWait
  split
  · exact h.inert (Inert.joinWait _ _ _)
  · exact h.inert (Inert.fireLane _ _ _)
  · split
    · exact h.inert (Inert.joinWait _ _ _)
    · split
      · split
        · exact h.inert ((Inert.setSource _ _ _).trans (Inert.fireLane _ _ _))
        · exact h.inert (Inert.joinWait _ _ _)
      · split
        · exact h.inert (Inert.joinWait _ _ _)
        · split
          · exact h.laneFault n _ _ hst
          · exact h.inert ((Inert.updFiring _ _ _).trans (Inert.fireLane _ _ _))
  · split
    · exact h.inert ((Inert.updLink _ _).trans (Inert.fireLane _ _ _))
    · exact h.inert (Inert.joinWait _ _ _)

/-- A lane that goes on keeps the bound. -/
theorem Within.laneGo {a : LaneId → Nat} {s : State} (h : Within a s) (n : LaneId) (hg : (s.lane n).canGo = true) :
    Within a (s.laneGo n) := by
  have hgo := (canGo_iff _).mp hg
  unfold State.laneGo
  split
  · rename_i c q hc hq
    have hst : (s.lane n).st ≠ .idle ∧ (s.lane n).st ≠ .faulted ∧ (s.lane n).st ≠ .stopping := by
      unfold Lane.canGo at hg; rw [hc, hq] at hg
      revert hg; cases (s.lane n).st <;> simp
    obtain ⟨h1, h2, h3, h4, h5, h6, h7⟩ := h n
    have hheld : (s.lane n).heldReturns = [] := by
      by_contra hx; exact hst.2.2 (h5 hx).1
    unfold State.beginCopy
    refine h.lane (n := n) (fun m hm => ⟨updLane_lane_ne _ _ _ _ hm, rfl, by unfold State.fetching; simp⟩) ?_
    rw [updLane_lane_self]
    refine ⟨by simp [Lane.atRest], ?_, h3, h4, fun hx => absurd hheld hx, by simp, fun hx => h7
        (by unfold State.fetching at *; simpa using hx)⟩
    unfold Lane.mayOwe at *
    rw [if_neg (by tauto)] at h2
    simpa using h2
  · rename_i code slot q hc hq
    refine h.laneFault n _ _ ?_
    unfold Lane.canGo at hg; rw [hc, hq] at hg
    revert hg; cases (s.lane n).st <;> simp
  · rename_i f c q hc hq
    split
    · exact h.inert (Inert.complete _ _ _)
    · exact h.beginWait n c (by rw [hc]; simp)
  · exact h

/-- A small action keeps the bound. -/
theorem Within.follow {a : LaneId → Nat} {s t : State} (h : Within a s) (hf : s.follow = some t) : Within a t := by
  rcases follow_cases hf with ⟨n, _, _, rfl⟩ | ⟨n, _, hp, rfl⟩ | ⟨n, hg, rfl | rfl⟩
  · exact h.enterOwed n
  · exact h.releasePending n ((pendsFree_iff _).mp hp).1
  · exact h.laneGo n hg
  · exact (h.inert (t := { s with choices := s.choices + 1 }) (Inert.same rfl rfl)).laneGo n hg

/-- An event keeps the bound. -/
theorem Within.settle {a : LaneId → Nat} {s : State} (h : Within a s) : Within a s.settle :=
  settle_keeps (Within a) (fun _ _ h1 h2 => h1.follow h2) h

/-- `t` follows from `s` with the bound kept and every transaction but a fetch at the port left. -/
structure Keeps (s t : State) : Prop where
  within : ∀ a, Within a s → Within a t
  answer : ∀ x, Plain x → (t.port = x ↔ s.port = x)

namespace Keeps
theorem refl (s : State) : Keeps s s := ⟨fun _ h => h, fun _ _ => Iff.rfl⟩
theorem trans {s t u : State} (h : Keeps s t) (g : Keeps t u) : Keeps s u :=
  ⟨fun a x => g.within a (h.within a x), fun x hx => (g.answer x hx).trans (h.answer x hx)⟩
theorem inert {s t : State} (h : Inert s t) : Keeps s t := ⟨fun _ x => x.inert h, fun x _ => by rw [h.port]⟩
theorem owed {s t : State} (h : Keeps s t) (hs : OwedOk s) : OwedOk t := by
  have : t.answerDue = s.answerDue := by
    funext m; unfold State.answerDue; simp only [h.answer (some (.laneEntry m)) (fun _ _ => by simp)]
  have := h.within s.answerDue hs
  unfold OwedOk
  rw [‹t.answerDue = s.answerDue›]; exact this
end Keeps

/-- A lane fault leaves every transaction but a fetch. -/
theorem laneFault_answer (s : State) (n : LaneId) (code : FaultCode) (k : Option Link) (x : Option Transaction)
    (hx : Plain x) :
    (s.laneFault n code k).port = x ↔ s.port = x := by
  rw [laneFault_eq]
  exact overtake_answer s n hx

/-- The end of a list leaves every transaction but a fetch. -/
theorem closeLane_answer (s : State) (n : LaneId) (es : List WriteBack) (st : LaneState) {x : Option Transaction}
    (hx : Plain x) :
    ((s.produceAll n es).closeLane n st).port = x ↔ s.port = x := by
  unfold State.closeLane
  rw [overtake_answer _ _ hx]
  simp [(produceAll_spec s n es).2.2.2.2.1]

/-- A small action leaves every transaction but a fetch. -/
theorem follow_answer {s t : State} (hf : s.follow = some t) (x : Option Transaction) (hx : Plain x) :
    t.port = x ↔ s.port = x := by
  have go : ∀ (u : State) (n : LaneId), (u.laneGo n).port = x ↔ u.port = x := by
    intro u n
    unfold State.laneGo
    split
    · simp [State.beginCopy]
    · exact laneFault_answer _ _ _ _ _ hx
    · split
      · rw [(Inert.complete u n _).port]
      · unfold State.beginWait
        split
        · rw [(Inert.joinWait _ _ _).port]
        · rw [(Inert.fireLane _ _ _).port]
        · split
          · rw [(Inert.joinWait _ _ _).port]
          · split
            · split
              · rw [((Inert.setSource _ _ _).trans (Inert.fireLane _ _ _)).port]
              · rw [(Inert.joinWait _ _ _).port]
            · split
              · rw [(Inert.joinWait _ _ _).port]
              · split
                · exact laneFault_answer _ _ _ _ _ hx
                · rw [((Inert.updFiring _ _ _).trans (Inert.fireLane _ _ _)).port]
        · split
          · rw [((Inert.updLink _ _).trans (Inert.fireLane _ _ _)).port]
          · rw [(Inert.joinWait _ _ _).port]
    · rfl
  rcases follow_cases hf with ⟨n, _, _, rfl⟩ | ⟨n, _, hp, rfl⟩ | ⟨n, hg, rfl | rfl⟩
  · unfold State.enterOwed; split <;> simp
  · unfold State.releasePending; split
    · split
      · unfold State.leaveQueue
        dsimp only
        split
        · exact closeLane_answer _ _ _ _ hx
        · split
          · simp
          · simp [State.raise]
      · rfl
    · rfl
  · exact go s n
  · exact go _ n

/-- A small action. -/
theorem Keeps.follow {s t : State} (hf : s.follow = some t) : Keeps s t :=
  ⟨fun _ h => h.follow hf, follow_answer hf⟩

/-- A whole event. -/
theorem Keeps.settle (s : State) : Keeps s s.settle :=
  settle_keeps (Keeps s) (fun _ _ h1 h2 => h1.trans (Keeps.follow h2)) (Keeps.refl s)

/-- What is inert, and the event after it. -/
theorem Inert.settle {s t : State} (h : Inert s t) : Keeps s t.settle := (Keeps.inert h).trans (Keeps.settle t)

/-- Faults of several lanes. -/
theorem Keeps.faultLanes (code : FaultCode) : ∀ (k : Nat) (ns : List LaneId) (s : State), ns.Nodup →
    (∀ n ∈ ns, (s.lane n).st ≠ .idle ∧ (s.lane n).st ≠ .faulted) → Keeps s (faultLanes k ns code s) := by
  have other : ∀ (s : State) (n m : LaneId), m ≠ n → (s.laneFault n code none).lane m = s.lane m := by
    intro s n m hm
    rw [laneFault_eq]
    show (State.withEntries _ _ _ _).lane m = _
    unfold State.withEntries
    rw [withLane_lane_ne _ _ hm]; rfl
  intro k
  induction k with
  | zero => intro ns s _ _; exact Keeps.refl s
  | succ k ih =>
    intro ns s hd h
    match ns with
    | [] => exact Keeps.refl s
    | [n] => exact ⟨fun a w => w.laneFault n code none (h n (by simp)), laneFault_answer s n code none⟩
    | n :: n' :: ns =>
      show Keeps s (Sys2Proof.Machine.faultLanes k (List.erase _ (pickOne s.choices _ n)) code _)
      have hm := pickOne_mem s.choices (n :: n' :: ns) n (by simp)
      generalize pickOne s.choices (n :: n' :: ns) n = m at *
      have h0 : Keeps s { s with choices := s.choices + 1 } := Keeps.inert (Inert.same rfl rfl)
      have h1 : Keeps { s with choices := s.choices + 1 } (({ s with choices := s.choices + 1 }
          : State).laneFault m code none) :=
        ⟨fun a w => w.laneFault m code none (h m hm), laneFault_answer _ m code none⟩
      refine (h0.trans h1).trans (ih _ _ (hd.erase _) ?_)
      intro x hx
      have hx' := (List.Nodup.mem_erase_iff hd).mp hx
      rw [other _ _ _ hx'.1]
      exact h x hx'.2

/-- What a trip does beside the lanes' faults. -/
theorem Inert.tripTail (u : State) (v : Vector Beat 8) (f : LinkPort → LinkPort) (h : HaltRecord) : Inert u
    ((((({ u.setOut u.safe with beats := v } : State).updLink f).markItem occupancyItem).raise .halt).setHalt h) := by
  have h1 : Inert u ({ u.setOut u.safe with beats := v } : State) := (setOut u u.safe).trans (same rfl rfl)
  generalize ({ u.setOut u.safe with beats := v } : State) = w at *
  have h2 := updLink w f
  generalize w.updLink f = x at *
  exact h1.trans (h2.trans (same (by rw [setHalt_eq]; rfl) (by rw [setHalt_eq]; rfl)))

/-- A halt trip (R113). -/
theorem Keeps.trip (s : State) (cause : HaltCause) (line : Fin 8) : Keeps s (s.trip cause line) := by
  have h0 : Keeps s { s with engine := .halted } := Keeps.inert (Inert.same rfl rfl)
  have h1 := Keeps.faultLanes cause.faultCode s.tripLanes.length s.tripLanes { s with engine := .halted }
    (List.Nodup.filter _ (by decide)) (fun n hn => (tripLanes_mem s n).mp hn)
  exact (h0.trans h1).trans (Keeps.inert (Inert.tripTail _ _ _ _))

/-- A cause of a halt trip (R112). -/
theorem Keeps.haltCause (s : State) (cause : HaltCause) (line : Fin 8) : Keeps s (s.haltCause cause line) := by
  unfold State.haltCause; split
  · exact Keeps.trip s cause line
  · exact Keeps.inert (Inert.same (by simp [State.furtherTrip, State.raise]) (by simp [State.furtherTrip, State.raise]))
  · exact Keeps.refl s
  · exact Keeps.refl s

/-! Grants. -/

/-- A grant keeps the bound (R27, R39). -/
theorem OwedOk.grant {s : State} {r : Request} (h : OwedOk s) (hc : s.portChoice = some r) : OwedOk (s.grant r) := by
  have hp := portChoice_free hc
  have hreq : (∀ n, r = .laneEntry n → (s.lane n).owed = []) ∧ (∀ n, r = .cueFetch n → (s.lane n).mayRequest = true) ∧
      (∀ n, r = .tailReread n → (s.lane n).mayRequest = true) := by
    unfold State.portChoice at hc
    split at hc
    · cases hc
    split at hc
    · cases hc; simp
    have reader : ∀ x, s.readerRequest = some x → (∀ n, x = .laneEntry n → (s.lane n).owed = []) ∧
        (∀ n, x ≠ .cueFetch n) ∧ (∀ n, x ≠ .tailReread n) := by
      intro x hx
      unfold State.readerRequest at hx
      split at hx
      · cases hx; simp
      · split at hx
        · rename_i n hn
          cases hx
          have := List.find?_some hn
          simp at this
          simp [this.2]
        · split at hx
          · cases hx; simp
          · cases hx
    have lane : ∀ x, s.laneRequest = some x → (∀ n, x ≠ .laneEntry n) ∧ (∀ n, x = .cueFetch n →
        (s.lane n).mayRequest = true) ∧ (∀ n, x = .tailReread n → (s.lane n).mayRequest = true) := by
      intro x hx
      unfold State.laneRequest at hx
      dsimp only at hx
      rw [Option.map_eq_some_iff] at hx
      obtain ⟨n, hn, hx⟩ := hx
      have hask : ((s.lane n).wantsTail || (decide (0 < s.room) && (s.lane n).wantsCue)) = true := by
        rw [Option.or_eq_some_iff] at hn
        rcases hn with hn | ⟨_, hn⟩
        · have := firstOf_filter hn; simp at this; simp [this.1]
        · exact firstOf_filter hn
      by_cases ht : (s.lane n).wantsTail = true
      · rw [if_pos ht] at hx
        cases hx
        unfold Lane.wantsTail at ht
        simp only [Bool.and_eq_true] at ht
        refine ⟨by simp, by simp, ?_⟩
        rintro m ⟨⟩; exact ht.1
      · rw [if_neg ht] at hx
        cases hx
        simp only [Bool.or_eq_true, Bool.and_eq_true] at hask
        have hw := (hask.resolve_left ht).2
        unfold Lane.wantsCue at hw
        simp only [Bool.and_eq_true] at hw
        refine ⟨by simp, ?_, by simp⟩
        rintro m ⟨⟩; exact hw.1
    rw [Option.or_eq_some_iff] at hc
    rcases hc with hc | ⟨_, hc⟩
    · obtain ⟨h1, h2, h3⟩ := reader r hc
      exact ⟨h1, fun n hn => absurd hn (h2 n), fun n hn => absurd hn (h3 n)⟩
    · rw [Option.or_eq_some_iff] at hc
      rcases hc with hc | ⟨_, hc⟩
      · obtain ⟨h1, h2, h3⟩ := lane r hc
        exact ⟨fun n hn => absurd hn (h1 n), h2, h3⟩
      · rw [Option.map_eq_some_iff] at hc
        obtain ⟨_, _, rfl⟩ := hc
        simp
  have ha : ∀ n, s.answerDue n = 0 := by intro n; simp [State.answerDue, hp]
  have keep : ∀ t : State, t.lanes = s.lanes → (∀ n, t.port ≠ some (.laneEntry n)) →
      (∀ n, ¬ t.fetching n) → OwedOk t := by
    intro t hl hlp hf n
    have : t.lane n = s.lane n := by unfold State.lane; rw [hl]
    rw [this, show t.answerDue n = 0 by simp [State.answerDue, hlp n]]
    have := h n
    rw [ha] at this
    exact this.alike (Alike.refl _) (fun x => absurd x (hf n))
  -- the grant of a fetch
  have fetchGrant : ∀ (n : LaneId) (t : State) (l : Lane), (s.lane n).mayRequest = true →
      (∀ m, m ≠ n → t.lane m = s.lane m) → t.lane n = l → (∀ m, t.port ≠ some (.laneEntry m)) →
          (∀ m, m ≠ n → ¬ t.fetching m) →
      l.st = (s.lane n).st → l.queue = (s.lane n).queue → l.owed = (s.lane n).owed → l.heldReturns =
          (s.lane n).heldReturns → OwedOk t := by
    intro n t l hm ho hn hlp hf e1 e2 e3 e4 m
    have hz : t.answerDue m = 0 := by simp [State.answerDue, hlp m]
    rw [hz]
    by_cases hmn : m = n
    · subst hmn
      rw [hn]
      unfold Lane.mayRequest at hm
      simp only [Bool.and_eq_true, decide_eq_true_eq] at hm
      obtain ⟨⟨ha1, hq⟩, ho1⟩ := hm
      have hq : (s.lane m).queue.length < 4 := hq
      have ho' : (s.lane m).owed = [] := by simpa using ho1
      obtain ⟨h1, h2, h3, h4, h5, h6, h7⟩ := h m
      have hact : (s.lane m).st ≠ .idle ∧ (s.lane m).st ≠ .faulted ∧ (s.lane m).st ≠ .stopping := by
        revert ha1; cases (s.lane m).st <;> simp [LaneState.active]
      have hh : (s.lane m).heldReturns = [] := by
        by_contra hx; exact hact.2.2 (h5 hx).1
      refine ⟨by unfold Lane.atRest; rw [e1]; tauto, ?_, by rw [e2, e4]; exact h3, by rw [e2]; exact fun _ => hq, by
          rw [e4]; exact fun hx => absurd hh hx, by simp, fun _ => by rw [e3, ho']⟩
      unfold Lane.mayOwe at *
      rw [e1, e2, e3, e4]; rw [ha] at h2; exact h2
    · rw [ho m hmn]
      have := h m
      rw [ha] at this
      exact this.alike (Alike.refl _) (fun x => absurd x (hf m hmn))
  cases r with
  | writeBack => exact keep _ rfl (by simp [State.grant]) (by simp [State.grant, State.fetching])
  | deviceEntry => exact keep _ rfl (by simp [State.grant]) (by simp [State.grant, State.fetching])
  | setupRead => exact keep _ rfl (by simp [State.grant]) (by simp [State.grant, State.fetching])
  | statusItem =>
    unfold State.grant
    dsimp only
    split
    · exact keep _ rfl (by simp [hp]) (by simp [hp, State.fetching])
    · exact keep _ rfl (by simp) (by simp [State.fetching])
  | laneEntry n =>
    intro m
    have ho := hreq.1 n rfl
    obtain ⟨h1, h2, h3, h4, h5, h6, h7⟩ := h m
    rw [ha] at h2
    show ((s.lane m).owesWithin _ _)
    refine ⟨h1, ?_, h3, h4, h5, ?_, by unfold State.fetching State.grant; simp⟩
    · unfold State.answerDue State.grant
      dsimp only
      split
      · rename_i hx; cases hx
        rw [ho] at h2 ⊢
        unfold Lane.mayOwe at *
        split
        · simp
        · simp; omega
      · exact h2
    · unfold State.answerDue State.grant
      dsimp only
      split
      · rename_i hx; cases hx
        rw [ho]; simp
      · intro hx; exact absurd rfl hx
  | cueFetch n =>
    refine fetchGrant n _ _ (hreq.2.1 n rfl) ?_ rfl ?_ ?_ ?_ ?_ ?_ ?_
    · intro m hm; unfold State.grant; dsimp only; rw [updLane_lane_ne _ _ _ _ hm]; rfl
    · intro m; simp [State.grant]
    · intro m hm; unfold State.fetching State.grant; simp; exact fun h => absurd h.symm hm
    all_goals (unfold State.grant; dsimp only; rw [updLane_lane_self]; rfl)
  | tailReread n =>
    refine fetchGrant n _ _ (hreq.2.2 n rfl) ?_ rfl ?_ ?_ ?_ ?_ ?_ ?_
    · intro m hm; unfold State.grant; dsimp only; rw [updLane_lane_ne _ _ _ _ hm]; rfl
    · intro m; simp [State.grant]
    · intro m hm; unfold State.fetching State.grant; simp; exact fun h => absurd h.symm hm
    all_goals (unfold State.grant; dsimp only; rw [updLane_lane_self]; rfl)

/-- The bound, by the answers to come. -/
theorem OwedOk.within {t : State} {a : LaneId → Nat} (h : Within a t) (hp : ∀ n, t.answerDue n = a n) : OwedOk t := by
  intro n; rw [hp]; exact h n

/-- Fewer answers to come. -/
theorem owesWithin_less {l : Lane} {a a' : Nat} {b : Prop} (h : l.owesWithin a b) (ha : a' ≤ a)
    : l.owesWithin a' b := by
  obtain ⟨h1, h2, h3, h4, h5, h6, h7⟩ := h
  exact ⟨h1, by omega, h3, h4, h5, fun x => h6 (by omega), h7⟩

/-- The port is freed. -/
theorem Within.free {a : LaneId → Nat} {s : State} (h : Within a s) (m : List Host.Cell) : Within a
    (s.endTransaction m) := fun n =>
  (h n).alike (Alike.refl _) (fun x => by unfold State.fetching State.endTransaction at x; simp at x)

/-- A free port owes no order answer. -/
theorem free_due (s : State) (m : List Host.Cell) (n : LaneId) : (s.endTransaction m).answerDue n = 0 := by
  unfold State.answerDue State.endTransaction; simp

/-- The end of a transaction keeps the bound. -/
theorem OwedOk.free {s : State} (h : OwedOk s) (m : List Host.Cell) : OwedOk (s.endTransaction m) := fun n => by
  rw [free_due]
  exact owesWithin_less (Within.free h m n) (Nat.zero_le _)

/-- What is inert keeps the bound. -/
theorem OwedOk.inert {s t : State} (h : OwedOk s) (g : Inert s t) : OwedOk t := (Keeps.inert g).owed h

/-- An event keeps the bound. -/
theorem OwedOk.settle {s : State} (h : OwedOk s) : OwedOk s.settle := (Keeps.settle s).owed h

/-- One lane replaced, the port free. -/
theorem OwedOk.lane {s t : State} {n : LaneId} (h : OwedOk s) (hp : t.port = none)
    (ho : ∀ m, m ≠ n → t.lane m = s.lane m)
    (hn : (t.lane n).owesWithin 0 False) : OwedOk t := by
  intro m
  have hz : t.answerDue m = 0 := by simp [State.answerDue, hp]
  have hf : ¬ t.fetching m := by simp [State.fetching, hp]
  rw [hz]
  by_cases hm : m = n
  · subst hm; exact hn.alike (Alike.refl _) (fun x => absurd x hf)
  · rw [ho m hm]; exact owesWithin_less ((h m).alike (Alike.refl _) (fun x => absurd x hf)) (Nat.zero_le _)

/-- An entry appended at the end of a fetch. -/
theorem owes_append {l k : Lane} {a : Nat} {b : Prop} (h : l.owesWithin a b) (hf : l.fetch.isSome = true)
    (k1 : k.st = l.st) (k2 : k.queue.length = l.queue.length + 1) (k3 : k.fetch = none)
    (k4 : k.heldReturns = l.heldReturns)
    (k5 : k.owed = []) : k.owesWithin 0 False := by
  obtain ⟨h1, h2, h3, h4, h5, h6, h7⟩ := h
  have hq := h4 hf
  have hh : l.heldReturns = [] := by
    by_contra hx; rw [(h5 hx).2] at hf; cases hf
  have hst : ¬ (l.st = .idle ∨ l.st = .faulted) := by
    intro hx; rw [(h1 hx).2.2.1] at hf; cases hf
  refine ⟨by unfold Lane.atRest; rw [k1]; exact fun hx => absurd hx hst, ?_, by rw [k2, k4, hh]; simp; omega, by simp
      [k3], by rw [k4, hh]; simp, by simp, False.elim⟩
  unfold Lane.mayOwe
  rw [if_neg (by rw [k1]; exact hst), k2, k4, k5, hh]; simp; omega

/-- An entry appended at the end of a fetch, in the state. -/
theorem OwedOk.appends {s t : State} {n : LaneId} (h : OwedOk s) (hp : t.port = none)
    (ho : ∀ m, m ≠ n → t.lane m = s.lane m)
    (hf : (s.lane n).fetch.isSome = true)
    (k1 : (t.lane n).st = (s.lane n).st) (k2 : (t.lane n).queue.length = (s.lane n).queue.length + 1)
    (k3 : (t.lane n).fetch = none)
    (k4 : (t.lane n).heldReturns = (s.lane n).heldReturns) (k5 : (t.lane n).owed = []) : OwedOk t :=
  h.lane hp ho (owes_append (h n) hf k1 k2 k3 k4 k5)

/-- A fault marker appended (R40). -/
theorem OwedOk.appendMarker {s : State} {n : LaneId} (h : OwedOk s) (hp : s.port = none)
    (hf : (s.lane n).fetch.isSome = true)
    (hw : (s.lane n).owed = []) (code : FaultCode) (slot : Link) : OwedOk (s.appendMarker n code slot) := by
  unfold State.appendMarker
  refine h.appends (n := n) (by simp [hp]) (fun m hm => updLane_lane_ne _ _ _ _ hm) hf ?_ ?_ ?_ ?_ ?_ <;> simp [hw]

/-- A copy appended (R38). -/
theorem OwedOk.appendCopy {s : State} {n : LaneId} (h : OwedOk s) (hp : s.port = none)
    (hf : (s.lane n).fetch.isSome = true)
    (hw : (s.lane n).owed = []) (c : Copy) : OwedOk (s.appendCopy n c) := by
  unfold State.appendCopy
  refine h.appends (n := n) (by simp [hp]) (fun m hm => updLane_lane_ne _ _ _ _ hm) hf ?_ ?_ ?_ ?_ ?_
  all_goals rw [updLane_lane_self]; dsimp only; split <;> [skip; split] <;> simp [hw, sharePass]

/-- A fetch that ends in a pause. -/
theorem OwedOk.pauseAt {s : State} {n : LaneId} (h : OwedOk s) (p : Pause) (slot : Link) : OwedOk
    (s.pauseAt n p slot) :=
  h.inert (Inert.updLane _ _ _ ⟨rfl, rfl, rfl, Or.inl rfl, rfl, rfl, fun _ h => h⟩)

/-- An attempt with unequal header reads (R145). -/
theorem OwedOk.tornAttempt {s : State} {n : LaneId} (h : OwedOk s) (hp : s.port = none)
    (hf : (s.lane n).fetch.isSome = true)
    (hw : (s.lane n).owed = []) (f : Fetch) : OwedOk (s.tornAttempt n f) := by
  unfold State.tornAttempt; split
  · exact h.appendMarker hp hf hw _ _
  · exact h

/-- A record found ARMED (R40). -/
theorem OwedOk.foundArmed {s : State} {n : LaneId} (h : OwedOk s) (hp : s.port = none)
    (hf : (s.lane n).fetch.isSome = true)
    (hw : (s.lane n).owed = []) (c : Copy) : OwedOk (s.foundArmed n c) := by
  have hpr : ∀ e, s.produceReserved n e = s.enqueue e := by intro e; unfold State.produceReserved; rw [hw]
  have he : ∀ e, OwedOk (s.enqueue e) := fun e => h.inert (Inert.enqueue s e)
  unfold State.foundArmed
  split
  · rw [hpr]; exact (he _).appendCopy (s := s.enqueue _) hp hf hw c
  · rw [hpr]; exact (he _).appendMarker (s := s.enqueue _) hp hf hw _ _

/-- A record found in another state (R40). -/
theorem OwedOk.foundNotArmed {s : State} {n : LaneId} (h : OwedOk s) (hp : s.port = none)
    (hf : (s.lane n).fetch.isSome = true)
    (hw : (s.lane n).owed = []) (slot : Link) (head : Word) : OwedOk (s.foundNotArmed n slot head) := by
  unfold State.foundNotArmed
  split
  · exact h.pauseAt _ _
  · exact h.pauseAt _ _
  · split
    · split
      · split
        · exact h.appendCopy hp hf hw _
        · exact h.pauseAt _ _
      · split
        · exact h.inert (Inert.updLane _ _ _ ⟨rfl, rfl, rfl, Or.inl rfl, rfl, rfl, fun _ h => h⟩)
        · exact h.appendMarker hp hf hw _ _
    · exact h.appendMarker hp hf hw _ _
  · exact h.appendMarker hp hf hw _ _
  · exact h.appendMarker hp hf hw _ _
  · exact h

/-- The tail as a re-read finds it (R45). -/
theorem OwedOk.foundTail {s : State} {n : LaneId} (h : OwedOk s) (hp : s.port = none)
    (hf : (s.lane n).fetch.isSome = true)
    (hw : (s.lane n).owed = []) (tail : Link) (head w1 : Word) : OwedOk (s.foundTail n tail head w1) := by
  unfold State.foundTail
  dsimp only
  split
  · exact h.appendMarker hp hf hw _ _
  · split
    · exact h.inert (Inert.updLane _ _ _ ⟨rfl, rfl, rfl, Or.inl rfl, rfl, rfl, fun _ h => h⟩)
    · split
      · exact h.inert (Inert.updLane _ _ _ ⟨rfl, rfl, rfl, Or.inl rfl, rfl, rfl, fun _ h => h⟩)
      · exact h.appendMarker hp hf hw _ _

/-- The end of a cue fetch attempt (R145). -/
theorem OwedOk.endCueFetch {s : State} {n : LaneId} (h : OwedOk s) (hu : s.underWay (.cueFetch n) = true)
    (ws : Between) :
    OwedOk (State.endCueFetch n ws s) := by
  have hd : s.port = some (.cueFetch n true) ∨ s.port = some (.cueFetch n false) := by
    unfold State.underWay at hu
    cases hp : s.port with
    | none => simp [hp] at hu
    | some t =>
      rw [hp] at hu
      cases t <;> simp [Transaction.serves] at hu
      rename_i d; subst hu; cases d <;> simp
  unfold State.endCueFetch
  split
  · exact (h.free _).settle
  · rename_i f hf
    have hf' : (s.lane n).fetch.isSome = true := by rw [hf]; rfl
    dsimp only
    split
    · exact (h.free _).settle
    · rename_i hnd
      have hw : (s.lane n).owed = [] := (h n).2.2.2.2.2.2 (Or.inl (hd.resolve_left hnd))
      split
      · apply OwedOk.settle
        split
        · exact (h.free _).foundArmed rfl hf' hw _
        · exact (h.free _).tornAttempt rfl hf' hw _
      · exact ((h.free _).foundNotArmed rfl hf' hw _ _).settle

/-- The end of a tail re-read attempt (R45). -/
theorem OwedOk.endTailReread {s : State} {n : LaneId} (h : OwedOk s) (hu : s.underWay (.tailReread n) = true)
    (ws : Between) :
    OwedOk (State.endTailReread n ws s) := by
  have hd : s.port = some (.tailReread n true) ∨ s.port = some (.tailReread n false) := by
    unfold State.underWay at hu
    cases hp : s.port with
    | none => simp [hp] at hu
    | some t =>
      rw [hp] at hu
      cases t <;> simp [Transaction.serves] at hu
      rename_i d; subst hu; cases d <;> simp
  unfold State.endTailReread
  split
  · exact (h.free _).settle
  · rename_i f hf
    have hf' : (s.lane n).fetch.isSome = true := by rw [hf]; rfl
    dsimp only
    split
    · exact (h.free _).settle
    · rename_i hnd
      have hw : (s.lane n).owed = [] := (h n).2.2.2.2.2.2 (Or.inr (hd.resolve_left hnd))
      split
      · exact ((h.free _).foundTail rfl hf' hw _ _ _).settle
      · exact ((h.free _).tornAttempt rfl hf' hw _).settle

/-! Lane orders. -/

/-- Lane n has taken its order and its answer is to come. -/
structure Answering (n : LaneId) (t : State) : Prop where
  within : Within (fun _ => 0) t
  slack : (t.lane n).owed.length + (t.lane n).mayOwe + 1 ≤ 6
  port : t.port = none

/-- A lane whose answer has kept its place. -/
theorem Within.answering {a : LaneId → Nat} {n : LaneId} {t : State} (h : Within a t) (ha : a n = 1)
    (hp : t.port = none) :
    Answering n t :=
  ⟨fun m => owesWithin_less (h m) (Nat.zero_le _), by have := (h n).2.1; rw [ha] at this; exact this, hp⟩

/-- What is inert keeps the answer's place. -/
theorem Answering.inert {n : LaneId} {s t : State} (h : Answering n s) (g : Inert s t) : Answering n t :=
  ⟨h.within.inert g, by
    have := h.slack
    unfold Lane.mayOwe at *
    rw [(g.lane n).st, (g.lane n).queue, (g.lane n).held, (g.lane n).owed]; exact this, g.port.trans h.port⟩

/-- The answer is produced. -/
theorem Answering.produce {n : LaneId} {t : State} (h : Answering n t) (e : WriteBack) : OwedOk (t.produce n e) := by
  have h0 : OwedOk t := OwedOk.within h.within (fun m => by simp [State.answerDue, h.port])
  unfold State.produce
  split
  · exact h0.inert (Inert.enqueue _ _)
  · refine h0.lane (n := n) (by simp [h.port]) (fun m hm => updLane_lane_ne _ _ _ _ hm) ?_
    rw [updLane_lane_self]
    obtain ⟨h1, h2, h3, h4, h5, h6, h7⟩ := h.within n
    refine ⟨h1, ?_, h3, h4, h5, by simp, False.elim⟩
    have := h.slack
    unfold Lane.mayOwe at *
    simp; omega

/-- A list that ends by an order keeps the answer's place. -/
theorem Answering.close {a : LaneId → Nat} {n : LaneId} {s : State} (h : Within a s) (ha : a n = 1) (hp : s.port = none)
    (es : List WriteBack) (hl : es.length ≤ (s.lane n).mayOwe) : Answering n
        ((s.produceAll n es).closeLane n .idle) := by
  have h2 := (h n).2.1
  rw [ha] at h2
  have hz : Within (fun _ => 0) s := fun m => owesWithin_less (h m) (Nat.zero_le _)
  have hn : ((s.produceAll n es).closeLane n .idle).lane n =
      { (s.lane n).closed .idle with owed := (s.lane n).owed ++ es.drop (s.places n) } := by
    unfold State.closeLane
    rw [overtake_lane, updLane_lane_self, (produceAll_spec s n es).2.1]; rfl
  refine ⟨hz.close es .idle (Or.inl rfl) (by omega) (by simp) (fun _ _ => rfl), ?_, ?_⟩
  · rw [hn]
    have hz : ({ (s.lane n).closed .idle with owed := (s.lane n).owed ++ es.drop (s.places n) } : Lane).mayOwe = 0 := by
      simp [Lane.mayOwe, Lane.closed]
    rw [hz]
    simp; omega
  · exact (closeLane_answer s n es .idle (x := none) (fun _ _ => by simp)).mpr hp

/-- A lane updated, the port free. -/
theorem Within.upd {a : LaneId → Nat} {n : LaneId} {s : State} (h : Within a s) (hp : s.port = none) (F : Lane → Lane)
    (hF : (F (s.lane n)).owesWithin (a n) False) : Within a (s.updLane n F) := by
  have nof : ∀ m, ¬ (s.updLane n F).fetching m := by intro m; simp [State.fetching, hp]
  refine h.lane (n := n) (fun m hm => ⟨updLane_lane_ne _ _ _ _ hm, rfl, fun x => absurd x (nof m)⟩) ?_
  rw [updLane_lane_self]
  exact hF.alike (Alike.refl _) (fun x => absurd x (nof n))

/-- A lane updated by an order. -/
theorem Answering.upd {a : LaneId → Nat} {n : LaneId} {s : State} (h : Within a s) (ha : a n = 1) (hp : s.port = none)
    (F : Lane → Lane) (hF : (F (s.lane n)).owesWithin 1 False) : Answering n (s.updLane n F) :=
  Within.answering (a := a) (h.upd hp F (by rw [ha]; exact hF)) ha (by simp [hp])

/-- A taken lane order keeps the answer's place (R30 to R37). -/
theorem Answering.takeLaneOrder {a : LaneId → Nat} {n : LaneId} {s : State} (h : Within a s) (ha : a n = 1)
    (hp : s.port = none)
    (o : LaneOrder) (argument : Link) (interval : Byte) (ho : o.takenIn (s.lane n).st = true) :
    Answering n (s.takeLaneOrder n o argument interval) := by
  have nof : ∀ m, ¬ s.fetching m := by intro m; simp [State.fetching, hp]
  obtain ⟨h1, h2, h3, h4, h5, h6, h7⟩ := h n
  rw [ha] at h2
  -- the entries of a list that ends
  have entries : (s.lane n).st ≠ .idle → (s.lane n).st ≠ .faulted → ∀ o r,
      ((s.lane n).handBackEntries n o s.timebase r).length ≤ (s.lane n).mayOwe := by
    intro x y o r
    unfold Lane.mayOwe
    rw [if_neg (by tauto)]
    exact (handBack_length _ _ _ _ _).trans (by omega)
  have rest : ∀ u, Answering n u → Answering n (u.restPins n) := by
    intro u hu
    unfold State.restPins; split
    · exact hu
    · exact hu.inert (Inert.setOut _ _)
  have clear : Answering n (s.takeClear n) := by
    have := Answering.close h ha hp [] (by simp)
    exact rest _ this
  cases o with
  | start =>
    have hst : (s.lane n).st = .idle := by simpa [LaneOrder.takenIn] using ho
    obtain ⟨q, c, f, e⟩ := h1 (Or.inl hst)
    have hh : (s.lane n).heldReturns = [] := by
      by_contra hx; rw [hst] at h5; cases (h5 hx).1
    have h6' := h6 (by rw [ha]; decide) hst
    show Answering n (s.takeStart n argument interval)
    unfold State.takeStart
    refine Answering.upd h ha hp _ ⟨by simp [Lane.atRest], ?_, h3, by simp [q], by simp [hh], by simp, False.elim⟩
    unfold Lane.mayOwe; simp [q, hh]; omega
  | hold =>
    have hst : (s.lane n).st ≠ .idle ∧ (s.lane n).st ≠ .faulted ∧ (s.lane n).st ≠ .stopping := by
      revert ho; cases (s.lane n).st <;> simp [LaneOrder.takenIn]
    have hh : (s.lane n).heldReturns = [] := by
      by_contra hx; exact hst.2.2 (h5 hx).1
    show Answering n (s.takeHold n)
    unfold State.takeHold
    refine Answering.upd h ha hp _ ⟨by simp [Lane.atRest], ?_, h3, h4, by simp [hh], by simp, False.elim⟩
    unfold Lane.mayOwe at *; rw [if_neg (by tauto)] at h2; simp; omega
  | resume =>
    have hst : (s.lane n).st = .held := by simpa [LaneOrder.takenIn] using ho
    have hh : (s.lane n).heldReturns = [] := by
      by_contra hx; rw [hst] at h5; cases (h5 hx).1
    -- a lane of another active state
    have goes : ∀ st, st = .running ∨ st = .starved ∨ st = .priming →
        Within a ((s.updLane n (fun l => { l with gapStart := s.timebase, gapEvent := none })).updLane n
            (fun l => { l with st := st })) := by
      intro st hs
      have hns : st ≠ .idle ∧ st ≠ .faulted := by rcases hs with rfl | rfl | rfl <;> decide
      have h0 : Within a (s.updLane n (fun l => { l with gapStart := s.timebase, gapEvent := none })) :=
        h.inert (Inert.updLane _ _ _ ⟨rfl, rfl, rfl, Or.inr rfl, rfl, rfl, fun _ h => h⟩)
      refine h0.upd (by simp [hp]) _ ?_
      rw [updLane_lane_self, ha]
      refine ⟨by simp [Lane.atRest]; tauto, ?_, h3, h4, by simp [hh], fun _ x => absurd x hns.1, False.elim⟩
      unfold Lane.mayOwe at *; rw [if_neg (by rw [hst]; simp)] at h2; rw [if_neg (by simp; tauto)]; simp; omega
    show Answering n (s.takeResume n)
    unfold State.takeResume
    dsimp only
    split
    · have := goes .running (by simp)
      exact Within.answering (a := a) ((Keeps.settle _).within a this) ha (((Keeps.settle _).answer none
          (fun _ _ => by simp)).mpr (by simp [hp]))
    · split
      · exact Within.answering (a := a) ((goes .starved (by simp)).inert (Inert.raise _ _)) ha
            (by simp [State.raise, hp])
      · exact Within.answering (a := a) (goes .priming (by simp)) ha (by simp [hp])
  | stop =>
    have hst : (s.lane n).st ≠ .idle ∧ (s.lane n).st ≠ .faulted ∧ (s.lane n).st ≠ .stopping := by
      revert ho; cases (s.lane n).st <;> simp [LaneOrder.takenIn]
    have hh : (s.lane n).heldReturns = [] := by
      by_contra hx; exact hst.2.2 (h5 hx).1
    show Answering n (s.takeStop n)
    unfold State.takeStop
    dsimp only
    split
    · refine Within.answering (a := a) (h.lane (n := n) (fun m hm =>
          ⟨by rw [overtake_lane, updLane_lane_ne _ _ _ _ hm], rfl, fun x => ?_⟩) ?_) ha ?_
      · unfold State.fetching at *
        rw [overtake_port (s := s) n (by simp)] at x
        exact (overtake_fetching s n m).1 x
      · rw [overtake_lane, updLane_lane_self]
        have hc := copiesOf_length (s.lane n).queue.tail
        have hq : (List.take 1 (s.lane n).queue).length + (copiesOf (s.lane n).queue.tail).length ≤
            (s.lane n).queue.length := by
          cases hq : (s.lane n).queue with
          | nil => simp [copiesOf]
          | cons x q => rw [hq] at hc; simp at hc ⊢; omega
        rw [hh] at h3
        simp only [List.length_nil, Nat.add_zero] at h3
        unfold Lane.mayOwe at h2; rw [if_neg (by tauto), hh] at h2
        simp only [List.length_nil] at h2
        refine ⟨by simp [Lane.atRest], ?_, by dsimp only; omega, by simp, by simp, by simp, ?_⟩
        · unfold Lane.mayOwe; rw [if_neg (by simp)]
          dsimp only
          rw [ha]; omega
        · intro x
          exfalso
          have : (s.overtake n).fetching n := by
            unfold State.fetching at *
            rw [overtake_port (s := s) n (by simp)] at x
            exact x
          exact (overtake_fetching s n n).2 this
      · exact (overtake_answer _ _ (fun _ _ => by simp)).mpr (by simp [hp])
    · exact ((Answering.close h ha hp _ (entries hst.1 hst.2.1 _ _)).inert (Inert.setOut _ _)).inert (Inert.raise _ _)
  | abort =>
    show Answering n (s.takeAbort n)
    unfold State.takeAbort
    dsimp only
    split
    · exact clear
    · rename_i hf
      have hi : (s.lane n).st ≠ .idle := by simpa [LaneOrder.takenIn] using ho
      exact rest _ (Answering.close h ha hp _ (entries hi hf _ _))
  | clear => exact clear

/-- The end of a lane entry read (R28). -/
theorem OwedOk.endLaneRead {s : State} {n : LaneId} (h : OwedOk s) (hu : s.underWay (.laneEntry n) = true)
    (ws : Between) :
    OwedOk (State.endLaneRead n ws s) := by
  have hp : s.port = some (.laneEntry n) := by
    unfold State.underWay at hu
    cases hp : s.port with
    | none => simp [hp] at hu
    | some t =>
      rw [hp] at hu
      cases t <;> simp [Transaction.serves] at hu
      subst hu; rfl
  have ha : s.answerDue n = 1 := by simp [State.answerDue, hp]
  unfold State.endLaneRead
  dsimp only
  have h0 : Within s.answerDue (((s.endTransaction (s.readLaneEntry n ws).2.2)).passInterval n
    (laneInterval (s.readLaneEntry n ws).2.1)) := by
    refine Within.inert (Within.free h _) (Inert.updLane _ _ _ ?_)
    split
    · exact ⟨rfl, rfl, rfl, Or.inr rfl, rfl, rfl, fun _ h => h⟩
    · exact Alike.refl _
  have hp0 : (((s.endTransaction (s.readLaneEntry n ws).2.2)).passInterval n
    (laneInterval (s.readLaneEntry n ws).2.1)).port = none := by
    unfold State.passInterval; simp [State.endTransaction]
  generalize (((s.endTransaction (s.readLaneEntry n ws).2.2)).passInterval n
    (laneInterval (s.readLaneEntry n ws).2.1)) = t at *
  split
  · refine OwedOk.inert (OwedOk.within (a := fun _ => 0) (fun m => owesWithin_less (h0 m) (Nat.zero_le _))
        (fun m => by simp [State.answerDue, hp0])) (Inert.updLane _ _ _ ?_)
    unfold Lane.occasion; split
    · exact ⟨rfl, rfl, rfl, Or.inr rfl, rfl, rfl, fun _ h => h⟩
    · exact Alike.refl _
  · have h1 : Within s.answerDue ({ t with lastSeq := t.lastSeq.set n.val (orderSeq (s.readLaneEntry n ws).1) }
        : State) := h0.inert (Inert.same rfl rfl)
    have hp1 : ({ t with lastSeq := t.lastSeq.set n.val (orderSeq (s.readLaneEntry n ws).1) }
        : State).port = none := hp0
    generalize ({ t with lastSeq := t.lastSeq.set n.val (orderSeq (s.readLaneEntry n ws).1) } : State) = u at *
    unfold State.newLaneOrder
    dsimp only
    split
    · rename_i o ho hr
      refine (Answering.takeLaneOrder h1 ha hp1 o _ _ ?_).produce _
      rw [ho] at hr
      unfold State.laneOrderResult at hr
      dsimp only at hr
      by_contra hx
      rw [Bool.not_eq_true] at hx
      rw [hx] at hr
      split at hr
      · cases hr
      · split at hr
        · cases hr
        · simp at hr
    · exact (Within.answering h1 ha hp1).produce _

/-- The same lanes and port. -/
theorem OwedOk.sameLanes {s t : State} (h : OwedOk s) (hl : t.lanes = s.lanes) (hp : t.port = s.port) : OwedOk t :=
  h.inert (Inert.same hl hp)

/-- A command of a transaction keeps the bound when its end does. -/
theorem OwedOk.turn {s : State} {r : Request} {p : Part} {fin : State → State} (h : OwedOk s)
    (hf : ∀ t, t.underWay r = true → OwedOk t → OwedOk (fin t)) : OwedOk (s.turn r p fin) := by
  refine turn_keeps OwedOk h (fun hc => h.grant hc) hf (fun hc => ?_)
  have hp := portChoice_free hc
  cases r <;> (unfold State.underWay State.grant; simp [Transaction.serves])
  unfold State.portChoice at hc
  split at hc
  · cases hc
  split at hc
  · cases hc
  cases hn : s.nextMarked with
  | some i => simp
  | none =>
    exfalso
    rw [hn] at hc
    rw [Option.or_eq_some_iff] at hc
    rcases hc with hc | ⟨_, hc⟩
    · unfold State.readerRequest at hc
      split at hc
      · cases hc
      · split at hc
        · cases hc
        · split at hc <;> cases hc
    · rw [Option.or_eq_some_iff] at hc
      rcases hc with hc | ⟨_, hc⟩
      · unfold State.laneRequest at hc
        dsimp only at hc
        rw [Option.map_eq_some_iff] at hc
        obtain ⟨n, _, hc⟩ := hc
        split at hc <;> cases hc
      · simp at hc

/-- The same lanes, the port freed. -/
theorem OwedOk.freed {s t : State} (h : OwedOk s) (hl : t.lanes = s.lanes) (hp : t.port = none) : OwedOk t := by
  have := h.free s.mem
  exact this.sameLanes hl hp

/-- CLEAR MARKS leaves the lanes (R170). -/
theorem Inert.clearMarksOf (a : Word) : ∀ (is : List SourceId) (s : State), Inert s
    (Sys2Proof.Machine.clearMarksOf a is s) := by
  intro is
  induction is with
  | nil => intro s; exact Inert.refl s
  | cons i is ih =>
    intro s
    unfold Sys2Proof.Machine.clearMarksOf
    split
    · exact (Inert.setSource _ _ _).trans (ih _)
    · exact ih _

/-- A new device order (R167). -/
theorem OwedOk.newDeviceOrder {s : State} (h : OwedOk s) (seq : Byte) (order : Option DeviceOrder) (a b : Word) :
    OwedOk (s.newDeviceOrder seq order a b) := by
  have take : ∀ o, Inert s (s.takeDeviceOrder seq o a b) := by
    intro o
    cases o with
    | applySetup => exact Inert.same rfl rfl
    | snapshot => exact Inert.same rfl rfl
    | clearMarks => exact Inert.clearMarksOf a allSources s
    | setStatic =>
      show Inert s (s.takeSetStatic a b)
      unfold State.takeSetStatic
      have h0 : Inert s ({ s with static := blend (field b 0 24) (field a 0 24) s.static }
          : State) := Inert.same rfl rfl
      exact h0.trans (Inert.setOut _ _)
    | raiseFlag =>
      show Inert s (s.takeRaiseFlag a)
      unfold State.takeRaiseFlag; split
      · exact Inert.claimEvent _ _
      · exact Inert.refl s
    | drainFlag =>
      show Inert s (s.takeDrainFlag a)
      unfold State.takeDrainFlag; split
      · exact Inert.setSource _ _ _
      · exact Inert.refl s
    | beatStart =>
      show Inert s (s.takeBeatStart a b)
      unfold State.takeBeatStart; split
      · exact Inert.updBeat _ _ _
      · exact Inert.refl s
    | beatStop =>
      show Inert s (s.takeBeatStop a)
      unfold State.takeBeatStop; split
      · exact Inert.updBeat _ _ _
      · exact Inert.refl s
    | flushLink =>
      show Inert s s.takeFlushLink
      unfold State.takeFlushLink
      have h0 := Inert.updLink s (fun l => { l with rxq := [] })
      generalize s.updLink _ = u at *
      exact h0.trans (Inert.same rfl rfl)
    | setMasks => exact Inert.same rfl rfl
  unfold State.newDeviceOrder
  split
  · exact h.inert (Inert.enqueue _ _)
  · rename_i o
    dsimp only
    split
    · exact h.inert (Inert.enqueue _ _)
    · have h1 : OwedOk (if o.answersAtOnce = true then (s.takeDeviceOrder seq o a b).enqueue
          (deviceAnswer seq .ok 0) else s.takeDeviceOrder seq o a b) := by
        split
        · exact h.inert ((take o).trans (Inert.enqueue _ _))
        · exact h.inert (take o)
      split
      · exact h1.settle
      · exact h1

/-- The end of a device entry read (R167). -/
theorem OwedOk.endDeviceRead {s : State} (h : OwedOk s) (ws : Between) : OwedOk (State.endDeviceRead ws s) := by
  unfold State.endDeviceRead
  dsimp only
  split
  · exact (h.free _).settle
  · apply OwedOk.newDeviceOrder
    exact h.freed rfl rfl

/-- The end of a setup read (R165). -/
theorem OwedOk.endSetupRead {s : State} (h : OwedOk s) (pins : BitVec 8) (ws : Between) : OwedOk
    (State.endSetupRead pins ws s) := by
  unfold State.endSetupRead
  split
  · dsimp only
    generalize readSeq (List.range 128) ws s.mem = r
    have h1 : OwedOk ({ s.endTransaction (landAll r.2.2 r.2.1) with devOut := .none_ } : State) := h.freed rfl rfl
    generalize ({ s.endTransaction (landAll r.2.2 r.2.1) with devOut := .none_ } : State) = u at *
    refine OwedOk.inert ?_ (Inert.enqueue _ _)
    split
    · exact h1.sameLanes rfl rfl
    · exact h1
  · exact h

/-- The landing of an entry (R148). -/
theorem Inert.entryLanded (s : State) (e : WriteBack) : Inert s (s.entryLanded e) := by
  unfold State.entryLanded
  split
  · split
    · refine Inert.updLane _ _ _ ?_
      dsimp only
      unfold Lane.ownCopyLanded Lane.endingLanded
      split <;> [split; skip] <;> exact ⟨rfl, rfl, rfl, Or.inr rfl, rfl, rfl, fun _ h => h⟩
    · exact Inert.refl s
  · split
    · split
      · exact Inert.refl s
      · refine Inert.updLane _ _ _ ?_
        unfold Lane.ownCopyLanded
        split <;> exact ⟨rfl, rfl, rfl, Or.inr rfl, rfl, rfl, fun _ h => h⟩
    · exact Inert.refl s
  · exact Inert.raise _ _
  all_goals exact Inert.refl s

/-- The end of a write-back transaction (R148). -/
theorem OwedOk.endWriteBack {s : State} (h : OwedOk s) (ws : Between) : OwedOk (State.endWriteBack ws s) := by
  unfold State.endWriteBack
  split
  · exact h.free _
  · rename_i e q hq
    exact ((h.freed (t := { s.endTransaction _ with wbq := q }) rfl rfl).inert (Inert.entryLanded _ _)).settle

/-- The end of a status item write (R149). -/
theorem OwedOk.endStatusItem {s : State} (h : OwedOk s) (ws : Between) : OwedOk (State.endStatusItem ws s) := by
  unfold State.endStatusItem
  split
  · unfold State.snapshotWritten
    dsimp only
    split
    · split
      · exact h.freed rfl rfl
      · exact h.freed rfl rfl
    · exact h.freed rfl rfl
  · exact h

/-- One word of a write transaction. -/
theorem OwedOk.landWord {s : State} (h : OwedOk s) (ws : Between) : OwedOk (s.landWord ws) := by
  unfold State.landWord
  split
  · have key : ∀ x : Transaction, (x.wordLanded = x) ∨ (∃ k, x = .writeBack k) ∨ (∃ i w k, x = .statusItem i w k) := by
      intro x; cases x <;> simp [Transaction.wordLanded]
    cases hp : s.port with
    | none => exact h.sameLanes rfl hp.symm
    | some x =>
      rcases key x with hx | ⟨k, rfl⟩ | ⟨i, w, k, rfl⟩
      · exact h.sameLanes rfl (by show some x.wordLanded = _; rw [hx, hp])
      all_goals
        intro n
        refine owesWithin_less ((h n).alike (Alike.refl _) ?_) ?_
        · simp [State.fetching, Transaction.wordLanded]
        · simp [State.answerDue, Transaction.wordLanded]
  · exact h

/-- A command of a write transaction. -/
theorem OwedOk.writeTurn {s : State} (h : OwedOk s) (r : Request) (p : WritePart) (ws : Between) (fin : State → State)
    (hf : ∀ t, OwedOk t → OwedOk (fin t)) : OwedOk (s.writeTurn r p ws fin) := by
  unfold State.writeTurn
  cases p
  · exact h.turn (fun t _ x => hf t x)
  · exact h.turn (fun t _ x => x.landWord ws)
  · exact h.turn (fun t _ x => hf t x)

/-- A tick (R93). -/
theorem OwedOk.tick {s : State} (h : OwedOk s) : OwedOk s.tick := by
  unfold State.tick
  split
  · refine h.inert ⟨fun n => ?_, rfl⟩
    show Alike (s.lane n) (s.lanes.map Lane.tick)[n]
    rw [show (s.lanes.map Lane.tick)[n] = (s.lane n).tick by simp [State.lane]]
    exact ⟨rfl, rfl, by simp [Lane.tick], Or.inr rfl, rfl, rfl, fun _ _ => rfl⟩
  · exact h

/-- Lanes at their values after reset. -/
theorem OwedOk.empty {t : State} (hl : t.lanes = Vector.replicate 8 {}) (hp : t.port = none) : OwedOk t := by
  intro n
  have : t.lane n = {} := by unfold State.lane; rw [hl]; simp
  rw [this]
  refine ⟨fun _ => ⟨rfl, rfl, rfl, rfl⟩, ?_, by decide, by simp, by simp, by simp, fun _ => rfl⟩
  simp [Lane.mayOwe, State.answerDue, hp]

/-- A cause of a halt trip keeps the bound. -/
theorem OwedOk.haltCause {s : State} (h : OwedOk s) (c : HaltCause) (l : Fin 8) : OwedOk (s.haltCause c l) :=
  (Keeps.haltCause s c l).owed h

end Sys2Proof.Machine
end

