-- ==== Sys2Proof/Tests/Slice0.lean ====
section
/-! SUPPORT. Tests: ill-formed commands refused, one small step a command, and states that meet the hypotheses of the
statements (the theorems witness_<statement>). -/

namespace Sys2Proof.Tests

-- One theorem at a time: the sandbox's memory does not hold many evaluations side by side.
set_option Elab.async false

open Sys2Proof Sys2Proof.Machine

/-! Well-formedness. -/

theorem test_wellFormed_refuses :
    (Instr.softReset 4).wellFormed = false ∧ (Instr.unknownControlCode 2).wellFormed = false ∧
    (Instr.registerWriteIgnored 0x8008 0).wellFormed = false ∧ (Instr.registerWriteIgnored 0x7FFC 0).wellFormed = false ∧
    (Instr.hostMemoryWrite 0x8000 0).wellFormed = false ∧
    (Instr.laneEntryRead 0 .done [[], [], [], []]).wellFormed = false ∧
    (Instr.cueFetch 0 .done [[⟨0x8000, 0⟩]]).wellFormed = false ∧
    (Instr.deviceEntryRead .done [[], [], [], [], []]).wellFormed = false ∧
    (Instr.writeBackLanding .done [[], [], [], [], []]).wellFormed = false := by decide

theorem test_wellFormed_accepts :
    (Instr.softReset 3).wellFormed = true ∧ (Instr.unknownControlCode 4).wellFormed = true ∧
    (Instr.registerWriteIgnored 0x8018 0).wellFormed = true ∧ (Instr.hostMemoryWrite 0x7FFF 0).wellFormed = true ∧
    (Instr.laneEntryRead 0 .done [[], [⟨0x204, 7⟩], []]).wellFormed = true := by decide

/-- No row of the table gives bits. -/
theorem test_no_word_spells_a_command : decodeTableWord 0 0 = none ∧ decodeTableWord 32 1 = none := by decide

/-! States the tests use. -/

/-- A READY engine with nothing to do. -/
def live : State := { State.reset with engine := .ready, marks := 0 }

/-- Lane n of `s` replaced. -/
def lanePut (s : State) (n : LaneId) (l : Lane) : State := { s with lanes := s.lanes.set n.val l }

/-- Memory with these words. -/
def memOf (ws : List (Nat × Word)) : List Host.Cell := ws.foldl (fun m w => writeWord m w.1 w.2) []

/-- Lane 0's directory entry holds an order of sequence 1 and is nudged; lane 0 is `l`. -/
def ordered (code argument : Word) (l : Lane) : State :=
  { lanePut live 0 l with nudge := 1, mem := memOf [(128, code + 0x100), (129, argument)] }

/-- The device order entry holds an order of sequence 1 and is nudged. -/
def commanded (code a b : Word) : State :=
  { live with nudge := 0x100, mem := memOf [(192, code + 0x100), (193, a), (194, b)] }

/-- A copy of slot 3 with pattern and mask of pin 0. -/
def copyOf (head w1 w4 : Word) : Copy :=
  { slot := 3, head := head, w1 := w1, w2 := 1, w3 := 1, w4 := w4, w5 := 0, pass := 0, replay := false }

/-- PULSE for 5 ticks on flag 0 (source 16), two fires, last of an open list. -/
def pulseCopy : Copy := copyOf 0x382 0x14007FF 7

/-- The same with one fire. -/
def oneShot : Copy := copyOf 0x382 0x14003FF 7

/-- The same with FINAL. -/
def finalShot : Copy := copyOf 0x20382 0x14003FF 7

/-- A lane whose copy `c` waits. -/
def waiting (c : Copy) : Lane :=
  { st := .running, queue := [.copy c], pause := .atEnd, watch := 3, heldBegun := true
    cur := some { waiting := true, limit := .counting 7 } }

/-- A lane whose copy `c` has a pulse that ends at tick 0. -/
def pulsing (c : Copy) : Lane :=
  { st := .running, queue := [.copy c], pause := .atEnd, watch := 3, heldBegun := true
    cur := some { fires := 1, pulse := some { endTick := 0, restore := 0 } } }

/-- Lane 0 owns pin 0. -/
def owning (s : State) : State := { s with owner := s.owner.set 0 (some 0) }

/-- A full write-back queue of lane 1's answers. -/
def fullQueue (s : State) : State :=
  { s with wbq := List.replicate 16 { owner := some 1, kind := .laneAnswer, writes := [(138, 0)] } }

/-- A lane with a cue fetch of slot 3 in flight, `attempts` begun, `q` staged. -/
def fetching (attempts : Nat) (q : List Entry) : Lane :=
  { st := .held, queue := q, follow := 3, pause := .open_, fetch := some { kind := .cue, slot := 3, attempts := attempts } }

/-- Lane 0 is `l`, its cue fetch is under way, and slot 3 holds the header `head` and the words of `oneShot`. -/
def fetchState (l : Lane) (head : Word) : State :=
  owning { lanePut live 0 l with
    port := some (.cueFetch 0 false)
    mem := memOf [(280, head), (281, 0x14003FF), (282, 1), (283, 1), (284, 7)] }

/-- Lane 0 re-reads its tail, slot 3. -/
def rereading (attempts : Nat) (head w1 : Word) : State :=
  { lanePut live 0 { st := .held, follow := 1023, watch := 3, pause := .atEnd
                     fetch := some { kind := .tail, slot := 3, attempts := attempts } } with
    port := some (.tailReread 0 false), mem := memOf [(280, head), (281, w1)] }

/-- The setup read is under way for the order of sequence 1; the setup block holds every field in range. -/
def settingUp : State :=
  { State.reset with
    engine := .unset, marks := 0, port := some .setupRead, devOut := .setup 1
    mem := memOf ((List.range 24).map (fun k => (3 + k, 8#32)) ++ (List.range 8).map (fun k => (27 + k, 0x208#32)) ++
      (List.range 8).map (fun k => (35 + k, 0x110#32)) ++ [(0, 7#32), (3, 0x10#32), (43, 1#32)]) }

/-- The command answers a next state of which `p` holds. -/
def runs (c : Instr) (s : State) (p : State → Bool) : Bool :=
  match exec c s with
  | .next t => p t
  | _ => false

/-- The command answers exactly this state. -/
def gives (c : Instr) (s t : State) : Bool := runs c s (fun u => decide (u = t))

/-! One step a command. -/

theorem test_step_takes_front : step { live with pending := [.nudge 0x3FF, .halt] } =
    .next { live with nudge := 0x1FF, pending := [.halt] } := by rfl

theorem test_engine_commands :
    gives .powerOn { live with nudge := 5 } State.reset = true ∧
    gives .clearComplete State.reset { State.reset with engine := .unset } = true ∧
    runs (.softReset 0) live (fun t => t.engine == .unset && t.marks == BitVec.allOnes 20) = true ∧
    runs .halt live (fun t => t.engine == .halted && t.halt.cause == .hostHalt && t.attn) = true ∧
    gives .release { live with engine := .halted } live = true ∧
    gives (.unknownControlCode 4) live { live with refused := true } = true := by decide +kernel

theorem test_host_commands :
    gives (.registerWriteIgnored 0x800C 9) live live = true ∧
    gives (.nudge 0x103) live { live with nudge := 0x103 } = true ∧
    runs .take (live.raise (.note 5)) (fun t => t.readData == 0x157 && !t.attn) = true ∧
    runs .endService live (fun t => t.att.unmatchedEnd) = true ∧
    runs .engineStatusRead { live with refused := true, generation := 7 }
      (fun t => t.readData == 0x00070022 && !t.refused) = true ∧
    runs (.hostMemoryWrite 0x0406 0x01020304) live (fun t => t.mem == [(0x404, 4), (0x405, 3), (0x406, 2), (0x407, 1)]) =
      true := by decide +kernel

theorem test_lane_orders :
    runs (.laneEntryRead 0 .grant []) (ordered 1 5 {}) (fun t => t.port == some (.laneEntry 0) && t.nudge == 0) = true ∧
    runs (.start 0 []) (ordered 1 5 {}) (fun t => (t.lane 0).st == .priming && (t.lane 0).follow == 5 &&
      t.wbq.map WriteBack.writes == [[(130, 1)]]) = true ∧
    runs (.start 0 []) (ordered 1 992 {}) (fun t => (t.lane 0).st == .idle &&
      t.wbq.map WriteBack.writes == [[(130, 0x901)]]) = true ∧
    runs (.hold 0 []) (ordered 2 0 (waiting pulseCopy)) (fun t => (t.lane 0).cur.map Firing.limit == some (.frozen 7)) =
      true ∧
    runs (.resume 0 []) (ordered 3 0 { waiting pulseCopy with
      st := .held, cur := some { limit := .frozen 3 } }) (fun t => (t.lane 0).cur.map Firing.limit == some (.counting 3)) =
      true ∧
    runs (.stop 0 []) (ordered 4 0 (waiting pulseCopy)) (fun t => (t.lane 0).st == .stopping) = true ∧
    runs (.abort 0 []) (ordered 5 0 (waiting pulseCopy)) (fun t => (t.lane 0).st == .idle && t.wbq.length == 2) = true ∧
    runs (.clear 0 []) (ordered 6 0 { st := .faulted }) (fun t => (t.lane 0).st == .idle) = true := by decide +kernel

theorem test_device_orders :
    runs (.deviceEntryRead .done []) (commanded 11 0 0) (fun t => t.devSeq == 1 &&
      t.wbq.map WriteBack.writes == [[(196, 0), (195, 0x701)]]) = true ∧
    runs (.applySetup []) (commanded 1 0 0) (fun t => t.devOut == .setup 1) = true ∧
    runs (.snapshot []) (commanded 2 0 0) (fun t => t.snapSet == BitVec.allOnes 20 && t.devOut == .snapshot 1) = true ∧
    runs (.clearMarks []) ((commanded 3 1 0).setSource 0 { overflow := true }) (fun t => !(t.source 0).overflow) = true ∧
    runs (.setStatic []) (commanded 4 5 7) (fun t => t.out == 5 && t.static == 5) = true ∧
    runs (.raiseFlag []) (commanded 5 2 0) (fun t => (t.source 18).count == 1) = true ∧
    runs (.drainFlag []) ((commanded 6 2 0).setSource 18 { claim := true, count := 3 })
      (fun t => (t.source 18).count == 0) = true ∧
    runs (.beatStart []) (commanded 7 1 9) (fun t => t.beats[1] == { running := true, period := 9, next := 9, left := 9 }) =
      true ∧
    runs (.beatStop []) (commanded 8 0 0) (fun t => !t.beats[0].running) = true ∧
    runs (.flushLink []) { commanded 9 0 0 with link := { rxq := [⟨1, 2⟩] } } (fun t => t.link.rxq == []) = true ∧
    runs (.flushLink []) (commanded 9 0 0) (fun t => t.marks == 0x800) = true ∧
    runs (.setMasks []) (commanded 10 127 0) (fun t => t.att.masks == 127) = true := by decide +kernel

theorem test_setup_taken :
    runs (.setupReadDone .done 0x81 []) settingUp (fun t => t.engine == .ready && t.generation == 7 && t.out == 1 &&
      t.owner[0] == some 0 && t.owner[1] == none && t.inputs[7].level && t.link.rx == .waitHigh &&
      t.wbq.map WriteBack.writes == [[(196, 0), (195, 1)]]) = true := by decide +kernel

theorem test_fetch_port :
    runs (.cueFetch 0 .done []) (fetchState (fetching 1 []) 0x381) (fun t =>
      (t.lane 0).queue == [.copy { oneShot with head := 0x381 }] && (t.lane 0).pause == .atEnd &&
      t.wbq.map WriteBack.writes == [[(280, 0x382)]]) = true ∧
    runs (.tailReread 0 .done []) (rereading 1 3 6) (fun t => (t.lane 0).follow == 6 && (t.lane 0).pause == .open_) = true ∧
    runs (.writeBackLanding .done []) (fullQueue live) (fun t => t.wbq.length == 15) = true ∧
    runs (.statusItemWrite .done []) { live with marks := 0x100, out := 3 } (fun t =>
      t.mem == [(0x380, 3)] && t.marks == 0 && t.statusPos == 9) = true := by decide +kernel

theorem test_timed_events :
    runs (.beatExpiry 0) { live with beats := live.beats.set 0 { running := true, every := true, next := 4 } }
      (fun t => t.beats[0].left == 4 && (t.source 0).last == some 0) = true ∧
    runs (.pulseEnd 0) (lanePut live 0 (pulsing oneShot)) (fun t => (t.lane 0).st == .starved) = true ∧
    runs (.waitLimitExpiry 0) (lanePut live 0 { waiting pulseCopy with cur := some { waiting := true, limit := .counting 0 } })
      (fun t => (t.lane 0).st == .starved && (t.lane 0).lastOutcome == .none_) = true ∧
    runs (.revisitExpiry 0) (lanePut live 0 { waiting pulseCopy with revisit := some 0, interval := 2 })
      (fun t => (t.lane 0).revisit == some 512 && (t.lane 0).reread) = true ∧
    runs (.inputSample 0 true) { live with inputs := live.inputs.set 0 { edge := .rise, left := some 0 } }
      (fun t => (t.source 8).last == some 0 && t.inputs[0].level) = true := by decide +kernel

/-- A result half landed: between its words a host read finds word 7 new, word 6 and the header old (R22, R148). -/
theorem test_words_land_one_at_a_time :
    let s : State := { live with
      mem := memOf [(280, 2)], wbq := [{ owner := some 0, kind := .result 3 .done true, writes := [(287, 9), (286, 5), (280, 3)] }] }
    runs (.writeBackLanding .word []) s (fun t => t.port == some (.writeBack 1) && t.wbq == s.wbq &&
      t.hostRead 0x47C == 9 && t.hostRead 0x478 == 0 &&
      t.hostRead 0x460 == 2 &&
      runs (.writeBackLanding .done []) t (fun u => u.wbq == [] && u.mem == memOf [(280, 3), (286, 5), (287, 9)])) = true := by
  decide +kernel

/-- A KEEP cue completes with no room: its slot's count rises from 4 to 5 in the result and in the copy staged, which a
replay then stages with 5 (R17, R40). A fresh copy loaded with count 9 before the result is queued gives both copies 9, and
the result keeps 5 (R73). -/
theorem test_pass_count_of_the_ending :
    let c : Copy := { oneShot with head := 0x40382, pass := 4 }
    let s : State := fullQueue (lanePut live 0 (pulsing c))
    runs (.pulseEnd 0) s (fun t => (t.lane 0).queue == [.copy { c with pass := 5 }] &&
      (t.lane 0).cur.bind Firing.ended == some { outcome := .done, stamp := 0, pass := 5 } &&
      ((t.foundNotArmed 0 3 0x40382).lane 0).queue == [.copy { c with pass := 5 }, .copy { c with pass := 5, replay := true }] &&
      (let u := (t.appendCopy 0 { c with pass := 9 }).lane 0
       u.queue == [.copy { c with pass := 9 }, .copy { c with pass := 9 }] &&
       (u.endEntry 0 .aborted 7 0).map (fun e => e.writes.map (fun w => passCount w.2)) == [[5, 0, passCount 0x40381]])) =
      true := by decide +kernel

/-- Lane 0 is paused OWN-COPY at slot 3 and two writes that end it are queued: the first landing leaves the pause, the last
clears it (R38, R40, R148). -/
theorem test_own_copy_cleared_by_the_last_landing :
    let w : WriteBack := { owner := some 0, kind := .return_ 3, writes := [(280, 1)] }
    let s : State := { lanePut live 0 { st := .held, pause := .ownCopy, watch := 3 } with
      wbq := [{ w with kind := .result 3 .done true }, w] }
    runs (.writeBackLanding .done []) s (fun t => (t.lane 0).pause == .ownCopy && (t.lane 0).endedCount == 1 &&
      runs (.writeBackLanding .done []) t (fun u => (u.lane 0).pause == .open_ && (u.lane 0).endedCount == 1)) = true := by
  decide +kernel

/-- Lane 0's wait on beat 0 expires at the tick of the beat's expiry; the cue behind waits on the same beat. The event
passes the lane over, and the wait that begins after it fires late (R66, log entry 42). -/
theorem test_event_after_expiry_is_late :
    let first : Copy := { pulseCopy with head := 0x182 }
    let next : Copy := { first with slot := 4 }
    let s : State := lanePut { live with beats := live.beats.set 0 { running := true, every := true } } 0
      { waiting first with queue := [.copy first, .copy next], cur := some { waiting := true, limit := .counting 0 } }
    runs (.waitLimitExpiry 0) s (fun t => (t.lane 0).cur.map Firing.waiting == some true &&
      (t.lane 0).queue == [.copy next] && !(t.lane 0).waitsOn (.source 0) &&
      runs (.beatExpiry 0) t (fun u => (u.lane 0).cur.map Firing.late == some true &&
        (u.lane 0).cur.map Firing.fires == some 1)) = true := by decide +kernel

/-- A lane STARVED by the expiry of a wait on flag 0 holds no mark: a raise is counted, a FRESH cue fetched at the same tick
is a waiter, and a second raise fires it (R66, R77). -/
theorem test_wait_after_starved_is_reached :
    let fresh : Copy := { pulseCopy with head := 0x100382 }
    let s : State := lanePut live 0 { waiting oneShot with cur := some { waiting := true, limit := .counting 0 } }
    runs (.waitLimitExpiry 0) s (fun t => (t.lane 0).st == .starved && (t.lane 0).expiredOn == none) = true ∧
    ({ waiting fresh with expiredOn := none } : Lane).waitsOn (.source 16) = true ∧
    ((((lanePut { live with sources := live.sources.set 16 { claim := true, count := 1 } } 0 (waiting fresh)).claimEvent
      16).lane 0).cur.map Firing.fires) = some 1 := by decide +kernel

/-- A further trip raises the count and marks the halt record; held at 255 it marks nothing (R115, R149). -/
theorem test_further_trip_marks_a_change :
    runs .halt { live with engine := .halted, halt := { further := 254 } } (fun t => t.halt.further == 255 && t.marks == 0x200) =
      true ∧
    runs .halt { live with engine := .halted, halt := { further := 255 } } (fun t => t.halt.further == 255 && t.marks == 0 &&
      t.att.isPending .halt) = true := by decide +kernel

/-- Words written out from 11.2 and 11.3: a header of FLAG 15 with every option, a LINK 62, an EDGE 7; the words of a cue
record; those of a lane entry; an echo word. -/
theorem test_record_and_entry_fields :
    let c : Copy := { copyOf 0x007E7B80 0xFFFFFFFF 0x01000002 with w2 := 0x1F000001, w3 := 0x1F800000, w4 := 0x07000002, w5 := 0x3F000003 }
    c.trigger = some (.source 31) ∧ c.isFinal = true ∧ c.isKeep = true ∧ c.hasNote = true ∧ c.isFresh = true ∧
    c.lateFault = true ∧ c.expiryFault = true ∧ c.next = 1023#10 ∧ c.required = 4096 ∧ c.pulseWidth = 1023#10 ∧
    c.pattern = 1#24 ∧ c.raiseFlag = some 15 ∧ c.mask = 0x800000#24 ∧ c.beatAction = .retune ∧ c.beatNumber = 7 ∧
    c.waitLimit = 2 ∧ c.sendGroup = some 3#2 ∧ c.beatPeriod = 3 ∧ c.sendCode = 63#6 ∧
    headTrigger 0x0001F400 = some (.link 62) ∧ headTrigger 0x0001FC00 = none ∧ headTrigger 0x00003A00 = some (.source 15) ∧
    orderCode 0xFFFFC203 = 3 ∧ orderSeq 0xFFFFC203 = 0xC2#8 ∧ laneArgument 0xFFA5FC01 = 1#10 ∧
    laneInterval 0xFFA5FC01 = 0xA5#8 ∧ echoWord 0xC2 .badSlot = 0x9C2#32 := by decide +kernel

/-- The mark of an expiry goes with a list that ends, with a HOLD, with a fire and with the tick, so that a wait that begins
after any of them is reached by an event of the same tick (R66, R94, R166, log entry 42). -/
theorem test_expiry_mark_cleared :
    let l : Lane := { waiting pulseCopy with expiredOn := some (.source 16) }
    runs (.waitLimitExpiry 0) (lanePut live 0 { waiting finalShot with cur := some { waiting := true, limit := .counting 0 } })
      (fun t => (t.lane 0).st == .idle && (t.lane 0).expiredOn == none) = true ∧
    runs (.hold 0 []) (ordered 2 0 l) (fun t => (t.lane 0).expiredOn == none) = true ∧
    (live.withFire 0 none = live ∧ ((lanePut live 0 l).withFire 0 none |>.lane 0).expiredOn = none) ∧
    ((lanePut live 0 l).tick.lane 0).expiredOn = none := by decide +kernel

/-- The frame of the code 5 with group 3: data byte C5h, four high bits. -/
theorem test_link_commands :
    runs (.frameJudged 0xC5 false true) { live with link := { rx := .frame true, plan := { parity := .even } } }
      (fun t => t.link.rxq == [⟨5, 0⟩] && t.link.rx == .hunt) = true ∧
    runs .frameSent { live with link := { sending := some 1, plan := { enabled := true }, txq := [⟨5, 3⟩] } }
      (fun t => t.link.sending == some 0xC5 && t.link.txq == []) = true ∧
    runs .lineShowsHigh { live with link := { rx := .waitHigh } } (fun t => t.link.rx == .hunt) = true ∧
    runs .startCandidate { live with link := { rx := .hunt } } (fun t => t.link.rx == .frame false) = true ∧
    runs (.startBitMiddleSample false) { live with link := { rx := .frame false } } (fun t => t.link.rx == .frame true) =
      true := by decide +kernel

/-! States that meet the hypotheses of the statements. -/

theorem witness_StepRunsFrontCommand : { live with pending := [.take, .halt] }.pending = .take :: [.halt] := rfl

/-- Nothing due in CLEARING, in READY and in HALTED; one event due; two due. -/
theorem witness_EmptyQueuePassesTime :
    let one : State := { live with beats := live.beats.set 0 { running := true } }
    let two : State := { one with beats := one.beats.set 7 { running := true } }
    (State.reset.pending = [] ∧ State.reset.due = [] ∧ State.reset.engine = .clearing) ∧
    (live.pending = [] ∧ live.due = [] ∧ live.engine = .ready) ∧
    (one.pending = [] ∧ one.due = [.beatExpiry 0]) ∧
    (two.pending = [] ∧ two.due = [.beatExpiry 0, .beatExpiry 7]) := by decide +kernel

/-- Each timed event due: in READY all five, in HALTED the revisit and the sample, in CLEARING none. -/
theorem witness_EmptyQueuePassesTime_due :
    let s : State := { lanePut (lanePut live 0 { pulsing oneShot with revisit := some 0 }) 7
        { waiting oneShot with cur := some { waiting := true, limit := .counting 0 } } with
      beats := live.beats.set 3 { running := true }, inputs := live.inputs.set 7 { left := some 0 }, inPins := 0x80 }
    s.due = [.pulseEnd 0, .waitLimitExpiry 7, .beatExpiry 3, .revisitExpiry 0, .inputSample 7 true] ∧
    { s with engine := .halted }.due = [.revisitExpiry 0, .inputSample 7 true] ∧ { s with engine := .clearing }.due = [] := by
  decide +kernel

theorem witness_ClearCompleteEntersUnset : State.reset.engine = .clearing := rfl

theorem witness_SoftResetTaken :
    let landing : State := { live with
      port := some (.writeBack 1), wbq := [{ owner := some 0, kind := .laneAnswer, writes := [(131, 1), (130, 2)] }] }
    let item : State := { live with port := some (.statusItem 19 [7] 0) }
    let reading : State := { live with port := some (.laneEntry 0) }
    State.reset.engine = .clearing ∧ (live.engine ≠ .clearing ∧ live.port = none) ∧
    (landing.engine ≠ .clearing ∧ landing.port = some (.writeBack 1) ∧
      landing.wbq = [{ owner := some 0, kind := .laneAnswer, writes := [(131, 1), (130, 2)] }]) ∧
    (item.engine ≠ .clearing ∧ item.port = some (.statusItem 19 [7] 0)) ∧
    (reading.engine ≠ .clearing ∧ reading.port = some (.laneEntry 0)) := by decide +kernel

/-- Lane 0 has a pulse in flight, lane 1 is IDLE, pin 0 is high and its safe level low. -/
theorem witness_HaltTripsReadyEngine :
    let s : State := { lanePut (owning live) 0 (pulsing oneShot) with out := 1 }
    s.engine = .ready ∧ ((s.lane 0).st ≠ .idle ∧ (s.lane 0).st ≠ .faulted) ∧ (s.lane 1).st = .idle ∧ s.out ≠ s.safe := by
  decide +kernel

theorem witness_HaltOutsideReady :
    { live with engine := .halted, halt := { further := 254 } }.engine = .halted ∧
    { live with engine := .halted, halt := { further := 255 } }.engine = .halted ∧
    State.reset.engine = .clearing ∧ { State.reset with engine := .unset }.engine = .unset := by decide +kernel

theorem witness_ReleaseRestoresLevels :
    let s : State := { live with engine := .halted }
    let t : State := lanePut s 7 { st := .faulted }
    (s.engine = .halted ∧ ∀ n, (s.lane n).st = .idle) ∧ live.engine ≠ .halted ∧
    (t.engine = .halted ∧ ∃ n, (t.lane n).st ≠ .idle) := by decide +kernel

theorem witness_RefusedAndIgnoredWrites :
    ((0#32 ≠ 1#32 ∧ 0#32 ≠ 2#32 ∧ 0#32 ≠ 3#32) ∧ (4#32 ≠ 1#32 ∧ 4#32 ≠ 2#32 ∧ 4#32 ≠ 3#32)) ∧
    ((0x8004#16).toNat / 4 = 0x8004 / 4 ∧ (0x800F#16).toNat / 4 = 0x800C / 4 ∧ (0x8017#16).toNat / 4 = 0x8014 / 4 ∧
      0x8018 ≤ (0x8018#16).toNat ∧ 0x8018 ≤ (0xFFFF#16).toNat) := by decide

/-- Nothing pending; HALT and ORDER-DONE pending, of which HALT is the more urgent. -/
theorem witness_TakeReturnsMostUrgentCause :
    let s : State := (live.raise .orderDone).raise .halt
    (∀ c, live.att.eligible c = false) ∧
    (s.att.eligible .halt = true ∧ ∀ d, s.att.eligible d = true → s.att.levelOf d < s.att.levelOf .halt ∨
      (s.att.levelOf d = s.att.levelOf .halt ∧ ((Cause.halt).kind < d.kind ∨
        ((Cause.halt).kind = d.kind ∧ (Cause.halt).lane.val ≤ d.lane.val)))) := by
  refine ⟨?_, by decide +kernel, ?_⟩
  · intro c
    cases c with
    | laneFault n => revert n; decide +kernel
    | starved n => revert n; decide +kernel
    | listDone n => revert n; decide +kernel
    | note n => revert n; decide +kernel
    | halt => decide +kernel
    | linkError => decide +kernel
    | overflow => decide +kernel
    | orderDone => decide +kernel
  · intro d
    cases d with
    | laneFault n => revert n; decide +kernel
    | starved n => revert n; decide +kernel
    | listDone n => revert n; decide +kernel
    | note n => revert n; decide +kernel
    | halt => decide +kernel
    | linkError => decide +kernel
    | overflow => decide +kernel
    | orderDone => decide +kernel

theorem witness_EndRemovesLastEntry :
    let e : Service := { level := 1, cause := .orderDone }
    let h : Service := { level := 3, cause := .halt }
    { live with att := { inService := [e, h] } }.att.inService = [e] ++ [h] ∧
    { live with att := { inService := [e] } }.att.inService = [] ++ [e] ∧ live.att.inService = [] := by decide +kernel

/-- The last byte of exchange memory; the first and the last byte of each register, and of the addresses behind. -/
theorem witness_HostWriteLandsWhole :
    ((0x7FFF#16).toNat < 0x8000 ∧ State.reset.engine = .clearing ∧ live.engine ≠ .clearing ∧ Memory.wf live.mem = true) ∧
    (∀ k, k < 4 → (0x8004 + k) / 4 = 0x8004 / 4 ∧ (0x8008 + k) / 4 = 0x8008 / 4 ∧ (0x800C + k) / 4 = 0x800C / 4 ∧
      (0x8014 + k) / 4 = 0x8014 / 4 ∧ (0x8000 + k) / 4 = 0x8000 / 4 ∧ (0x8010 + k) / 4 = 0x8010 / 4) ∧
    0x8018 ≤ (0x8018#16).toNat ∧ 0x8018 ≤ (0xFFFF#16).toNat := by decide +kernel

/-- What a host read returns of each register, and of exchange memory in READY and in CLEARING. -/
theorem test_host_reads :
    let s : State := { live with nudge := 0x105, timebase := 77, generation := 7, mem := [(0x7FFC, 9)] }
    s.hostRead 0x7FFF = 9 ∧ { s with engine := .clearing }.hostRead 0x7FFC = 0 ∧ s.hostRead 0x8000 = 0 ∧
    s.hostRead 0x8004 = 0x00070002 ∧ s.hostRead 0x800B = 0x105 ∧ s.hostRead 0x800C = 0 ∧ s.hostRead 0x8010 = 0 ∧
    s.hostRead 0x8017 = 77 ∧ s.hostRead 0x8018 = 0 := by decide +kernel

theorem witness_OrderRowsAreEntryReads :
    (ordered 1 5 {}).findsLaneOrder 0 [] .start = true ∧ (ordered 2 0 {}).findsLaneOrder 0 [] .hold = true ∧
    (ordered 3 0 {}).findsLaneOrder 0 [] .resume = true ∧ (ordered 4 0 {}).findsLaneOrder 0 [] .stop = true ∧
    (ordered 5 0 {}).findsLaneOrder 0 [] .abort = true ∧ (ordered 6 0 {}).findsLaneOrder 0 [] .clear = true ∧
    (commanded 1 0 0).findsDeviceOrder [] .applySetup = true ∧ (commanded 2 0 0).findsDeviceOrder [] .snapshot = true ∧
    (commanded 3 0 0).findsDeviceOrder [] .clearMarks = true ∧ (commanded 4 0 0).findsDeviceOrder [] .setStatic = true ∧
    (commanded 5 0 0).findsDeviceOrder [] .raiseFlag = true ∧ (commanded 6 0 0).findsDeviceOrder [] .drainFlag = true ∧
    (commanded 7 0 0).findsDeviceOrder [] .beatStart = true ∧ (commanded 8 0 0).findsDeviceOrder [] .beatStop = true ∧
    (commanded 9 0 0).findsDeviceOrder [] .flushLink = true ∧ (commanded 10 0 0).findsDeviceOrder [] .setMasks = true := by
  decide +kernel

/-- Lane 0 waits, and is paused; a re-read of its NOT-READY slot is in flight, and its pause is NONE (log entry 39). -/
def pausedAt (p : Pause) : Lane :=
  { waiting pulseCopy with pause := p, fetch := if p = .open_ then some { kind := .cue, slot := 3, attempts := 1 } else none }

/-- An empty entry: sequence 0, as recorded; the lane paused AT-END and NOT-READY, a re-read in flight with pause NONE, and
IDLE. -/
theorem witness_LaneReadWithoutNewOrder :
    let s : Lane → State := fun l => { lanePut live 0 l with nudge := 1 }
    (∀ p : Fin 3, let t := s (pausedAt ([.atEnd, .notReady, .open_].getD p.val .open_))
      t.atPort (.laneEntry 0) ∧ orderSeq (t.readLaneEntry 0 []).1 = t.lastSeq[(0 : LaneId)] ∧ (t.lane 0).st.active = true) ∧
    ((s (pausedAt .open_)).lane 0).pause = .open_ ∧ ((s (pausedAt .open_)).lane 0).fetch.isSome = true ∧
    ((s {}).lane 0).st.active = false := by
  unfold State.atPort; decide +kernel

/-- A witness for each clause: codes 0 and 7; 1 and 6 in UNSET; START in HALTED; START and CLEAR in a wrong state; START
at slots 992 and 991. -/
theorem witness_LaneOrderChecksInOrder :
    let unset : State := { State.reset with engine := .unset }
    let halted : State := { live with engine := .halted }
    let running : State := lanePut live 0 (waiting pulseCopy)
    (unset.engine = .unset ∧ halted.engine = .halted ∧ live.engine = .ready) ∧
    ((running.lane 0).st ≠ .idle ∧ (running.lane 0).st ≠ .faulted) ∧ (live.lane 0).st = .idle ∧
    (992 ≤ (992#10).toNat ∧ (991#10).toNat < 992) := by decide +kernel

theorem witness_LaneOrderRefused :
    let s := ordered 1 992 {}
    s.atPort (.laneEntry 0) ∧ orderSeq (s.readLaneEntry 0 []).1 ≠ s.lastSeq[(0 : LaneId)] ∧
    s.laneOrderResult 0 (laneOrderOf (orderCode (s.readLaneEntry 0 []).1)) (laneArgument (s.readLaneEntry 0 []).2.1) =
      .badSlot := by
  unfold State.atPort; decide +kernel

theorem witness_StartTaken :
    let s := ordered 1 991 {}
    s.atPort (.laneEntry 0) ∧ s.findsLaneOrder 0 [] .start = true ∧ s.engine = .ready ∧ (s.lane 0).st = .idle ∧
    (laneArgument (s.readLaneEntry 0 []).2.1).toNat < 992 := by unfold State.atPort; decide +kernel

theorem witness_HoldTaken :
    let s := ordered 2 0 (waiting pulseCopy)
    s.atPort (.laneEntry 0) ∧ s.findsLaneOrder 0 [] .hold = true ∧ s.engine = .ready ∧ (s.lane 0).st = .running := by
  unfold State.atPort; decide +kernel

/-- HELD with no cue begun; with a cue begun; with a pulse in flight; with fires remaining on flag 0; with a copy at the
head while another lane owes a write; with a marker at the head. -/
theorem witness_ResumeTaken :
    let a := ordered 3 0 { st := .held }
    let b := ordered 3 0 { st := .held, heldBegun := true }
    let c := ordered 3 0 { pulsing pulseCopy with st := .held }
    let d := ordered 3 0 { waiting pulseCopy with st := .held, cur := some { limit := .frozen 3 } }
    let e : State := { fullQueue (lanePut (ordered 3 0 { fetching 1 [.copy oneShot] with fetch := none }) 2
      { owed := [{ owner := some 2, kind := .resumeSlot, writes := [] }] }) with port := some (.laneEntry 0) }
    let f := ordered 3 0 { fetching 1 [.marker .torn 5] with fetch := none }
    (e.atPort (.laneEntry 0) ∧ e.findsLaneOrder 0 [] .resume = true ∧ ¬ e.settled ∧
      (e.lane 0).st = .held ∧ (e.lane 0).queue ≠ []) ∧
    (f.atPort (.laneEntry 0) ∧ f.findsLaneOrder 0 [] .resume = true ∧ (f.lane 0).st = .held ∧ (f.lane 0).queue ≠ []) ∧
    (a.atPort (.laneEntry 0) ∧ a.findsLaneOrder 0 [] .resume = true ∧ a.engine = .ready ∧ a.settled ∧
      (a.lane 0).st = .held ∧ (a.lane 0).queue = [] ∧ (a.lane 0).cur = none ∧ (a.lane 0).heldBegun = false) ∧
    (b.atPort (.laneEntry 0) ∧ b.findsLaneOrder 0 [] .resume = true ∧ b.settled ∧ (b.lane 0).heldBegun = true) ∧
    (c.atPort (.laneEntry 0) ∧ c.findsLaneOrder 0 [] .resume = true ∧ c.settled ∧ (c.lane 0).st = .held ∧
      (c.lane 0).queue = [.copy pulseCopy] ∧ ((c.lane 0).cur.bind Firing.pulse).isSome = true ∧ 1 < pulseCopy.required) ∧
    (d.atPort (.laneEntry 0) ∧ d.findsLaneOrder 0 [] .resume = true ∧ d.settled ∧ (d.lane 0).st = .held ∧
      (d.lane 0).queue = [.copy pulseCopy] ∧ (d.lane 0).cur = some { limit := .frozen 3 } ∧ 0 < pulseCopy.required ∧
      pulseCopy.trigger = some (.source 16) ∧ (d.source 16).claim = true ∧ (d.source 16).count = 0) := by
  unfold State.atPort State.settled; decide +kernel

/-- Lanes for the resume slot: a copy handed back; a FINAL current cue; a marker alone; a current cue that is not FINAL. -/
theorem witness_StopTakenInRunning :
    let behind : Lane := { waiting pulseCopy with queue := [.copy pulseCopy, .marker .torn 5, .copy oneShot] }
    let marker : Lane := { st := .running, queue := [.marker .linkLost 5] }
    let s := ordered 4 0 (waiting pulseCopy)
    behind.notBegun ++ behind.heldReturns = [oneShot] ∧
    ((waiting finalShot).notBegun ++ (waiting finalShot).heldReturns = [] ∧ (waiting finalShot).queue = [.copy finalShot] ∧
      finalShot.isFinal = true) ∧
    (marker.notBegun ++ marker.heldReturns = [] ∧ marker.cur = none) ∧
    ((waiting pulseCopy).notBegun ++ (waiting pulseCopy).heldReturns = [] ∧ pulseCopy.isFinal = false) ∧
    s.atPort (.laneEntry 0) ∧ s.findsLaneOrder 0 [] .stop = true ∧ s.engine = .ready ∧ (s.lane 0).st = .running := by
  unfold State.atPort; decide +kernel

/-- Lanes for the entries handed back: in completion pending, in a wait, with no current cue. -/
theorem witness_StopTakenElsewhere :
    let pends : Lane := { waiting oneShot with cur := some { fires := 1, ended := some { outcome := .done, stamp := 4, pass := 1 } } }
    let s := ordered 4 0 { pulsing pulseCopy with st := .held }
    (pends.queue = [.copy oneShot] ∧ pends.cur = some { fires := 1, ended := some { outcome := .done, stamp := 4, pass := 1 } }) ∧
    ((waiting oneShot).queue = [.copy oneShot] ∧ (waiting oneShot).cur = some { waiting := true, limit := .counting 7 }) ∧
    (fetching 1 [.copy oneShot, .copy oneShot]).cur = none ∧
    s.atPort (.laneEntry 0) ∧ s.findsLaneOrder 0 [] .stop = true ∧ s.engine = .ready ∧ (s.lane 0).st = .held := by
  unfold State.atPort; decide +kernel

theorem witness_AbortTaken :
    let s := ordered 5 0 { pulsing pulseCopy with st := .stopping }
    s.atPort (.laneEntry 0) ∧ s.findsLaneOrder 0 [] .abort = true ∧ s.engine = .ready ∧ (s.lane 0).st ≠ .idle ∧
    (s.lane 0).st ≠ .faulted := by unfold State.atPort; decide +kernel

/-- CLEAR and ABORT, each in READY and in HALTED. -/
theorem witness_ClearTaken :
    let c := ordered 6 0 { st := .faulted }
    let a := ordered 5 0 { st := .faulted }
    let ch : State := { c with engine := .halted }
    let ah : State := { a with engine := .halted }
    (c.atPort (.laneEntry 0) ∧ c.findsLaneOrder 0 [] .clear = true ∧ c.engine = .ready ∧ (c.lane 0).st = .faulted) ∧
    (a.atPort (.laneEntry 0) ∧ a.findsLaneOrder 0 [] .abort = true ∧ a.engine = .ready ∧ (a.lane 0).st = .faulted) ∧
    (ch.atPort (.laneEntry 0) ∧ ch.findsLaneOrder 0 [] .clear = true ∧ ch.engine = .halted) ∧
    (ah.atPort (.laneEntry 0) ∧ ah.findsLaneOrder 0 [] .abort = true ∧ ah.engine = .halted) := by
  unfold State.atPort; decide +kernel

theorem witness_DeviceReadWithoutNewOrder :
    let s : State := { live with nudge := 0x100 }
    s.atPort .deviceEntry ∧ orderSeq (s.readDeviceOrder []).1 = s.devSeq ∧ s.settled := by
  unfold State.atPort State.settled; decide +kernel

/-- For SET STATIC: pin 0 owned and selected; pin 0 owned and pin 23 selected. -/
theorem witness_DeviceOrderChecksInOrder :
    let s := owning live
    { State.reset with engine := .unset }.engine = .unset ∧ { live with engine := .halted }.engine = .halted ∧
    s.engine = .ready ∧ (∃ p : Fin 24, (1#32).getLsbD p.val = true ∧ s.owner[p].isSome) ∧
    (∀ p : Fin 24, (0x800000#32).getLsbD p.val = true → s.owner[p] = none) := by decide +kernel

/-- Codes 11 and 0; RAISE FLAG of flag 16. -/
theorem witness_DeviceOrderRefused :
    let u := commanded 11 0 0
    let v := commanded 0 0 0
    let w := commanded 5 16 0
    (u.atPort .deviceEntry ∧ orderSeq (u.readDeviceOrder []).1 ≠ u.devSeq ∧ 10 < orderCode (u.readDeviceOrder []).1) ∧
    (v.atPort .deviceEntry ∧ orderSeq (v.readDeviceOrder []).1 ≠ v.devSeq ∧ orderCode (v.readDeviceOrder []).1 = 0) ∧
    (w.atPort .deviceEntry ∧ deviceOrderOf (orderCode (w.readDeviceOrder []).1) = some .raiseFlag ∧
      w.deviceResult .raiseFlag (w.deviceArguments [] .raiseFlag).1 (w.deviceArguments [] .raiseFlag).2.1 = .badArg) := by
  unfold State.atPort; decide +kernel

theorem witness_ApplySetupAndSnapshotFound :
    (commanded 1 0 0).atPort .deviceEntry ∧ (commanded 1 0 0).findsDeviceOrder [] .applySetup = true ∧
    (commanded 2 0 0).atPort .deviceEntry ∧ (commanded 2 0 0).findsDeviceOrder [] .snapshot = true ∧
    (commanded 2 0 0).engine = .ready := by unfold State.atPort; decide +kernel

theorem witness_ClearMarksTaken :
    let s := commanded 3 0x80000001 0
    s.atPort .deviceEntry ∧ s.findsDeviceOrder [] .clearMarks = true ∧ s.engine = .ready := by
  unfold State.atPort; decide +kernel

theorem witness_SetStaticTaken :
    let s := owning (commanded 4 0xFFFFFF 0xFFFFFE)
    s.atPort .deviceEntry ∧ s.findsDeviceOrder [] .setStatic = true ∧ s.engine = .ready ∧
    ∀ p : Fin 24, (s.deviceArguments [] .setStatic).2.1.getLsbD p.val = true → s.owner[p] = none := by
  unfold State.atPort; decide +kernel

/-- In `s` an event of `t` fires lane 2; lane 1 waits on it too and is passed over, since a wait of it expired at this tick. -/
def firesSecond (s : State) (t : Trigger) : Prop :=
  s.chooses t 2 ∧ ¬ s.reaches t 1 ∧ (s.lane 1).standsOn t = true ∧ (s.lane 1).expiredOn = some t

/-- Lanes 1 and 2 wait with the copy `c`; a wait of lane 1 on its trigger expired at this tick. -/
def bothWait (s : State) (c : Copy) : State := lanePut (lanePut s 1 { waiting c with expiredOn := c.trigger }) 2 (waiting c)

/-- RAISE FLAG of flag 15 at pending counts 14 and 15, and with waiting lanes; DRAIN FLAG of flag 15. -/
theorem witness_FlagOrdersTaken :
    let s := (commanded 5 15 0).setSource 31 { claim := true, count := 14 }
    let t := (commanded 5 15 0).setSource 31 { claim := true, count := 15 }
    let u := commanded 6 15 0
    let w := bothWait (commanded 5 15 0) (copyOf 0x7B82 0x14007FF 7)
    (w.atPort .deviceEntry ∧ w.findsDeviceOrder [] .raiseFlag = true ∧ w.engine = .ready ∧
      (w.deviceArguments [] .raiseFlag).1.toNat = 15 ∧ firesSecond w (.source (flagSource 15))) ∧
    (s.atPort .deviceEntry ∧ s.findsDeviceOrder [] .raiseFlag = true ∧ s.engine = .ready ∧ s.settled ∧
      (s.deviceArguments [] .raiseFlag).1.toNat = 15 ∧ s.unwatched (.source (flagSource 15)) ∧
      (s.source (flagSource 15)).count < 15) ∧
    (t.atPort .deviceEntry ∧ t.findsDeviceOrder [] .raiseFlag = true ∧ t.settled ∧
      t.unwatched (.source (flagSource 15)) ∧ (t.source (flagSource 15)).count = 15) ∧
    (u.atPort .deviceEntry ∧ u.findsDeviceOrder [] .drainFlag = true ∧ u.engine = .ready ∧
      (u.deviceArguments [] .drainFlag).1.toNat = 15) := by
  unfold State.atPort State.settled State.unwatched firesSecond State.chooses State.precedes
  simp only [← waitsOn_iff]; decide +kernel

/-- BEAT START of beat 7 with periods 0, 2 and 16777215; BEAT STOP of beat 0. -/
theorem witness_BeatOrdersTaken :
    let s := commanded 7 7 0
    let t := commanded 7 7 2
    let u := commanded 7 7 16777215
    let v := commanded 8 0 0
    (s.atPort .deviceEntry ∧ s.beats[(7 : Fin 8)].owner = none ∧ s.findsDeviceOrder [] .beatStart = true ∧
      s.engine = .ready ∧ (s.deviceArguments [] .beatStart).1.toNat = 7 ∧
      (s.deviceArguments [] .beatStart).2.1.toNat = 0) ∧
    (t.atPort .deviceEntry ∧ t.findsDeviceOrder [] .beatStart = true ∧
      (t.deviceArguments [] .beatStart).2.1.toNat = 2) ∧
    (u.atPort .deviceEntry ∧ u.findsDeviceOrder [] .beatStart = true ∧
      (u.deviceArguments [] .beatStart).2.1.toNat = 16777215) ∧
    (v.atPort .deviceEntry ∧ v.beats[(0 : Fin 8)].owner = none ∧ v.findsDeviceOrder [] .beatStop = true ∧
      v.engine = .ready ∧ (v.deviceArguments [] .beatStop).1.toNat = 0) := by unfold State.atPort; decide +kernel

theorem witness_FlushLinkAndSetMasksTaken :
    let s := commanded 9 0 0
    let t := commanded 10 127 0
    (s.atPort .deviceEntry ∧ s.engine = .ready ∧ s.findsDeviceOrder [] .flushLink = true) ∧
    (t.atPort .deviceEntry ∧ t.engine = .ready ∧ t.findsDeviceOrder [] .setMasks = true ∧
      (t.deviceArguments [] .setMasks).1.toNat < 128) := by unfold State.atPort; decide +kernel

/-- In HALTED; with lane 7 not IDLE; with an empty setup block, whose first bad field is 98. -/
theorem witness_SetupRefused :
    let h : State := { settingUp with engine := .halted }
    let b : State := lanePut settingUp 7 { st := .faulted }
    let e : State := { settingUp with mem := [] }
    (h.atPort .setupRead ∧ h.devOut = .setup 1 ∧ h.engine = .halted) ∧
    (b.atPort .setupRead ∧ b.devOut = .setup 1 ∧ b.engine ≠ .halted ∧ ∃ n, (b.lane n).st ≠ .idle) ∧
    (e.atPort .setupRead ∧ e.devOut = .setup 1 ∧ e.engine ≠ .halted ∧ (∀ n, (e.lane n).st = .idle) ∧
      setupBadField (readSeq (List.range 128) [] e.mem).1 = some 98) := by unfold State.atPort; decide +kernel

theorem witness_SetupTaken :
    settingUp.atPort .setupRead ∧ settingUp.devOut = .setup 1 ∧ settingUp.engine = .unset ∧
    (∀ n, (settingUp.lane n).st = .idle) ∧ setupBadField (readSeq (List.range 128) [] settingUp.mem).1 = none := by
  unfold State.atPort; decide +kernel

/-- One witness for each requester: the write-back queue, the setup read, lane 7's entry, the device entry, a lean lane
before another, a status item, nothing. -/
theorem witness_PortGrantOrder :
    let full := fullQueue live
    let setup : State := { live with devOut := .setup 1 }
    let entry : State := { live with nudge := 0x180 }
    let device : State := { live with nudge := 0x100 }
    let lean := lanePut (lanePut live 6 { fetching 0 [] with fetch := none }) 7 { fetching 0 [] with fetch := none }
    let item : State := { live with marks := 0x80000 }
    (full.port = none ∧ full.engine ≠ .clearing ∧ full.wbq ≠ []) ∧
    (setup.port = none ∧ setup.wbq = [] ∧ setup.devOut = .setup 1) ∧
    (entry.port = none ∧ entry.nudge.getLsbD 7 = true ∧ (entry.lane 7).owed = [] ∧
      (∀ m : LaneId, m < 7 → entry.nudge.getLsbD m.val = true → (entry.lane m).owed ≠ [])) ∧
    (device.port = none ∧ (∀ n : LaneId, device.nudge.getLsbD n.val = true → (device.lane n).owed ≠ []) ∧
      device.nudge.getLsbD 8 = true ∧ device.devOut = .none_ ∧ 0 < device.room) ∧
    (lean.port = none ∧ lean.nudge.getLsbD 8 = false ∧ 0 < lean.room ∧ (lean.lane 6).wantsCue = true ∧
      (lean.lane 6).lean = true ∧ (∀ m, (lean.lane m).wantsTail = false) ∧
      (∀ m, (lean.lane m).wantsCue = true → m = 6 ∨ m = 7)) ∧
    (item.port = none ∧ item.wbq = [] ∧ item.devOut = .none_ ∧ item.nudge = 0 ∧ item.marks ≠ 0#20 ∧
      (∀ m, (item.lane m).wantsTail = false ∧ (item.lane m).wantsCue = false)) := by decide +kernel

theorem witness_GrantBeginsTransaction :
    let retry := lanePut live 0 (fetching 2 [])
    let reread := lanePut live 0 { st := .held, pause := Pause.notReady, reread := true, follow := 3, watch := 3 }
    let tail := lanePut live 0 { st := .held, pause := Pause.atEnd, reread := true, watch := 3 }
    (fullQueue live).portChoice = some .writeBack ∧
    { live with nudge := 0x180 }.portChoice = some (.laneEntry 7) ∧
    { live with nudge := 0x100 }.portChoice = some .deviceEntry ∧
    { live with devOut := .setup 1 }.portChoice = some .setupRead ∧
    retry.portChoice = some (.cueFetch 0) ∧ reread.portChoice = some (.cueFetch 0) ∧
    tail.portChoice = some (.tailReread 0) ∧
    { live with marks := 0x80001, statusPos := 19 }.portChoice = some .statusItem := by decide +kernel

/-- Overtaken; HOST and SPENT; TAKEN by this lane with a KEEP copy, with another copy, with none and its end queued or
not; TAKEN by another lane; VOID and an invalid state. -/
theorem witness_CueFetchOfUnarmedSlot :
    let l := fetching 1 []
    let gone : State := { fetchState { l with fetch := none } 0 with port := some (.cueFetch 0 true) }
    let empty := fetchState { l with st := .priming } 4
    let kept := fetchState (fetching 1 [.copy { pulseCopy with head := 0x40382 }]) 2
    let own := fetchState (fetching 1 [.copy pulseCopy]) 2
    let ending : State := { fetchState l 2 with wbq := [{ owner := some 0, kind := .return_ 3, writes := [] }] }
    let ready := fun s : State => s.atPort (.cueFetch 0) ∧ s.settled ∧ (s.granted (.cueFetch 0)).port = some (.cueFetch 0 false)
    let head := fun s : State => (readSeq [slotWord 3] [] s.mem).1.getD 0 0
    (gone.settled ∧ gone.port = some (.cueFetch 0 true)) ∧
    (ready empty ∧ recordState (head empty) = .void ∧ (empty.lane 0).queue = [] ∧ (empty.lane 0).cur = none ∧
      (empty.lane 0).st = .priming) ∧
    (ready (fetchState l 0) ∧ recordState (head (fetchState l 0)) = .host) ∧
    (ready (fetchState l 3) ∧ recordState (head (fetchState l 3)) = .spent) ∧
    (ready kept ∧ recordState (head kept) = .taken ∧ headTaker (head kept) = 0 ∧
      (kept.lane 0).latestCopy 3 = some { pulseCopy with head := 0x40382 } ∧ (kept.lane 0).queue ≠ []) ∧
    (ready own ∧ recordState (head own) = .taken ∧ (own.lane 0).latestCopy 3 = some pulseCopy ∧
      pulseCopy.isKeep = false) ∧
    (ready ending ∧ (ending.lane 0).latestCopy 3 = none ∧ ∃ e ∈ ending.wbq, e.owner = some 0 ∧ e.kind = .return_ 3) ∧
    (ready (fetchState l 2) ∧ ((fetchState l 2).lane 0).latestCopy 3 = none ∧ (fetchState l 2).wbq = [] ∧
      ((fetchState l 2).lane 0).st = .held ∧ ((fetchState l 2).lane 0).cur = none) ∧
    (ready (fetchState l 0x3A) ∧ recordState (head (fetchState l 0x3A)) = .taken ∧ headTaker (head (fetchState l 0x3A)) ≠ 0) ∧
    (ready (fetchState l 4) ∧ recordState (head (fetchState l 4)) = .void) ∧
    (ready (fetchState l 7) ∧ recordState (head (fetchState l 7)) = .invalid) := by
  unfold State.atPort State.settled; dsimp only; and_intros <;> decide +kernel

/-- The place an overtaken fetch had reserved goes to the write another lane owes (R144, R146): a state that is not settled. -/
theorem test_released_place_goes_to_an_owed_write :
    let e : WriteBack := { owner := some 2, kind := .resumeSlot, writes := [(131, 1)] }
    let s : State := { lanePut live 2 { owed := [e] } with port := some (.cueFetch 0 true), wbq := List.replicate 15 e }
    let t : State := { s with port := some (.tailReread 0 true), wbq := List.replicate 15 e }
    (s.room = 0 ∧ (s.lane 2).owed = [e]) ∧
    runs (.cueFetch 0 .done []) s (fun u => u.wbq.length == 16 && (u.lane 2).owed == [] && u.port.isNone) = true ∧
    runs (.tailReread 0 .done []) t (fun u => u.wbq.length == 16 && (u.lane 2).owed == []) = true := by decide +kernel

/-- The eight void reasons of R18, each at a boundary, and the lowest of two: source kind 5, FLAG 16 and LINK 63; next 992
and 1022; a pin of no lane; an empty mask, a mask for MARK, a pulse width 0 and NOW with a repeat; a beat of no lane; a
spare bit; FINAL with KEEP; send code 63; next 1023 and 991 valid. -/
theorem test_void_reasons :
    let s := owning live
    let c : Copy := { oneShot with head := 0x381 }
    s.voidReason 0 { c with head := 0x581 } = some 1 ∧ s.voidReason 0 { c with head := 0x8381 } = some 1 ∧
    s.voidReason 0 { c with head := 0x1FC81, w1 := 992 } = some 1 ∧
    s.voidReason 0 { c with w1 := 0x14003E0 } = some 2 ∧ s.voidReason 0 { c with w1 := 0x14003FE } = some 2 ∧
    s.voidReason 0 { c with w3 := 2 } = some 3 ∧ s.voidReason 0 { c with w3 := 0 } = some 4 ∧
    s.voidReason 0 { c with head := 0x3C1 } = some 4 ∧ s.voidReason 0 { c with w1 := 0x3FF } = some 4 ∧
    s.voidReason 0 { c with head := 0x081, w1 := 0x14007FF } = some 4 ∧
    s.voidReason 0 { c with w3 := 0x2000001 } = some 5 ∧ s.voidReason 0 { c with w5 := 0x40000000 } = some 6 ∧
    s.voidReason 0 { c with head := 0x60381 } = some 7 ∧ s.voidReason 0 { c with w4 := 0x1000007, w5 := 0x3F000000 } = some 8 ∧
    s.voidReason 0 c = none ∧ s.voidReason 0 { c with w1 := 0x14003DF } = none := by decide +kernel

/-- A valid record; a record with FINAL and KEEP, void reason 7; headers that differ at attempts 2 and 3. -/
theorem witness_CueFetchOfArmedSlot :
    let words := fun (ws : Between) (s : State) => (readSeq [280, 281, 282, 283, 284, 285, 280] ws s.mem).1
    let late : Between := [[], [], [], [], [], [], [⟨0x460, 0⟩]]
    let good := fetchState (fetching 1 []) 0x381
    let bad := fetchState (fetching 1 []) 0x60381
    let empty := fetchState { fetching 1 [] with st := .starved } 0x60381
    let two := fetchState (fetching 2 []) 0x381
    let three := fetchState (fetching 3 []) 0x381
    let copy : Copy := { oneShot with head := 0x381 }
    let ready := fun s : State => s.atPort (.cueFetch 0) ∧ s.settled ∧ (s.granted (.cueFetch 0)).port = some (.cueFetch 0 false)
    (ready good ∧ words [] good = [0x381, 0x14003FF, 1, 1, 7, 0, 0x381] ∧ recordState 0x381 = .armed ∧
      good.voidReason 0 copy = none ∧ (good.lane 0).st = .held ∧ (good.lane 0).cur = none) ∧
    (ready empty ∧ words [] empty = words [] bad ∧ empty.voidReason 0 { copy with head := 0x60381 } = some 7 ∧
      (empty.lane 0).queue = [] ∧ (empty.lane 0).cur = none ∧ (empty.lane 0).st = .starved) ∧
    (ready bad ∧ words [] bad = [0x60381, 0x14003FF, 1, 1, 7, 0, 0x60381] ∧ recordState 0x60381 = .armed ∧
      bad.voidReason 0 { copy with head := 0x60381 } = some 7) ∧
    (ready two ∧ words late two = [0x381, 0x14003FF, 1, 1, 7, 0, 0] ∧ (two.lane 0).fetch = some ⟨.cue, 3, 2⟩) ∧
    (ready three ∧ words late three = [0x381, 0x14003FF, 1, 1, 7, 0, 0] ∧ (three.lane 0).fetch = some ⟨.cue, 3, 3⟩) := by
  unfold State.atPort State.settled; dsimp only; decide +kernel

/-- A wait that finds its trigger at once: NOW; a CLAIM count of 1; a SHARE event at the gap start and the last tick of
the gap, with and without LATE-FAULT; a queued link code behind another. -/
theorem witness_FirstCopyBegins_at_once :
    let c := fun head : Word => copyOf head 0x14007FF 7
    let l := fun head : Word => ({ waiting (c head) with cur := some {}, gapStart := 5 } : Lane)
    let s := fun head : Word => lanePut { live with timebase := 9, link := { rxq := [⟨1, 2⟩, ⟨4, 3⟩] } } 0 (l head)
    let at_ := fun head : Word => ((s head).lane 0).queue = [.copy (c head)] ∧ ((s head).lane 0).cur = some {} ∧
      0 < (c head).required ∧ (c head).isFresh = false
    ((lanePut live 0 (fetching 1 [.copy oneShot])).lane 0).cur = none ∧
    (at_ 0x82 ∧ (c 0x82).trigger = some .now) ∧
    (at_ 0x382 ∧ (c 0x382).trigger = some (.source 16) ∧
      0 < (((s 0x382).setSource 16 { claim := true, count := 1 }).source 16).count) ∧
    (at_ 0x182 ∧ (c 0x182).trigger = some (.source 0) ∧ (c 0x182).lateFault = false ∧ ((s 0x182).source 0).claim = false ∧
      (5#32 - 5#32).toNat < 2 ^ 31 ∧ (0x80000004#32 - 5#32).toNat < 2 ^ 31 ∧ ((s 0x182).lane 0).gapEvent ≠ some (0, 5)) ∧
    (at_ 0x200182 ∧ (c 0x200182).trigger = some (.source 0) ∧ (c 0x200182).lateFault = true) ∧
    (at_ 0x2482 ∧ (c 0x2482).trigger = some (.link 4) ∧ (s 0x2482).link.rxq = [⟨1, 2⟩] ++ ⟨4, 3⟩ :: []) := by
  dsimp only; decide +kernel

/-- A first copy whose flag is pending fires in the event of its fetch; one whose source had an event in the gap, with
LATE-FAULT, faults the lane (R57, R58). -/
theorem test_first_copy_fires_on_its_fetch :
    let s := fetchState { fetching 1 [] with st := .priming } 0x381
    let late := fetchState { fetching 1 [] with st := .priming } 0x200181
    runs (.cueFetch 0 .done []) (s.setSource 16 { claim := true, count := 1 }) (fun t => t.out == 1 &&
      (t.lane 0).cur.map Firing.fires == some 1 && (t.source 16).count == 0) = true ∧
    runs (.cueFetch 0 .done []) (late.setSource 0 { last := some 0 }) (fun t => (t.lane 0).st == .faulted &&
      (t.lane 0).faultCode == some .late && t.wbq.map WriteBack.kind ==
        [.taken 3, .result 3 .faulted true, .resumeSlot]) = true := by decide +kernel

/-- A copy that waits, and one that fires at once. -/
theorem witness_FirstCopyBegins :
    let s := fetchState { fetching 1 [] with st := .priming } 0x381
    let c : Copy := { oneShot with head := 0x381 }
    let ready := s.setSource 16 { claim := true, count := 1 }
    (ready.atPort (.cueFetch 0) ∧ ready.settled ∧ ready.voidReason 0 c = none ∧ (ready.lane 0).st = .priming ∧
      c.trigger = some (.source 16) ∧ 0 < (ready.source 16).count) ∧
    (s.atPort (.cueFetch 0) ∧ s.settled ∧ ((s.granted (.cueFetch 0)).lane 0).fetch = some ⟨.cue, 3, 1⟩ ∧
      (s.granted (.cueFetch 0)).port = some (.cueFetch 0 false) ∧
      (readSeq [280, 281, 282, 283, 284, 285, 280] [] s.mem).1 = [0x381, 0x14003FF, 1, 1, 7, 0, 0x381] ∧
      recordState c.head = .armed ∧ s.voidReason 0 c = none ∧ (s.lane 0).queue = [] ∧ (s.lane 0).cur = none ∧
      (s.lane 0).st = .priming) ∧ s.nothingToTake (s.lane 0) c := by
  refine ⟨by unfold State.atPort State.settled; decide +kernel, by unfold State.atPort State.settled; decide +kernel, ?_⟩
  exact Or.inl ⟨16, by decide +kernel, Or.inr (Or.inl ⟨by decide +kernel, by decide +kernel⟩)⟩

/-- An overtaken re-read; a marker at the head; an empty queue in PRIMING. Next links 991 and END of a SPENT tail, 992; a HOST tail; headers that differ at attempts 2 and 3. -/
theorem witness_TailRereadOutcomes :
    let words := fun (ws : Between) (s : State) => (readSeq [280, 281, 280] ws s.mem).1
    let late : Between := [[], [], [⟨0x460, 0⟩]]
    let ready := fun (k : Nat) (s : State) => s.atPort (.tailReread 0) ∧ s.settled ∧
      ((s.granted (.tailReread 0)).lane 0).fetch = some ⟨.tail, 3, k⟩ ∧
      (s.granted (.tailReread 0)).port = some (.tailReread 0 false)
    let gone : State := { live with port := some (.tailReread 0 true) }
    let head := lanePut live 0 { st := .running, queue := [.marker .torn 5, .copy oneShot] }
    let empty : State := { rereading 1 0 5 with
      lanes := live.lanes.set 0 { (rereading 1 0 5).lane 0 with st := .starved } }
    (gone.settled ∧ gone.port = some (.tailReread 0 true)) ∧
    ((head.lane 0).cur = none ∧ (head.lane 0).queue = .marker .torn 5 :: [.copy oneShot]) ∧
    (ready 1 empty ∧ words [] empty = [0, 5, 0] ∧ (empty.lane 0).queue = [] ∧ (empty.lane 0).cur = none ∧
      (empty.lane 0).st = .starved) ∧
    (ready 1 (rereading 1 3 991) ∧ words [] (rereading 1 3 991) = [3, 991, 3] ∧ recordState 3 = .spent) ∧
    (ready 1 (rereading 1 3 1023) ∧ words [] (rereading 1 3 1023) = [3, 1023, 3]) ∧
    (ready 1 (rereading 1 3 992) ∧ words [] (rereading 1 3 992) = [3, 992, 3]) ∧
    (ready 1 (rereading 1 0 5) ∧ words [] (rereading 1 0 5) = [0, 5, 0] ∧ recordState 0 = .host) ∧
    (ready 2 (rereading 2 3 5) ∧ words late (rereading 2 3 5) = [3, 5, 0]) ∧
    (ready 3 (rereading 3 3 5) ∧ words late (rereading 3 3 5) = [3, 5, 0]) := by
  unfold State.atPort State.settled; dsimp only; and_intros <;> decide +kernel

/-- Room of one place for owed writes of two lanes, the URGENT one first; for a cue in completion pending; a lane that can
go on, with room and without; and two words left of an entry, at its first word and at its second. -/
theorem witness_WriteBackLands_follow :
    let e : WriteBack := { owner := some 2, kind := .resumeSlot, writes := [(131, 1), (130, 2), (129, 3)] }
    let owes : State := lanePut (lanePut { live with laneUrgent := 0x80 } 2 { owed := [e] }) 7 { owed := [e, e] }
    let pends : State := lanePut live 0 { waiting oneShot with cur := some { ended := some { outcome := .done, stamp := 4, pass := 1 } } }
    let goes : State := lanePut live 0 { waiting oneShot with cur := some { fires := 1 } }
    let first : State := { live with wbq := [e] }
    let second : State := { first with port := some (.writeBack 1) }
    (0 < owes.room ∧ (owes.lane 7).owed = e :: [e] ∧ ∀ m, (owes.lane m).owed ≠ [] → owes.precedes 7 m) ∧
    (0 < pends.room ∧ (∀ m, (pends.lane m).owed = []) ∧ (pends.lane 0).pendsFree = true ∧
      ∀ m, (pends.lane m).pendsFree = true → pends.precedes 0 m) ∧
    ((goes.lane 0).canGo = true ∧ (fullQueue goes).room = 0 ∧ live.settled) ∧
    (first.atPort .writeBack ∧ (first.granted .writeBack).port = some (.writeBack 0) ∧
      e.writes.drop 0 = (131, 1) :: (130, 2) :: [(129, 3)]) ∧
    (second.atPort .writeBack ∧ (second.granted .writeBack).port = some (.writeBack 1) ∧
      e.writes.drop 1 = (130, 2) :: (129, 3) :: []) := by
  unfold State.atPort State.settled State.precedes; dsimp only; and_intros <;> decide +kernel

theorem witness_WriteBackLands :
    let s := fun k : EntryKind => ({ live with wbq := [{ owner := some 0, kind := k, writes := [(8191, 5)] }] } : State)
    (∀ k, k = EntryKind.result 3 .done true ∨ k = .result 3 .done false ∨ k = .return_ 3 ∨ k = .deviceAnswer ∨
        k = .taken 3 ∨ k = .laneAnswer → (s k).atPort .writeBack ∧ (s k).settled) ∧
    (8191 < 8192 ∧ Memory.wf live.mem = true) := by
  refine ⟨?_, by decide +kernel⟩
  rintro k (rfl | rfl | rfl | rfl | rfl | rfl) <;> unfold State.atPort State.settled <;> decide +kernel

/-- A pause OWN-COPY at the slot of the landing: with no other ending of it queued, with one queued, with one owed, with a
copy staged. -/
theorem witness_WriteBackLands_ownCopy :
    let w : WriteBack := { owner := some 0, kind := .result 3 .done true, writes := [(280, 1)] }
    let l : Lane := { st := .held, pause := .ownCopy, watch := 3 }
    let s := fun (k : Lane) (q : List WriteBack) => ({ lanePut live 0 k with wbq := w :: q } : State)
    let meets := fun (k : Lane) (q : List WriteBack) => (s k q).atPort .writeBack ∧ (s k q).wbq = w :: q ∧
      ((s k q).granted .writeBack).port = some (.writeBack 0) ∧ ((s k q).lane 0).pause = .ownCopy ∧
      ((s k q).lane 0).watch = 3
    let last := fun (k : Lane) (q : List WriteBack) => ((s k q).lane 0).latestCopy 3 = none ∧
      (q ++ ((s k q).lane 0).owed).all (fun x => match x.kind with
        | .result j _ true => decide (x.owner ≠ some 0 ∨ j ≠ 3)
        | .return_ j => decide (x.owner ≠ some 0 ∨ j ≠ 3)
        | _ => true) = true
    (meets l [] ∧ last l []) ∧ (meets l [{ w with kind := .return_ 3 }] ∧ ¬ last l [{ w with kind := .return_ 3 }]) ∧
    (meets { l with owed := [w] } [] ∧ ¬ last { l with owed := [w] } []) ∧
    (meets { l with queue := [.copy oneShot] } [] ∧ ¬ last { l with queue := [.copy oneShot] } []) := by
  unfold State.atPort; dsimp only; decide +kernel

/-- The last item of a snapshot, and one that is not the last; the first of two words, and of three. -/
theorem witness_StatusItemWritten :
    let s : State := { live with port := some (.statusItem 19 [7] 0), snapSet := 0x80000, devOut := .snapshot 9 }
    let two : State := { live with port := some (.statusItem 9 [7, 8] 0) }
    (s.atPort .statusItem ∧ (s.granted .statusItem).port = some (.statusItem 19 [7] 0) ∧ s.devOut = .snapshot 9 ∧
      s.snapSet &&& ~~~0x80000#20 = 0#20) ∧ (0x80001#20 &&& ~~~0x80000#20) ≠ 0#20 ∧
    (two.atPort .statusItem ∧ (itemWrites 9 [7, 8]).drop 0 = (225, 7) :: (226, 8) :: []) ∧
    (itemWrites 7 [1, 2, 3]).drop 1 = (222, 2) :: (223, 3) :: [] ∧
    ((live.lane 7).queue.length ≤ 4 ∧ (live.lane 7).cur = none) ∧ LinkQueuesOk live ∧ CountsOk live := by
  unfold State.atPort LinkQueuesOk CountsOk; decide +kernel

theorem witness_CueEntryWords : 1 ≤ 1 ∧ 8 ≤ 8 ∧ ({ fires := 4096 } : Firing).fires ≤ 4096 ∧ 10 ≤ 10 := by decide

/-- Beat 0 with no waiter; with lane 0 in a wait on it, SHARE and CLAIM; with a pulse, and with a SET that waits again. -/
theorem witness_BeatExpiryDelivered :
    let pulse : Copy := { pulseCopy with head := 0x182 }
    let set : Copy := { pulseCopy with head := 0x102 }
    let beat : State := { live with beats := live.beats.set 0 { running := true, every := true } }
    let shared := fun c : Copy => lanePut beat 0 (waiting c)
    let claimed := fun c : Copy => (shared c).setSource 0 { claim := true }
    let ready := fun s : State => s.engine = .ready ∧ s.beats[(0 : Fin 8)].running = true ∧ s.beats[(0 : Fin 8)].left = 0 ∧
      s.settled
    let waits := fun s : State => (s.lane 0).waitsOn (.source 0) = true ∧
      ∀ m, (s.lane m).waitsOn (.source 0) = true → m = 0
    (ready beat ∧ beat.unwatched (.source (beatSource 0))) ∧
    (∀ m, (beat.lane m).expiredOn = none ∧ ((claimed set).lane m).expiredOn = none) ∧
    (ready (shared pulse) ∧ waits (shared pulse) ∧ pulse.action = .pulse ∧ ((shared pulse).source 0).claim = false) ∧
    (ready (claimed pulse) ∧ waits (claimed pulse) ∧ ((claimed pulse).source 0).claim = true) ∧
    (ready (shared set) ∧ waits (shared set) ∧ set.action ≠ .pulse ∧ 0 + 1 < set.required) ∧
    (ready (claimed set) ∧ waits (claimed set) ∧ ((claimed set).source 0).count = 0) := by
  unfold State.settled State.unwatched; dsimp only; decide +kernel

/-- Two waiters of a SHARE beat, one in its last wait: the event fires both (R79). -/
theorem test_share_event_fires_every_waiter :
    let c : Copy := { pulseCopy with head := 0x182 }
    let last : Copy := { c with head := 0x102, w1 := 0x3FF }
    let s : State := lanePut (lanePut { live with beats := live.beats.set 0 { running := true } } 0 (waiting c)) 1
      (waiting last)
    runs (.beatExpiry 0) s (fun t => (t.lane 0).cur.map Firing.fires == some 1 && (t.lane 1).st == .starved &&
      t.wbq.map WriteBack.owner == [some 1]) = true := by decide +kernel

theorem witness_PulseEndRestoresPins :
    let held := lanePut live 0 { pulsing pulseCopy with st := .held }
    let running := lanePut live 0 (pulsing pulseCopy)
    (held.engine = .ready ∧ held.settled ∧ (held.lane 0).queue = [.copy pulseCopy] ∧ (held.lane 0).st = .held ∧
      (held.lane 0).cur = some { fires := 1, pulse := some { endTick := 0, restore := 0 } } ∧ held.timebase = 0 ∧
      1 < pulseCopy.required) ∧
    (running.engine = .ready ∧ running.settled ∧ (running.lane 0).st = .running) ∧
    running.nothingToTake (running.lane 0) pulseCopy := by
  refine ⟨by unfold State.settled; decide +kernel, by unfold State.settled; decide +kernel, ?_⟩
  exact Or.inl ⟨16, by decide +kernel, Or.inr (Or.inl ⟨by decide +kernel, by decide +kernel⟩)⟩

theorem witness_PulseEndCompletesCue :
    let ready := fun (s : State) (c : Copy) => s.engine = .ready ∧ s.settled ∧ (s.lane 0).queue = [.copy c] ∧
      (s.lane 0).cur = some { fires := 1, pulse := some { endTick := 0, restore := 0 } } ∧ s.timebase = 0 ∧
      c.required ≤ 1 ∧ (s.lane 0).st = .running
    (ready (lanePut live 0 (pulsing oneShot)) oneShot ∧ 0 < (lanePut live 0 (pulsing oneShot)).room ∧
      oneShot.isFinal = false) ∧
    (ready (lanePut live 0 (pulsing finalShot)) finalShot ∧ finalShot.isFinal = true) ∧
    (ready (fullQueue (lanePut live 0 (pulsing oneShot))) oneShot ∧
      (fullQueue (lanePut live 0 (pulsing oneShot))).room = 0) ∧
    (oneShot.raiseFlag = none ∧ oneShot.sendGroup = none ∧ oneShot.beatAction = .none_ ∧ oneShot.hasNote = false) := by
  unfold State.settled; dsimp only; decide +kernel

/-- A completion with every post action, its code queued and lost; a cue in completion pending that is FINAL, in STOPPING, in
HELD, with an entry behind, with none. -/
theorem witness_PulseEndCompletesCue_posts :
    let c : Copy := { oneShot with head := 0x80382, w2 := 0x1F000001, w3 := 0x1D000001, w4 := 0x3000007, w5 := 0x5000009 }
    let s := lanePut live 0 { waiting c with cur := some { fires := 1 } }
    let on : State := { s with link := { plan := { enabled := true }, txq := List.replicate 7 ⟨1, 1⟩ } }
    let pend := fun (st : LaneState) (c : Copy) (q : List Entry) => lanePut live 0 { waiting c with
      st := st, queue := .copy c :: q, cur := some { ended := some { outcome := .done, stamp := 4, pass := 1 } } }
    (s.engine = .ready ∧ (s.lane 0).cur = some { fires := 1 } ∧ c.required ≤ 1 ∧ c.raiseFlag = some 15 ∧
      c.sendGroup = some 1 ∧ c.beatAction = .start ∧ c.hasNote = true) ∧
    (s.link.plan.enabled = false ∧ on.link.plan.enabled = true ∧ on.link.txq.length < 8) ∧
    (((pend .running finalShot []).lane 0).cur = some { ended := some { outcome := .done, stamp := 4, pass := 1 } } ∧
      finalShot.isFinal = true) ∧
    ((pend .stopping oneShot []).lane 0).st = .stopping ∧ ((pend .held oneShot []).lane 0).st = .held ∧
    ((pend .running oneShot [.copy oneShot]).lane 0).queue = .copy oneShot :: [.copy oneShot] ∧
    ((pend .running oneShot []).lane 0).queue = [.copy oneShot] := by dsimp only; decide +kernel

/-- The post actions of one completion: flag 15 counted, code 5 lost, NOTE raised, the mark in the result. -/
theorem test_post_actions :
    let c : Copy := { oneShot with head := 0x80382, w2 := 0x1F000001, w3 := 0x1D000001, w4 := 0x3000007, w5 := 0x5000009 }
    runs (.pulseEnd 0) (lanePut live 0 (pulsing c)) (fun t => (t.source 31).count == 1 && t.link.txLost == 1 &&
      t.att.isPending (.note 0) && t.att.isPending .linkError && t.beats[7].left == 9 && t.wbq.map WriteBack.kind ==
        [.result 3 .done true]) = true := by decide +kernel

theorem witness_WaitLimitExpires :
    let l := fun c : Copy => { waiting c with cur := some { waiting := true, limit := .counting 0 } }
    let fault : Copy := { oneShot with head := 0x400382 }
    let ready := fun (s : State) (c : Copy) => s.engine = .ready ∧ s.settled ∧ (s.lane 0).queue = [.copy c] ∧
      (s.lane 0).cur = some { waiting := true, limit := .counting 0 }
    (ready (fullQueue (lanePut live 0 (l oneShot))) oneShot ∧ oneShot.expiryFault = false ∧
      (fullQueue (lanePut live 0 (l oneShot))).room = 0) ∧
    (ready (lanePut live 0 (l oneShot)) oneShot ∧ 0 < (lanePut live 0 (l oneShot)).room ∧ oneShot.isFinal = false ∧
      ((lanePut live 0 (l oneShot)).lane 0).st = .running) ∧
    ((lanePut live 0 { l oneShot with expiredOn := some (.source 16) }).lane 0).expiredOn = some (.source 16) ∧
    (l oneShot).standsOn (.source 16) = true ∧
    (ready (lanePut live 0 (l fault)) fault ∧ fault.expiryFault = true) := by unfold State.settled; dsimp only; decide +kernel

/-- Lane 0 paused AT-END and NOT-READY; with a re-read of its NOT-READY slot in flight and pause NONE; with interval 0. -/
theorem witness_RevisitExpires :
    let s : Pause → Byte → State := fun p k => lanePut live 0 { pausedAt p with revisit := some 0, interval := k }
    (∀ p : Fin 3, let t := s ([.atEnd, .notReady, .open_].getD p.val .open_) 255
      t.engine = .ready ∧ (t.lane 0).revisit = some 0 ∧ (t.lane 0).st = .running) ∧
    ((s .open_ 0).lane 0).revisit = some 0 ∧ ((s .open_ 0).lane 0).interval = 0#8 := by decide +kernel

/-- A line that reads its level; one that counts; one that recognises a change without an edge, with an edge, with an edge
that lanes wait on, SHARE and CLAIM, and with a guard trip in READY and in HALTED. -/
theorem witness_InputSampleFiltered :
    let line := fun (l : InputLine) => ({ live with inputs := live.inputs.set 7 l } : State)
    let quiet : InputLine := { filter := 4, left := some 0 }
    let off : InputLine := { filter := 4, agree := 3, left := some 0 }
    let rise : InputLine := { off with edge := .rise }
    let guard : InputLine := { off with edge := .both, guard := true }
    let halted : State := { line guard with engine := .halted }
    let heard := bothWait (line rise) (copyOf 0x3A82 0x14007FF 7)
    let claimed := heard.setSource 15 { claim := true }
    (heard.engine = .ready ∧ heard.inputs[(7 : Fin 8)] = rise ∧ (heard.source (edgeSource 7)).claim = false ∧
      firesSecond heard (.source (edgeSource 7))) ∧
    ((claimed.source (edgeSource 7)).claim = true ∧ firesSecond claimed (.source (edgeSource 7))) ∧
    ((line quiet).engine = .ready ∧ (line quiet).inputs[(7 : Fin 8)].left = some 0 ∧ quiet.level = false ∧
      quiet.agree + 1 ≠ quiet.filter) ∧
    (off.agree + 1 = off.filter ∧ off.edge = .off) ∧
    (rise.edge = .rise ∧ rise.guard = false ∧ (line rise).settled ∧ (line rise).unwatched (.source (edgeSource 7))) ∧
    (guard.guard = true ∧ (line guard).engine = .ready) ∧
    (halted.engine = .halted ∧ halted.inputs[(7 : Fin 8)].left = some 0) := by
  unfold State.settled State.unwatched firesSecond State.chooses State.precedes
  simp only [← waitsOn_iff]; decide +kernel

/-- A low stop bit; a wrong parity bit; another group; a code that lanes wait on; a queued code with room and without; the stop code not obeyed, and
obeyed in READY and in HALTED. -/
theorem witness_FrameJudged :
    let link : LinkPort := { rx := .frame true, plan := { parity := .even, group := 1 } }
    let s : State := { live with link := link }
    let heard := bothWait s (copyOf 0x2C82 0x14007FF 7)
    let full : State := { live with link := { link with rxq := List.replicate 8 ⟨0, 0⟩ } }
    let obeys : State := { live with link := { link with plan := { parity := .odd, obey := true } } }
    (s.link.rx = .frame true ∧ s.link.plan.parity = .even ∧ (0x01#8).extractLsb' 6 2 ≠ s.link.plan.group ∧
      (0x01#8).extractLsb' 6 2 ≠ 3#2) ∧
    (heard.link.rx = .frame true ∧ firesSecond (heard.withLink { link with rx := .hunt }) (.link 5)) ∧
    ((0xC5#8).extractLsb' 6 2 = 3#2 ∧ (0xC5#8).extractLsb' 0 6 ≠ 63#6 ∧ s.settled ∧ s.unwatched (.link 5) ∧
      s.link.rxq.length < 8) ∧
    (full.link.rx = .frame true ∧ full.settled ∧ full.unwatched (.link 5) ∧ 8 ≤ full.link.rxq.length) ∧
    ((0xFF#8).extractLsb' 0 6 = 63#6 ∧ s.link.plan.obey = false ∧ obeys.link.plan.obey = true ∧
      obeys.link.rx = .frame true ∧ obeys.engine = .ready) ∧
    ({ obeys with engine := .halted }.engine = .halted) := by
  unfold State.settled State.unwatched firesSecond State.chooses State.precedes
  simp only [← waitsOn_iff]; decide +kernel

theorem witness_FrameSentAndReceiverStates :
    let link : LinkPort := { plan := { enabled := true }, sending := some 1, txq := [⟨5, 3⟩] }
    (link.sending = some 1 ∧ link.plan.enabled = true ∧ link.relayPending = false ∧ link.txq = [⟨5, 3⟩] ∧
      live.engine = .ready) ∧ { link with relayPending := true }.relayPending = true ∧
    ({ rx := .waitHigh } : LinkPort).rx = .waitHigh ∧ ({ rx := .hunt } : LinkPort).rx = .hunt ∧
    ({ rx := .frame false } : LinkPort).rx = .frame false := by decide +kernel

/-- A state with something in every bounded part, and a step from it. -/
theorem witness_EveryStep :
    let s : State := { fullQueue (lanePut live 0 (waiting oneShot)) with mem := memOf [(8191, 5)] }
    Memory.wf s.mem = true ∧ runs (.writeBackLanding .done []) s (fun _ => true) = true ∧
    (s.wbq.length + s.reserved ≤ Config.writeBackPlaces ∧ s.port ≠ some .deviceEntry) ∧
    (∀ n, (s.lane n).queue.length ≤ Config.stagingPlaces ∧ (s.lane n).fetch.isSome = false) ∧
    (s.link.rxq.length ≤ Config.linkPlaces ∧ s.link.txq.length ≤ Config.linkPlaces) ∧
    (∀ i, (s.source i).count ≤ Config.maxPending) ∧ s.att.inService = [] := by decide +kernel

/-- Lanes at the bound of the writes owed: five entries to come and an order answer owed; six owed in FAULTED; three owed in
IDLE while its entry is read. -/
theorem witness_EveryStepKeepsBounds_owed :
    let e : WriteBack := { owner := some 0, kind := .laneAnswer, writes := [] }
    let q : List Entry := List.replicate 4 (.copy oneShot)
    let s : State := lanePut (lanePut (lanePut { live with port := some (.laneEntry 2) } 0
      { waiting oneShot with queue := q, owed := [e] }) 1 { st := .faulted, owed := List.replicate 6 e }) 2
      { owed := [e, e, e] }
    OwedOk s := by
  unfold OwedOk Lane.owesWithin Lane.atRest Lane.mayOwe State.answerDue State.fetching; decide +kernel

/-- The premise of EveryStepKeepsPinLevels in READY and after power-on. -/
theorem witness_EveryStepKeepsPinLevels :
    let s := lanePut live 0 (waiting oneShot)
    PinsOk s ∧ PinsOk State.reset := by unfold PinsOk Lane.atRest; decide +kernel

end Sys2Proof.Tests
end

section
/-! SUPPORT. RELEASE (R120, R172): the pins some lane owns, what a taken RELEASE leaves, and the cases of the code. -/

namespace Sys2Proof.Machine

/-- Every lane is IDLE, lane by lane. -/
theorem allIdle_iff (s : State) : s.allIdle = true ↔ ∀ n, (s.lane n).st = .idle := by
  have mem_allLanes : ∀ n : LaneId, n ∈ allLanes := by decide
  simp [State.allIdle, mem_allLanes]

/-- The pins some lane owns, pin by pin. -/
theorem ownedPins_bits (s : State) (p : Fin 24) : s.ownedPins.getLsbD p.val = s.owner[p].isSome := by
  have := p.isLt
  simp [State.ownedPins]

/-- The RELEASE command is the control code. -/
theorem exec_release (s : State) : exec .release s = .next s.codeRelease := rfl

/-- RELEASE in HALTED with every lane IDLE is taken (R120). -/
theorem codeRelease_taken {s : State} (hhalted : s.engine = .halted) (hidle : ∀ n, (s.lane n).st = .idle) :
    s.codeRelease = s.releaseTaken :=
  if_pos ⟨hhalted, (allIdle_iff s).mpr hidle⟩

/-- RELEASE outside HALTED, or with a lane that is not IDLE, is refused (R120, R172). -/
theorem codeRelease_refused {s : State} (h : s.engine ≠ .halted ∨ ∃ n, (s.lane n).st ≠ .idle) :
    s.codeRelease = s.refuse := by
  refine if_neg fun ⟨hhalted, hall⟩ => ?_
  rcases h with hengine | ⟨n, hbusy⟩
  · exact hengine hhalted
  · exact hbusy ((allIdle_iff s).mp hall n)

/-- A taken RELEASE changes the engine state, the pin levels and the marks alone (R120). -/
theorem releaseTaken_frame (s : State) :
    s.releaseTaken = { s with engine := .ready, out := s.releaseTaken.out, marks := s.releaseTaken.marks } := by
  unfold State.releaseTaken; rw [setOut_eq]; rfl

/-- After a taken RELEASE an owned pin is at its rest level, every other at its static level (R120). -/
theorem releaseTaken_out_bits (s : State) (p : Fin 24) :
    s.releaseTaken.out.getLsbD p.val =
      if s.owner[p].isSome then s.rest.getLsbD p.val else s.static.getLsbD p.val := by
  unfold State.releaseTaken; rw [setOut_out, blend_bits, ownedPins_bits]

/-- A taken RELEASE marks the levels item exactly when a pin level changes (R121). -/
theorem releaseTaken_marks (s : State) :
    s.releaseTaken.marks = if s.releaseTaken.out = s.out then s.marks else s.marks ||| (1#20 <<< 8) := by
  unfold State.releaseTaken; rw [setOut_marks, setOut_out]

/-- Settles O9: the code is taken or refused by its guard, and the state after a taken RELEASE is read field by field. -/
theorem releaseRestoresLevels : Obligations.ReleaseRestoresLevels := by
  intro s
  rw [exec_release]
  constructor
  · intro hhalted hidle
    rw [codeRelease_taken hhalted hidle]
    exact ⟨s.releaseTaken, rfl, releaseTaken_frame s, releaseTaken_out_bits s, releaseTaken_marks s⟩
  · intro h
    rw [codeRelease_refused h]
    rfl

end Sys2Proof.Machine
end

section
/-! SUPPORT. ATTN and the in-service list (R154, R157, R159): the parts of eligibility, ATTN over all causes, and what a
write to END leaves. -/

namespace Sys2Proof.Machine

/-- The list of causes leaves none out (R151). -/
theorem mem_allCauses (c : Cause) : c ∈ allCauses := by
  have mem_allLanes : ∀ n : LaneId, n ∈ allLanes := by decide
  cases c <;> simp [allCauses, mem_allLanes]

/-- ATTN, which the model computes over the list of causes, is asserted exactly while some cause is eligible (R157). -/
theorem attn_iff (s : State) : s.attn = true ↔ ∃ c, s.att.eligible c = true := by
  simp [State.attn, mem_allCauses]

namespace Attention

/-- HALT has no mask; every other cause is unmasked when the mask bit of its kind is 0 (R154). -/
theorem isMasked_eq_false_iff (a : Attention) (c : Cause) :
    a.isMasked c = false ↔ c = .halt ∨ a.masks.getLsbD (c.kind - 2) = false := by
  cases c <;> simp [isMasked]

/-- HALT is at level 3, every other cause at the level of its kind's group (R154). -/
theorem levelOf_eq (a : Attention) (c : Cause) :
    a.levelOf c = if c = .halt then 3 else if a.groups.getLsbD (c.kind - 2) = true then 2 else 1 := by
  cases c <;> simp [levelOf]

/-- The top level, by whether the in-service list has a last entry (R157). -/
theorem topLevel_eq (a : Attention) :
    a.topLevel = match a.inService.getLast? with | some e => e.level | none => 0 := by
  unfold topLevel
  cases a.inService.getLast? <;> rfl

/-- Eligibility in the fields of the attention unit (R154, R157). -/
theorem eligible_iff (a : Attention) (c : Cause) :
    a.eligible c = true ↔ a.pending[c.index] = true ∧
      (c = .halt ∨ a.masks.getLsbD (c.kind - 2) = false) ∧
      (match a.inService.getLast? with | some e => e.level | none => 0) <
        (if c = .halt then 3 else if a.groups.getLsbD (c.kind - 2) = true then 2 else 1) := by
  rw [← isMasked_eq_false_iff, ← levelOf_eq, ← topLevel_eq]
  simp [eligible, isPending, and_assoc]

/-- A write to END removes the last entry and leaves the rest of the unit as it was (R159). -/
theorem endLast_of_concat {a : Attention} {es : List Service} {e : Service} (h : a.inService = es ++ [e]) :
    a.endLast = { a with inService := es } := by
  simp [endLast, h]

/-- A write to END with no entry sets UNMATCHED-END (R159). -/
theorem endLast_of_nil {a : Attention} (h : a.inService = []) : a.endLast = { a with unmatchedEnd := true } :=
  if_pos h

end Attention

/-- The command is the host's write to END, which changes the attention unit alone. -/
theorem exec_endService (s : State) : exec .endService s = .next { s with att := s.att.endLast } := rfl

/-- Settles O12: ATTN speaks of some cause of the list, which holds them all, and each cause's eligibility is read in the
fields of the attention unit. -/
theorem attnFollowsEligibility : Obligations.AttnFollowsEligibility := by
  intro s
  calc s.attn = true
    _ ↔ ∃ c, s.att.eligible c = true := attn_iff s
    _ ↔ _ := exists_congr s.att.eligible_iff

/-- Settles O14, by whether the in-service list has a last entry; the top level and ATTN are those of the shorter list. -/
theorem endRemovesLastEntry : Obligations.EndRemovesLastEntry := by
  intro s
  rw [exec_endService]
  constructor
  · intro es e hlast
    rw [Attention.endLast_of_concat hlast]
    exact ⟨_, rfl, rfl, Attention.topLevel_eq _, attn_iff _⟩
  · intro hnil
    rw [Attention.endLast_of_nil hnil]

end Sys2Proof.Machine
end

section
/-! SUPPORT. The rule for invariants: what the operations of the commands keep, every step keeps. -/

namespace Sys2Proof.Machine

/-! What a grant finds. -/

/-- What the port's choice says of the state, by the request it grants (R27, R39, R143, R144, R149). -/
def State.mayGrant (s : State) : Request → Prop
  | .writeBack => s.wbq ≠ []
  | .laneEntry n => (s.lane n).owed = []
  | .deviceEntry => s.devOut = .none_ ∧ 0 < s.room
  | .setupRead => True
  | .cueFetch n => 0 < s.room ∧ (s.lane n).wantsCue = true
  | .tailReread n => (s.lane n).wantsTail = true
  | .statusItem => s.nextMarked.isSome = true

/-- The order reader asks for what it may read (R27, R165, R167). -/
theorem readerRequest_mayGrant {s : State} {r : Request} (h : s.readerRequest = some r) : s.mayGrant r := by
  unfold State.readerRequest at h
  split at h
  · cases h; trivial
  · split at h
    · rename_i n hn
      cases h
      have := List.find?_some hn
      simpa [State.mayGrant] using (Bool.and_eq_true_iff.mp this).2
    · split at h
      · rename_i hd
        cases h; exact hd.2
      · cases h

/-- The arbiter's lane is one of those it chooses from. -/
theorem firstOf_asks {s : State} {p q : LaneId → Bool} {n : LaneId}
    (h : (s.firstOf (allLanes.filter (fun n => p n && q n))).or (s.firstOf (allLanes.filter p)) = some n) :
    p n = true := by
  rcases Option.or_eq_some_iff.mp h with h | ⟨_, h⟩
  · exact (Bool.and_eq_true_iff.mp (firstOf_filter h)).1
  · exact firstOf_filter h

/-- A lane asks for what R39, R43 and R144 let it ask for. -/
theorem laneRequest_mayGrant {s : State} {r : Request} (h : s.laneRequest = some r) : s.mayGrant r := by
  unfold State.laneRequest at h
  obtain ⟨n, hn, rfl⟩ := Option.map_eq_some_iff.mp h
  have hasks := firstOf_asks hn
  split
  · assumption
  · rename_i htail
    simpa [State.mayGrant, htail] using hasks

/-- The port grants on a free port outside CLEARING, and only what may be granted (R141, R143). -/
theorem portChoice_grants {s : State} {r : Request} (h : s.portChoice = some r) :
    s.port = none ∧ s.engine ≠ .clearing ∧ s.mayGrant r := by
  refine ⟨portChoice_free h, ?_⟩
  unfold State.portChoice at h
  split at h
  · cases h
  · rename_i hfree
    refine ⟨fun hc => hfree (Or.inr hc), ?_⟩
    split at h
    · cases h; assumption
    · rcases Option.or_eq_some_iff.mp h with h | ⟨_, h⟩
      · exact readerRequest_mayGrant h
      · rcases Option.or_eq_some_iff.mp h with h | ⟨_, h⟩
        · exact laneRequest_mayGrant h
        · obtain ⟨i, hi, rfl⟩ := Option.map_eq_some_iff.mp h
          simp [State.mayGrant, hi]

/-- A granted transaction is under way. -/
theorem grant_underWay {s : State} {r : Request} (h : s.portChoice = some r) : (s.grant r).underWay r = true := by
  obtain ⟨_, _, hmay⟩ := portChoice_grants h
  cases r with
  | statusItem =>
    obtain ⟨i, hi⟩ := Option.isSome_iff_exists.mp hmay
    simp [State.underWay, State.grant, hi, Transaction.serves]
  | _ => simp [State.underWay, State.grant, Transaction.serves]

/-! The rule. -/

/-- `P` is kept by every operation a command is made of: the control codes, the host's accesses, the grants, the ends of
the transactions, the timed events and the link. -/
structure Kept (P : State → Prop) : Prop where
  powerOn : ∀ {s : State}, P s → P s.powerOn
  clearDone : ∀ {s : State}, P s → P s.clearDone
  softReset : ∀ {s : State} (k : Nat), P s → P (s.softResetTaken k)
  halt : ∀ {s : State} (c : HaltCause) (i : Fin 8), P s → P (s.haltCause c i)
  release : ∀ {s : State}, P s → s.engine = .halted → P s.releaseTaken
  refuse : ∀ {s : State}, P s → P s.refuse
  nudge : ∀ {s : State} (v : Word), P s → P (s.writeNudge v)
  take : ∀ {s : State}, P s → P s.readTake
  endService : ∀ {s : State}, P s → P s.writeEnd
  status : ∀ {s : State}, P s → P s.readStatus
  memory : ∀ {s : State} (w : HostWrite), P s → P (s.writeMemory w)
  grant : ∀ {s : State} {r : Request}, P s → s.portChoice = some r → P (s.grant r)
  landWord : ∀ {s : State} (ws : Between), P s → P (s.landWord ws)
  laneRead : ∀ {s : State} (n : LaneId) (ws : Between), P s → s.underWay (.laneEntry n) = true →
    P (State.endLaneRead n ws s)
  deviceRead : ∀ {s : State} (ws : Between), P s → s.underWay .deviceEntry = true → P (State.endDeviceRead ws s)
  setupRead : ∀ {s : State} (pins : BitVec 8) (ws : Between), P s → s.underWay .setupRead = true →
    P (State.endSetupRead pins ws s)
  cueFetch : ∀ {s : State} (n : LaneId) (ws : Between), P s → s.underWay (.cueFetch n) = true →
    P (State.endCueFetch n ws s)
  tailReread : ∀ {s : State} (n : LaneId) (ws : Between), P s → s.underWay (.tailReread n) = true →
    P (State.endTailReread n ws s)
  writeBack : ∀ {s : State} (ws : Between), P s → s.underWay .writeBack = true → P (State.endWriteBack ws s)
  statusItem : ∀ {s : State} (ws : Between), P s → s.underWay .statusItem = true → P (State.endStatusItem ws s)
  beat : ∀ {s : State} (b : Fin 8), P s → P (s.beatExpires b)
  pulse : ∀ {s : State} (n : LaneId), P s → P (s.pulseEnds n)
  limit : ∀ {s : State} (n : LaneId), P s → P (s.limitExpires n)
  revisit : ∀ {s : State} (n : LaneId), P s → P (s.revisitExpires n)
  sample : ∀ {s : State} (i : Fin 8) (level : Bool), P s → P (s.inputSampled i level)
  frame : ∀ {s : State} (data : Byte) (p b : Bool), P s → P (s.frameJudged data p b)
  frameSent : ∀ {s : State}, P s → P s.frameSent
  receiver : ∀ {s : State} (r : Receiver), P s → P (s.setRx r)

namespace Kept

variable {P : State → Prop}

/-- A command of a transaction. -/
theorem turn (h : Kept P) {s : State} (r : Request) (p : Part) {fin : State → State} (hs : P s)
    (hf : ∀ t, t.underWay r = true → P t → P (fin t)) : P (s.turn r p fin) :=
  turn_keeps P hs (h.grant hs) hf grant_underWay

/-- A command of a write transaction, word by word. -/
theorem writeTurn (h : Kept P) {s : State} (r : Request) (p : WritePart) (ws : Between) {fin : State → State} (hs : P s)
    (hf : ∀ t, t.underWay r = true → P t → P (fin t)) : P (s.writeTurn r p ws fin) := by
  cases p with
  | grant => exact h.turn r .grant hs hf
  | word => exact h.turn r .done hs (fun _ _ ht => h.landWord ws ht)
  | done => exact h.turn r .done hs hf

/-- The control codes (R172). -/
theorem codeSoftReset (h : Kept P) {s : State} (k : Nat) (hs : P s) : P (s.codeSoftReset k) := by
  unfold State.codeSoftReset
  split
  · exact h.refuse hs
  · exact h.softReset k hs

theorem codeHalt (h : Kept P) {s : State} (hs : P s) : P s.codeHalt := by
  cases he : s.engine with
  | clearing => simpa [State.codeHalt, he] using h.refuse hs
  | unset => simpa [State.codeHalt, he] using h.refuse hs
  | ready => simpa [State.codeHalt, State.haltCause, he] using h.halt .hostHalt 0 hs
  | halted => simpa [State.codeHalt, State.haltCause, he] using h.halt .hostHalt 0 hs

theorem codeRelease (h : Kept P) {s : State} (hs : P s) : P s.codeRelease := by
  unfold State.codeRelease
  split
  · rename_i hc
    exact h.release hs hc.1
  · exact h.refuse hs

/-- A write to ENGINE CONTROL (R172). -/
theorem writeControl (h : Kept P) {s : State} (v : Word) (hs : P s) : P (s.writeControl v) := by
  unfold State.writeControl
  split
  · exact h.codeSoftReset 0 hs
  · split
    · exact h.codeHalt hs
    · split
      · exact h.codeRelease hs
      · exact h.refuse hs

/-- A host write at any address (R140). -/
theorem hostWrite (h : Kept P) {s : State} (w : HostWrite) (hs : P s) : P (s.hostWrite w) := by
  unfold State.hostWrite
  dsimp only
  split
  · exact h.memory w hs
  · split
    · exact h.writeControl _ hs
    · split
      · exact h.nudge _ hs
      · split
        · exact h.endService hs
        · exact hs

/-- The row of a lane order is a lane entry read or nothing (log entry 7). -/
theorem laneOrderRow (h : Kept P) {s : State} (n : LaneId) (ws : Between) (o : LaneOrder) (hs : P s) :
    P (s.laneOrderRow n ws o) := by
  unfold State.laneOrderRow
  split
  · exact h.turn _ _ hs (fun _ hu ht => h.laneRead n ws ht hu)
  · exact hs

/-- The row of a device order is a device entry read or nothing (log entry 7). -/
theorem deviceOrderRow (h : Kept P) {s : State} (ws : Between) (o : DeviceOrder) (hs : P s) :
    P (s.deviceOrderRow ws o) := by
  unfold State.deviceOrderRow
  split
  · exact h.turn _ _ hs (fun _ hu ht => h.deviceRead ws ht hu)
  · exact hs

/-- Every command keeps `P`. -/
theorem exec (h : Kept P) (c : Instr) {s : State} (hs : P s) : ∃ t, exec c s = .next t ∧ P t := by
  cases c with
  | powerOn => exact ⟨_, rfl, h.powerOn hs⟩
  | clearComplete => exact ⟨_, rfl, h.clearDone hs⟩
  | softReset k => exact ⟨_, rfl, h.codeSoftReset k hs⟩
  | halt => exact ⟨_, rfl, h.codeHalt hs⟩
  | release => exact ⟨_, rfl, h.codeRelease hs⟩
  | unknownControlCode v => exact ⟨_, rfl, h.writeControl v hs⟩
  | registerWriteIgnored a v => exact ⟨_, rfl, h.hostWrite _ hs⟩
  | nudge v => exact ⟨_, rfl, h.nudge v hs⟩
  | take => exact ⟨_, rfl, h.take hs⟩
  | endService => exact ⟨_, rfl, h.endService hs⟩
  | engineStatusRead => exact ⟨_, rfl, h.status hs⟩
  | hostMemoryWrite a v => exact ⟨_, rfl, h.hostWrite _ hs⟩
  | laneEntryRead n p ws => exact ⟨_, rfl, h.turn _ p hs (fun _ hu ht => h.laneRead n ws ht hu)⟩
  | start n ws => exact ⟨_, rfl, h.laneOrderRow n ws _ hs⟩
  | hold n ws => exact ⟨_, rfl, h.laneOrderRow n ws _ hs⟩
  | resume n ws => exact ⟨_, rfl, h.laneOrderRow n ws _ hs⟩
  | stop n ws => exact ⟨_, rfl, h.laneOrderRow n ws _ hs⟩
  | abort n ws => exact ⟨_, rfl, h.laneOrderRow n ws _ hs⟩
  | clear n ws => exact ⟨_, rfl, h.laneOrderRow n ws _ hs⟩
  | deviceEntryRead p ws => exact ⟨_, rfl, h.turn _ p hs (fun _ hu ht => h.deviceRead ws ht hu)⟩
  | applySetup ws => exact ⟨_, rfl, h.deviceOrderRow ws _ hs⟩
  | setupReadDone p pins ws => exact ⟨_, rfl, h.turn _ p hs (fun _ hu ht => h.setupRead pins ws ht hu)⟩
  | snapshot ws => exact ⟨_, rfl, h.deviceOrderRow ws _ hs⟩
  | clearMarks ws => exact ⟨_, rfl, h.deviceOrderRow ws _ hs⟩
  | setStatic ws => exact ⟨_, rfl, h.deviceOrderRow ws _ hs⟩
  | raiseFlag ws => exact ⟨_, rfl, h.deviceOrderRow ws _ hs⟩
  | drainFlag ws => exact ⟨_, rfl, h.deviceOrderRow ws _ hs⟩
  | beatStart ws => exact ⟨_, rfl, h.deviceOrderRow ws _ hs⟩
  | beatStop ws => exact ⟨_, rfl, h.deviceOrderRow ws _ hs⟩
  | flushLink ws => exact ⟨_, rfl, h.deviceOrderRow ws _ hs⟩
  | setMasks ws => exact ⟨_, rfl, h.deviceOrderRow ws _ hs⟩
  | cueFetch n p ws => exact ⟨_, rfl, h.turn _ p hs (fun _ hu ht => h.cueFetch n ws ht hu)⟩
  | tailReread n p ws => exact ⟨_, rfl, h.turn _ p hs (fun _ hu ht => h.tailReread n ws ht hu)⟩
  | writeBackLanding p ws => exact ⟨_, rfl, h.writeTurn _ p ws hs (fun _ hu ht => h.writeBack ws ht hu)⟩
  | statusItemWrite p ws => exact ⟨_, rfl, h.writeTurn _ p ws hs (fun _ hu ht => h.statusItem ws ht hu)⟩
  | beatExpiry b => exact ⟨_, rfl, h.beat b hs⟩
  | pulseEnd n => exact ⟨_, rfl, h.pulse n hs⟩
  | waitLimitExpiry n => exact ⟨_, rfl, h.limit n hs⟩
  | revisitExpiry n => exact ⟨_, rfl, h.revisit n hs⟩
  | inputSample i level => exact ⟨_, rfl, h.sample i level hs⟩
  | frameJudged data p b => exact ⟨_, rfl, h.frame data p b hs⟩
  | frameSent => exact ⟨_, rfl, h.frameSent hs⟩
  | lineShowsHigh => refine ⟨_, rfl, ?_⟩; split; exacts [h.receiver _ hs, hs]
  | startCandidate => refine ⟨_, rfl, ?_⟩; split; exacts [h.receiver _ hs, hs]
  | startBitMiddleSample level => refine ⟨_, rfl, ?_⟩; split; exacts [h.receiver _ hs, hs]

end Kept

/-- `P` is kept by every command, by the taking of one from the queue, by a free choice, and by a tick. -/
structure Invariant (P : State → Prop) : Prop extends Kept P where
  queue : ∀ {s : State} (cs : List Instr), P s → P { s with pending := cs }
  choice : ∀ {s : State} (k : Nat), P s → P { s with choices := k }
  tick : ∀ {s : State}, P s → P s.tick

/-- Every step keeps an invariant: a command of the queue, a due event, or a tick. -/
theorem Invariant.step {P : State → Prop} (h : Invariant P) {s t : State} (hs : P s) (ht : step s = .next t) :
    P t := by
  have ran : ∀ (c : Instr) {u : State}, P u → Machine.exec c u = .next t → P t := by
    intro c u hu he
    obtain ⟨v, hv, hp⟩ := h.toKept.exec c hu
    rw [hv] at he
    cases he
    exact hp
  unfold Machine.step at ht
  split at ht
  · exact ran _ (h.queue _ hs) ht
  · unfold idleStep at ht
    split at ht
    · cases ht; exact h.tick hs
    · exact ran _ hs ht
    · exact ran _ (h.choice _ hs) ht

end Sys2Proof.Machine
end


section
/-! SUPPORT. What an event is made of: a relation that the primitive updates keep holds along fires, deliveries, post
actions and everything that follows from an event. -/

namespace Sys2Proof.Machine

/-- The update of the link port leaves a queue that was within its places within them (R130, R133). -/
def linkFits (s : State) (f : LinkPort → LinkPort) : Prop :=
  (s.link.rxq.length ≤ Config.linkPlaces → (f s.link).rxq.length ≤ Config.linkPlaces) ∧
  (s.link.txq.length ≤ Config.linkPlaces → (f s.link).txq.length ≤ Config.linkPlaces)

/-- An update that leaves both queues fits. -/
theorem linkFits_same {s : State} {f : LinkPort → LinkPort} (hr : (f s.link).rxq = s.link.rxq)
    (ht : (f s.link).txq = s.link.txq) : linkFits s f := by
  unfold linkFits; rw [hr, ht]; exact ⟨id, id⟩

/-- `R` is kept by the updates that fires, deliveries and post actions are made of. -/
structure FireRule (R : State → State → Prop) : Prop where
  refl : ∀ s, R s s
  trans : ∀ {s t u}, R s t → R t u → R s u
  lane : ∀ {s : State} (n : LaneId) (f : Lane → Lane), Alike (s.lane n) (f (s.lane n)) → R s (s.updLane n f)
  source : ∀ {s : State} (i : SourceId) (r : Source), r.count ≤ (s.source i).count ∨ r.count ≤ Config.maxPending →
    R s (s.setSource i r)
  cause : ∀ {s : State} (c : Cause), R s (s.raise c)
  out : ∀ {s : State} (p : Pins), R s (s.setOut p)
  link : ∀ {s : State} (f : LinkPort → LinkPort), linkFits s f → R s (s.updLink f)
  beat : ∀ {s : State} (b : Fin 8) (f : Beat → Beat), R s (s.updBeat b f)

/-- A transmitter that begins a frame takes from its queue and leaves the receive queue (R134). -/
theorem begin_queues (l : LinkPort) (live : Bool) :
    (l.begin_ live).rxq = l.rxq ∧ (l.begin_ live).txq.length ≤ l.txq.length := by
  unfold LinkPort.begin_
  split
  · split
    · exact ⟨rfl, le_refl _⟩
    · cases h : l.txq <;> simp [h]
  · exact ⟨rfl, le_refl _⟩

namespace FireRule

variable {R : State → State → Prop}

/-- A change of the firing state alone. -/
theorem firing (h : FireRule R) {s : State} (n : LaneId) (f : Firing → Firing) : R s (s.updFiring n f) :=
  h.lane n _ ⟨rfl, rfl, by simp, Or.inr rfl, rfl, rfl, fun _ h => h⟩

theorem fold (h : FireRule R) {α : Type} (g : State → α → State) (hg : ∀ s a, R s (g s a)) (as : List α) (s : State) :
    R s (as.foldl g s) := by
  induction as generalizing s with
  | nil => exact h.refl s
  | cons a as ih => exact h.trans (hg s a) (ih _)

theorem fireLane (h : FireRule R) (s : State) (n : LaneId) (v : Option (SourceId × Word)) : R s (s.fireLane n v) := by
  unfold State.fireLane
  split
  · exact h.refl s
  · exact h.trans (h.lane n _ ⟨rfl, rfl, by simp [Lane.fire], Or.inr rfl, rfl, rfl, fun _ _ => rfl⟩) (h.out _)

theorem afterEvent (h : FireRule R) (s : State) (t : Trigger) : R s (s.afterEvent t) :=
  h.fold _ (fun _ n => h.lane n _ ⟨rfl, rfl, by simp [Lane.waitAnew], Or.inr rfl, rfl, rfl, fun _ _ => rfl⟩) _ s

theorem shareEvent (h : FireRule R) (s : State) (i : SourceId) : R s (s.shareEvent i) := by
  refine h.trans ?_ (h.afterEvent _ _)
  unfold State.shareTaken
  exact h.trans (h.fold _ (fun u n => h.fireLane u n _) _ s) (h.source _ _ (Or.inl (Nat.le_refl _)))

theorem claimEvent (h : FireRule R) (s : State) (i : SourceId) : R s (s.claimEvent i) := by
  refine h.trans ?_ (h.afterEvent _ _)
  unfold State.claimTaken
  split
  · exact h.fireLane _ _ _
  · split
    · rename_i hcount
      exact h.source _ _ (Or.inr hcount)
    · refine h.trans (h.source _ _ (Or.inl ?_)) (h.cause _)
      exact Nat.le_refl _

theorem sourceEvent (h : FireRule R) (s : State) (i : SourceId) : R s (s.sourceEvent i) := by
  unfold State.sourceEvent
  split
  · exact h.claimEvent s i
  · exact h.shareEvent s i

theorem linkEvent (h : FireRule R) (s : State) (c : BitVec 6) : R s (s.linkEvent c) := by
  refine h.trans ?_ (h.afterEvent _ _)
  unfold State.codeTaken
  split
  · exact h.fireLane _ _ _
  · split
    · rename_i hroom
      exact h.link _ ⟨fun _ => by simpa using hroom, id⟩
    · exact h.trans (h.link _ (linkFits_same rfl rfl)) (h.cause _)

theorem send (h : FireRule R) (s : State) (n : LaneId) (c : BitVec 6) (g : BitVec 2) : R s (s.send n c g) := by
  unfold State.send
  split
  · rename_i hroom
    refine h.link _ ⟨fun hr => ?_, fun _ => ?_⟩
    · rw [(begin_queues _ _).1]; exact hr
    · exact le_trans (begin_queues _ _).2 (by simpa using hroom.2)
  · exact h.trans (h.trans (h.link _ (linkFits_same rfl rfl)) (h.cause _)) (h.firing _ _)

theorem beatPost (h : FireRule R) (s : State) (c : Copy) : R s (s.beatPost c) := by
  unfold State.beatPost
  split
  · exact h.refl s
  · exact h.beat _ _
  · exact h.beat _ _
  · exact h.beat _ _

theorem postActions (h : FireRule R) (s : State) (n : LaneId) (c : Copy) : R s (s.postActions n c) := by
  have hflag : R s (match c.raiseFlag with | some f => s.claimEvent (flagSource f) | none => s) := by
    split
    · exact h.claimEvent _ _
    · exact h.refl s
  have hsend : ∀ u : State, R u (match c.sendGroup with | some g => u.send n c.sendCode g | none => u) := by
    intro u
    split
    · exact h.send _ _ _ _
    · exact h.refl _
  have hbeat := h.trans (h.trans hflag (hsend _)) (h.beatPost _ c)
  unfold State.postActions
  dsimp only
  split
  · exact h.trans hbeat (h.cause _)
  · exact hbeat

theorem complete (h : FireRule R) (s : State) (n : LaneId) (c : Copy) : R s (s.complete n c) :=
  h.trans (h.postActions s n c) (h.lane n _
    ⟨rfl, bumpPass_length _ _, by simp [endCurrent_eq], Or.inr rfl, rfl, rfl, fun _ h => h⟩)

/-- The beginning of a wait, but for the LATE fault, which `hfault` answers for. -/
theorem beginWait (h : FireRule R) (s : State) (n : LaneId) (c : Copy) (hfault : R s (s.laneFault n .late none)) :
    R s (s.beginWait n c) := by
  have hjoin : R s (s.joinWait n c) := h.firing n _
  unfold State.beginWait
  split
  · exact hjoin
  · exact h.fireLane _ _ _
  · split
    · exact hjoin
    · split
      · split
        · exact h.trans (h.source _ _ (Or.inl (Nat.sub_le _ _))) (h.fireLane _ _ _)
        · exact hjoin
      · split
        · exact hjoin
        · split
          · exact hfault
          · exact h.trans (h.firing _ _) (h.fireLane _ _ _)
  · split
    · refine h.trans (h.link _ ⟨fun hr => ?_, id⟩) (h.fireLane _ _ _)
      exact le_trans (List.length_eraseP_le) hr
    · exact hjoin

end FireRule

/-- `R` is also kept by what the device orders that are answered at once are made of. -/
structure OrderRule (R : State → State → Prop) : Prop extends FireRule R where
  static : ∀ {s : State} (p : Pins), R s { s with static := p }
  masks : ∀ {s : State} (m : BitVec 7), R s { s with att := { s.att with masks := m } }
  mark : ∀ {s : State} (i : Fin 20), R s (s.markItem i)

namespace OrderRule

variable {R : State → State → Prop}

theorem clearMarksOf (h : OrderRule R) (a : Word) : ∀ (is : List SourceId) (s : State),
    R s (Machine.clearMarksOf a is s)
  | [], s => h.refl s
  | i :: is, s => by
    unfold Machine.clearMarksOf
    refine h.trans ?_ (clearMarksOf h a is _)
    split
    · exact h.source _ _ (Or.inl (Nat.le_refl _))
    · exact h.refl s

/-- A device order that is answered at once (Table 8). -/
theorem takeDeviceOrder (h : OrderRule R) (s : State) (seq : Byte) (o : DeviceOrder) (a b : Word)
    (ho : o.answersAtOnce = true) : R s (s.takeDeviceOrder seq o a b) := by
  unfold State.takeDeviceOrder
  cases o with
  | applySetup => cases ho
  | snapshot => cases ho
  | clearMarks => exact h.clearMarksOf a allSources s
  | setStatic =>
    dsimp only
    unfold State.takeSetStatic
    exact h.trans (h.static _) (h.out _)
  | raiseFlag =>
    dsimp only
    unfold State.takeRaiseFlag
    split
    · exact h.claimEvent s _
    · exact h.refl s
  | drainFlag =>
    dsimp only
    unfold State.takeDrainFlag
    split
    · exact h.source _ _ (Or.inl (Nat.zero_le _))
    · exact h.refl s
  | beatStart =>
    dsimp only
    unfold State.takeBeatStart
    split
    · exact h.beat _ _
    · exact h.refl s
  | beatStop =>
    dsimp only
    unfold State.takeBeatStop
    split
    · exact h.beat _ _
    · exact h.refl s
  | flushLink =>
    dsimp only
    unfold State.takeFlushLink
    refine h.trans (h.link _ ?_) (h.mark _)
    exact ⟨fun _ => Nat.zero_le _, id⟩
  | setMasks => exact h.masks _

end OrderRule

/-- `R` is also kept by what a lane's ending, a lane fault and the write-back queue are made of. -/
structure EventRule (R : State → State → Prop) : Prop extends OrderRule R where
  anyLane : ∀ {s : State} (n : LaneId) (f : Lane → Lane), R s (s.updLane n f)
  enqueue : ∀ {s : State} (e : WriteBack), R s (s.enqueue e)
  overtake : ∀ {s : State} (n : LaneId), R s (s.overtake n)
  choice : ∀ {s : State} (k : Nat), R s { s with choices := k }

namespace EventRule

variable {R : State → State → Prop}

theorem produce (h : EventRule R) (s : State) (n : LaneId) (e : WriteBack) : R s (s.produce n e) := by
  unfold State.produce
  split
  · exact h.enqueue e
  · exact h.anyLane _ _

theorem produceAll (h : EventRule R) (s : State) (n : LaneId) (es : List WriteBack) : R s (s.produceAll n es) :=
  h.fold _ (fun u e => h.produce u n e) es s

theorem produceReserved (h : EventRule R) (s : State) (n : LaneId) (e : WriteBack) : R s (s.produceReserved n e) := by
  unfold State.produceReserved
  split
  · exact h.enqueue e
  · exact h.trans (h.enqueue _) (h.anyLane _ _)

theorem closeLane (h : EventRule R) (s : State) (n : LaneId) (st : LaneState) : R s (s.closeLane n st) :=
  h.trans (h.anyLane n _) (h.overtake n)

theorem laneFault (h : EventRule R) (s : State) (n : LaneId) (code : FaultCode) (m : Option Link) :
    R s (s.laneFault n code m) := by
  unfold State.laneFault
  exact h.trans (h.trans (h.trans (h.trans (h.produceAll s n _) (h.closeLane _ n _)) (h.anyLane n _)) (h.out _))
    (h.cause _)

theorem leaveQueue (h : EventRule R) (s : State) (n : LaneId) (c : Copy) (f : Firing) (e : Ending) :
    R s (s.leaveQueue n c f e) := by
  unfold State.leaveQueue
  dsimp only
  split
  · exact h.trans (h.trans (h.trans (h.enqueue _) (h.produceAll _ n _)) (h.closeLane _ n _)) (h.cause _)
  · split
    · exact h.trans (h.enqueue _) (h.anyLane n _)
    · exact h.trans (h.trans (h.enqueue _) (h.anyLane n _)) (h.cause _)

theorem laneGo (h : EventRule R) (s : State) (n : LaneId) : R s (s.laneGo n) := by
  unfold State.laneGo
  split
  · exact h.anyLane _ _
  · exact h.laneFault _ _ _ _
  · split
    · exact h.complete _ _ _
    · exact h.beginWait _ _ _ (h.laneFault _ _ _ _)
  · exact h.refl s

theorem follow (h : EventRule R) {s t : State} (hf : s.follow = some t) : R s t := by
  rcases follow_cases hf with ⟨n, _, _, rfl⟩ | ⟨n, _, _, rfl⟩ | ⟨n, _, rfl | rfl⟩
  · unfold State.enterOwed
    split
    · exact h.refl s
    · exact h.trans (h.enqueue _) (h.anyLane n _)
  · unfold State.releasePending
    split
    · split
      · exact h.leaveQueue _ _ _ _ _
      · exact h.refl s
    · exact h.refl s
  · exact h.laneGo s n
  · exact h.trans (h.choice _) (h.laneGo _ n)

theorem settle (h : EventRule R) (s : State) : R s s.settle :=
  settle_keeps (R s) (fun _ _ hst hf => h.trans hst (h.follow hf)) (h.refl s)

theorem faultLanes (h : EventRule R) (code : FaultCode) : ∀ (k : Nat) (ns : List LaneId) (s : State),
    R s (Machine.faultLanes k ns code s) := by
  intro k
  induction k with
  | zero => intro ns s; exact h.refl s
  | succ k ih =>
    intro ns s
    match ns with
    | [] => exact h.refl s
    | [n] => exact h.laneFault s n code none
    | n :: n' :: ns => exact h.trans (h.trans (h.choice _) (h.laneFault _ _ code none)) (ih _ _)

/-! Fetches. -/

theorem appendCopy (h : EventRule R) (s : State) (n : LaneId) (c : Copy) : R s (s.appendCopy n c) := h.anyLane n _

theorem appendMarker (h : EventRule R) (s : State) (n : LaneId) (code : FaultCode) (slot : Link) :
    R s (s.appendMarker n code slot) := h.anyLane n _

theorem foundNotArmed (h : EventRule R) (s : State) (n : LaneId) (slot : Link) (head : Word) :
    R s (s.foundNotArmed n slot head) := by
  unfold State.foundNotArmed
  split
  · exact h.anyLane n _
  · exact h.anyLane n _
  · split
    · split
      · split
        · exact h.appendCopy s n _
        · exact h.anyLane n _
      · split
        · exact h.anyLane n _
        · exact h.appendMarker s n _ _
    · exact h.appendMarker s n _ _
  · exact h.appendMarker s n _ _
  · exact h.appendMarker s n _ _
  · exact h.refl s

theorem foundArmed (h : EventRule R) (s : State) (n : LaneId) (c : Copy) : R s (s.foundArmed n c) := by
  unfold State.foundArmed
  split
  · exact h.trans (h.produceReserved s n _) (h.appendCopy _ n _)
  · exact h.trans (h.produceReserved s n _) (h.appendMarker _ n _ _)

theorem tornAttempt (h : EventRule R) (s : State) (n : LaneId) (f : Fetch) : R s (s.tornAttempt n f) := by
  unfold State.tornAttempt
  split
  · exact h.appendMarker s n _ _
  · exact h.refl s

theorem foundTail (h : EventRule R) (s : State) (n : LaneId) (tail : Link) (head w1 : Word) :
    R s (s.foundTail n tail head w1) := by
  unfold State.foundTail
  dsimp only
  split
  · exact h.appendMarker s n _ _
  · split
    · exact h.anyLane n _
    · split
      · exact h.anyLane n _
      · exact h.appendMarker s n _ _

theorem entryLanded (h : EventRule R) (s : State) (e : WriteBack) : R s (s.entryLanded e) := by
  unfold State.entryLanded
  split
  · split
    · exact h.anyLane _ _
    · exact h.refl s
  · split
    · split
      · exact h.refl s
      · exact h.anyLane _ _
    · exact h.refl s
  · exact h.cause _
  · exact h.refl s
  · exact h.refl s
  · exact h.refl s
  · exact h.refl s

/-! Lane orders. -/

theorem restPins (h : EventRule R) (s : State) (n : LaneId) : R s (s.restPins n) := by
  unfold State.restPins
  split
  · exact h.refl s
  · exact h.out _

theorem takeClear (h : EventRule R) (s : State) (n : LaneId) : R s (s.takeClear n) := by
  unfold State.takeClear
  exact h.trans (h.closeLane s n .idle) (h.restPins _ n)

theorem takeResume (h : EventRule R) (s : State) (n : LaneId) : R s (s.takeResume n) := by
  unfold State.takeResume
  dsimp only
  split
  · exact h.trans (h.anyLane n _) (h.trans (h.anyLane n _) (h.settle _))
  · split
    · exact h.trans (h.anyLane n _) (h.trans (h.anyLane n _) (h.cause _))
    · exact h.trans (h.anyLane n _) (h.anyLane n _)

theorem takeStop (h : EventRule R) (s : State) (n : LaneId) : R s (s.takeStop n) := by
  unfold State.takeStop
  dsimp only
  split
  · exact h.trans (h.anyLane n _) (h.overtake n)
  · exact h.trans (h.produceAll s n _) (h.trans (h.closeLane _ n _) (h.trans (h.out _) (h.cause _)))

theorem takeAbort (h : EventRule R) (s : State) (n : LaneId) : R s (s.takeAbort n) := by
  unfold State.takeAbort
  dsimp only
  split
  · exact h.takeClear s n
  · exact h.trans (h.produceAll s n _) (h.trans (h.closeLane _ n _) (h.restPins _ n))

theorem takeLaneOrder (h : EventRule R) (s : State) (n : LaneId) (o : LaneOrder) (argument : Link) (interval : Byte) :
    R s (s.takeLaneOrder n o argument interval) := by
  unfold State.takeLaneOrder
  cases o with
  | start => unfold State.takeStart; exact h.anyLane n _
  | hold => unfold State.takeHold; exact h.anyLane n _
  | resume => exact h.takeResume s n
  | stop => exact h.takeStop s n
  | abort => exact h.takeAbort s n
  | clear => exact h.takeClear s n

theorem newLaneOrder (h : EventRule R) (s : State) (n : LaneId) (seq : Byte) (order : Option LaneOrder) (argument : Link)
    (interval : Byte) : R s (s.newLaneOrder n seq order argument interval) := by
  unfold State.newLaneOrder
  dsimp only
  split
  · exact h.trans (h.takeLaneOrder s n _ _ _) (h.produce _ n _)
  · exact h.produce s n _

end EventRule

end Sys2Proof.Machine
end


section
/-! SUPPORT. What every operation of a command keeps of the queue of commands, exchange memory, the link queues, the
pending counts and the in-service list. -/

namespace Sys2Proof.Machine

/-- `t` leaves the queue of commands, and keeps the form of memory, the places of the link queues, the pending counts and
the in-service list. -/
structure Light (s t : State) : Prop where
  pending : t.pending = s.pending
  mem : MemoryOk s → MemoryOk t
  link : LinkQueuesOk s → LinkQueuesOk t
  counts : CountsOk s → CountsOk t
  service : ServiceOk s → ServiceOk t

namespace Light

theorem refl (s : State) : Light s s := ⟨rfl, id, id, id, id⟩

theorem trans {s t u : State} (h : Light s t) (g : Light t u) : Light s u :=
  ⟨g.pending.trans h.pending, fun x => g.mem (h.mem x), fun x => g.link (h.link x), fun x => g.counts (h.counts x),
    fun x => g.service (h.service x)⟩

/-- What touches memory alone of these, and keeps its form. -/
theorem memory {s t : State} (hp : t.pending = s.pending) (hm : Memory.wf s.mem = true → Memory.wf t.mem = true)
    (hl : t.link = s.link) (hs : t.sources = s.sources) (ha : t.att.inService = s.att.inService) : Light s t where
  pending := hp
  mem := hm
  link := by unfold LinkQueuesOk; rw [hl]; exact id
  counts := by unfold CountsOk State.source; rw [hs]; exact id
  service := by unfold ServiceOk; rw [ha]; exact id

/-- What touches none of these. -/
theorem same {s t : State} (hp : t.pending = s.pending) (hm : t.mem = s.mem) (hl : t.link = s.link)
    (hs : t.sources = s.sources) (ha : t.att.inService = s.att.inService) : Light s t :=
  memory hp (by rw [hm]; exact id) hl hs ha

/-- What touches the link port alone of these. -/
theorem ofLink {s t : State} (hp : t.pending = s.pending) (hm : t.mem = s.mem) (hl : LinkQueuesOk s → LinkQueuesOk t)
    (hs : t.sources = s.sources) (ha : t.att = s.att) : Light s t where
  pending := hp
  mem := by unfold MemoryOk; rw [hm]; exact id
  link := hl
  counts := by unfold CountsOk State.source; rw [hs]; exact id
  service := by unfold ServiceOk; rw [ha]; exact id

/-- What touches the in-service list alone of these. -/
theorem ofService {s t : State} (hp : t.pending = s.pending) (hm : t.mem = s.mem) (hl : t.link = s.link)
    (hs : t.sources = s.sources) (ha : ServiceOk s → ServiceOk t) : Light s t where
  pending := hp
  mem := by unfold MemoryOk; rw [hm]; exact id
  link := by unfold LinkQueuesOk; rw [hl]; exact id
  counts := by unfold CountsOk State.source; rw [hs]; exact id
  service := ha

/-- What brings everything to its values after reset, but for the queue of commands and well-formed memory. -/
theorem ofReset {s t : State} (hp : t.pending = s.pending) (hm : MemoryOk s → MemoryOk t) (hl : t.link = {})
    (hs : t.sources = State.reset.sources) (ha : t.att = {}) : Light s t where
  pending := hp
  mem := hm
  link := fun _ => by unfold LinkQueuesOk; rw [hl]; exact ⟨Nat.zero_le _, Nat.zero_le _⟩
  counts := fun _ i => by
    unfold State.source
    rw [hs]
    by_cases hi : i.val < 16 <;> simp [State.reset, hi]
  service := fun _ => by unfold ServiceOk; rw [ha]; simp

/-- A source whose count stays within bounds. -/
theorem setSource {s : State} (i : SourceId) (r : Source)
    (h : r.count ≤ (s.source i).count ∨ r.count ≤ Config.maxPending) : Light s (s.setSource i r) where
  pending := by simp
  mem := by unfold MemoryOk; simp
  link := by unfold LinkQueuesOk; simp
  counts := fun hc j => by
    by_cases hj : j = i
    · subst hj
      rw [setSource_source_self]
      exact h.elim (fun h => le_trans h (hc j)) id
    · rw [setSource_source_ne _ _ _ _ hj]; exact hc j
  service := by unfold ServiceOk; simp

/-- The primitive updates of an event. -/
theorem rule : EventRule Light where
  refl := refl
  trans := trans
  lane := fun n f _ => same (by simp) (by simp) (by simp) (by simp) (by simp)
  source := fun i r h => setSource i r h
  cause := fun c => same rfl rfl rfl rfl rfl
  out := fun p => same (by simp) (by simp) (by simp) (by simp) (by simp)
  link := fun f h => ofLink (by simp) (by simp)
    (fun hl => by unfold LinkQueuesOk; rw [updLink_link]; exact ⟨h.1 hl.1, h.2 hl.2⟩) (by simp) (by simp)
  beat := fun b f => same rfl rfl rfl rfl rfl
  anyLane := fun n f => same (by simp) (by simp) (by simp) (by simp) (by simp)
  enqueue := fun e => same rfl rfl rfl rfl rfl
  overtake := fun n => same (by simp) (by simp) (by simp) (by simp) (by simp)
  choice := fun k => same rfl rfl rfl rfl rfl
  static := fun _ => same rfl rfl rfl rfl rfl
  masks := fun _ => same rfl rfl rfl rfl rfl
  mark := fun _ => same rfl rfl rfl rfl rfl

theorem setHalt (s : State) (h : HaltRecord) : Light s (s.setHalt h) :=
  same (by simp) (by simp) (by simp) (by simp) (by simp)

/-- The end of a transaction with well-formed memory. -/
theorem endTransaction {s : State} {m : List Host.Cell} (h : Memory.wf s.mem = true → Memory.wf m = true) :
    Light s (s.endTransaction m) :=
  memory rfl h rfl rfl rfl

/-! Grants and transactions. -/

theorem grant (s : State) (r : Request) : Light s (s.grant r) := by
  obtain ⟨-, hm, -, -, -, -, hp, hs, -, -, -, -, hl, ha, -, -⟩ := grant_frame s r
  exact same hp hm hl hs (by rw [ha])

theorem landWord (s : State) (ws : Between) : Light s (s.landWord ws) := by
  unfold State.landWord
  split
  · exact memory rfl (fun h => writeSeq_wf h _ _) rfl rfl rfl
  · exact refl s

theorem endCueFetch (n : LaneId) (ws : Between) (s : State) : Light s (State.endCueFetch n ws s) := by
  have hland : Light s (s.endTransaction (landAll s.mem ws)).settle :=
    (endTransaction (fun h => landAll_wf h _)).trans (rule.settle _)
  unfold State.endCueFetch
  split
  · exact hland
  · dsimp only
    split
    · exact hland
    · split
      · refine trans ?_ (rule.settle _)
        split
        · refine trans ?_ (rule.foundArmed _ n _)
          exact endTransaction (fun h => landAll_wf (readSeq_wf (readSeq_wf h _ _) _ _) _)
        · refine trans ?_ (rule.tornAttempt _ n _)
          exact endTransaction (fun h => landAll_wf (readSeq_wf (readSeq_wf h _ _) _ _) _)
      · refine trans ?_ ((rule.foundNotArmed _ n _ _).trans (rule.settle _))
        exact endTransaction (fun h => landAll_wf (readSeq_wf h _ _) _)

theorem endTailReread (n : LaneId) (ws : Between) (s : State) : Light s (State.endTailReread n ws s) := by
  unfold State.endTailReread
  split
  · exact (endTransaction (fun h => landAll_wf h _)).trans (rule.settle _)
  · have hread : ∀ is, Light s (s.endTransaction (landAll (readSeq is ws s.mem).2.2 (readSeq is ws s.mem).2.1)) :=
      fun is => endTransaction (fun h => landAll_wf (readSeq_wf h _ _) _)
    dsimp only
    split
    · exact (hread _).trans (rule.settle _)
    · split
      · exact (hread _).trans ((rule.foundTail _ n _ _ _).trans (rule.settle _))
      · exact (hread _).trans ((rule.tornAttempt _ n _).trans (rule.settle _))

theorem endWriteBack (ws : Between) (s : State) : Light s (State.endWriteBack ws s) := by
  unfold State.endWriteBack
  split
  · exact endTransaction (fun h => landAll_wf h _)
  · refine trans ?_ ((rule.entryLanded _ _).trans (rule.settle _))
    exact memory rfl (fun h => writeSeq_wf h _ _) rfl rfl rfl

theorem snapshotWritten (s : State) (i : Fin 20) : Light s (s.snapshotWritten i) := by
  unfold State.snapshotWritten
  dsimp only
  split
  · split
    · exact same rfl rfl rfl rfl rfl
    · exact same rfl rfl rfl rfl rfl
  · exact same rfl rfl rfl rfl rfl

theorem endStatusItem (ws : Between) (s : State) : Light s (State.endStatusItem ws s) := by
  unfold State.endStatusItem
  split
  · exact (endTransaction (fun h => writeSeq_wf h _ _)).trans (snapshotWritten _ _)
  · exact refl s

/-! Orders. -/

theorem endLaneRead (n : LaneId) (ws : Between) (s : State) : Light s (State.endLaneRead n ws s) := by
  have hread : Light s ((s.endTransaction (s.readLaneEntry n ws).2.2).passInterval n
      (laneInterval (s.readLaneEntry n ws).2.1)) := by
    unfold State.passInterval State.readLaneEntry
    refine trans ?_ (rule.anyLane n _)
    exact endTransaction (fun h => landAll_wf (readSeq_wf h _ _) _)
  unfold State.endLaneRead
  dsimp only
  generalize (s.endTransaction (s.readLaneEntry n ws).2.2).passInterval n (laneInterval (s.readLaneEntry n ws).2.1) = t
    at *
  split
  · exact hread.trans (rule.anyLane n _)
  · refine hread.trans (trans ?_ (rule.newLaneOrder _ n _ _ _ _))
    exact same rfl rfl rfl rfl rfl

theorem takeDeviceOrder (s : State) (seq : Byte) (o : DeviceOrder) (a b : Word) :
    Light s (s.takeDeviceOrder seq o a b) := by
  by_cases ho : o.answersAtOnce = true
  · exact rule.takeDeviceOrder s seq o a b ho
  · cases o with
    | applySetup => exact same rfl rfl rfl rfl rfl
    | snapshot => exact same rfl rfl rfl rfl rfl
    | _ => exact absurd rfl ho

theorem newDeviceOrder (s : State) (seq : Byte) (order : Option DeviceOrder) (a b : Word) :
    Light s (s.newDeviceOrder seq order a b) := by
  unfold State.newDeviceOrder
  split
  · exact rule.enqueue _
  · rename_i o
    dsimp only
    split
    · exact rule.enqueue _
    · have htaken : Light s (if o.answersAtOnce = true then
          (s.takeDeviceOrder seq o a b).enqueue (deviceAnswer seq .ok 0) else s.takeDeviceOrder seq o a b) := by
        split
        · exact (takeDeviceOrder s seq o a b).trans (rule.enqueue _)
        · exact takeDeviceOrder s seq o a b
      split
      · exact htaken.trans (rule.settle _)
      · exact htaken

theorem endDeviceRead (ws : Between) (s : State) : Light s (State.endDeviceRead ws s) := by
  unfold State.endDeviceRead
  dsimp only
  split
  · exact (endTransaction (fun h => landAll_wf (readSeq_wf h _ _) _)).trans (rule.settle _)
  · refine trans ?_ (newDeviceOrder _ _ _ _ _)
    exact memory rfl (fun h => landAll_wf (readSeq_wf (readSeq_wf h _ _) _ _) _) rfl rfl rfl

theorem setupTaken (s : State) (ws : List Word) (pins : BitVec 8) : Light s (s.setupTaken ws pins) where
  pending := rfl
  mem := id
  link := fun _ => ⟨Nat.zero_le _, Nat.zero_le _⟩
  counts := fun _ i => by simp [State.setupTaken, State.source, setupSources]
  service := id

theorem endSetupRead (pins : BitVec 8) (ws : Between) (s : State) : Light s (State.endSetupRead pins ws s) := by
  unfold State.endSetupRead
  split
  · have hwf : MemoryOk s → Memory.wf (landAll (readSeq (List.range 128) ws s.mem).2.2
        (readSeq (List.range 128) ws s.mem).2.1) = true := fun h => landAll_wf (readSeq_wf h _ _) _
    dsimp only
    generalize readSeq (List.range 128) ws s.mem = r at *
    have hread : Light s { s.endTransaction (landAll r.2.2 r.2.1) with devOut := .none_ } :=
      memory rfl hwf rfl rfl rfl
    split
    · exact hread.trans ((setupTaken _ _ _).trans (rule.enqueue _))
    · exact hread.trans (rule.enqueue _)
  · exact refl s

/-! The control codes and the halt trip. -/

theorem softResetTaken (k : Nat) (s : State) : Light s (s.softResetTaken k) :=
  ofReset rfl (fun h => writeSeq_wf h _ _) rfl rfl rfl

theorem powerOn (s : State) : Light s s.powerOn := ofReset rfl (fun _ => rfl) rfl rfl rfl

theorem clearDone (s : State) : Light s s.clearDone := by
  unfold State.clearDone
  split
  · exact same rfl rfl rfl rfl rfl
  · exact refl s

theorem trip (s : State) (cause : HaltCause) (line : Fin 8) : Light s (s.trip cause line) := by
  obtain ⟨hframe, -, -, -, -, -, hlink, hatt, -⟩ := trip_tripped s cause _ line rfl
  have hmem : (s.trip cause line).mem = s.mem := by rw [hframe]
  have hsources : (s.trip cause line).sources = s.sources := by rw [hframe]
  have hservice : (s.trip cause line).att.inService = s.att.inService := by rw [hatt]
  refine ⟨by rw [hframe], ?_, ?_, ?_, ?_⟩
  · unfold MemoryOk; rw [hmem]; exact id
  · unfold LinkQueuesOk; rw [hlink]; exact fun h => ⟨h.1, Nat.zero_le _⟩
  · unfold CountsOk State.source; rw [hsources]; exact id
  · unfold ServiceOk; rw [hservice]; exact id

theorem haltCause (s : State) (cause : HaltCause) (line : Fin 8) : Light s (s.haltCause cause line) := by
  unfold State.haltCause
  split
  · exact trip s cause line
  · exact (rule.cause _).trans (setHalt _ _)
  · exact refl s
  · exact refl s

theorem releaseTaken (s : State) : Light s s.releaseTaken := by
  rw [releaseTaken_frame]
  exact same rfl rfl rfl rfl rfl

/-! The attention unit. -/

/-- A cause taken into service stands above the entries before it (R156, R158). -/
theorem readTake (s : State) : Light s s.readTake := by
  unfold State.readTake
  split
  · exact same rfl rfl rfl rfl rfl
  · rename_i c hc
    refine ofService rfl rfl rfl rfl (fun ⟨hrise, hlevel⟩ => ?_)
    have hlt : s.att.topLevel < s.att.levelOf c := by
      have helig : s.att.eligible c = true := by
        have hfind : ∀ lv, allCauses.find? (fun c => s.att.eligible c && s.att.levelOf c == lv) = some c →
            s.att.eligible c = true := by
          intro lv h
          have := List.find?_some h
          exact (Bool.and_eq_true_iff.mp this).1
        unfold Attention.mostUrgent at hc
        rcases Option.or_eq_some_iff.mp hc with h | ⟨_, h⟩
        · exact hfind 3 h
        · rcases Option.or_eq_some_iff.mp h with h | ⟨_, h⟩
          · exact hfind 2 h
          · exact hfind 1 h
      unfold Attention.eligible at helig
      simpa using (Bool.and_eq_true_iff.mp helig).2
    have hrange : 1 ≤ s.att.levelOf c ∧ s.att.levelOf c ≤ 3 := by
      rw [Attention.levelOf_eq]
      split
      · decide
      · split <;> decide
    have htop : ∀ e ∈ s.att.inService, e.level ≤ s.att.topLevel := by
      intro e he
      obtain ⟨es, last, hlast⟩ : ∃ es last, s.att.inService = es ++ [last] :=
        ⟨_, _, (List.dropLast_append_getLast (List.ne_nil_of_mem he)).symm⟩
      rw [Attention.topLevel_eq]
      rw [hlast] at hrise he ⊢
      simp only [List.map_append, List.map_cons, List.map_nil, List.pairwise_append, List.mem_map,
        List.mem_singleton, List.mem_append, List.getLast?_append, List.getLast?_singleton] at hrise he ⊢
      rcases he with he | rfl
      · exact Nat.le_of_lt (hrise.2.2 _ ⟨e, he, rfl⟩ _ rfl)
      · exact Nat.le_refl _
    constructor
    · show ((s.att.inService ++ [_]).map Service.level).Pairwise (· < ·)
      rw [List.map_append, List.pairwise_append]
      refine ⟨hrise, by simp, ?_⟩
      intro x hx y hy
      obtain ⟨e, he, rfl⟩ := List.mem_map.mp hx
      simp only [List.map_cons, List.map_nil, List.mem_singleton] at hy
      subst hy
      exact Nat.lt_of_le_of_lt (htop e he) hlt
    · intro e he
      rcases List.mem_append.mp he with he | he
      · exact hlevel e he
      · rw [List.mem_singleton.mp he]; exact hrange

theorem writeEnd (s : State) : Light s s.writeEnd := by
  refine ofService rfl rfl rfl rfl (fun ⟨hrise, hlevel⟩ => ?_)
  unfold State.writeEnd Attention.endLast
  split
  · exact ⟨hrise, hlevel⟩
  · exact ⟨hrise.sublist ((List.dropLast_sublist _).map _), fun e he => hlevel e (List.dropLast_subset _ he)⟩

/-! The host's accesses, timed events and the link. -/

theorem writeMemory (s : State) (w : HostWrite) : Light s (s.writeMemory w) := by
  unfold State.writeMemory
  split
  · exact refl s
  · exact memory rfl (fun h => landHostWrite_wf h w) rfl rfl rfl

theorem tick (s : State) : Light s s.tick := by
  unfold State.tick
  split
  · exact same rfl rfl rfl rfl rfl
  · exact refl s

theorem beatExpires (s : State) (b : Fin 8) : Light s (s.beatExpires b) := by
  unfold State.beatExpires
  split
  · exact ((rule.sourceEvent s _).trans (rule.beat _ _)).trans (rule.settle _)
  · exact refl s

theorem pulseEnds (s : State) (n : LaneId) : Light s (s.pulseEnds n) := by
  unfold State.pulseEnds
  split
  · split
    · exact ((rule.firing _ _).trans (rule.out _)).trans (rule.settle _)
    · exact refl s
  · exact refl s

theorem limitExpires (s : State) (n : LaneId) : Light s (s.limitExpires n) := by
  unfold State.limitExpires
  split
  · split
    · split
      · exact (rule.laneFault s n _ _).trans (rule.settle _)
      · exact ((rule.anyLane _ _).trans (rule.settle _)).trans (rule.anyLane _ _)
    · exact refl s
  · exact refl s

theorem revisitExpires (s : State) (n : LaneId) : Light s (s.revisitExpires n) := by
  unfold State.revisitExpires
  split
  · exact rule.anyLane _ _
  · exact refl s

theorem sampleLine (s : State) (i : Fin 8) (level : Bool) : Light s (s.sampleLine i level) := by
  unfold State.sampleLine
  dsimp only
  split
  · exact same rfl rfl rfl rfl rfl
  · exact same rfl rfl rfl rfl rfl

theorem inputSampled (s : State) (i : Fin 8) (level : Bool) : Light s (s.inputSampled i level) := by
  unfold State.inputSampled
  split
  · refine trans (sampleLine s i level) ?_
    dsimp only
    split
    · split
      · exact haltCause _ _ _
      · exact (rule.sourceEvent _ _).trans (rule.settle _)
    · exact refl _
  · exact refl s

theorem setRx (s : State) (r : Receiver) : Light s (s.setRx r) := ofLink rfl rfl id rfl rfl

theorem acceptFrame (s : State) (data : Byte) : Light s (s.acceptFrame data) := by
  unfold State.acceptFrame
  split
  · exact refl s
  · split
    · split
      · exact haltCause _ _ _
      · exact refl s
    · exact (rule.linkEvent _ _).trans (rule.settle _)

theorem frameJudged (s : State) (data : Byte) (p b : Bool) : Light s (s.frameJudged data p b) := by
  unfold State.frameJudged
  split
  · split
    · exact ((setRx _ _).trans (rule.link _ (linkFits_same rfl rfl))).trans (rule.cause _)
    · exact ((setRx _ _).trans (rule.link _ (linkFits_same rfl rfl))).trans (rule.cause _)
    · exact (setRx _ _).trans (acceptFrame _ _)
  · exact refl s

theorem frameSent (s : State) : Light s s.frameSent := by
  unfold State.frameSent
  split
  · refine rule.link _ ⟨fun h => ?_, fun h => ?_⟩
    · rw [(begin_queues _ _).1]; exact h
    · exact le_trans (begin_queues _ _).2 h
  · exact refl s

end Light

/-- What every light operation keeps, every command keeps. -/
theorem kept_of_light {P : State → Prop} (h : ∀ {s t : State}, Light s t → P s → P t) : Kept P where
  powerOn := h (Light.powerOn _)
  clearDone := h (Light.clearDone _)
  softReset := fun k => h (Light.softResetTaken k _)
  halt := fun c i => h (Light.haltCause _ c i)
  release := fun hs _ => h (Light.releaseTaken _) hs
  refuse := h (Light.same rfl rfl rfl rfl rfl)
  nudge := fun _ => h (Light.same rfl rfl rfl rfl rfl)
  take := h (Light.readTake _)
  endService := h (Light.writeEnd _)
  status := h (Light.same rfl rfl rfl rfl rfl)
  memory := fun w => h (Light.writeMemory _ w)
  grant := fun hs _ => h (Light.grant _ _) hs
  landWord := fun ws => h (Light.landWord _ ws)
  laneRead := fun n ws hs _ => h (Light.endLaneRead n ws _) hs
  deviceRead := fun ws hs _ => h (Light.endDeviceRead ws _) hs
  setupRead := fun pins ws hs _ => h (Light.endSetupRead pins ws _) hs
  cueFetch := fun n ws hs _ => h (Light.endCueFetch n ws _) hs
  tailReread := fun n ws hs _ => h (Light.endTailReread n ws _) hs
  writeBack := fun ws hs _ => h (Light.endWriteBack ws _) hs
  statusItem := fun ws hs _ => h (Light.endStatusItem ws _) hs
  beat := fun b => h (Light.beatExpires _ b)
  pulse := fun n => h (Light.pulseEnds _ n)
  limit := fun n => h (Light.limitExpires _ n)
  revisit := fun n => h (Light.revisitExpires _ n)
  sample := fun i level => h (Light.inputSampled _ i level)
  frame := fun data p b => h (Light.frameJudged _ data p b)
  frameSent := h (Light.frameSent _)
  receiver := fun r => h (Light.setRx _ r)

/-- The form of memory is an invariant (R139 to R141). -/
theorem memoryOk_invariant : Invariant MemoryOk where
  toKept := kept_of_light Light.mem
  queue := fun _ => id
  choice := fun _ => id
  tick := (Light.tick _).mem

/-- The places of the link queues are an invariant (R130, R133). -/
theorem linkQueuesOk_invariant : Invariant LinkQueuesOk where
  toKept := kept_of_light Light.link
  queue := fun _ => id
  choice := fun _ => id
  tick := (Light.tick _).link

/-- The bound of the pending counts is an invariant (R83). -/
theorem countsOk_invariant : Invariant CountsOk where
  toKept := kept_of_light Light.counts
  queue := fun _ => id
  choice := fun _ => id
  tick := (Light.tick _).counts

/-- The rising levels of the in-service list are an invariant (R156). -/
theorem serviceOk_invariant : Invariant ServiceOk where
  toKept := kept_of_light Light.service
  queue := fun _ => id
  choice := fun _ => id
  tick := (Light.tick _).service

/-- Settles O3: every operation of a command leaves the queue of commands. -/
theorem everyCommandCompletes : Obligations.EveryCommandCompletes := by
  intro c s
  have hqueue : Kept (fun t => t.pending = s.pending) := kept_of_light (fun h hs => h.pending.trans hs)
  exact hqueue.exec c rfl

/-- Settles O57: the form of memory is an invariant of the commands, and of the passing of time. -/
theorem everyStepKeepsMemoryForm : Obligations.EveryStepKeepsMemoryForm :=
  fun _ _ hs ht => memoryOk_invariant.step hs ht

end Sys2Proof.Machine
end


section
/-! SUPPORT. The places of the write-back queue (R144, R147): what each operation leaves of them. -/

namespace Sys2Proof.Machine

/-- `k` places more than those filled and reserved are within the sixteen (R144, R147); while the device entry is read no
device answer is outstanding (R167). -/
def Spare (k : Nat) (s : State) : Prop :=
  s.wbq.length + s.reserved + k ≤ Config.writeBackPlaces ∧ (s.port = some .deviceEntry → s.devOut = .none_)

/-- With nothing more asked for it is the invariant. -/
theorem spare_zero (s : State) : Spare 0 s ↔ CapacityOk s := Iff.rfl

/-- The write-back queue, the port and the outstanding device answer are the same. -/
def SamePlaces (s t : State) : Prop := t.wbq = s.wbq ∧ t.port = s.port ∧ t.devOut = s.devOut

theorem SamePlaces.rule : OrderRule SamePlaces where
  refl := fun _ => ⟨rfl, rfl, rfl⟩
  trans := fun ⟨h1, h2, h3⟩ ⟨g1, g2, g3⟩ => ⟨g1.trans h1, g2.trans h2, g3.trans h3⟩
  lane := fun n f _ => ⟨by simp, by simp, by simp⟩
  source := fun i r _ => ⟨by simp, by simp, by simp⟩
  cause := fun _ => ⟨rfl, rfl, rfl⟩
  out := fun p => ⟨by simp, by simp, by simp⟩
  link := fun f _ => ⟨by simp, by simp, by simp⟩
  beat := fun _ _ => ⟨rfl, rfl, rfl⟩
  static := fun _ => ⟨rfl, rfl, rfl⟩
  masks := fun _ => ⟨rfl, rfl, rfl⟩
  mark := fun _ => ⟨rfl, rfl, rfl⟩

/-- A transaction under way stands at the port. -/
theorem underWay_iff {s : State} {r : Request} :
    s.underWay r = true ↔ ∃ x, s.port = some x ∧ x.serves r = true := by
  unfold State.underWay
  cases s.port <;> simp

/-- A device entry read under way stands at the port. -/
theorem underWay_deviceEntry {s : State} (h : s.underWay .deviceEntry = true) : s.port = some .deviceEntry := by
  obtain ⟨x, hx, hserves⟩ := underWay_iff.mp h
  cases x <;> simp [Transaction.serves] at hserves
  exact hx

/-- A cue fetch under way stands at the port, overtaken or not. -/
theorem underWay_cueFetch {s : State} {n : LaneId} (h : s.underWay (.cueFetch n) = true) :
    ∃ d, s.port = some (.cueFetch n d) := by
  obtain ⟨x, hx, hserves⟩ := underWay_iff.mp h
  cases x <;> simp [Transaction.serves] at hserves
  exact ⟨_, by rw [hx, hserves]⟩

namespace Spare

variable {k : Nat} {s t : State}

theorem mono {j : Nat} (h : Spare k s) (hj : j ≤ k) : Spare j s := ⟨by have := h.1; omega, h.2⟩

theorem same (h : Spare k s) (g : SamePlaces s t) : Spare k t := by
  obtain ⟨hw, hp, hd⟩ := g
  unfold Spare State.reserved at *
  rw [hw, hp, hd]
  exact h

/-- Room is a place more. -/
theorem ofRoom (h : Spare 0 s) (hr : 0 < s.room) : Spare 1 s := by
  refine ⟨?_, h.2⟩
  unfold State.room at hr
  have := h.1
  omega

/-- An entry takes a place. -/
theorem enqueue (h : Spare (k + 1) s) (e : WriteBack) : Spare k (s.enqueue e) := by
  refine ⟨?_, h.2⟩
  have : (s.enqueue e).reserved = s.reserved := rfl
  rw [this, enqueue_wbq, List.length_append, List.length_singleton]
  have := h.1
  omega

theorem updLane (h : Spare k s) (n : LaneId) (f : Lane → Lane) : Spare k (s.updLane n f) :=
  h.same ⟨by simp, by simp, by simp⟩

theorem overtake (h : Spare k s) (n : LaneId) : Spare k (s.overtake n) := by
  obtain ⟨hlen, hdev⟩ := h
  have hres := overtake_reserved s n
  rw [overtake_eq s s n rfl]
  refine ⟨?_, fun hp => hdev ?_⟩
  · rw [hres]; exact hlen
  · exact (overtake_answer s n (by intro m d; simp)).mp hp

theorem closeLane (h : Spare k s) (n : LaneId) (st : LaneState) : Spare k (s.closeLane n st) :=
  (h.updLane n _).overtake n

/-- An entry that a lane produces enters only where there is room (R47). -/
theorem produce (h : Spare 0 s) (n : LaneId) (e : WriteBack) : Spare 0 (s.produce n e) := by
  unfold State.produce
  split
  · rename_i hroom
    exact (h.ofRoom hroom.2).enqueue e
  · exact h.updLane n _

theorem produceAll (h : Spare 0 s) (n : LaneId) (es : List WriteBack) : Spare 0 (s.produceAll n es) := by
  unfold State.produceAll
  induction es generalizing s with
  | nil => exact h
  | cons e es ih => exact ih (h.produce n e)

/-- An entry into its reserved place (R144). -/
theorem produceReserved (h : Spare 1 s) (n : LaneId) (e : WriteBack) : Spare 0 (s.produceReserved n e) := by
  unfold State.produceReserved
  split
  · exact h.enqueue e
  · exact (h.enqueue _).updLane n _

theorem laneFault (h : Spare 0 s) (n : LaneId) (code : FaultCode) (m : Option Link) :
    Spare 0 (s.laneFault n code m) := by
  unfold State.laneFault
  exact (((h.produceAll n _).closeLane n _).updLane n _).same
    (SamePlaces.rule.trans (SamePlaces.rule.out _) (SamePlaces.rule.cause _))

/-- A cue leaves with its entry in a place that is free (R72). -/
theorem leaveQueue (h : Spare 1 s) (n : LaneId) (c : Copy) (f : Firing) (e : Ending) :
    Spare 0 (s.leaveQueue n c f e) := by
  unfold State.leaveQueue
  dsimp only
  split
  · exact (((h.enqueue _).produceAll n _).closeLane n _).same (SamePlaces.rule.cause _)
  · split
    · exact (h.enqueue _).updLane n _
    · exact ((h.enqueue _).updLane n _).same (SamePlaces.rule.cause _)

theorem laneGo (h : Spare 0 s) (n : LaneId) : Spare 0 (s.laneGo n) := by
  unfold State.laneGo
  split
  · exact h.updLane n _
  · exact h.laneFault n _ _
  · split
    · exact h.same (SamePlaces.rule.complete _ _ _)
    · unfold State.beginWait
      split
      · exact h.same (SamePlaces.rule.firing _ _)
      · exact h.same (SamePlaces.rule.fireLane _ _ _)
      · split
        · exact h.same (SamePlaces.rule.firing _ _)
        · split
          · split
            · exact h.same (SamePlaces.rule.trans (SamePlaces.rule.source _ _ (Or.inl (Nat.sub_le _ _)))
                (SamePlaces.rule.fireLane _ _ _))
            · exact h.same (SamePlaces.rule.firing _ _)
          · split
            · exact h.same (SamePlaces.rule.firing _ _)
            · split
              · exact h.laneFault n _ _
              · exact h.same (SamePlaces.rule.trans (SamePlaces.rule.firing _ _) (SamePlaces.rule.fireLane _ _ _))
      · split
        · exact (h.same (t := s.updLink _) ⟨by simp, by simp, by simp⟩).same (SamePlaces.rule.fireLane _ _ _)
        · exact h.same (SamePlaces.rule.firing _ _)
  · exact h

/-- A small action: what enters the queue enters where there is room (R144). -/
theorem follow (h : Spare 0 s) (hf : s.follow = some t) : Spare 0 t := by
  rcases follow_cases hf with ⟨n, hroom, _, rfl⟩ | ⟨n, hroom, _, rfl⟩ | ⟨n, _, rfl | rfl⟩
  · unfold State.enterOwed
    split
    · exact h
    · exact ((h.ofRoom hroom).enqueue _).updLane n _
  · unfold State.releasePending
    split
    · split
      · exact (h.ofRoom hroom).leaveQueue n _ _ _
      · exact h
    · exact h
  · exact h.laneGo n
  · exact (h.same (t := { s with choices := s.choices + 1 }) ⟨rfl, rfl, rfl⟩).laneGo n

theorem settle (h : Spare 0 s) : Spare 0 s.settle := settle_keeps (Spare 0) (fun _ _ hs hf => hs.follow hf) h

theorem faultLanes (code : FaultCode) : ∀ (j : Nat) (ns : List LaneId) {s : State}, Spare 0 s →
    Spare 0 (Machine.faultLanes j ns code s) := by
  intro j
  induction j with
  | zero => intro ns s h; exact h
  | succ j ih =>
    intro ns s h
    match ns with
    | [] => exact h
    | [n] => exact h.laneFault n code none
    | n :: n' :: ns =>
      exact ih _ ((h.same (t := { s with choices := s.choices + 1 }) ⟨rfl, rfl, rfl⟩).laneFault _ code none)

theorem haltCause (h : Spare 0 s) (cause : HaltCause) (line : Fin 8) : Spare 0 (s.haltCause cause line) := by
  unfold State.haltCause
  split
  · have hlanes := faultLanes cause.faultCode s.tripLanes.length s.tripLanes
      (h.same (t := { s with engine := .halted }) ⟨rfl, rfl, rfl⟩)
    obtain ⟨K, -, N, -, R, -, htrip⟩ := trip_eq (s := s) cause line rfl
    rw [htrip]
    exact hlanes.same ⟨rfl, rfl, rfl⟩
  · exact h.same ⟨by simp [State.furtherTrip], by simp [State.furtherTrip], by simp [State.furtherTrip]⟩
  · exact h
  · exact h

/-! Grants and the ends of transactions. -/

/-- A grant reserves a place only where there is room (R144). -/
theorem grant {r : Request} (h : Spare 0 s) (hc : s.portChoice = some r) : Spare 0 (s.grant r) := by
  obtain ⟨hfree, _, hmay⟩ := portChoice_grants hc
  have hlen := h.1
  unfold State.reserved at hlen
  rw [hfree] at hlen
  cases r with
  | writeBack => exact ⟨by simpa [State.grant, State.reserved] using hlen, by simp [State.grant]⟩
  | laneEntry n => exact ⟨by simpa [State.grant, State.reserved] using hlen, by simp [State.grant]⟩
  | deviceEntry =>
    obtain ⟨hdev, hroom⟩ := hmay
    have := (h.ofRoom hroom).1
    unfold State.reserved at this
    rw [hfree, hdev] at this
    exact ⟨by simpa [State.grant, State.reserved] using this, fun _ => hdev⟩
  | setupRead => exact ⟨by simpa [State.grant, State.reserved] using hlen, by simp [State.grant]⟩
  | cueFetch n =>
    have := (h.ofRoom hmay.1).1
    unfold State.reserved at this
    rw [hfree] at this
    have hport : Spare 0 { s with port := some (.cueFetch n false) } :=
      ⟨by simp [State.reserved] at this ⊢; omega, by simp⟩
    unfold State.grant
    exact hport.updLane n _
  | tailReread n =>
    have hport : Spare 0 { s with port := some (.tailReread n false) } := ⟨by simpa [State.reserved] using hlen, by simp⟩
    unfold State.grant
    exact hport.updLane n _
  | statusItem =>
    unfold State.grant
    dsimp only
    split
    · exact h
    · exact ⟨by simpa [State.reserved] using hlen, by simp⟩

/-- The end of a transaction frees the place it held: of a cue fetch or a device entry read, one more. -/
theorem endTransaction (h : Spare 0 s) (m : List Host.Cell) : Spare 0 (s.endTransaction m) := by
  refine ⟨?_, by simp [State.endTransaction]⟩
  have := h.1
  unfold State.reserved at this
  simp only [State.endTransaction, State.reserved]
  split at this <;> simp at this ⊢ <;> split at this <;> (try split) <;> simp_all <;> omega

/-- The end of a cue fetch releases its place (R144). -/
theorem endFetch (h : Spare 0 s) {n : LaneId} (hu : s.underWay (.cueFetch n) = true) (m : List Host.Cell) :
    Spare 1 (s.endTransaction m) := by
  obtain ⟨d, hp⟩ := underWay_cueFetch hu
  refine ⟨?_, by simp [State.endTransaction]⟩
  have := h.1
  unfold State.reserved at this
  rw [hp] at this
  simp [State.reserved, State.endTransaction] at this ⊢
  omega

/-- The end of a device entry read releases its place, and no device answer is outstanding (R167). -/
theorem endDevice (h : Spare 0 s) (hu : s.underWay .deviceEntry = true) (m : List Host.Cell) :
    Spare 1 (s.endTransaction m) ∧ s.devOut = .none_ := by
  have hp := underWay_deviceEntry hu
  have hdev := h.2 hp
  refine ⟨⟨?_, by simp [State.endTransaction]⟩, hdev⟩
  have := h.1
  unfold State.reserved at this
  rw [hp, hdev] at this
  simpa [State.reserved, State.endTransaction, hdev] using this

theorem foundNotArmed (h : Spare k s) (n : LaneId) (slot : Link) (head : Word) :
    Spare k (s.foundNotArmed n slot head) := by
  unfold State.foundNotArmed
  split
  · exact h.updLane n _
  · exact h.updLane n _
  · split
    · split
      · split
        · exact h.updLane n _
        · exact h.updLane n _
      · split
        · exact h.updLane n _
        · exact h.updLane n _
    · exact h.updLane n _
  · exact h.updLane n _
  · exact h.updLane n _
  · exact h

theorem tornAttempt (h : Spare k s) (n : LaneId) (f : Fetch) : Spare k (s.tornAttempt n f) := by
  unfold State.tornAttempt
  split
  · exact h.updLane n _
  · exact h

theorem foundArmed (h : Spare 1 s) (n : LaneId) (c : Copy) : Spare 0 (s.foundArmed n c) := by
  unfold State.foundArmed
  split
  · exact (h.produceReserved n _).updLane n _
  · exact (h.produceReserved n _).updLane n _

theorem endCueFetch (h : Spare 0 s) (n : LaneId) (ws : Between) (hu : s.underWay (.cueFetch n) = true) :
    Spare 0 (State.endCueFetch n ws s) := by
  have hend := h.endFetch hu
  unfold State.endCueFetch
  split
  · exact ((hend _).mono (Nat.zero_le _)).settle
  · dsimp only
    split
    · exact ((hend _).mono (Nat.zero_le _)).settle
    · split
      · split
        · exact ((hend _).foundArmed n _).settle
        · exact (((hend _).tornAttempt n _).mono (Nat.zero_le _)).settle
      · exact (((hend _).foundNotArmed n _ _).mono (Nat.zero_le _)).settle

theorem foundTail (h : Spare k s) (n : LaneId) (tail : Link) (head w1 : Word) : Spare k (s.foundTail n tail head w1) := by
  unfold State.foundTail
  dsimp only
  split
  · exact h.updLane n _
  · split
    · exact h.updLane n _
    · split
      · exact h.updLane n _
      · exact h.updLane n _

theorem endTailReread (h : Spare 0 s) (n : LaneId) (ws : Between) : Spare 0 (State.endTailReread n ws s) := by
  unfold State.endTailReread
  split
  · exact (h.endTransaction _).settle
  · dsimp only
    split
    · exact (h.endTransaction _).settle
    · split
      · exact ((h.endTransaction _).foundTail n _ _ _).settle
      · exact ((h.endTransaction _).tornAttempt n _).settle

theorem entryLanded (h : Spare k s) (e : WriteBack) : Spare k (s.entryLanded e) := by
  unfold State.entryLanded
  split
  · split
    · exact h.updLane _ _
    · exact h
  · split
    · split
      · exact h
      · exact h.updLane _ _
    · exact h
  · exact h.same (SamePlaces.rule.cause _)
  · exact h
  · exact h
  · exact h
  · exact h

theorem endWriteBack (h : Spare 0 s) (ws : Between) : Spare 0 (State.endWriteBack ws s) := by
  unfold State.endWriteBack
  split
  · exact h.endTransaction _
  · rename_i e q hq
    have hend := h.endTransaction (writeSeq s.writesUnderWay ws s.mem)
    have hlanded : Spare 0 { s.endTransaction (writeSeq s.writesUnderWay ws s.mem) with wbq := q } := by
      refine ⟨?_, hend.2⟩
      have hlen := hend.1
      rw [show (s.endTransaction (writeSeq s.writesUnderWay ws s.mem)).wbq = e :: q from hq, List.length_cons] at hlen
      show q.length + (s.endTransaction (writeSeq s.writesUnderWay ws s.mem)).reserved + 0 ≤ _
      omega
    exact (hlanded.entryLanded e).settle

/-- An outstanding device answer gives its reserved place back when it is produced (R165, R169). -/
theorem answered {x : State} (h : Spare 0 s) (hp : s.port ≠ some .deviceEntry) (hd : s.devOut ≠ .none_)
    (hx : x.wbq = s.wbq ∧ x.port = s.port ∧ x.devOut = .none_) : Spare 1 x := by
  obtain ⟨hw, hport, hdev⟩ := hx
  refine ⟨?_, fun _ => hdev⟩
  have := h.1
  unfold State.reserved at *
  rw [hw, hport, hdev]
  simp [hp, hd] at this ⊢
  omega

theorem endStatusItem (h : Spare 0 s) (ws : Between) : Spare 0 (State.endStatusItem ws s) := by
  unfold State.endStatusItem
  split
  · rename_i i _ _ _
    have hend := h.endTransaction (writeSeq s.writesUnderWay ws s.mem)
    generalize hu : s.endTransaction (writeSeq s.writesUnderWay ws s.mem) = u at *
    have hfree : u.port = none := by rw [← hu]; rfl
    unfold State.snapshotWritten
    dsimp only
    have hsame : Spare 0 { u with snapSet := u.snapSet &&& ~~~(1#20 <<< i.val) } := hend.same ⟨rfl, rfl, rfl⟩
    split
    · rename_i seq hdev
      split
      · refine Spare.enqueue ?_ _
        exact hsame.answered (by simp [hfree]) (by rw [hdev]; simp) ⟨rfl, rfl, rfl⟩
      · exact hsame
    · exact hsame
  · exact h

theorem endSetupRead (h : Spare 0 s) (pins : BitVec 8) (ws : Between) : Spare 0 (State.endSetupRead pins ws s) := by
  unfold State.endSetupRead
  split
  · rename_i seq hdev
    dsimp only
    generalize readSeq (List.range 128) ws s.mem = r
    have hfreed : Spare 1 { s.endTransaction (landAll r.2.2 r.2.1) with devOut := .none_ } :=
      (h.endTransaction (landAll r.2.2 r.2.1)).answered (by simp [State.endTransaction])
        (by simp [State.endTransaction, hdev]) ⟨rfl, rfl, rfl⟩
    refine Spare.enqueue ?_ _
    split
    · exact hfreed.same ⟨rfl, rfl, rfl⟩
    · exact hfreed
  · exact h

/-! Orders. -/

theorem restPins (h : Spare k s) (n : LaneId) : Spare k (s.restPins n) := by
  unfold State.restPins
  split
  · exact h
  · exact h.same (SamePlaces.rule.out _)

theorem takeLaneOrder (h : Spare 0 s) (n : LaneId) (o : LaneOrder) (argument : Link) (interval : Byte) :
    Spare 0 (s.takeLaneOrder n o argument interval) := by
  unfold State.takeLaneOrder
  cases o with
  | start => exact h.updLane n _
  | hold => exact h.updLane n _
  | resume =>
    dsimp only
    unfold State.takeResume
    dsimp only
    split
    · exact ((h.updLane n _).updLane n _).settle
    · split
      · exact ((h.updLane n _).updLane n _).same (SamePlaces.rule.cause _)
      · exact (h.updLane n _).updLane n _
  | stop =>
    dsimp only
    unfold State.takeStop
    dsimp only
    split
    · exact (h.updLane n _).overtake n
    · exact ((h.produceAll n _).closeLane n _).same (SamePlaces.rule.trans (SamePlaces.rule.out _) (SamePlaces.rule.cause _))
  | abort =>
    dsimp only
    unfold State.takeAbort State.takeClear
    dsimp only
    split
    · exact (h.closeLane n _).restPins n
    · exact ((h.produceAll n _).closeLane n _).restPins n
  | clear =>
    dsimp only
    unfold State.takeClear
    exact (h.closeLane n _).restPins n

theorem endLaneRead (h : Spare 0 s) (n : LaneId) (ws : Between) : Spare 0 (State.endLaneRead n ws s) := by
  have hread : Spare 0 ((s.endTransaction (s.readLaneEntry n ws).2.2).passInterval n
      (laneInterval (s.readLaneEntry n ws).2.1)) := by
    unfold State.passInterval
    exact (h.endTransaction _).updLane n _
  unfold State.endLaneRead
  dsimp only
  generalize (s.endTransaction (s.readLaneEntry n ws).2.2).passInterval n (laneInterval (s.readLaneEntry n ws).2.1) = t
    at *
  split
  · exact hread.updLane n _
  · have hseq : Spare 0 { t with lastSeq := t.lastSeq.set n.val (orderSeq (s.readLaneEntry n ws).1) } :=
      hread.same ⟨rfl, rfl, rfl⟩
    unfold State.newLaneOrder
    dsimp only
    split
    · exact (hseq.takeLaneOrder n _ _ _).produce n _
    · exact hseq.produce n _

/-- APPLY SETUP and SNAPSHOT keep the reserved place for their answer (R165, R169). -/
theorem takeOutstanding (h : Spare 1 s) (hp : s.port = none) (seq : Byte) (o : DeviceOrder) (a b : Word)
    (ho : o.answersAtOnce = false) : Spare 0 (s.takeDeviceOrder seq o a b) := by
  have hlen := h.1
  unfold State.reserved at hlen
  have hout : ∀ x : State, x.wbq = s.wbq → x.port = none → x.devOut ≠ .none_ → Spare 0 x := by
    intro x hw hport hdev
    refine ⟨?_, by rw [hport]; simp⟩
    unfold State.reserved
    rw [hw, hport]
    simp [hdev, hp] at hlen ⊢
    omega
  cases o with
  | applySetup => exact hout _ rfl hp (by simp [State.takeDeviceOrder])
  | snapshot => exact hout _ rfl hp (by simp [State.takeDeviceOrder, State.takeSnapshot])
  | _ => cases ho

theorem newDeviceOrder (h : Spare 1 s) (hp : s.port = none) (seq : Byte) (order : Option DeviceOrder) (a b : Word) :
    Spare 0 (s.newDeviceOrder seq order a b) := by
  unfold State.newDeviceOrder
  split
  · exact h.enqueue _
  · rename_i o
    dsimp only
    split
    · exact h.enqueue _
    · have htaken : Spare 0 (if o.answersAtOnce = true then
          (s.takeDeviceOrder seq o a b).enqueue (deviceAnswer seq .ok 0) else s.takeDeviceOrder seq o a b) := by
        split
        · rename_i ho
          exact (h.same (SamePlaces.rule.takeDeviceOrder s seq o a b ho)).enqueue _
        · rename_i ho
          exact h.takeOutstanding hp seq o a b (by simpa using ho)
      split
      · exact htaken.settle
      · exact htaken

theorem endDeviceRead (h : Spare 0 s) (ws : Between) (hu : s.underWay .deviceEntry = true) :
    Spare 0 (State.endDeviceRead ws s) := by
  unfold State.endDeviceRead
  dsimp only
  split
  · exact (h.endTransaction _).settle
  · have hfreed : ∀ m seq, Spare 1 { s.endTransaction m with devSeq := seq } :=
      fun m seq => (h.endDevice hu m).1.same ⟨rfl, rfl, rfl⟩
    exact newDeviceOrder (hfreed _ _) rfl _ _ _ _

theorem landWord (h : Spare 0 s) (ws : Between) : Spare 0 (s.landWord ws) := by
  unfold State.landWord
  split
  · have hkind : ∀ x : Transaction, (∀ n d, x.wordLanded = .cueFetch n d ↔ x = .cueFetch n d) ∧
        (x.wordLanded = .deviceEntry ↔ x = .deviceEntry) := by
      intro x
      cases x <;> simp [Transaction.wordLanded]
    obtain ⟨hlen, hdev⟩ := h
    cases hp : s.port with
    | none => exact ⟨by simpa [State.reserved, hp] using hlen, by simp⟩
    | some x =>
      rw [hp] at hdev
      refine ⟨?_, fun hx => hdev ?_⟩
      · cases x <;> simpa [State.reserved, hp, Transaction.wordLanded] using hlen
      · have : x.wordLanded = .deviceEntry := by simpa using hx
        rw [(hkind x).2.mp this]
  · exact h

/-! Timed events and the link. -/

theorem beatExpires (h : Spare 0 s) (b : Fin 8) : Spare 0 (s.beatExpires b) := by
  unfold State.beatExpires
  split
  · exact ((h.same (SamePlaces.rule.sourceEvent _ _)).same (SamePlaces.rule.beat _ _)).settle
  · exact h

theorem pulseEnds (h : Spare 0 s) (n : LaneId) : Spare 0 (s.pulseEnds n) := by
  unfold State.pulseEnds
  split
  · split
    · exact (h.same (SamePlaces.rule.trans (SamePlaces.rule.firing _ _) (SamePlaces.rule.out _))).settle
    · exact h
  · exact h

theorem limitExpires (h : Spare 0 s) (n : LaneId) : Spare 0 (s.limitExpires n) := by
  unfold State.limitExpires
  split
  · split
    · split
      · exact (h.laneFault n _ _).settle
      · exact ((h.updLane n _).settle).updLane n _
    · exact h
  · exact h

theorem revisitExpires (h : Spare 0 s) (n : LaneId) : Spare 0 (s.revisitExpires n) := by
  unfold State.revisitExpires
  split
  · exact h.updLane n _
  · exact h

theorem sampleLine (h : Spare k s) (i : Fin 8) (level : Bool) : Spare k (s.sampleLine i level) := by
  unfold State.sampleLine
  dsimp only
  split
  · exact h.same ⟨rfl, rfl, rfl⟩
  · exact h.same ⟨rfl, rfl, rfl⟩

theorem inputSampled (h : Spare 0 s) (i : Fin 8) (level : Bool) : Spare 0 (s.inputSampled i level) := by
  unfold State.inputSampled
  split
  · dsimp only
    split
    · split
      · exact (h.sampleLine i level).haltCause _ _
      · exact ((h.sampleLine i level).same (SamePlaces.rule.sourceEvent _ _)).settle
    · exact h.sampleLine i level
  · exact h

theorem frameJudged (h : Spare 0 s) (data : Byte) (p b : Bool) : Spare 0 (s.frameJudged data p b) := by
  have hrx : ∀ r, Spare 0 (s.setRx r) := fun r => h.same ⟨rfl, rfl, rfl⟩
  unfold State.frameJudged
  split
  · split
    · exact (hrx .waitHigh).same ⟨by simp, by simp, by simp⟩
    · exact (hrx .hunt).same ⟨by simp, by simp, by simp⟩
    · unfold State.acceptFrame
      split
      · exact hrx _
      · split
        · split
          · exact (hrx _).haltCause _ _
          · exact hrx _
        · exact ((hrx _).same (SamePlaces.rule.linkEvent _ _)).settle
  · exact h

theorem frameSent (h : Spare 0 s) : Spare 0 s.frameSent := by
  unfold State.frameSent
  split
  · exact h.same ⟨by simp, by simp, by simp⟩
  · exact h

/-- A state with no entry, no transaction and no outstanding answer. -/
theorem empty {s : State} (hw : s.wbq = []) (hp : s.port = none) (hd : s.devOut = .none_) : Spare 0 s := by
  refine ⟨?_, fun _ => hd⟩
  unfold State.reserved
  rw [hw, hp, hd]
  decide

end Spare

/-- The places of the write-back queue are an invariant (R144, R147, R167). -/
theorem capacityOk_invariant : Invariant (Spare 0) where
  powerOn := fun _ => Spare.empty rfl rfl rfl
  clearDone := fun h => by
    unfold State.clearDone
    split
    · exact h.same ⟨rfl, rfl, rfl⟩
    · exact h
  softReset := fun _ _ => Spare.empty rfl rfl rfl
  halt := fun c i h => h.haltCause c i
  release := fun h _ => by rw [releaseTaken_frame]; exact h.same ⟨rfl, rfl, rfl⟩
  refuse := fun h => h.same ⟨rfl, rfl, rfl⟩
  nudge := fun _ h => h.same ⟨rfl, rfl, rfl⟩
  take := fun h => by
    unfold State.readTake
    split
    · exact h.same ⟨rfl, rfl, rfl⟩
    · exact h.same ⟨rfl, rfl, rfl⟩
  endService := fun h => h.same ⟨rfl, rfl, rfl⟩
  status := fun h => h.same ⟨rfl, rfl, rfl⟩
  memory := fun w h => by
    unfold State.writeMemory
    split
    · exact h
    · exact h.same ⟨rfl, rfl, rfl⟩
  grant := fun h hc => h.grant hc
  landWord := fun ws h => h.landWord ws
  laneRead := fun n ws h _ => h.endLaneRead n ws
  deviceRead := fun ws h hu => h.endDeviceRead ws hu
  setupRead := fun pins ws h _ => h.endSetupRead pins ws
  cueFetch := fun n ws h hu => h.endCueFetch n ws hu
  tailReread := fun n ws h _ => h.endTailReread n ws
  writeBack := fun ws h _ => h.endWriteBack ws
  statusItem := fun ws h _ => h.endStatusItem ws
  beat := fun b h => h.beatExpires b
  pulse := fun n h => h.pulseEnds n
  limit := fun n h => h.limitExpires n
  revisit := fun n h => h.revisitExpires n
  sample := fun i level h => h.inputSampled i level
  frame := fun data p b h => h.frameJudged data p b
  frameSent := fun h => h.frameSent
  receiver := fun _ h => h.same ⟨rfl, rfl, rfl⟩
  queue := fun _ h => h.same ⟨rfl, rfl, rfl⟩
  choice := fun _ h => h.same ⟨rfl, rfl, rfl⟩
  tick := fun h => by
    unfold State.tick
    split
    · exact h.same ⟨rfl, rfl, rfl⟩
    · exact h

end Sys2Proof.Machine
end


section
/-! SUPPORT. Invariants of each lane: what the operations do to a lane, and the rule that follows. -/

namespace Sys2Proof.Machine

/-- `Q` holds of every lane. -/
def Everywhere (Q : Lane → Prop) (s : State) : Prop := ∀ n, Q (s.lane n)

/-- `Q` is kept by what the operations do to a lane. -/
structure LaneRule (Q : Lane → Prop) : Prop where
  /-- A change that leaves the state, the number of copies and whether a cue is current. -/
  alike : ∀ {l k : Lane}, Q l → Alike l k → Q k
  /-- The end of a list. -/
  empty : ∀ {l : Lane}, l.queue = [] → l.cur = none → l.fetch = none → l.expiredOn = none → Q l
  /-- Writes owed. -/
  owed : ∀ {l : Lane} (os : List WriteBack), Q l → Q { l with owed := os }
  /-- A lane that holds a list after the change, and no more than before. -/
  awake : ∀ {l k : Lane}, Q l → k.st ≠ .idle → k.st ≠ .faulted → k.queue.length ≤ l.queue.length →
    (k.fetch = none ∨ k.fetch = l.fetch) → Q k
  /-- A cue that leaves a queue. -/
  leaves : ∀ {l : Lane}, Q l → l.cur.isSome = true → Q { l with queue := l.queue.tail, cur := none }
  /-- The grant of a fetch or re-read. -/
  fetches : ∀ {l : Lane} (f : Option Fetch) (r : Bool) (p : Pause), Q l → l.mayRequest = true →
    Q { l with fetch := f, reread := r, pause := p }
  /-- The end of a fetch with an entry appended. -/
  appends : ∀ {l k : Lane}, Q l → l.fetch.isSome = true → k.st = l.st → k.queue.length = l.queue.length + 1 →
    k.fetch = none → Q k

/-- The bounds of a staging queue (R25, R39). -/
theorem LaneRule.staging : LaneRule (fun l => l.queue.length ≤ Config.stagingPlaces ∧
    (l.fetch.isSome → l.queue.length < Config.stagingPlaces)) where
  alike := fun ⟨hle, hlt⟩ g => by
    rw [g.queue]
    refine ⟨hle, fun hf => ?_⟩
    rcases g.fetch with h | h
    · rw [h] at hf; cases hf
    · exact hlt (h ▸ hf)
  empty := fun hq _ _ _ => by simp [hq]
  owed := fun _ h => h
  awake := fun ⟨hle, hlt⟩ _ _ hq hfetch => by
    refine ⟨le_trans hq hle, fun hf => lt_of_le_of_lt hq ?_⟩
    rcases hfetch with h | h
    · rw [h] at hf; cases hf
    · exact hlt (h ▸ hf)
  leaves := fun {l} ⟨hle, hlt⟩ _ => by
    have htail : l.queue.tail.length ≤ l.queue.length := by simp
    exact ⟨le_trans htail hle, fun hf => lt_of_le_of_lt htail (hlt hf)⟩
  fetches := fun _ _ _ h hmay => by
    refine ⟨h.1, fun _ => ?_⟩
    unfold Lane.mayRequest at hmay
    simp only [Bool.and_eq_true, decide_eq_true_eq] at hmay
    exact hmay.1.2
  appends := fun ⟨_, hlt⟩ hf _ hq hk => by
    rw [hq, hk]
    exact ⟨hlt hf, by simp⟩

/-- A lane that is IDLE or FAULTED holds nothing (R25). -/
theorem LaneRule.atRest : LaneRule Lane.atRest where
  alike := fun {l k} h g hst => by
    rw [g.st] at hst
    obtain ⟨hq, hc, hf, he⟩ := h hst
    refine ⟨?_, ?_, ?_, g.mark hc he⟩
    · have := g.queue; rw [hq] at this; simpa using this
    · have := g.cur; rw [hc] at this; simpa using this
    · rcases g.fetch with h | h
      · exact h
      · rw [h, hf]
  empty := fun hq hc hf he _ => ⟨hq, hc, hf, he⟩
  owed := fun _ h => h
  awake := fun _ hi hf _ _ hst => by
    rcases hst with h | h
    · exact absurd h hi
    · exact absurd h hf
  leaves := fun h hc hst => by
    rw [(h hst).2.1] at hc
    cases hc
  fetches := fun {l} f r p _ hmay hst => by
    have hact : l.st.active = true := by
      unfold Lane.mayRequest at hmay
      simp only [Bool.and_eq_true] at hmay
      exact hmay.1.1
    have hst' : l.st = .idle ∨ l.st = .faulted := hst
    rcases hst' with h | h <;> (rw [h] at hact; cases hact)
  appends := fun h hf hst _ _ hr => by
    rw [hst] at hr
    rw [(h hr).2.2.1] at hf
    cases hf

/-- The updates that orders are made of leave the lanes alike. -/
theorem Inert.rule : OrderRule Inert where
  refl := Inert.refl
  trans := Inert.trans
  lane := fun n f h => Inert.updLane _ n f h
  source := fun i r _ => Inert.setSource _ i r
  cause := fun c => Inert.raise _ c
  out := fun p => Inert.setOut _ p
  link := fun f _ => Inert.updLink _ f
  beat := fun b f => Inert.updBeat _ b f
  static := fun _ => Inert.same rfl rfl
  masks := fun _ => Inert.same rfl rfl
  mark := fun _ => Inert.same rfl rfl

/-- A taken device order leaves the lanes alike. -/
theorem Inert.takeDeviceOrder (s : State) (seq : Byte) (o : DeviceOrder) (a b : Word) :
    Inert s (s.takeDeviceOrder seq o a b) := by
  by_cases ho : o.answersAtOnce = true
  · exact Inert.rule.takeDeviceOrder s seq o a b ho
  · cases o with
    | applySetup => exact Inert.same rfl rfl
    | snapshot => exact Inert.same rfl rfl
    | _ => exact absurd rfl ho

namespace LaneRule

variable {Q : Lane → Prop} {s t : State}

/-! Events. -/

theorem inert (h : LaneRule Q) (hs : Everywhere Q s) (g : Inert s t) : Everywhere Q t :=
  fun n => h.alike (hs n) (g.lane n)

/-- The same lanes. -/
theorem same (hs : Everywhere Q s) (hl : t.lanes = s.lanes) : Everywhere Q t := by
  intro n
  have : t.lane n = s.lane n := by unfold State.lane; rw [hl]
  rw [this]
  exact hs n

/-- One lane replaced. -/
theorem lane {n : LaneId} (hs : Everywhere Q s) (ho : ∀ m, m ≠ n → t.lane m = s.lane m) (hn : Q (t.lane n)) :
    Everywhere Q t := by
  intro m
  by_cases hm : m = n
  · subst hm; exact hn
  · rw [ho m hm]; exact hs m

theorem updLane {n : LaneId} {f : Lane → Lane} (hs : Everywhere Q s) (hn : Q (f (s.lane n))) :
    Everywhere Q (s.updLane n f) :=
  lane hs (fun m hm => updLane_lane_ne s n m f hm) (by rw [updLane_lane_self]; exact hn)

theorem produceAll (h : LaneRule Q) (hs : Everywhere Q s) (n : LaneId) (es : List WriteBack) :
    Everywhere Q (s.produceAll n es) := by
  obtain ⟨-, hself, hother, -⟩ := produceAll_spec s n es
  exact lane hs hother (by rw [hself]; exact h.owed _ (hs n))

theorem produce (h : LaneRule Q) (hs : Everywhere Q s) (n : LaneId) (e : WriteBack) : Everywhere Q (s.produce n e) :=
  h.produceAll hs n [e]

theorem produceReserved (h : LaneRule Q) (hs : Everywhere Q s) (n : LaneId) (e : WriteBack) :
    Everywhere Q (s.produceReserved n e) := by
  unfold State.produceReserved
  split
  · exact same hs rfl
  · refine updLane (same hs rfl) ?_
    rw [enqueue_lane]
    exact h.owed _ (hs n)

theorem overtake (hs : Everywhere Q s) (n : LaneId) : Everywhere Q (s.overtake n) := same hs (by simp)

theorem raise (hs : Everywhere Q s) (c : Cause) : Everywhere Q (s.raise c) := same hs rfl

theorem setOut (hs : Everywhere Q s) (p : Pins) : Everywhere Q (s.setOut p) := same hs (by simp)

theorem closeLane (h : LaneRule Q) (hs : Everywhere Q s) (n : LaneId) (st : LaneState) : Everywhere Q (s.closeLane n st) :=
  overtake (updLane hs (h.empty rfl rfl rfl rfl)) n

theorem laneFault (h : LaneRule Q) (hs : Everywhere Q s) (n : LaneId) (code : FaultCode) (m : Option Link) :
    Everywhere Q (s.laneFault n code m) := by
  unfold State.laneFault
  refine raise (setOut (updLane (h.closeLane (h.produceAll hs n _) n _) ?_) _) _
  refine h.empty ?_ ?_ ?_ ?_
  · simp [State.closeLane, Lane.closed]
  · simp [State.closeLane, Lane.closed]
  · simp [State.closeLane, Lane.closed]
  · simp [State.closeLane, Lane.closed]

theorem leaveQueue (h : LaneRule Q) (hs : Everywhere Q s) (n : LaneId) (c : Copy) (f : Firing) (e : Ending)
    (hc : (s.lane n).cur.isSome = true) : Everywhere Q (s.leaveQueue n c f e) := by
  have hq : Everywhere Q (s.enqueue (resultEntry n c f e 0 ((copiesOf (s.lane n).queue.tail).any
      (fun k => k.slot == c.slot)))) := same hs rfl
  unfold State.leaveQueue
  dsimp only
  split
  · exact raise (h.closeLane (h.produceAll hq n _) n _) _
  · split
    · exact updLane hq (h.leaves (hs n) hc)
    · refine raise (updLane hq ?_) _
      exact h.awake (hs n) (by simp) (by simp) (by simp) (Or.inr rfl)

theorem laneGo (h : LaneRule Q) (hs : Everywhere Q s) (n : LaneId) : Everywhere Q (s.laneGo n) := by
  unfold State.laneGo
  split
  · exact updLane hs (h.awake (hs n) (by simp) (by simp) (Nat.le_refl _) (Or.inr rfl))
  · exact h.laneFault hs n _ _
  · split
    · exact h.inert hs (Inert.complete _ _ _)
    · unfold State.beginWait
      split
      · exact h.inert hs (Inert.joinWait _ _ _)
      · exact h.inert hs (Inert.fireLane _ _ _)
      · split
        · exact h.inert hs (Inert.joinWait _ _ _)
        · split
          · split
            · exact h.inert hs ((Inert.setSource _ _ _).trans (Inert.fireLane _ _ _))
            · exact h.inert hs (Inert.joinWait _ _ _)
          · split
            · exact h.inert hs (Inert.joinWait _ _ _)
            · split
              · exact h.laneFault hs n _ _
              · exact h.inert hs ((Inert.updFiring _ _ _).trans (Inert.fireLane _ _ _))
      · split
        · exact h.inert hs ((Inert.updLink _ _).trans (Inert.fireLane _ _ _))
        · exact h.inert hs (Inert.joinWait _ _ _)
  · exact hs

theorem enterOwed (h : LaneRule Q) (hs : Everywhere Q s) (n : LaneId) : Everywhere Q (s.enterOwed n) := by
  unfold State.enterOwed
  split
  · exact hs
  · refine updLane (same hs rfl) ?_
    rw [enqueue_lane]
    exact h.owed _ (hs n)

theorem follow (h : LaneRule Q) (hs : Everywhere Q s) (hf : s.follow = some t) : Everywhere Q t := by
  rcases follow_cases hf with ⟨n, _, _, rfl⟩ | ⟨n, _, _, rfl⟩ | ⟨n, _, rfl | rfl⟩
  · exact h.enterOwed hs n
  · unfold State.releasePending
    split
    · rename_i hcur _
      split
      · exact h.leaveQueue hs n _ _ _ (by rw [hcur]; rfl)
      · exact hs
    · exact hs
  · exact h.laneGo hs n
  · have hchoice : Everywhere Q { s with choices := s.choices + 1 } := same hs rfl
    exact h.laneGo hchoice n

theorem settle (h : LaneRule Q) (hs : Everywhere Q s) : Everywhere Q s.settle :=
  settle_keeps (Everywhere Q) (fun _ _ hs hf => h.follow hs hf) hs

theorem haltCause (h : LaneRule Q) (hs : Everywhere Q s) (cause : HaltCause) (line : Fin 8) :
    Everywhere Q (s.haltCause cause line) := by
  unfold State.haltCause
  split
  · obtain ⟨-, -, hother, hfaulted, -⟩ := trip_tripped s cause _ line rfl
    intro n
    by_cases hn : (s.lane n).faultsAtTrip
    · rw [(hfaulted n hn).1]
      exact h.empty rfl rfl rfl rfl
    · rw [(hother n hn).1]
      exact hs n
  · exact same hs (by simp [State.furtherTrip])
  · exact hs
  · exact hs

/-! Grants and the ends of transactions. -/

theorem grant (h : LaneRule Q) {r : Request} (hs : Everywhere Q s) (hc : s.portChoice = some r) :
    Everywhere Q (s.grant r) := by
  obtain ⟨_, _, hmay⟩ := portChoice_grants hc
  cases r with
  | cueFetch n =>
    have hreq : (s.lane n).mayRequest = true := (Bool.and_eq_true_iff.mp hmay.2).1
    unfold State.grant
    exact updLane (same hs rfl) (h.fetches _ _ _ (hs n) hreq)
  | tailReread n =>
    have hreq : (s.lane n).mayRequest = true := (Bool.and_eq_true_iff.mp hmay).1
    unfold State.grant
    exact updLane (same hs rfl) (h.fetches _ _ (s.lane n).pause (hs n) hreq)
  | statusItem =>
    unfold State.grant
    dsimp only
    split
    · exact hs
    · exact same hs rfl
  | _ => exact same hs rfl

theorem appendCopy (h : LaneRule Q) (hs : Everywhere Q s) {n : LaneId} (hf : (s.lane n).fetch.isSome = true) (c : Copy) :
    Everywhere Q (s.appendCopy n c) := by
  unfold State.appendCopy
  refine updLane hs ?_
  dsimp only
  split
  · exact h.appends (hs n) hf rfl (by simp [sharePass]) rfl
  · split
    · exact h.appends (hs n) hf rfl (by simp [sharePass]) rfl
    · exact h.appends (hs n) hf rfl (by simp [sharePass]) rfl

theorem appendMarker (h : LaneRule Q) (hs : Everywhere Q s) {n : LaneId} (hf : (s.lane n).fetch.isSome = true)
    (code : FaultCode) (slot : Link) : Everywhere Q (s.appendMarker n code slot) := by
  unfold State.appendMarker
  exact updLane hs (h.appends (hs n) hf rfl (by simp) rfl)

/-- A fetch that ends with nothing appended. -/
theorem endFetch (h : LaneRule Q) (hs : Everywhere Q s) {n : LaneId} {f : Lane → Lane}
    (hk : ∀ l, ∃ p w fo, f l = { l with fetch := none, pause := p, watch := w, follow := fo }) :
    Everywhere Q (s.updLane n f) := by
  refine updLane hs ?_
  obtain ⟨p, w, fo, hl⟩ := hk (s.lane n)
  rw [hl]
  exact h.alike (hs n) ⟨rfl, rfl, rfl, Or.inl rfl, rfl, rfl, fun _ h => h⟩

theorem foundNotArmed (h : LaneRule Q) (hs : Everywhere Q s) {n : LaneId} (hf : (s.lane n).fetch.isSome = true)
    (slot : Link) (head : Word) : Everywhere Q (s.foundNotArmed n slot head) := by
  unfold State.foundNotArmed State.pauseAt
  split
  · exact h.endFetch hs (fun l => ⟨_, _, _, rfl⟩)
  · exact h.endFetch hs (fun l => ⟨_, _, _, rfl⟩)
  · split
    · split
      · split
        · exact h.appendCopy hs hf _
        · exact h.endFetch hs (fun l => ⟨_, _, _, rfl⟩)
      · split
        · exact h.endFetch hs (fun l => ⟨_, _, _, rfl⟩)
        · exact h.appendMarker hs hf _ _
    · exact h.appendMarker hs hf _ _
  · exact h.appendMarker hs hf _ _
  · exact h.appendMarker hs hf _ _
  · exact hs

theorem tornAttempt (h : LaneRule Q) (hs : Everywhere Q s) {n : LaneId} (hf : (s.lane n).fetch.isSome = true)
    (f : Fetch) : Everywhere Q (s.tornAttempt n f) := by
  unfold State.tornAttempt
  split
  · exact h.appendMarker hs hf _ _
  · exact hs

/-- The entry produced leaves the fetch of the lane. -/
theorem produceReserved_fetch (s : State) (n : LaneId) (e : WriteBack) :
    ((s.produceReserved n e).lane n).fetch = (s.lane n).fetch := by
  unfold State.produceReserved
  split <;> simp

theorem foundArmed (h : LaneRule Q) (hs : Everywhere Q s) {n : LaneId} (hf : (s.lane n).fetch.isSome = true)
    (c : Copy) : Everywhere Q (s.foundArmed n c) := by
  unfold State.foundArmed
  split
  · exact h.appendCopy (h.produceReserved hs n _) (by rw [produceReserved_fetch]; exact hf) _
  · exact h.appendMarker (h.produceReserved hs n _) (by rw [produceReserved_fetch]; exact hf) _ _

theorem endTransaction (hs : Everywhere Q s) (m : List Host.Cell) : Everywhere Q (s.endTransaction m) := same hs rfl

theorem endCueFetch (h : LaneRule Q) (hs : Everywhere Q s) (n : LaneId) (ws : Between) :
    Everywhere Q (State.endCueFetch n ws s) := by
  unfold State.endCueFetch
  split
  · exact h.settle (endTransaction hs _)
  · rename_i f hfetch
    have hf : ∀ m, ((s.endTransaction m).lane n).fetch.isSome = true := fun m => by
      rw [endTransaction_lane, hfetch]; rfl
    dsimp only
    split
    · exact h.settle (endTransaction hs _)
    · split
      · split
        · exact h.settle (h.foundArmed (endTransaction hs _) (hf _) _)
        · exact h.settle (h.tornAttempt (endTransaction hs _) (hf _) _)
      · exact h.settle (h.foundNotArmed (endTransaction hs _) (hf _) _ _)

theorem foundTail (h : LaneRule Q) (hs : Everywhere Q s) {n : LaneId} (hf : (s.lane n).fetch.isSome = true)
    (tail : Link) (head w1 : Word) : Everywhere Q (s.foundTail n tail head w1) := by
  unfold State.foundTail
  dsimp only
  split
  · exact h.appendMarker hs hf _ _
  · split
    · exact h.endFetch hs (fun l => ⟨_, _, _, rfl⟩)
    · split
      · exact h.endFetch hs (fun l => ⟨_, _, _, rfl⟩)
      · exact h.appendMarker hs hf _ _

theorem endTailReread (h : LaneRule Q) (hs : Everywhere Q s) (n : LaneId) (ws : Between) :
    Everywhere Q (State.endTailReread n ws s) := by
  unfold State.endTailReread
  split
  · exact h.settle (endTransaction hs _)
  · rename_i f hfetch
    have hf : ∀ m, ((s.endTransaction m).lane n).fetch.isSome = true := fun m => by
      rw [endTransaction_lane, hfetch]; rfl
    dsimp only
    split
    · exact h.settle (endTransaction hs _)
    · split
      · exact h.settle (h.foundTail (endTransaction hs _) (hf _) _ _ _)
      · exact h.settle (h.tornAttempt (endTransaction hs _) (hf _) _)

theorem endWriteBack (h : LaneRule Q) (hs : Everywhere Q s) (ws : Between) : Everywhere Q (State.endWriteBack ws s) := by
  unfold State.endWriteBack
  split
  · exact endTransaction hs _
  · refine h.settle (h.inert ?_ (Inert.entryLanded _ _))
    exact same hs rfl

theorem endStatusItem (hs : Everywhere Q s) (ws : Between) : Everywhere Q (State.endStatusItem ws s) := by
  unfold State.endStatusItem
  split
  · refine same hs ?_
    unfold State.snapshotWritten
    dsimp only
    split
    · split <;> rfl
    · rfl
  · exact hs

theorem endSetupRead (hs : Everywhere Q s) (pins : BitVec 8) (ws : Between) :
    Everywhere Q (State.endSetupRead pins ws s) := by
  unfold State.endSetupRead
  split
  · dsimp only
    generalize readSeq (List.range 128) ws s.mem = r
    split
    · exact same hs rfl
    · exact same hs rfl
  · exact hs

/-! Orders. -/

theorem restPins (hs : Everywhere Q s) (n : LaneId) : Everywhere Q (s.restPins n) := by
  unfold State.restPins
  split
  · exact hs
  · exact same hs (by simp)

theorem takeLaneOrder (h : LaneRule Q) (hs : Everywhere Q s) (n : LaneId) (o : LaneOrder) (argument : Link)
    (interval : Byte) : Everywhere Q (s.takeLaneOrder n o argument interval) := by
  unfold State.takeLaneOrder
  cases o with
  | start =>
    dsimp only
    unfold State.takeStart
    exact updLane hs (h.awake (hs n) (by simp) (by simp) (Nat.le_refl _) (Or.inr rfl))
  | hold =>
    dsimp only
    unfold State.takeHold
    exact updLane hs (h.awake (hs n) (by simp) (by simp) (Nat.le_refl _) (Or.inr rfl))
  | resume =>
    have hgap : Everywhere Q (s.updLane n (fun l => { l with gapStart := s.timebase, gapEvent := none })) :=
      updLane hs (h.alike (hs n) ⟨rfl, rfl, rfl, Or.inr rfl, rfl, rfl, fun _ h => h⟩)
    dsimp only
    unfold State.takeResume
    dsimp only
    split
    · exact h.settle (updLane hgap (h.awake (hgap n) (by simp) (by simp) (Nat.le_refl _) (Or.inr rfl)))
    · split
      · exact raise (updLane hgap (h.awake (hgap n) (by simp) (by simp) (Nat.le_refl _) (Or.inr rfl))) _
      · exact updLane hgap (h.awake (hgap n) (by simp) (by simp) (Nat.le_refl _) (Or.inr rfl))
  | stop =>
    dsimp only
    unfold State.takeStop
    dsimp only
    split
    · exact overtake (updLane hs (h.awake (hs n) (by simp) (by simp) (by simp) (Or.inl rfl))) n
    · exact raise (setOut (h.closeLane (h.produceAll hs n _) n _) _) _
  | abort =>
    dsimp only
    unfold State.takeAbort State.takeClear
    dsimp only
    split
    · exact restPins (h.closeLane hs n _) n
    · exact restPins (h.closeLane (h.produceAll hs n _) n _) n
  | clear =>
    dsimp only
    unfold State.takeClear
    exact restPins (h.closeLane hs n _) n

/-- The revisit interval passed to a lane (R28). -/
theorem passInterval_inert (s : State) (n : LaneId) (i : Byte) : Inert s (s.passInterval n i) := by
  refine Inert.updLane s n _ ?_
  split
  · exact ⟨rfl, rfl, rfl, Or.inr rfl, rfl, rfl, fun _ h => h⟩
  · exact Alike.refl _

/-- An occasion for a re-read (R43). -/
theorem occasion_alike (l : Lane) : Alike l l.occasion := by
  unfold Lane.occasion
  split
  · exact ⟨rfl, rfl, rfl, Or.inr rfl, rfl, rfl, fun _ h => h⟩
  · exact Alike.refl _

theorem endLaneRead (h : LaneRule Q) (hs : Everywhere Q s) (n : LaneId) (ws : Between) :
    Everywhere Q (State.endLaneRead n ws s) := by
  have hread : Everywhere Q ((s.endTransaction (s.readLaneEntry n ws).2.2).passInterval n
      (laneInterval (s.readLaneEntry n ws).2.1)) :=
    h.inert (endTransaction hs _) (passInterval_inert _ _ _)
  unfold State.endLaneRead
  dsimp only
  generalize (s.endTransaction (s.readLaneEntry n ws).2.2).passInterval n (laneInterval (s.readLaneEntry n ws).2.1) = t
    at *
  split
  · exact updLane hread (h.alike (hread n) (occasion_alike _))
  · have hseq : Everywhere Q { t with lastSeq := t.lastSeq.set n.val (orderSeq (s.readLaneEntry n ws).1) } :=
      same hread rfl
    unfold State.newLaneOrder
    dsimp only
    split
    · exact h.produce (h.takeLaneOrder hseq n _ _ _) n _
    · exact h.produce hseq n _

theorem newDeviceOrder (h : LaneRule Q) (hs : Everywhere Q s) (seq : Byte) (order : Option DeviceOrder) (a b : Word) :
    Everywhere Q (s.newDeviceOrder seq order a b) := by
  unfold State.newDeviceOrder
  split
  · exact same hs rfl
  · rename_i o
    have htaken : Everywhere Q (s.takeDeviceOrder seq o a b) := h.inert hs (Inert.takeDeviceOrder s seq o a b)
    dsimp only
    split
    · exact same hs rfl
    · have hanswered : Everywhere Q (if o.answersAtOnce = true then
          (s.takeDeviceOrder seq o a b).enqueue (deviceAnswer seq .ok 0) else s.takeDeviceOrder seq o a b) := by
        split
        · exact same htaken rfl
        · exact htaken
      split
      · exact h.settle hanswered
      · exact hanswered

theorem endDeviceRead (h : LaneRule Q) (hs : Everywhere Q s) (ws : Between) : Everywhere Q (State.endDeviceRead ws s) := by
  unfold State.endDeviceRead
  dsimp only
  split
  · exact h.settle (endTransaction hs _)
  · refine h.newDeviceOrder ?_ _ _ _ _
    exact same hs rfl

/-! Timed events and the link. -/

theorem beatExpires (h : LaneRule Q) (hs : Everywhere Q s) (b : Fin 8) : Everywhere Q (s.beatExpires b) := by
  unfold State.beatExpires
  split
  · exact h.settle (h.inert hs ((Inert.sourceEvent _ _).trans (Inert.updBeat _ _ _)))
  · exact hs

theorem pulseEnds (h : LaneRule Q) (hs : Everywhere Q s) (n : LaneId) : Everywhere Q (s.pulseEnds n) := by
  unfold State.pulseEnds
  split
  · split
    · exact h.settle (h.inert hs ((Inert.updFiring _ _ _).trans (Inert.setOut _ _)))
    · exact hs
  · exact hs

/-- The ending of an expired wait leaves the lane as many copies. -/
theorem expire_alike {l : Lane} (c : Copy) (now : Word) (hc : l.cur ≠ none) : Alike l (l.expire c now) :=
  ⟨rfl, bumpPass_length _ _, by simp [Lane.expire, endCurrent_eq], Or.inr rfl, rfl, rfl, fun h => absurd h hc⟩

/-- A lane with a current copy has a current cue. -/
theorem cur_of_currentCopy {l : Lane} {c : Copy} (h : l.currentCopy = some c) : l.cur ≠ none := by
  intro hc
  unfold Lane.currentCopy at h
  rw [hc] at h
  cases h

theorem limitExpires (h : LaneRule Q) (hs : Everywhere Q s) (n : LaneId) : Everywhere Q (s.limitExpires n) := by
  unfold State.limitExpires
  split
  · rename_i c hcopy
    split
    · split
      · exact h.settle (h.laneFault hs n _ _)
      · refine h.inert (h.settle ?_) (Inert.afterExpiry _ n)
        exact updLane hs (h.alike (hs n) (expire_alike c _ (cur_of_currentCopy hcopy)))
    · exact hs
  · exact hs

theorem revisitExpires (h : LaneRule Q) (hs : Everywhere Q s) (n : LaneId) : Everywhere Q (s.revisitExpires n) := by
  unfold State.revisitExpires
  split
  · refine updLane hs (h.alike (hs n) ?_)
    unfold Lane.revisitExpires
    dsimp only
    split <;> exact ⟨rfl, rfl, rfl, Or.inr rfl, rfl, rfl, fun _ h => h⟩
  · exact hs

theorem sampleLine_lanes (s : State) (i : Fin 8) (level : Bool) : (s.sampleLine i level).lanes = s.lanes := by
  unfold State.sampleLine
  dsimp only
  split <;> rfl

theorem inputSampled (h : LaneRule Q) (hs : Everywhere Q s) (i : Fin 8) (level : Bool) :
    Everywhere Q (s.inputSampled i level) := by
  have hline : Everywhere Q (s.sampleLine i level) := same hs (sampleLine_lanes s i level)
  unfold State.inputSampled
  split
  · dsimp only
    split
    · split
      · exact h.haltCause hline _ _
      · exact h.settle (h.inert hline (Inert.sourceEvent _ _))
    · exact hline
  · exact hs

theorem frameJudged (h : LaneRule Q) (hs : Everywhere Q s) (data : Byte) (p b : Bool) :
    Everywhere Q (s.frameJudged data p b) := by
  have hrx : ∀ r, Everywhere Q (s.setRx r) := fun r => same hs rfl
  unfold State.frameJudged
  split
  · split
    · exact same (hrx .waitHigh) (by simp)
    · exact same (hrx .hunt) (by simp)
    · unfold State.acceptFrame
      split
      · exact hrx _
      · split
        · split
          · exact h.haltCause (hrx _) _ _
          · exact hrx _
        · exact h.settle (h.inert (hrx _) (Inert.linkEvent _ _))
  · exact hs

theorem tick (h : LaneRule Q) (hs : Everywhere Q s) : Everywhere Q s.tick := by
  unfold State.tick
  split
  · intro n
    have hlane : (s.lanes.map Lane.tick)[n] = (s.lane n).tick := by simp [State.lane]
    show Q (s.lanes.map Lane.tick)[n]
    rw [hlane]
    exact h.alike (hs n) ⟨rfl, rfl, by simp [Lane.tick], Or.inr rfl, rfl, rfl, fun _ _ => rfl⟩
  · exact hs

/-- Lanes at their values after reset. -/
theorem reset (h : LaneRule Q) (hl : t.lanes = State.reset.lanes) : Everywhere Q t := by
  intro n
  have : t.lane n = {} := by unfold State.lane; rw [hl]; simp [State.reset]
  rw [this]
  exact h.empty rfl rfl rfl rfl

/-- What every lane keeps is an invariant. -/
theorem invariant (h : LaneRule Q) : Invariant (Everywhere Q) where
  powerOn := fun _ => h.reset rfl
  clearDone := fun hs => by
    unfold State.clearDone
    split
    · exact same hs rfl
    · exact hs
  softReset := fun _ _ => h.reset rfl
  halt := fun c i hs => h.haltCause hs c i
  release := fun hs _ => by rw [releaseTaken_frame]; exact same hs rfl
  refuse := fun hs => same hs rfl
  nudge := fun _ hs => same hs rfl
  take := fun hs => by
    unfold State.readTake
    split
    · exact same hs rfl
    · exact same hs rfl
  endService := fun hs => same hs rfl
  status := fun hs => same hs rfl
  memory := fun _ hs => by
    unfold State.writeMemory
    split
    · exact hs
    · exact same hs rfl
  grant := fun hs hc => h.grant hs hc
  landWord := fun _ hs => by
    unfold State.landWord
    split
    · exact same hs rfl
    · exact hs
  laneRead := fun n ws hs _ => h.endLaneRead hs n ws
  deviceRead := fun ws hs _ => h.endDeviceRead hs ws
  setupRead := fun pins ws hs _ => endSetupRead hs pins ws
  cueFetch := fun n ws hs _ => h.endCueFetch hs n ws
  tailReread := fun n ws hs _ => h.endTailReread hs n ws
  writeBack := fun ws hs _ => h.endWriteBack hs ws
  statusItem := fun ws hs _ => endStatusItem hs ws
  beat := fun b hs => h.beatExpires hs b
  pulse := fun n hs => h.pulseEnds hs n
  limit := fun n hs => h.limitExpires hs n
  revisit := fun n hs => h.revisitExpires hs n
  sample := fun i level hs => h.inputSampled hs i level
  frame := fun data p b hs => h.frameJudged hs data p b
  frameSent := fun hs => by
    unfold State.frameSent
    split
    · exact same hs (by simp)
    · exact hs
  receiver := fun _ hs => same hs rfl
  queue := fun _ hs => same hs rfl
  choice := fun _ hs => same hs rfl
  tick := fun hs => h.tick hs

end LaneRule

end Sys2Proof.Machine
end


section
/-! SUPPORT. The writes a lane may owe (R47), through the timed events, the link and the host. -/

namespace Sys2Proof.Machine

/-- A lane at rest with a current cue holds a list. -/
theorem Lane.atRest.holds {l : Lane} (h : l.atRest) (hc : l.cur ≠ none) : l.st ≠ .idle ∧ l.st ≠ .faulted :=
  ⟨fun hi => hc (h (Or.inl hi)).2.1, fun hf => hc (h (Or.inr hf)).2.1⟩

/-- A lane fault of a lane that holds a list. -/
theorem Keeps.laneFault (s : State) (n : LaneId) (code : FaultCode) (k : Option Link)
    (h : (s.lane n).st ≠ .idle ∧ (s.lane n).st ≠ .faulted) : Keeps s (s.laneFault n code k) :=
  ⟨fun _ w => w.laneFault n code k h, laneFault_answer s n code k⟩

namespace OwedOk

variable {s : State}

theorem beatExpires (h : OwedOk s) (b : Fin 8) : OwedOk (s.beatExpires b) := by
  unfold State.beatExpires
  split
  · exact (h.inert ((Inert.sourceEvent _ _).trans (Inert.updBeat _ _ _))).settle
  · exact h

theorem pulseEnds (h : OwedOk s) (n : LaneId) : OwedOk (s.pulseEnds n) := by
  unfold State.pulseEnds
  split
  · split
    · exact (h.inert ((Inert.updFiring _ _ _).trans (Inert.setOut _ _))).settle
    · exact h
  · exact h

theorem limitExpires (h : OwedOk s) (n : LaneId) : OwedOk (s.limitExpires n) := by
  unfold State.limitExpires
  split
  · rename_i c hcopy
    have hcur := LaneRule.cur_of_currentCopy hcopy
    split
    · split
      · exact ((Keeps.laneFault s n _ _ ((h n).1.holds hcur)).owed h).settle
      · exact (h.inert (Inert.updLane _ _ _ (LaneRule.expire_alike c _ hcur))).settle.inert (Inert.afterExpiry _ n)
    · exact h
  · exact h

theorem revisitExpires (h : OwedOk s) (n : LaneId) : OwedOk (s.revisitExpires n) := by
  unfold State.revisitExpires
  split
  · refine h.inert (Inert.updLane _ _ _ ?_)
    unfold Lane.revisitExpires
    dsimp only
    split <;> exact ⟨rfl, rfl, rfl, Or.inr rfl, rfl, rfl, fun _ h => h⟩
  · exact h

theorem inputSampled (h : OwedOk s) (i : Fin 8) (level : Bool) : OwedOk (s.inputSampled i level) := by
  have hport : (s.sampleLine i level).port = s.port := by
    unfold State.sampleLine
    dsimp only
    split <;> rfl
  have hline : OwedOk (s.sampleLine i level) := h.sameLanes (LaneRule.sampleLine_lanes s i level) hport
  unfold State.inputSampled
  split
  · dsimp only
    split
    · split
      · exact hline.haltCause _ _
      · exact (hline.inert (Inert.sourceEvent _ _)).settle
    · exact hline
  · exact h

theorem setRx (h : OwedOk s) (r : Receiver) : OwedOk (s.setRx r) := h.sameLanes rfl rfl

theorem frameJudged (h : OwedOk s) (data : Byte) (p b : Bool) : OwedOk (s.frameJudged data p b) := by
  unfold State.frameJudged
  split
  · split
    · exact (h.setRx .waitHigh).sameLanes (by simp) (by simp)
    · exact (h.setRx .hunt).sameLanes (by simp) (by simp)
    · unfold State.acceptFrame
      split
      · exact h.setRx _
      · split
        · split
          · exact (h.setRx _).haltCause _ _
          · exact h.setRx _
        · exact ((h.setRx _).inert (Inert.linkEvent _ _)).settle
  · exact h

/-- The bound on the writes owed is an invariant. -/
theorem invariant : Invariant OwedOk where
  powerOn := fun _ => empty rfl rfl
  clearDone := fun hs => by
    unfold State.clearDone
    split
    · exact hs.sameLanes rfl rfl
    · exact hs
  softReset := fun _ _ => empty rfl rfl
  halt := fun c i hs => hs.haltCause c i
  release := fun hs _ => by rw [releaseTaken_frame]; exact hs.sameLanes rfl rfl
  refuse := fun hs => hs.sameLanes rfl rfl
  nudge := fun _ hs => hs.sameLanes rfl rfl
  take := fun hs => by
    unfold State.readTake
    split
    · exact hs.sameLanes rfl rfl
    · exact hs.sameLanes rfl rfl
  endService := fun hs => hs.sameLanes rfl rfl
  status := fun hs => hs.sameLanes rfl rfl
  memory := fun _ hs => by
    unfold State.writeMemory
    split
    · exact hs
    · exact hs.sameLanes rfl rfl
  grant := fun hs hc => hs.grant hc
  landWord := fun ws hs => hs.landWord ws
  laneRead := fun n ws hs hu => hs.endLaneRead hu ws
  deviceRead := fun ws hs _ => hs.endDeviceRead ws
  setupRead := fun pins ws hs _ => hs.endSetupRead pins ws
  cueFetch := fun n ws hs hu => hs.endCueFetch hu ws
  tailReread := fun n ws hs hu => hs.endTailReread hu ws
  writeBack := fun ws hs _ => hs.endWriteBack ws
  statusItem := fun ws hs _ => hs.endStatusItem ws
  beat := fun b hs => hs.beatExpires b
  pulse := fun n hs => hs.pulseEnds n
  limit := fun n hs => hs.limitExpires n
  revisit := fun n hs => hs.revisitExpires n
  sample := fun i level hs => hs.inputSampled i level
  frame := fun data p b hs => hs.frameJudged data p b
  frameSent := fun hs => by
    unfold State.frameSent
    split
    · exact hs.sameLanes (by simp) (by simp)
    · exact hs
  receiver := fun _ hs => hs.setRx _
  queue := fun _ hs => hs.sameLanes rfl rfl
  choice := fun _ hs => hs.sameLanes rfl rfl
  tick := fun hs => hs.tick

end OwedOk

/-- Settles O58: each bound is an invariant of its own. -/
theorem everyStepKeepsBounds : Obligations.EveryStepKeepsBounds := by
  intro s t ht
  refine ⟨fun h => ?_, fun h => ?_, fun h => OwedOk.invariant.step h ht, fun h => linkQueuesOk_invariant.step h ht,
    fun h => countsOk_invariant.step h ht, fun h => serviceOk_invariant.step h ht⟩
  · exact (spare_zero t).mp (capacityOk_invariant.step ((spare_zero s).mpr h) ht)
  · exact LaneRule.staging.invariant.step h ht

end Sys2Proof.Machine
end


section
/-! SUPPORT. Outside READY every lane is at rest: what the operations leave of the lanes and the pins then. -/

namespace Sys2Proof.Machine

/-- The engine state and the safe levels are the same. -/
def Steady (s t : State) : Prop := t.engine = s.engine ∧ t.safe = s.safe

/-- No primitive update of an event or an order changes the engine state or the safe levels. -/
theorem Steady.rule : EventRule Steady where
  refl := fun _ => ⟨rfl, rfl⟩
  trans := fun h g => ⟨g.1.trans h.1, g.2.trans h.2⟩
  lane := fun n f _ => ⟨by simp, by simp⟩
  source := fun i r _ => ⟨by simp, by simp⟩
  cause := fun c => ⟨rfl, rfl⟩
  out := fun p => ⟨by simp, by simp⟩
  link := fun f _ => ⟨by simp, by simp⟩
  beat := fun b f => ⟨rfl, rfl⟩
  anyLane := fun n f => ⟨by simp, by simp⟩
  enqueue := fun e => ⟨rfl, rfl⟩
  overtake := fun n => ⟨by simp, by simp⟩
  choice := fun k => ⟨rfl, rfl⟩
  static := fun _ => ⟨rfl, rfl⟩
  masks := fun _ => ⟨rfl, rfl⟩
  mark := fun _ => ⟨rfl, rfl⟩

/-- Every lane is IDLE or FAULTED and holds nothing (R25). -/
def Resting (s : State) : Prop := ∀ n, ((s.lane n).st = .idle ∨ (s.lane n).st = .faulted) ∧ (s.lane n).atRest

namespace Resting

variable {s t : State}

/-- A lane at rest holds nothing. -/
theorem holds (h : Resting s) (n : LaneId) : (s.lane n).queue = [] ∧ (s.lane n).cur = none ∧ (s.lane n).fetch = none :=
  have ⟨hq, hc, hf, _⟩ := (h n).2 (h n).1
  ⟨hq, hc, hf⟩

theorem alike (h : Resting s) (g : ∀ n, Alike (s.lane n) (t.lane n)) : Resting t := fun n =>
  ⟨(g n).st ▸ (h n).1, LaneRule.atRest.alike (h n).2 (g n)⟩

theorem same (h : Resting s) (hl : t.lanes = s.lanes) : Resting t :=
  h.alike (fun n => (Inert.same (s := { s with port := none }) (t := { t with port := none }) hl rfl).lane n)

/-- One lane changed. -/
theorem updLane (h : Resting s) (n : LaneId) {f : Lane → Lane}
    (hf : ((f (s.lane n)).st = .idle ∨ (f (s.lane n)).st = .faulted) ∧ (f (s.lane n)).atRest) :
    Resting (s.updLane n f) := by
  intro m
  by_cases hm : m = n
  · subst hm; rw [updLane_lane_self]; exact hf
  · rw [updLane_lane_ne _ _ _ _ hm]; exact h m

/-- A lane at rest is no waiter. -/
theorem unwatched (h : Resting s) (t : Trigger) : s.unwatched t := fun n => by
  unfold Lane.standsOn
  rw [(h.holds n).2.1]

theorem not_active (h : Resting s) (n : LaneId) : (s.lane n).st.active = false := by
  rcases (h n).1 with hs | hs <;> rw [hs] <;> rfl

theorem not_canGo (h : Resting s) (n : LaneId) : (s.lane n).canGo = false := by
  unfold Lane.canGo
  rw [(h.holds n).1, (h.holds n).2.1]

theorem not_pendsFree (h : Resting s) (n : LaneId) : (s.lane n).pendsFree = false := by
  unfold Lane.pendsFree
  rw [(h.holds n).2.1]
  simp

/-- Of what follows an event, owed writes alone are left to lanes at rest (R47). -/
theorem follow (h : Resting s) (hf : s.follow = some t) : Resting t ∧ t.out = s.out := by
  rcases follow_cases hf with ⟨n, _, _, rfl⟩ | ⟨n, _, hp, _⟩ | ⟨n, hg, _⟩
  · unfold State.enterOwed
    split
    · exact ⟨h, rfl⟩
    · exact ⟨(h.same (t := s.enqueue _) rfl).updLane n (h n), by simp⟩
  · rw [h.not_pendsFree n] at hp; cases hp
  · rw [h.not_canGo n] at hg; cases hg

end Resting

/-- `t` has the engine state and safe levels of `s`, a port still free in CLEARING, and where every lane is at rest outside
READY the lanes still at rest and the same pins. -/
structure Calm (s t : State) : Prop where
  steady : Steady s t
  port : s.engine = .clearing → s.port = none → t.port = none
  rest : s.engine ≠ .ready → Resting s → Resting t ∧ t.out = s.out

namespace Calm

variable {s t u : State}

theorem refl (s : State) : Calm s s := ⟨Steady.rule.refl s, fun _ h => h, fun _ h => ⟨h, rfl⟩⟩

theorem trans (h : Calm s t) (g : Calm t u) : Calm s u where
  steady := Steady.rule.trans h.steady g.steady
  port := fun he hp => g.port (h.steady.1.trans he) (h.port he hp)
  rest := fun he hs => by
    obtain ⟨ht, hout⟩ := h.rest he hs
    obtain ⟨hu, hout'⟩ := g.rest (h.steady.1 ▸ he) ht
    exact ⟨hu, hout'.trans hout⟩

/-- The lanes and the pins are the same, and a free port is free. -/
theorem same (he : t.engine = s.engine) (hs : t.safe = s.safe) (hp : s.port = none → t.port = none)
    (hl : t.lanes = s.lanes) (ho : t.out = s.out) : Calm s t :=
  ⟨⟨he, hs⟩, fun _ => hp, fun _ h => ⟨h.same hl, ho⟩⟩

/-- Nothing in CLEARING. -/
theorem awake (h : Steady s t) (hc : s.engine ≠ .clearing) (hr : s.engine ≠ .ready → Resting s → Resting t ∧ t.out = s.out) :
    Calm s t :=
  ⟨h, fun he => absurd he hc, hr⟩

theorem updLane (s : State) (n : LaneId) {f : Lane → Lane} (h : Alike (s.lane n) (f (s.lane n))) :
    Calm s (s.updLane n f) :=
  ⟨Steady.rule.anyLane n f, fun _ hp => by simpa using hp,
    fun _ hr => ⟨hr.alike (Inert.updLane s n f h).lane, by simp⟩⟩

theorem enqueue (s : State) (e : WriteBack) : Calm s (s.enqueue e) := same rfl rfl id rfl rfl

theorem raise (s : State) (c : Cause) : Calm s (s.raise c) := same rfl rfl id rfl rfl

theorem setRx (s : State) (r : Receiver) : Calm s (s.setRx r) := same rfl rfl id rfl rfl

theorem updLink (s : State) (f : LinkPort → LinkPort) : Calm s (s.updLink f) :=
  same (by simp) (by simp) (fun h => by simpa using h) (by simp) (by simp)

theorem setSource (s : State) (i : SourceId) (r : Source) : Calm s (s.setSource i r) :=
  same (by simp) (by simp) (fun h => by simpa using h) (by simp) (by simp)

theorem endTransaction (s : State) (m : List Host.Cell) : Calm s (s.endTransaction m) :=
  same rfl rfl (fun _ => rfl) rfl rfl

theorem produce (s : State) (n : LaneId) (e : WriteBack) : Calm s (s.produce n e) := by
  unfold State.produce
  split
  · exact enqueue s e
  · exact ⟨Steady.rule.anyLane n _, fun _ hp => by simpa using hp, fun _ hr => ⟨hr.updLane n (hr n), by simp⟩⟩

theorem settle (s : State) : Calm s s.settle := by
  refine ⟨Steady.rule.settle s, fun _ hp => ?_, fun _ hr => ?_⟩
  · exact ((Keeps.settle s).answer none (fun _ _ => by simp)).mpr hp
  · exact settle_keeps (fun t => Resting t ∧ t.out = s.out)
      (fun _ _ ⟨hr, ho⟩ hf => ⟨(hr.follow hf).1, (hr.follow hf).2.trans ho⟩) ⟨hr, rfl⟩

/-- An event of a source that no lane waits on (R79, R81). -/
theorem sourceEvent (s : State) (i : SourceId) : Calm s (s.sourceEvent i) := by
  refine ⟨Steady.rule.sourceEvent s i, fun _ hp => (Inert.sourceEvent s i).port.trans hp, fun _ hr => ?_⟩
  rw [unheard_eq (hr.unwatched _)]
  refine ⟨hr.same (unheard_lanes s i), ?_⟩
  unfold State.unheard State.unclaimed
  split
  · rfl
  · split <;> rfl

/-- A link code that no lane waits on (R90). -/
theorem linkEvent (s : State) (c : BitVec 6) : Calm s (s.linkEvent c) := by
  refine ⟨Steady.rule.linkEvent s c, fun _ hp => (Inert.linkEvent s c).port.trans hp, fun _ hr => ?_⟩
  have hw := hr.unwatched (.link c)
  have htaken : (s.codeTaken c).lanes = s.lanes ∧ (s.codeTaken c).out = s.out := by
    unfold State.codeTaken
    rw [unwatched_waiters hw]
    simp only [State.firstOf, List.find?_nil, List.head?_nil, Option.or_none]
    split <;> simp
  unfold State.linkEvent
  rw [unwatched_after hw htaken.1]
  exact ⟨hr.same htaken.1, htaken.2⟩

/-! Orders outside READY. -/

/-- A lane order taken outside READY is a CLEAR, or an ABORT in FAULTED, in HALTED (R29, R37). -/
theorem takeLaneOrder {n : LaneId} {o : LaneOrder} {argument : Link} (interval : Byte) (hc : s.engine ≠ .clearing)
    (h : s.laneOrderResult n (some o) argument = .ok) : Calm s (s.takeLaneOrder n o argument interval) := by
  refine awake (Steady.rule.takeLaneOrder s n o argument interval) hc (fun hready hr => ?_)
  have hhalted : s.engine = .halted ∧ o ≠ .start ∧ o.takenIn (s.lane n).st = true := by
    unfold State.laneOrderResult at h
    cases he : s.engine with
    | ready => exact absurd he hready
    | clearing => exact absurd he hc
    | unset => simp [he] at h
    | halted => by_cases ho : o = .start <;> by_cases ht : o.takenIn (s.lane n).st = true <;> simp_all
  obtain ⟨he, hstart, htaken⟩ := hhalted
  have hclear : Resting (s.takeClear n) ∧ (s.takeClear n).out = s.out := by
    have hengine : (s.closeLane n .idle).engine = .halted := (Steady.rule.closeLane s n .idle).1.trans he
    have hclosed := hr.updLane n (f := fun l => l.closed .idle) ⟨Or.inl rfl, fun _ => ⟨rfl, rfl, rfl, rfl⟩⟩
    unfold State.takeClear State.restPins
    rw [if_pos hengine]
    unfold State.closeLane
    exact ⟨hclosed.same (by simp), by simp⟩
  rcases (hr n).1 with hst | hst
  · rw [hst] at htaken
    cases o with
    | start => exact absurd rfl hstart
    | _ => cases htaken
  · rw [hst] at htaken
    cases o with
    | start => exact absurd rfl hstart
    | clear => exact hclear
    | abort =>
      show Resting (s.takeAbort n) ∧ (s.takeAbort n).out = s.out
      unfold State.takeAbort
      dsimp only
      rw [if_pos hst]
      exact hclear
    | _ => cases htaken

theorem newLaneOrder (s : State) (n : LaneId) (seq : Byte) (order : Option LaneOrder) (argument : Link)
    (interval : Byte) (hc : s.engine ≠ .clearing) : Calm s (s.newLaneOrder n seq order argument interval) := by
  unfold State.newLaneOrder
  dsimp only
  split
  · rename_i h
    exact (takeLaneOrder interval hc h).trans (produce _ n _)
  · exact produce s n _

theorem clearMarksOf (a : Word) : ∀ (is : List SourceId) (s : State), Calm s (Machine.clearMarksOf a is s)
  | [], s => refl s
  | i :: is, s => by
    unfold Machine.clearMarksOf
    refine trans ?_ (clearMarksOf a is _)
    split
    · exact setSource s _ _
    · exact refl s

/-- A device order taken outside READY changes no pin and raises no flag (R88, R119). -/
theorem takeDeviceOrder (s : State) {o : DeviceOrder} {a b : Word} (seq : Byte) (hc : s.engine ≠ .clearing)
    (h : s.deviceResult o a b = .ok) : Calm s (s.takeDeviceOrder seq o a b) := by
  have notTaken : s.engine ≠ .ready → (o = .setStatic ∨ o = .raiseFlag) → False := by
    intro hready ho
    unfold State.deviceResult at h
    cases he : s.engine with
    | ready => exact hready he
    | clearing => exact hc he
    | unset => rcases ho with rfl | rfl <;> simp [he] at h
    | halted => rcases ho with rfl | rfl <;> simp [he] at h
  unfold State.takeDeviceOrder
  cases o with
  | applySetup => exact same rfl rfl id rfl rfl
  | snapshot => exact same rfl rfl id rfl rfl
  | clearMarks => exact clearMarksOf a allSources s
  | setStatic =>
    exact awake (Steady.rule.takeDeviceOrder s seq .setStatic a b rfl) hc (fun hr => (notTaken hr (Or.inl rfl)).elim)
  | raiseFlag =>
    exact awake (Steady.rule.takeDeviceOrder s seq .raiseFlag a b rfl) hc (fun hr => (notTaken hr (Or.inr rfl)).elim)
  | drainFlag =>
    dsimp only
    unfold State.takeDrainFlag
    split
    · exact setSource s _ _
    · exact refl s
  | beatStart =>
    dsimp only
    unfold State.takeBeatStart
    split
    · exact same rfl rfl id rfl rfl
    · exact refl s
  | beatStop =>
    dsimp only
    unfold State.takeBeatStop
    split
    · exact same rfl rfl id rfl rfl
    · exact refl s
  | flushLink =>
    dsimp only
    unfold State.takeFlushLink
    have hlink := updLink s (fun l => { l with rxq := [] })
    generalize s.updLink (fun l => { l with rxq := [] }) = u at *
    exact hlink.trans (same rfl rfl id rfl rfl)
  | setMasks => exact same rfl rfl id rfl rfl

theorem newDeviceOrder (s : State) (seq : Byte) (order : Option DeviceOrder) (a b : Word) (hc : s.engine ≠ .clearing) :
    Calm s (s.newDeviceOrder seq order a b) := by
  unfold State.newDeviceOrder
  split
  · exact enqueue s _
  · rename_i o
    dsimp only
    split
    · exact enqueue s _
    · rename_i hok
      have htaken : Calm s (if o.answersAtOnce = true then
          (s.takeDeviceOrder seq o a b).enqueue (deviceAnswer seq .ok 0) else s.takeDeviceOrder seq o a b) := by
        have h := takeDeviceOrder s seq hc (not_not.mp hok)
        split
        · exact h.trans (enqueue _ _)
        · exact h
      split
      · exact htaken.trans (settle _)
      · exact htaken

end Calm

end Sys2Proof.Machine
end


section
/-! SUPPORT. Lanes at rest and pins at their levels outside READY (R25, R92, R114, R118), through every command. -/

namespace Sys2Proof.Machine

namespace PinsOk

variable {s t : State}

/-- Every lane rests where the engine is not READY. -/
theorem resting (h : PinsOk s) (he : s.engine ≠ .ready) : Resting s := by
  obtain ⟨_, hrest, hst, _, _⟩ := h
  exact fun n => ⟨hst he n, hrest n⟩

/-- What leaves pins and lanes at rest keeps the levels. -/
theorem calm (h : PinsOk s) (g : Calm s t) (hrest : Everywhere Lane.atRest t) : PinsOk t := by
  obtain ⟨heng, hsafe⟩ := g.steady
  have hr : t.engine ≠ .ready → Resting t ∧ t.out = s.out := fun he =>
    g.rest (heng ▸ he) (h.resting (heng ▸ he))
  obtain ⟨hport, _, _, hlow, hhalt⟩ := h
  refine ⟨fun he => g.port (heng ▸ he) (hport (heng ▸ he)), hrest, fun he n => ((hr he).1 n).1, fun he => ?_, fun he => ?_⟩
  · have hne : t.engine ≠ .ready := by rcases he with he | he <;> rw [he] <;> decide
    rw [(hr hne).2]
    exact hlow (heng ▸ he)
  · rw [(hr (by rw [he]; decide)).2, hsafe]
    exact hhalt (heng ▸ he)

/-- The lanes, the pins and the engine state are the same. -/
theorem same (h : PinsOk s) (he : t.engine = s.engine) (hs : t.safe = s.safe) (hp : s.port = none → t.port = none)
    (hl : t.lanes = s.lanes) (ho : t.out = s.out) : PinsOk t :=
  h.calm (Calm.same he hs hp hl ho) (LaneRule.same h.2.1 hl)

/-- A transaction under way is not in CLEARING (R141). -/
theorem not_clearing (h : PinsOk s) {r : Request} (hu : s.underWay r = true) : s.engine ≠ .clearing := by
  intro he
  obtain ⟨x, hx, _⟩ := underWay_iff.mp hu
  rw [h.1 he] at hx
  cases hx

/-- The state after a reset. -/
theorem empty (hl : t.lanes = Vector.replicate 8 {}) (hp : t.port = none) (ho : t.out = 0#24) (he : t.engine ≠ .halted) :
    PinsOk t := by
  have hlane : ∀ n, t.lane n = {} := fun n => by unfold State.lane; rw [hl]; simp
  refine ⟨fun _ => hp, fun n => ?_, fun _ n => ?_, fun _ => ho, fun h => absurd h he⟩
  · rw [hlane n]; exact fun _ => ⟨rfl, rfl, rfl, rfl⟩
  · rw [hlane n]; exact Or.inl rfl

/-- READY asks for lanes at rest alone. -/
theorem ready (he : t.engine = .ready) (hrest : Everywhere Lane.atRest t) : PinsOk t :=
  ⟨fun h => absurd (he.symm.trans h) (by decide), hrest, fun h => absurd he h,
    fun h => h.elim (fun h => absurd (he.symm.trans h) (by decide)) (fun h => absurd (he.symm.trans h) (by decide)),
    fun h => absurd (he.symm.trans h) (by decide)⟩

/-- A halt trip leaves every pin at its safe level and every lane IDLE or FAULTED (R113). -/
theorem trip (h : PinsOk s) (cause : HaltCause) (line : Fin 8) : PinsOk (s.trip cause line) := by
  obtain ⟨hframe, _, hother, hlane, _⟩ := trip_tripped s cause cause.faultCode line rfl
  have hengine : (s.trip cause line).engine = .halted := by rw [hframe]
  have hst : ∀ n, ((s.trip cause line).lane n).st = .idle ∨ ((s.trip cause line).lane n).st = .faulted := by
    intro n
    by_cases hf : (s.lane n).faultsAtTrip
    · rw [(hlane n hf).1]; exact Or.inr rfl
    · rw [(hother n hf).1]
      unfold Lane.faultsAtTrip at hf
      tauto
  have hat : ∀ n, ((s.trip cause line).lane n).atRest := by
    intro n
    by_cases hf : (s.lane n).faultsAtTrip
    · rw [(hlane n hf).1]; exact fun _ => ⟨rfl, rfl, rfl, rfl⟩
    · rw [(hother n hf).1]; exact h.2.1 n
  refine ⟨fun he => absurd (hengine.symm.trans he) (by decide), hat, fun _ => hst,
    fun he => ?_, fun _ => by rw [hframe]⟩
  rw [hengine] at he
  rcases he with he | he <;> cases he

/-- A cause of a halt trip (R112). -/
theorem haltCause (h : PinsOk s) (cause : HaltCause) (line : Fin 8) : PinsOk (s.haltCause cause line) := by
  unfold State.haltCause
  split
  · exact h.trip cause line
  · exact h.same (by simp [State.furtherTrip, State.raise]) (by simp [State.furtherTrip, State.raise])
      (fun hp => by simpa [State.furtherTrip, State.raise] using hp) (by simp [State.furtherTrip, State.raise])
      (by simp [State.furtherTrip, State.raise])
  · exact h
  · exact h

/-! Transactions. -/

/-- A lane whose fetch is granted is active, so the engine is READY (R39, R143). -/
theorem grant (h : PinsOk s) {r : Request} (hc : s.portChoice = some r) : PinsOk (s.grant r) := by
  obtain ⟨_, hclear, hmay⟩ := portChoice_grants hc
  obtain ⟨heng, _, _, _, _, _, _, _, _, _, hout, hsafe, _⟩ := grant_frame s r
  refine h.calm (Calm.awake ⟨heng, hsafe⟩ hclear (fun _ hr => ⟨?_, hout⟩)) (LaneRule.atRest.grant h.2.1 hc)
  have asks : ∀ n, (s.lane n).mayRequest = true → False := fun n hm => by
    unfold Lane.mayRequest at hm
    rw [hr.not_active n] at hm
    cases hm
  cases r with
  | cueFetch n =>
    have hw := hmay.2
    unfold Lane.wantsCue at hw
    exact (asks n (Bool.and_eq_true_iff.mp hw).1).elim
  | tailReread n =>
    have hw : (s.lane n).wantsTail = true := hmay
    unfold Lane.wantsTail at hw
    exact (asks n (Bool.and_eq_true_iff.mp hw).1).elim
  | statusItem =>
    unfold State.grant
    dsimp only
    split
    · exact hr
    · exact hr.same rfl
  | _ => exact hr.same rfl

theorem landWord (h : PinsOk s) (ws : Between) : PinsOk (s.landWord ws) := by
  unfold State.landWord
  split
  · exact h.same rfl rfl (fun hp => by rw [hp]; rfl) rfl rfl
  · exact h

/-- An entry read passes its interval to an active lane alone (R28). -/
theorem laneRead (n : LaneId) (ws : Between) (hc : s.engine ≠ .clearing) : Calm s (State.endLaneRead n ws s) := by
  have hread : ∀ m i, Calm s ((s.endTransaction m).passInterval n i) := fun m i => by
    refine (Calm.endTransaction s m).trans (Calm.updLane _ n ?_)
    split <;> exact ⟨rfl, rfl, rfl, Or.inr rfl, rfl, rfl, fun _ h => h⟩
  unfold State.endLaneRead
  dsimp only
  have h1 := hread (s.readLaneEntry n ws).2.2 (laneInterval (s.readLaneEntry n ws).2.1)
  generalize (s.endTransaction (s.readLaneEntry n ws).2.2).passInterval n (laneInterval (s.readLaneEntry n ws).2.1) = t
    at *
  split
  · exact h1.trans (Calm.updLane t n (LaneRule.occasion_alike _))
  · refine Calm.trans ?_ (Calm.newLaneOrder _ n _ _ _ _ ?_)
    · exact h1.trans (Calm.same rfl rfl id rfl rfl)
    · exact fun he => hc (h1.steady.1.symm.trans he)

theorem deviceRead (ws : Between) (hc : s.engine ≠ .clearing) : Calm s (State.endDeviceRead ws s) := by
  unfold State.endDeviceRead
  dsimp only
  split
  · exact (Calm.endTransaction s _).trans (Calm.settle _)
  · refine Calm.trans ?_ (Calm.newDeviceOrder _ _ _ _ _ ?_)
    · exact Calm.same rfl rfl (fun _ => rfl) rfl rfl
    · exact hc

/-- An APPLY SETUP taken makes the engine READY; a refused one leaves the pins (R165, R166). -/
theorem setupRead (h : PinsOk s) (pins : BitVec 8) (ws : Between) : PinsOk (State.endSetupRead pins ws s) := by
  have hrest := LaneRule.endSetupRead h.2.1 pins ws
  unfold State.endSetupRead at hrest ⊢
  split
  · rename_i hdev
    rw [hdev] at hrest
    dsimp only at hrest ⊢
    generalize readSeq (List.range 128) ws s.mem = r at *
    split
    · rename_i hok
      rw [if_pos hok] at hrest
      exact ready rfl hrest
    · exact h.same rfl rfl (fun _ => rfl) rfl rfl
  · exact h

/-- A cue fetch ends on a lane at rest with nothing (R146). -/
theorem cueFetch (n : LaneId) (ws : Between) (hc : s.engine ≠ .clearing) : Calm s (State.endCueFetch n ws s) := by
  refine Calm.awake ?_ hc (fun he hr => ?_)
  · have free : ∀ m, Steady s (s.endTransaction m) := fun m => ⟨rfl, rfl⟩
    unfold State.endCueFetch
    split
    · exact Steady.rule.trans (free _) (Steady.rule.settle _)
    · dsimp only
      split
      · exact Steady.rule.trans (free _) (Steady.rule.settle _)
      · split
        · refine Steady.rule.trans ?_ (Steady.rule.settle _)
          split
          · exact Steady.rule.trans (free _) (Steady.rule.foundArmed _ n _)
          · exact Steady.rule.trans (free _) (Steady.rule.tornAttempt _ n _)
        · exact Steady.rule.trans (free _) (Steady.rule.trans (Steady.rule.foundNotArmed _ n _ _) (Steady.rule.settle _))
  · unfold State.endCueFetch
    rw [(hr.holds n).2.2]
    exact ((Calm.endTransaction s _).trans (Calm.settle _)).rest he hr

/-- A tail re-read ends on a lane at rest with nothing (R146). -/
theorem tailReread (n : LaneId) (ws : Between) (hc : s.engine ≠ .clearing) : Calm s (State.endTailReread n ws s) := by
  refine Calm.awake ?_ hc (fun he hr => ?_)
  · have free : ∀ m, Steady s (s.endTransaction m) := fun m => ⟨rfl, rfl⟩
    unfold State.endTailReread
    split
    · exact Steady.rule.trans (free _) (Steady.rule.settle _)
    · dsimp only
      split
      · exact Steady.rule.trans (free _) (Steady.rule.settle _)
      · split
        · exact Steady.rule.trans (free _) (Steady.rule.trans (Steady.rule.foundTail _ n _ _ _) (Steady.rule.settle _))
        · exact Steady.rule.trans (free _) (Steady.rule.trans (Steady.rule.tornAttempt _ n _) (Steady.rule.settle _))
  · unfold State.endTailReread
    rw [(hr.holds n).2.2]
    exact ((Calm.endTransaction s _).trans (Calm.settle _)).rest he hr

/-- The landing of an entry (R148). -/
theorem entryLanded (s : State) (e : WriteBack) : Calm s (s.entryLanded e) := by
  have hout : (s.entryLanded e).out = s.out := by
    unfold State.entryLanded
    split <;> [split; (split <;> [split; skip]); skip; skip; skip; skip; skip] <;> simp [State.raise]
  exact ⟨Steady.rule.entryLanded s e, fun _ hp => (Inert.entryLanded s e).port.trans hp,
    fun _ hr => ⟨hr.alike (Inert.entryLanded s e).lane, hout⟩⟩

theorem writeBack (s : State) (ws : Between) : Calm s (State.endWriteBack ws s) := by
  unfold State.endWriteBack
  split
  · exact Calm.endTransaction s _
  · refine Calm.trans ?_ ((entryLanded _ _).trans (Calm.settle _))
    exact Calm.same rfl rfl (fun _ => rfl) rfl rfl

theorem statusItem (s : State) (ws : Between) : Calm s (State.endStatusItem ws s) := by
  unfold State.endStatusItem
  split
  · unfold State.snapshotWritten
    dsimp only
    split
    · split
      · exact Calm.same rfl rfl (fun _ => rfl) rfl rfl
      · exact Calm.same rfl rfl (fun _ => rfl) rfl rfl
    · exact Calm.same rfl rfl (fun _ => rfl) rfl rfl
  · exact Calm.refl s

/-! Timed events and the link. -/

theorem beat (s : State) (b : Fin 8) : Calm s (s.beatExpires b) := by
  unfold State.beatExpires
  split
  · refine Calm.trans ?_ (Calm.settle _)
    exact (Calm.sourceEvent s _).trans (Calm.same rfl rfl id rfl rfl)
  · exact Calm.refl s

theorem pulse (s : State) (n : LaneId) : Calm s (s.pulseEnds n) := by
  unfold State.pulseEnds
  split
  · split
    · rename_i hdue
      refine Calm.awake ?_ (by rw [hdue.1]; decide) (fun he => absurd hdue.1 he)
      exact Steady.rule.trans (Steady.rule.anyLane n _) (Steady.rule.trans (Steady.rule.out _) (Steady.rule.settle _))
    · exact Calm.refl s
  · exact Calm.refl s

theorem limit (s : State) (n : LaneId) : Calm s (s.limitExpires n) := by
  unfold State.limitExpires
  split
  · split
    · rename_i hdue
      refine Calm.awake ?_ (by rw [hdue.1]; decide) (fun he => absurd hdue.1 he)
      split
      · exact Steady.rule.trans (Steady.rule.laneFault s n _ _) (Steady.rule.settle _)
      · exact Steady.rule.trans (Steady.rule.anyLane n _)
          (Steady.rule.trans (Steady.rule.settle _) (Steady.rule.anyLane n _))
    · exact Calm.refl s
  · exact Calm.refl s

theorem revisit (s : State) (n : LaneId) : Calm s (s.revisitExpires n) := by
  unfold State.revisitExpires
  split
  · refine Calm.updLane s n ?_
    unfold Lane.revisitExpires
    dsimp only
    split <;> exact ⟨rfl, rfl, rfl, Or.inr rfl, rfl, rfl, fun _ h => h⟩
  · exact Calm.refl s

theorem sampleLine (s : State) (i : Fin 8) (level : Bool) : Calm s (s.sampleLine i level) := by
  unfold State.sampleLine
  dsimp only
  split <;> exact Calm.same rfl rfl id rfl rfl

theorem inputSampled (h : PinsOk s) (i : Fin 8) (level : Bool) : PinsOk (s.inputSampled i level) := by
  have hline : PinsOk (s.sampleLine i level) :=
    h.calm (sampleLine s i level) (LaneRule.same h.2.1 (LaneRule.sampleLine_lanes s i level))
  unfold State.inputSampled
  split
  · dsimp only
    split
    · split
      · exact hline.haltCause _ _
      · refine hline.calm ((Calm.sourceEvent _ _).trans (Calm.settle _)) ?_
        exact LaneRule.atRest.settle (LaneRule.atRest.inert hline.2.1 (Inert.sourceEvent _ _))
    · exact hline
  · exact h

theorem setRx (h : PinsOk s) (r : Receiver) : PinsOk (s.setRx r) := h.same rfl rfl id rfl rfl

theorem frameJudged (h : PinsOk s) (data : Byte) (p b : Bool) : PinsOk (s.frameJudged data p b) := by
  have link : ∀ (t : State) (f : LinkPort → LinkPort), PinsOk t → PinsOk ((t.updLink f).raise .linkError) := fun t f ht =>
    ht.calm ((Calm.updLink t f).trans (Calm.raise _ _)) (LaneRule.same ht.2.1 (by simp))
  unfold State.frameJudged
  split
  · split
    · exact link _ _ (h.setRx _)
    · exact link _ _ (h.setRx _)
    · unfold State.acceptFrame
      split
      · exact h.setRx _
      · split
        · split
          · exact (h.setRx _).haltCause _ _
          · exact h.setRx _
        · refine (h.setRx .hunt).calm ((Calm.linkEvent _ _).trans (Calm.settle _)) ?_
          exact LaneRule.atRest.settle (LaneRule.atRest.inert (h.setRx .hunt).2.1 (Inert.linkEvent _ _))
  · exact h

theorem tick (h : PinsOk s) : PinsOk s.tick := by
  refine h.calm ?_ (LaneRule.atRest.tick h.2.1)
  unfold State.tick
  split
  · refine ⟨⟨rfl, rfl⟩, fun _ hp => hp, fun _ hr => ⟨hr.alike (fun n => ?_), rfl⟩⟩
    show Alike (s.lane n) (s.lanes.map Lane.tick)[n]
    rw [show (s.lanes.map Lane.tick)[n] = (s.lane n).tick by simp [State.lane]]
    exact ⟨rfl, rfl, by simp [Lane.tick], Or.inr rfl, rfl, rfl, fun _ _ => rfl⟩
  · exact Calm.refl s

/-- What every lane keeps at rest, as an invariant. -/
theorem lanes : Invariant (Everywhere Lane.atRest) := LaneRule.atRest.invariant

/-- The levels outside READY are an invariant. -/
theorem invariant : Invariant PinsOk where
  powerOn := fun _ => empty rfl rfl rfl (fun h => by cases h)
  clearDone := fun {s} hs => by
    unfold State.clearDone
    split
    · rename_i he
      obtain ⟨hport, hrest, hst, hlow, _⟩ := hs
      exact ⟨fun _ => hport he, hrest, fun _ => hst (by rw [he]; decide), fun _ => hlow (Or.inl he), fun h => by cases h⟩
    · exact hs
  softReset := fun _ _ => empty rfl rfl rfl (fun h => by cases h)
  halt := fun c i hs => hs.haltCause c i
  release := fun hs he => ready (by rw [releaseTaken_frame]) (lanes.release hs.2.1 he)
  refuse := fun hs => hs.same rfl rfl id rfl rfl
  nudge := fun _ hs => hs.same rfl rfl id rfl rfl
  take := fun hs => by
    unfold State.readTake
    split
    · exact hs.same rfl rfl id rfl rfl
    · exact hs.same rfl rfl id rfl rfl
  endService := fun hs => hs.same rfl rfl id rfl rfl
  status := fun hs => hs.same rfl rfl id rfl rfl
  memory := fun _ hs => by
    unfold State.writeMemory
    split
    · exact hs
    · exact hs.same rfl rfl id rfl rfl
  grant := fun hs hc => hs.grant hc
  landWord := fun ws hs => hs.landWord ws
  laneRead := fun n ws hs hu => hs.calm (laneRead n ws (hs.not_clearing hu)) (lanes.laneRead n ws hs.2.1 hu)
  deviceRead := fun ws hs hu => hs.calm (deviceRead ws (hs.not_clearing hu)) (lanes.deviceRead ws hs.2.1 hu)
  setupRead := fun pins ws hs _ => hs.setupRead pins ws
  cueFetch := fun n ws hs hu => hs.calm (cueFetch n ws (hs.not_clearing hu)) (lanes.cueFetch n ws hs.2.1 hu)
  tailReread := fun n ws hs hu => hs.calm (tailReread n ws (hs.not_clearing hu)) (lanes.tailReread n ws hs.2.1 hu)
  writeBack := fun ws hs hu => hs.calm (writeBack _ ws) (lanes.writeBack ws hs.2.1 hu)
  statusItem := fun ws hs hu => hs.calm (statusItem _ ws) (lanes.statusItem ws hs.2.1 hu)
  beat := fun b hs => hs.calm (beat _ b) (lanes.beat b hs.2.1)
  pulse := fun n hs => hs.calm (pulse _ n) (lanes.pulse n hs.2.1)
  limit := fun n hs => hs.calm (limit _ n) (lanes.limit n hs.2.1)
  revisit := fun n hs => hs.calm (revisit _ n) (lanes.revisit n hs.2.1)
  sample := fun i level hs => hs.inputSampled i level
  frame := fun data p b hs => hs.frameJudged data p b
  frameSent := fun hs => by
    unfold State.frameSent
    split
    · exact hs.calm (Calm.updLink _ _) (LaneRule.same hs.2.1 (by simp))
    · exact hs
  receiver := fun r hs => hs.setRx r
  queue := fun _ hs => hs.same rfl rfl id rfl rfl
  choice := fun _ hs => hs.same rfl rfl id rfl rfl
  tick := fun hs => hs.tick

end PinsOk

/-- Settles O59: the levels outside READY are an invariant, since lanes at rest neither fire nor wait. -/
theorem everyStepKeepsPinLevels : Obligations.EveryStepKeepsPinLevels :=
  fun _ _ hs ht => PinsOk.invariant.step hs ht

/-- Settles O60: after a reset every list and every queue is empty. -/
theorem resetMeetsInvariants : Obligations.ResetMeetsInvariants := by
  refine ⟨rfl, (spare_zero _).mp (Spare.empty rfl rfl rfl), LaneRule.staging.reset rfl, OwedOk.empty rfl rfl,
    ⟨Nat.zero_le _, Nat.zero_le _⟩, fun i => ?_, ⟨List.Pairwise.nil, fun e he => by cases he⟩,
    PinsOk.empty rfl rfl rfl (fun h => by cases h)⟩
  have hcount : (State.reset.source i).count = 0 := by
    by_cases hi : i.val < 16 <;> simp [State.source, State.reset, hi]
  rw [hcount]
  exact Nat.zero_le _

end Sys2Proof.Machine
end


section
/-! SUPPORT. The engine-wide commands (R112, R141, R172, R174, R175) and the host's writes to registers (R27, R177). -/

namespace Sys2Proof.Machine

/-- Settles O1: a step matches on the queue of commands. -/
theorem stepRunsFrontCommand : Obligations.StepRunsFrontCommand := by
  intro c rest s h
  unfold step
  rw [h]

/-- The sources after power-on: the flags CLAIM, every other source SHARE, none with an event (R76). -/
theorem reset_source (i : SourceId) :
    State.reset.source i = { claim := decide (16 ≤ i.val), count := 0, last := none, overflow := false } := by
  by_cases hi : i.val < 16
  · have hle : ¬ 16 ≤ i.val := by omega
    simp [State.source, State.reset, hi, hle]
  · have hle : 16 ≤ i.val := by omega
    simp [State.source, State.reset, hi, hle]

/-- After power-on every lane has its first values (R25, R174). -/
theorem reset_lane (n : LaneId) : State.reset.lane n = {} := by simp [State.lane, State.reset]

/-- After power-on no cause is pending (R153). -/
theorem reset_isPending (c : Cause) : State.reset.att.isPending c = false := by
  simp [Attention.isPending, State.reset]

/-- Settles O4: the fields of the state after power-on, each read off. -/
theorem powerOnEntersClearing : Obligations.PowerOnEntersClearing := by
  intro s
  have hattn : State.reset.attn = false := by decide
  refine ⟨s.powerOn, rfl, rfl, rfl, rfl, rfl, fun n => ?_, rfl, rfl, rfl, rfl, fun a => rfl, rfl, rfl, rfl, rfl,
    fun n => ?_, reset_source, rfl, rfl, fun b => ?_, fun i => ?_, fun p => ?_, rfl, rfl, rfl, rfl, rfl, rfl, rfl,
    reset_isPending, rfl, rfl, rfl, rfl, hattn⟩
  · simp [State.powerOn, State.reset]
  · have hlane : s.powerOn.lane n = {} := reset_lane n
    rw [hlane]
    and_intros <;> rfl
  · simp [State.powerOn, State.reset]
  · simp [State.powerOn, State.reset]
  · simp [State.powerOn, State.reset]

/-- Settles O5: the command's guard is the engine state. -/
theorem clearCompleteEntersUnset : Obligations.ClearCompleteEntersUnset := by
  intro s h
  show Host.Outcome.next s.clearDone = _
  rw [State.clearDone, if_pos h]

/-- Writes with no host writes between them land one after another. -/
theorem writeSeq_alone (ps : List (Nat × Word)) (m : List Host.Cell) :
    writeSeq ps [] m = ps.foldl (fun m p => writeWord m p.1 p.2) m := by
  induction ps generalizing m with
  | nil => rfl
  | cons p ps ih => exact ih _

/-- Settles O6: a soft reset by the engine state, and memory by the transaction under way. -/
theorem softResetTaken : Obligations.SoftResetTaken := by
  intro k s
  have hexec : exec (.softReset k) s = .next (s.codeSoftReset k) := rfl
  have hmem : (s.softResetTaken k).mem = (s.writesUnderWay.take k).foldl (fun m p => writeWord m p.1 p.2) s.mem :=
    writeSeq_alone _ _
  rw [hexec]
  refine ⟨fun h => ?_, fun h => ⟨s.softResetTaken k, ?_, rfl, fun hwb hst => ?_, fun j e q hp hq => ?_,
    fun i ws j hp => ?_⟩⟩
  · rw [State.codeSoftReset, if_pos h]
    rfl
  · rw [State.codeSoftReset, if_neg h]
  · have hnone : s.writesUnderWay = [] := by
      unfold State.writesUnderWay
      split
      · rename_i j hp
        exact absurd hp (hwb j)
      · rename_i i ws j hp
        exact absurd hp (hst i ws j)
      · rfl
    rw [hmem, hnone, List.take_nil]
    rfl
  · rw [hmem]
    unfold State.writesUnderWay
    rw [hp, hq]
    rfl
  · rw [hmem]
    unfold State.writesUnderWay
    rw [hp]

/-- Settles O7: the trip in the words of the statement. -/
theorem haltTripsReadyEngine : Obligations.HaltTripsReadyEngine := by
  intro s h
  refine ⟨s.trip .hostHalt 0, ?_, trip_tripped s .hostHalt .hostHalt 0 rfl⟩
  show Host.Outcome.next s.codeHalt = _
  rw [State.codeHalt, h]

/-- A further trip marks the halt record exactly when its count rises (R112, R149). -/
theorem furtherTrip_eq (s : State) : s.furtherTrip = s.trippedAgain := by
  have hrise : (({ s.halt with further := if s.halt.further = 255#8 then 255#8 else s.halt.further + 1 }
      : HaltRecord) = s.halt) ↔ s.halt.further = 255#8 := by
    constructor
    · intro h
      by_contra hne
      have hf := congrArg HaltRecord.further h
      rw [if_neg hne] at hf
      bv_omega
    · intro h
      rw [if_pos h, ← h]
  unfold State.furtherTrip State.trippedAgain
  rw [setHalt_eq]
  dsimp only [State.raise, Attention.raise]
  simp only [hrise]
  rfl

/-- Settles O8: HALT by the engine state. -/
theorem haltOutsideReady : Obligations.HaltOutsideReady := by
  intro s
  have hexec : exec .halt s = .next s.codeHalt := rfl
  refine ⟨fun h => ?_, fun h => ?_⟩
  · have htrip : s.codeHalt = s.furtherTrip := by rw [State.codeHalt, h]
    rw [hexec, htrip, furtherTrip_eq]
  · have hrefuse : s.codeHalt = s.refuse := by rcases h with h | h <;> rw [State.codeHalt, h]
    rw [hexec, hrefuse]
    rfl

/-- Settles O10: the codes and the addresses that reach no writable register. -/
theorem refusedAndIgnoredWrites : Obligations.RefusedAndIgnoredWrites := by
  intro a v s
  refine ⟨fun h1 h2 h3 => ?_, fun h => ?_⟩
  · show Host.Outcome.next (s.writeControl v) = _
    rw [State.writeControl, if_neg h1, if_neg h2, if_neg h3]
    rfl
  · show Host.Outcome.next (s.hostWrite { addr := a, value := v }) = _
    have hout : ¬ a.toNat < Config.memoryEnd ∧ ¬ a.toNat / 4 = 0x8000 / 4 ∧ ¬ a.toNat / 4 = 0x8008 / 4 ∧
        ¬ a.toNat / 4 = 0x8010 / 4 := by
      have hend : Config.memoryEnd = 0x8000 := rfl
      omega
    obtain ⟨hm, h0, h8, h10⟩ := hout
    unfold State.hostWrite
    dsimp only
    rw [if_neg hm, if_neg h0, if_neg h8, if_neg h10]

/-- Settles O11: each latch bit is that of the latch or that of the value. -/
theorem nudgeSetsLatchBits : Obligations.NudgeSetsLatchBits := by
  intro v s
  refine ⟨s.writeNudge v, rfl, rfl, fun i => ?_⟩
  have hi : i.val < 9 := i.isLt
  simp [State.writeNudge, field, hi]

end Sys2Proof.Machine
end


section
/-! SUPPORT. The words a host read returns (R140, R158, R173), the most urgent cause (R158), host writes to memory (R139),
and the passing of time on an empty queue (R93). -/

namespace Sys2Proof.Machine

/-! The fields of composed words. -/

/-- The bits of a placed field. -/
theorem place_bit {n : Nat} (lo : Nat) (x : BitVec n) (i : Nat) :
    (place lo x).getLsbD i = (decide (i < 32) && decide (lo ≤ i) && x.getLsbD (i - lo)) := by
  have hlow : decide (lo ≤ i) = !decide (i < lo) := by rw [← decide_not]; simp only [Nat.not_lt]
  unfold place
  rw [BitVec.getLsbD_shiftLeft, BitVec.getLsbD_setWidth, hlow]
  by_cases h : i < 32
  · have : i - lo < 32 := by omega
    simp [h, this]
  · simp [h]

/-- A placed field, read where it stands. -/
theorem extract_place_same {n lo : Nat} (x : BitVec n) (h : lo + n ≤ 32) : (place lo x).extractLsb' lo n = x := by
  ext i hi
  rw [BitVec.getElem_extractLsb', place_bit]
  have : lo + i < 32 := by omega
  simp [this, BitVec.getLsbD_eq_getElem hi]

/-- A placed field, read beside it. -/
theorem extract_place_apart {n m lo lo' : Nat} (x : BitVec n) (h : lo' + m ≤ lo ∨ lo + n ≤ lo') :
    (place lo x).extractLsb' lo' m = 0#m := by
  ext i hi
  rw [BitVec.getElem_extractLsb', place_bit]
  rcases h with h | h
  · have : ¬ lo ≤ lo' + i := by omega
    simp [this]
  · have : n ≤ lo' + i - lo := by omega
    simp [BitVec.getLsbD_of_ge _ _ this]

/-- A one-bit field as a placed field. -/
theorem flag_place (lo : Nat) (b : Bool) : flag lo b = place lo (BitVec.ofBool b) := by
  cases b <;> simp [flag, place]

/-- A small number as a placed field. -/
theorem num_place {k n : Nat} (h : k < 2 ^ n) (hn : n ≤ 32) (lo : Nat) : num k <<< lo = place lo (BitVec.ofNat n k) := by
  unfold num place
  congr 1
  apply BitVec.eq_of_toNat_eq
  have hk : k < 2 ^ 32 := lt_of_lt_of_le h (Nat.pow_le_pow_right (by decide) hn)
  simp [Nat.mod_eq_of_lt h]

/-- A TAKE word as three placed fields (R158). -/
theorem takeWord_place (c : Cause) {level : Nat} (h : level < 4) : takeWord c level =
    place 0 (BitVec.ofNat 4 c.kind) ||| place 4 (BitVec.ofNat 3 c.lane.val) ||| place 8 (BitVec.ofNat 2 level) := by
  have hkind : c.kind < 2 ^ 4 := by cases c <;> exact of_decide_eq_true rfl
  rw [takeWord, ← num_place hkind (by decide), ← num_place (n := 3) c.lane.isLt (by decide),
    ← num_place (n := 2) h (by decide), BitVec.shiftLeft_zero]

/-- The three fields of a TAKE word (R158). -/
theorem takeWord_fields (c : Cause) {level : Nat} (h : level < 4) :
    ((takeWord c level).extractLsb' 0 4).toNat = c.kind ∧ ((takeWord c level).extractLsb' 4 3).toNat = c.lane.val ∧
    ((takeWord c level).extractLsb' 8 2).toNat = level := by
  have hkind : c.kind < 16 := by cases c <;> exact of_decide_eq_true rfl
  rw [takeWord_place c h]
  simp only [BitVec.extractLsb'_or]
  refine ⟨?_, ?_, ?_⟩
  · rw [extract_place_same _ (by decide), extract_place_apart _ (by decide), extract_place_apart _ (by decide)]
    simp [Nat.mod_eq_of_lt hkind]
  · rw [extract_place_same _ (by decide), extract_place_apart _ (by decide), extract_place_apart _ (by decide)]
    simp
  · rw [extract_place_same _ (by decide), extract_place_apart _ (by decide), extract_place_apart _ (by decide)]
    simp [Nat.mod_eq_of_lt h]

/-! The most urgent cause. -/

/-- The list of causes rises by kind code and then by lane (R151). -/
theorem allCauses_rising :
    allCauses.Pairwise (fun c d => c.kind < d.kind ∨ (c.kind = d.kind ∧ c.lane.val < d.lane.val)) := by decide

/-- The levels are 1 to 3 (R154). -/
theorem levelOf_range (a : Attention) (c : Cause) : 1 ≤ a.levelOf c ∧ a.levelOf c ≤ 3 := by
  rw [Attention.levelOf_eq]
  split
  · decide
  · split <;> decide

/-- The first cause of a level, in the order of kinds and lanes (R158). -/
theorem find_level {a : Attention} {c : Cause} (hc : a.eligible c = true)
    (hfirst : ∀ d, a.eligible d = true → a.levelOf d = a.levelOf c →
      c.kind < d.kind ∨ (c.kind = d.kind ∧ c.lane.val ≤ d.lane.val)) :
    allCauses.find? (fun d => a.eligible d && a.levelOf d == a.levelOf c) = some c := by
  obtain ⟨before, after, hsplit⟩ := List.append_of_mem (mem_allCauses c)
  rw [List.find?_eq_some_iff_append]
  refine ⟨by simp [hc], before, after, hsplit, fun d hd => ?_⟩
  have hlt : d.kind < c.kind ∨ (d.kind = c.kind ∧ d.lane.val < c.lane.val) := by
    have hp := allCauses_rising
    rw [hsplit, List.pairwise_append] at hp
    exact hp.2.2 d hd c (by simp)
  by_contra hne
  have hd' : a.eligible d = true ∧ a.levelOf d = a.levelOf c := by simpa using hne
  have := hfirst d hd'.1 hd'.2
  omega

/-- The most urgent cause is the one no eligible cause comes before (R158). -/
theorem mostUrgent_eq {a : Attention} {c : Cause} (hc : a.eligible c = true)
    (hfirst : ∀ d, a.eligible d = true → a.levelOf d < a.levelOf c ∨ (a.levelOf d = a.levelOf c ∧
      (c.kind < d.kind ∨ (c.kind = d.kind ∧ c.lane.val ≤ d.lane.val)))) : a.mostUrgent = some c := by
  have hfind := find_level hc (fun d hd hl => ((hfirst d hd).resolve_left (by omega)).2)
  have above : ∀ lv, a.levelOf c < lv → allCauses.find? (fun d => a.eligible d && a.levelOf d == lv) = none := by
    intro lv hlv
    rw [List.find?_eq_none]
    intro d _ hd
    have hd' : a.eligible d = true ∧ a.levelOf d = lv := by simpa using hd
    have := hfirst d hd'.1
    omega
  unfold Attention.mostUrgent
  dsimp only
  obtain ⟨hlow, hhigh⟩ := levelOf_range a c
  have hcases : a.levelOf c = 1 ∨ a.levelOf c = 2 ∨ a.levelOf c = 3 := by omega
  rcases hcases with h | h | h
  · rw [above 3 (by omega), above 2 (by omega), ← h, hfind]; rfl
  · rw [above 3 (by omega), ← h, hfind]; rfl
  · rw [← h, hfind]; rfl

/-- With no eligible cause there is no most urgent one (R158). -/
theorem mostUrgent_none {a : Attention} (h : ∀ c, a.eligible c = false) : a.mostUrgent = none := by
  unfold Attention.mostUrgent
  simp [h]

/-- The top level after a cause is taken into service is its level (R157, R158). -/
theorem serve_topLevel (a : Attention) (c : Cause) : (a.serve c).topLevel = a.levelOf c := by
  simp [Attention.topLevel, Attention.serve]

/-- Settles O13: the eligible cause that none comes before is the one found first among the causes of the highest level. -/
theorem takeReturnsMostUrgentCause : Obligations.TakeReturnsMostUrgentCause := by
  intro s
  have hexec : exec .take s = .next s.readTake := rfl
  rw [hexec]
  refine ⟨fun h => ?_, fun c hc hfirst => ⟨s.readTake, rfl, ?_⟩⟩
  · rw [State.readTake, mostUrgent_none h]
    rfl
  · have htake : s.readTake = { s with att := s.att.serve c, readData := takeWord c (s.att.levelOf c) } := by
      rw [State.readTake, mostUrgent_eq hc hfirst]
    have hlevel : s.att.levelOf c < 4 := Nat.lt_succ_of_le (levelOf_range s.att c).2
    obtain ⟨hkind, hlane, hlev⟩ := takeWord_fields c hlevel
    rw [htake]
    refine ⟨rfl, hkind, hlane, hlev, attn_iff _, fun d hd => ?_⟩
    have htop : (s.att.serve c).topLevel < (s.att.serve c).levelOf d := by
      have hd' : (s.att.serve c).eligible d = true := hd
      unfold Attention.eligible at hd'
      simp only [Bool.and_eq_true, decide_eq_true_eq] at hd'
      exact hd'.2
    rw [serve_topLevel] at htop
    exact htop

/-! The status word. -/

/-- The ENGINE STATUS word as placed fields (R173). -/
theorem statusWord_place (s : State) : s.statusWord =
    place 0 (s.engine.code.setWidth 2) ||| place 2 (s.halt.cause.code.setWidth 2) |||
      place 4 (BitVec.ofBool s.att.unmatchedEnd) ||| place 5 (BitVec.ofBool s.refused) ||| place 8 s.lanesNotIdle |||
      place 16 s.generation := by
  have hengine : s.engine.code = place 0 (s.engine.code.setWidth 2) := by cases s.engine <;> rfl
  have hcause : s.halt.cause.code <<< 2 = place 2 (s.halt.cause.code.setWidth 2) := by cases s.halt.cause <;> rfl
  rw [State.statusWord, flag_place, flag_place, ← hengine, hcause]

/-- Settles O15: each field of the word stands alone at its place. -/
theorem engineStatusRead : Obligations.EngineStatusRead := by
  intro s
  refine ⟨s.readStatus, rfl, rfl, ?_⟩
  show s.statusWord.extractLsb' 0 2 = _ ∧ s.statusWord.extractLsb' 2 2 = _ ∧ s.statusWord.getLsbD 4 = _ ∧
    s.statusWord.getLsbD 5 = _ ∧ (∀ n : LaneId, s.statusWord.getLsbD (8 + n.val) = true ↔ _) ∧
    s.statusWord.extractLsb' 16 16 = _ ∧ s.statusWord.extractLsb' 6 2 = _
  rw [statusWord_place]
  simp only [BitVec.extractLsb'_or, BitVec.getLsbD_or, place_bit]
  refine ⟨?_, ?_, ?_, ?_, fun n => ?_, ?_, ?_⟩
  · simp [extract_place_same, extract_place_apart]
    cases s.engine <;> rfl
  · simp [extract_place_same, extract_place_apart]
    cases s.halt.cause <;> rfl
  · simp
  · simp
  · have hn := n.isLt
    have h1 : ¬ 8 + n.val ≤ 1 := by omega
    have h3 : ¬ 8 + n.val ≤ 3 := by omega
    have h4 : 8 + n.val - 4 ≠ 0 := by omega
    have h5 : 8 + n.val - 5 ≠ 0 := by omega
    have h16 : ¬ 16 ≤ 8 + n.val := by omega
    have h32 : 8 + n.val < 32 := by omega
    simp [State.lanesNotIdle, laneSet, h1, h3, h4, h5, h16, h32]
  · simp [extract_place_same, extract_place_apart]
  · simp [extract_place_apart]

/-! The address map. -/

/-- A host read below 8000h (R139 to R141). -/
theorem hostRead_memory {s : State} {a : BitVec 16} (h : a.toNat < 0x8000) :
    s.hostRead a = if s.engine = .clearing then 0 else readWord s.mem (a.toNat / 4) := by
  unfold State.hostRead
  exact if_pos h

/-- A host read of a register or of nothing (R140, 11.9). -/
theorem hostRead_register {s : State} {a : BitVec 16} {i : Nat} (h : a.toNat / 4 = i) (hi : 0x2000 ≤ i) :
    s.hostRead a =
      if i = 0x8004 / 4 then s.statusWord
      else if i = 0x8008 / 4 then place 0 s.nudge
      else if i = 0x800C / 4 then (s.att.mostUrgent.map (fun c => takeWord c (s.att.levelOf c))).getD 0
      else if i = 0x8014 / 4 then s.timebase
      else 0 := by
  subst h
  have hmem : ¬ a.toNat < Config.memoryEnd := by
    have hend : Config.memoryEnd = 0x8000 := rfl
    omega
  unfold State.hostRead
  exact if_neg hmem

/-- A read of TAKE returns what a host read of its address would (R158, R177). -/
theorem readTake_readData (s : State) :
    s.readTake.readData = (s.att.mostUrgent.map (fun c => takeWord c (s.att.levelOf c))).getD 0 := by
  unfold State.readTake
  cases s.att.mostUrgent <;> rfl

/-- A host write below 8000h is a write to exchange memory (R140). -/
theorem hostWrite_memory {s : State} {w : HostWrite} (h : w.addr.toNat < 0x8000) : s.hostWrite w = s.writeMemory w := by
  unfold State.hostWrite
  exact if_pos h

/-- Settles O16: the reads by the address map, and a word written whole. -/
theorem hostWriteLandsWhole : Obligations.HostWriteLandsWhole := by
  refine ⟨fun a s => ⟨fun h hc => ?_, fun h hc => ?_, fun h => ?_, fun h => ?_, fun h => ?_, fun h => ?_, fun h => ?_⟩,
    fun a v s h => ⟨fun hc => ?_, fun hc hm => ?_⟩⟩
  · rw [hostRead_memory h, if_pos hc]; rfl
  · rw [hostRead_memory h, if_neg hc]
  · rw [hostRead_register h (by decide), if_pos rfl]
    rfl
  · rw [hostRead_register h (by decide), if_neg (by decide), if_pos rfl]
    exact ⟨extract_place_same _ (by decide), extract_place_apart _ (by decide)⟩
  · refine ⟨s.readTake, rfl, ?_⟩
    rw [hostRead_register h (by decide), if_neg (by decide), if_neg (by decide), if_pos rfl, readTake_readData]
  · rw [hostRead_register h (by decide), if_neg (by decide), if_neg (by decide), if_neg (by decide), if_pos rfl]
  · rw [hostRead_register rfl (by omega), if_neg (by omega), if_neg (by omega), if_neg (by omega), if_neg (by omega)]
    rfl
  · show Host.Outcome.next (s.hostWrite { addr := a, value := v }) = _
    rw [hostWrite_memory h, State.writeMemory, if_pos hc]
  · have hword : a.toNat / 4 < 8192 := by omega
    refine ⟨{ s with mem := writeWord s.mem (a.toNat / 4) v }, ?_, rfl, writeWord_wf hm _ _,
      readWord_writeWord_self hm hword v, fun k hk => memByte_writeWord_ne v hk⟩
    show Host.Outcome.next (s.hostWrite { addr := a, value := v }) = _
    rw [hostWrite_memory h, State.writeMemory, if_neg hc]
    rfl

/-- A lane order's row acts as the entry read that finds it (log entry 7). -/
theorem laneOrderRow_found {s : State} {n : LaneId} {ws : Between} {o : LaneOrder} (h : s.findsLaneOrder n ws o = true) :
    s.laneOrderRow n ws o = s.turn (.laneEntry n) .done (State.endLaneRead n ws) := if_pos h

/-- A device order's row acts as the entry read that finds it (log entry 7). -/
theorem deviceOrderRow_found {s : State} {ws : Between} {o : DeviceOrder} (h : s.findsDeviceOrder ws o = true) :
    s.deviceOrderRow ws o = s.turn .deviceEntry .done (State.endDeviceRead ws) := if_pos h

/-- Settles O17: each row is guarded by what the entry read finds. -/
theorem orderRowsAreEntryReads : Obligations.OrderRowsAreEntryReads := by
  intro n ws s
  have lane : ∀ o, s.findsLaneOrder n ws o = true →
      Host.Outcome.next (s.laneOrderRow n ws o) = exec (.laneEntryRead n .done ws) s := fun o h => by
    rw [laneOrderRow_found h]; rfl
  have device : ∀ o, s.findsDeviceOrder ws o = true →
      Host.Outcome.next (s.deviceOrderRow ws o) = exec (.deviceEntryRead .done ws) s := fun o h => by
    rw [deviceOrderRow_found h]; rfl
  exact ⟨lane _, lane _, lane _, lane _, lane _, lane _, device _, device _, device _, device _, device _, device _,
    device _, device _, device _, device _⟩

/-! Time. -/

/-- Every number is in the list of the first eight. -/
theorem mem_eight (n : Fin 8) : n ∈ allLanes := by
  revert n
  decide

/-- The pulses, wait limits and beats due (R61, R64, R97). -/
theorem mem_dueInReady (s : State) (c : Instr) : c ∈ s.dueInReady ↔ s.engine = .ready ∧
    ((∃ n f p, c = .pulseEnd n ∧ (s.lane n).cur = some f ∧ f.pulse = some p ∧ p.endTick = s.timebase) ∨
      (∃ n f, c = .waitLimitExpiry n ∧ (s.lane n).cur = some f ∧ f.waiting = true ∧ f.limit = .counting 0) ∨
      ∃ b : Fin 8, c = .beatExpiry b ∧ s.beats[b].running = true ∧ s.beats[b].left = 0) := by
  have hpulse : ∀ n, (s.lane n).pulseDue s.timebase = true ↔
      ∃ f p, (s.lane n).cur = some f ∧ f.pulse = some p ∧ p.endTick = s.timebase := fun n => by
    unfold Lane.pulseDue
    cases hcur : (s.lane n).cur with
    | none => simp
    | some f => cases hp : f.pulse <;> simp [hp]
  have hlimit : ∀ n, (s.lane n).limitDue = true ↔
      ∃ f, (s.lane n).cur = some f ∧ f.waiting = true ∧ f.limit = .counting 0 := fun n => by
    unfold Lane.limitDue
    cases hcur : (s.lane n).cur <;> simp
  have hbeat : ∀ b : Fin 8, s.beats[b].due = true ↔ s.beats[b].running = true ∧ s.beats[b].left = 0 := fun b => by
    simp [Beat.due]
  unfold State.dueInReady
  split
  · rename_i he
    simp only [List.mem_append, List.mem_map, List.mem_filter, hpulse, hlimit, hbeat, mem_eight, true_and, he]
    constructor
    · rintro ((⟨n, ⟨f, p, hf⟩, rfl⟩ | ⟨n, ⟨f, hf⟩, rfl⟩) | ⟨b, hb, rfl⟩)
      · exact Or.inl ⟨n, f, p, rfl, hf⟩
      · exact Or.inr (Or.inl ⟨n, f, rfl, hf⟩)
      · exact Or.inr (Or.inr ⟨b, rfl, hb⟩)
    · rintro (⟨n, f, p, rfl, hf⟩ | ⟨n, f, rfl, hf⟩ | ⟨b, rfl, hb⟩)
      · exact Or.inl (Or.inl ⟨n, ⟨f, p, hf⟩, rfl⟩)
      · exact Or.inl (Or.inr ⟨n, ⟨f, hf⟩, rfl⟩)
      · exact Or.inr ⟨b, hb, rfl⟩
  · rename_i he
    simp [he]

/-- The revisits and samples due (R44, R108). -/
theorem mem_dueLive (s : State) (c : Instr) :
    c ∈ (allLanes.filter (fun n => (s.lane n).revisitDue)).map Instr.revisitExpiry ++
      (allLanes.filter (fun i => s.inputs[i].due)).map (fun i => Instr.inputSample i (s.inPins.getLsbD i.val)) ↔
    (∃ n, c = .revisitExpiry n ∧ (s.lane n).revisit = some 0 ∧ ((s.lane n).st = .priming ∨ (s.lane n).st = .running ∨
        (s.lane n).st = .starved ∨ (s.lane n).st = .held)) ∨
      ∃ i : Fin 8, c = .inputSample i (s.inPins.getLsbD i.val) ∧ s.inputs[i].left = some 0 := by
  have hrevisit : ∀ n, (s.lane n).revisitDue = true ↔ (s.lane n).revisit = some 0 ∧ ((s.lane n).st = .priming ∨
      (s.lane n).st = .running ∨ (s.lane n).st = .starved ∨ (s.lane n).st = .held) := fun n => by
    unfold Lane.revisitDue
    cases (s.lane n).st <;> simp [LaneState.active]
  have hline : ∀ i : Fin 8, s.inputs[i].due = true ↔ s.inputs[i].left = some 0 := fun i => by
    simp [InputLine.due]
  simp only [List.mem_append, List.mem_map, List.mem_filter, hrevisit, hline, mem_eight, true_and]
  constructor
  · rintro (⟨n, hn, rfl⟩ | ⟨i, hi, rfl⟩)
    · exact Or.inl ⟨n, rfl, hn⟩
    · exact Or.inr ⟨i, rfl, hi⟩
  · rintro (⟨n, rfl, hn⟩ | ⟨i, rfl, hi⟩)
    · exact Or.inl ⟨n, hn, rfl⟩
    · exact Or.inr ⟨i, hi, rfl⟩

/-- The engine states in which time passes (R93). -/
theorem live_iff (e : EngineState) : e.live = true ↔ e = .ready ∨ e = .halted := by
  cases e <;> simp [EngineState.live]

/-- Settles O2: the due events as a list, and a tick where there is none. -/
theorem emptyQueuePassesTime : Obligations.EmptyQueuePassesTime := by
  refine ⟨fun s c => ?_, fun s hq => ?_⟩
  · unfold State.due
    rw [List.mem_append, mem_dueInReady]
    refine or_congr Iff.rfl ?_
    split
    · rename_i he
      rw [mem_dueLive]
      simp [(live_iff _).mp he]
    · rename_i he
      have hne : ¬ (s.engine = .ready ∨ s.engine = .halted) := fun h => he ((live_iff _).mpr h)
      simp [hne]
  · have hstep : step s = idleStep s := by unfold step; rw [hq]
    have htick : s.due = [] → step s = .next s.tick := fun h => by
      rw [hstep]; unfold idleStep; rw [h]
    refine ⟨fun h he => ?_, fun h he => ⟨s.tick, htick h, ?_⟩, fun c h => ?_, fun c d ds h => ?_⟩
    · have hlive : ¬ s.engine.live = true := by rcases he with he | he <;> simp [he, EngineState.live]
      rw [htick h, State.tick, if_neg hlive]
    · have ht : s.tick = { s with
          timebase := s.timebase + 1, lanes := s.lanes.map Lane.tick, beats := s.beats.map Beat.tick
          inputs := s.inputs.map InputLine.tick } := by
        rw [State.tick, if_pos ((live_iff _).mpr he)]
      rw [ht]
      refine ⟨rfl, fun n => ?_, fun b => ?_, fun i => ?_⟩
      · show (s.lanes.map Lane.tick)[n] = _
        rw [show (s.lanes.map Lane.tick)[n] = (s.lane n).tick by simp [State.lane]]
        have hlimit : ∀ r : Remainder, r.tick = match r with | .counting k => .counting (k - 1) | other => other :=
          fun r => by cases r <;> rfl
        unfold Lane.tick
        simp only [hlimit] <;> rfl
      · show (s.beats.map Beat.tick)[b] = _
        rw [show (s.beats.map Beat.tick)[b] = s.beats[b].tick by simp]
        unfold Beat.tick
        split <;> rfl
      · show (s.inputs.map InputLine.tick)[i] = _
        rw [show (s.inputs.map InputLine.tick)[i] = s.inputs[i].tick by simp]
        rfl
    · rw [hstep]; unfold idleStep; rw [h]
    · refine ⟨pickOne s.choices (c :: d :: ds) c, ?_, ?_⟩
      · rw [h]; exact pickOne_mem _ _ _ (by simp)
      · rw [hstep]; unfold idleStep; rw [h]

end Sys2Proof.Machine
end


section
/-! SUPPORT. The lane orders (R28 to R37): their results, and each taken order as the whole state after. -/

namespace Sys2Proof.Machine

/-! Results. -/

/-- A code from 1 to 6 is an order, taken in the lane states of Table 6 (R26, R29). -/
theorem laneOrderOf_known {code : Nat} (h : 1 ≤ code ∧ code ≤ 6) (st : LaneState) :
    ∃ o, laneOrderOf code = some o ∧ (o = .start ↔ code = 1) ∧ (o.takenIn st = true ↔ (code = 1 ∧ st = .idle) ∨
      (code = 2 ∧ (st = .priming ∨ st = .running ∨ st = .starved)) ∨ (code = 3 ∧ st = .held) ∨
      (code = 4 ∧ (st = .running ∨ st = .priming ∨ st = .starved ∨ st = .held)) ∨
      (code = 5 ∧ st ≠ .idle) ∨ (code = 6 ∧ st = .faulted)) := by
  obtain ⟨h1, h6⟩ := h
  interval_cases code
  · exact ⟨.start, rfl, by simp, by simp [LaneOrder.takenIn]⟩
  · exact ⟨.hold, rfl, by simp, by simp [LaneOrder.takenIn, or_assoc]⟩
  · exact ⟨.resume, rfl, by simp, by simp [LaneOrder.takenIn]⟩
  · exact ⟨.stop, rfl, by simp, by simp [LaneOrder.takenIn, or_assoc]⟩
  · exact ⟨.abort, rfl, by simp, by simp [LaneOrder.takenIn]⟩
  · exact ⟨.clear, rfl, by simp, by simp [LaneOrder.takenIn]⟩

/-- Another code is no order (R26). -/
theorem laneOrderOf_unknown {code : Nat} (h : code = 0 ∨ 6 < code) : laneOrderOf code = none := by
  rcases h with rfl | h
  · rfl
  · obtain ⟨k, rfl⟩ := Nat.exists_eq_add_of_le' (show 7 ≤ code from h)
    rfl

/-- An order that passes every check is taken (R29). -/
theorem laneOrderResult_ok {s : State} {n : LaneId} {o : LaneOrder} {argument : Link}
    (he : s.engine = .ready ∨ s.engine = .halted ∧ o ≠ .start) (ht : o.takenIn (s.lane n).st = true)
    (ha : o = .start → argument.toNat < 992) : s.laneOrderResult n (some o) argument = .ok := by
  have hunset : s.engine ≠ .unset := by rcases he with he | ⟨he, _⟩ <;> rw [he] <;> decide
  have hhalted : ¬ (o = .start ∧ s.engine = .halted) := by
    rintro ⟨ho, hh⟩
    rcases he with he | ⟨_, hs⟩
    · rw [hh] at he; cases he
    · exact hs ho
  have hslot : ¬ (o = .start ∧ (!isSlot argument) = true) := by
    rintro ⟨ho, hs⟩
    simp [isSlot, ha ho] at hs
  unfold State.laneOrderResult
  dsimp only
  rw [if_neg hunset, if_neg hhalted, if_neg (by rw [ht]; decide), if_neg hslot]

/-- Settles O19: the checks are nested in the order of R29. -/
theorem laneOrderChecksInOrder : Obligations.LaneOrderChecksInOrder := by
  intro s n code argument
  dsimp only
  refine ⟨fun h => ?_, fun h he => ?_, fun h he => ?_, fun h he hs ht => ?_, fun h he ht ha => ?_, fun he ht ha => ?_⟩
  · rw [laneOrderOf_unknown h]; rfl
  · obtain ⟨o, ho, _⟩ := laneOrderOf_known h (s.lane n).st
    rw [ho]
    exact if_pos he
  · obtain ⟨o, ho, hstart, _⟩ := laneOrderOf_known (code := code) (by omega) (s.lane n).st
    rw [ho]
    unfold State.laneOrderResult
    dsimp only
    rw [if_neg (by rw [he]; decide), if_pos ⟨hstart.mpr h, he⟩]
  · obtain ⟨o, ho, hstart, htaken⟩ := laneOrderOf_known h (s.lane n).st
    rw [ho]
    unfold State.laneOrderResult
    dsimp only
    rw [if_neg he, if_neg (fun hh => hs ⟨hstart.mp hh.1, hh.2⟩), if_pos (by simpa using fun hh => ht (htaken.mp hh))]
  · obtain ⟨o, ho, hstart, htaken⟩ := laneOrderOf_known (code := code) (by omega) (s.lane n).st
    have hslot : (!isSlot argument) = true := by simp [isSlot]; omega
    rw [ho]
    unfold State.laneOrderResult
    dsimp only
    rw [if_neg (by rw [he]; decide), if_neg (by rw [he]; simp), if_neg (by rw [htaken.mpr ht]; decide),
      if_pos ⟨hstart.mpr h, hslot⟩]
  · obtain ⟨o, ho, hstart, htaken⟩ := laneOrderOf_known (code := code) (by omega) (s.lane n).st
    rw [ho]
    exact laneOrderResult_ok (he.imp id (fun hh => ⟨hh.1, fun hs => hh.2 (hstart.mp hs)⟩)) (htaken.mpr ht)
      (fun hs => ha (hstart.mp hs))

/-! The state after. -/

/-- A lane changed twice, the first change not in the progress entry. -/
theorem withLane_updLane {t : State} {n : LaneId} {l : Lane} (f : Lane → Lane)
    (h : l.progressWords = (t.lane n).progressWords) : (t.withLane n l).updLane n f = t.withLane n (f l) := by
  rw [updLane_eq, withLane_lane, withLane_withLane _ _ _ _ (Or.inl h)]

/-- One entry of a lane just replaced. -/
theorem withLane_produce {t : State} {n : LaneId} {l : Lane} (e : WriteBack) (h : l.owed = (t.lane n).owed) :
    (t.withLane n l).produce n e = t.withEntries n [e] l := by
  rw [produce_eq, withLane_produceAll _ h]

/-- A lane changed twice, the first change not in the progress entry, and one entry of it. -/
theorem withLane_updLane_produce {t : State} {n : LaneId} {l : Lane} (f : Lane → Lane) (e : WriteBack)
    (hw : l.progressWords = (t.lane n).progressWords) (ho : (f l).owed = (t.lane n).owed) :
    ((t.withLane n l).updLane n f).produce n e = t.withEntries n [e] (f l) := by
  rw [withLane_updLane f hw, withLane_produce e ho]

/-- One entry of a lane that is not changed. -/
theorem produce_same (t : State) (n : LaneId) (e : WriteBack) : t.produce n e = t.withEntries n [e] (t.lane n) := by
  have hself : t.withLane n (t.lane n) = t := by
    unfold State.withLane
    rw [if_pos rfl]
    congr 1
    exact (lanes_ext (s := t) (fun m => by
      by_cases hm : m = n
      · subst hm; simp
      · simp [State.lane])).symm
  conv_lhs => rw [← hself]
  exact withLane_produce e rfl

/-- The progress entry of the lane whose entry has been read. -/
theorem read_words {s : State} {n : LaneId} {ws : Between} (hp : s.atPort (.laneEntry n)) (i : Byte) :
    ((s.lane n).withInterval i).progressWords = ((s.afterLaneRead n ws).lane n).progressWords := by
  rw [interval_words, (after_facts hp).1]

/-- The writes owed by the lane whose entry has been read. -/
theorem read_owed {s : State} {n : LaneId} {ws : Between} (hp : s.atPort (.laneEntry n)) (i : Byte) :
    ((s.lane n).withInterval i).owed = ((s.afterLaneRead n ws).lane n).owed := by
  rw [(interval_facts _ _).2.1, (after_facts hp).1]

/-- An interval of an entry read that is not passed on. -/
theorem withInterval_inactive {l : Lane} (h : l.st.active = false) (i : Byte) : l.withInterval i = l := by
  unfold Lane.withInterval
  rw [if_neg (by simp [h])]

/-- Settles O18: the interval and the occasion are two changes of one lane. -/
theorem laneReadWithoutNewOrder : Obligations.LaneReadWithoutNewOrder := by
  intro n ws s hp hseq
  show Host.Outcome.next (s.turn _ .done (State.endLaneRead n ws)) = _
  obtain ⟨hlanes, hmem, _, hlast, _⟩ := granted_lane s n hp
  have hread : (s.granted (.laneEntry n)).readLaneEntry n ws = s.readLaneEntry n ws := by
    unfold State.readLaneEntry; rw [hmem]
  rw [turn_done hp]
  unfold State.endLaneRead
  rw [hread, hlast]
  dsimp only
  rw [passInterval_eq, if_pos hseq]
  generalize hm : (s.readLaneEntry n ws).2.2 = m
  have hlane : ((s.granted (.laneEntry n)).endTransaction m).lane n = s.lane n := by
    unfold State.lane State.endTransaction; rw [hlanes]
  have hocc : ∀ l : Lane, l.st = (s.lane n).st → l.pause = (s.lane n).pause → l.occasion =
      if (s.lane n).st.active = true ∧ ((s.lane n).pause = Pause.atEnd ∨ (s.lane n).pause = Pause.notReady) then
        { l with reread := true } else l := by
    intro l h1 h2
    unfold Lane.occasion
    rw [h1, h2]
  obtain ⟨hst, _, _, _, _, _, hpause, _⟩ := interval_facts (s.lane n) (laneInterval (s.readLaneEntry n ws).2.1)
  rw [hlane, withLane_updLane _ (by rw [hlane, interval_words]), hocc _ hst hpause]
  rfl

/-- A refused order is answered, and nothing else of the lane changes but its interval (R28, R29). -/
theorem newLaneOrder_refused {t : State} {n : LaneId} {seq : Byte} {order : Option LaneOrder} {argument : Link}
    {interval : Byte} (h : t.laneOrderResult n order argument ≠ .ok) :
    t.newLaneOrder n seq order argument interval =
      t.produce n (laneAnswer n seq (t.laneOrderResult n order argument) none) := by
  unfold State.newLaneOrder
  dsimp only
  split
  · rename_i heq
    exact absurd heq h
  · rfl

/-- Settles O20: the answer is the one entry produced. -/
theorem laneOrderRefused : Obligations.LaneOrderRefused := by
  intro n ws s hp hseq r hr hne
  show Host.Outcome.next (s.turn _ .done (State.endLaneRead n ws)) = _
  rw [newOrder_eq hp hseq]
  generalize hi : laneInterval (s.readLaneEntry n ws).2.1 = i
  have hres : ((s.afterLaneRead n ws).withLane n ((s.lane n).withInterval i)).laneOrderResult n
      (laneOrderOf (orderCode (s.readLaneEntry n ws).1)) (laneArgument (s.readLaneEntry n ws).2.1) = r := by
    rw [← hr]
    apply result_congr
    · exact (after_facts (ws := ws) hp).2.1
    · rw [withLane_lane]; exact (interval_facts _ _).1
  rw [newLaneOrder_refused (by rw [hres]; exact hne), hres, withLane_produce _ (read_owed hp i)]
  rfl

/-- Settles O21. -/
theorem startTaken : Obligations.StartTaken := by
  intro n ws s hp hf he hst ha
  show Host.Outcome.next (s.laneOrderRow n ws .start) = _
  have hinactive : (s.lane n).st.active = false := by rw [hst]; rfl
  have hok : s.laneOrderResult n (some .start) (laneArgument (s.readLaneEntry n ws).2.1) = .ok :=
    laneOrderResult_ok (Or.inl he) (by rw [hst]; rfl) (fun _ => ha)
  have htime : (s.afterLaneRead n ws).timebase = s.timebase := (after_facts hp).2.2.1
  rw [row_taken hp hf hok]
  dsimp only
  unfold State.takeLaneOrder
  dsimp only
  unfold State.takeStart
  rw [withLane_updLane_produce _ _ (read_words hp _) (read_owed hp _), withInterval_inactive hinactive]
  dsimp only [State.withLane]
  rw [htime]
  rfl

/-- Settles O22. -/
theorem holdTaken : Obligations.HoldTaken := by
  intro n ws s hp hf he hst
  show Host.Outcome.next (s.laneOrderRow n ws .hold) = _
  have hok : s.laneOrderResult n (some .hold) (laneArgument (s.readLaneEntry n ws).2.1) = .ok :=
    laneOrderResult_ok (he.imp id (fun h => ⟨h, by decide⟩)) (by simpa [LaneOrder.takenIn, or_assoc] using hst)
      (fun h => by cases h)
  have hfreeze : ∀ f : Firing, f.freeze = { f with waiting := false, limit := match f.limit with
      | .counting k => .frozen k
      | other => other } := fun f => by unfold Firing.freeze; cases f.limit <;> rfl
  rw [row_taken hp hf hok]
  dsimp only
  unfold State.takeLaneOrder
  dsimp only
  unfold State.takeHold
  rw [withLane_updLane_produce _ _ (read_words hp _) (read_owed hp _), (interval_facts _ _).2.2.2.1]
  have hcur : (s.lane n).cur.map Firing.freeze = (s.lane n).cur.map _ := congrArg (Option.map · _) (funext hfreeze)
  rw [hcur]
  rfl

end Sys2Proof.Machine
end


section
/-! SUPPORT. RESUME (R32, R68) and the orders that end a list: STOP, ABORT and CLEAR (R33 to R37, R48, R49). -/

namespace Sys2Proof.Machine

/-! RESUME. -/

/-- A lane replaced, after the interval of its entry read. -/
theorem afterRead_settled {s : State} {n : LaneId} {ws : Between} (hp : s.atPort (.laneEntry n)) (hs : s.settled) {l : Lane}
    (hl : l.owed = [] ∧ l.pendsFree = false ∧ l.canGo = false) : ((s.afterLaneRead n ws).withLane n l).settled :=
  withLane_settled (after_settled hp hs) hl

/-- A cue with a pulse in flight does not go on (R54). -/
theorem canGo_pulse {l : Lane} {f : Firing} {c : Copy} {q : List Entry} (hc : l.cur = some f) (hq : l.queue = .copy c :: q)
    (hp : f.pulse.isSome = true) : l.canGo = false := by
  obtain ⟨p, hp⟩ := Option.isSome_iff_exists.mp hp
  unfold Lane.canGo
  rw [hc, hq]
  simp [hp]

/-- Settles O23: the three ways a RESUME goes on, and two events that follow from it. -/
theorem resumeTaken : Obligations.ResumeTaken := by
  intro n ws s hp hf he hst ok l
  have hok : s.laneOrderResult n (some .resume) (laneArgument (s.readLaneEntry n ws).2.1) = .ok :=
    laneOrderResult_ok (he.imp id (fun h => ⟨h, by decide⟩)) (by rw [hst]; rfl) (fun h => by cases h)
  obtain ⟨hlane, _, htime, _⟩ := after_facts (ws := ws) hp
  obtain ⟨hLst, hLowed, hLqueue, hLcur, hLbegun, _⟩ := interval_facts (s.lane n) (laneInterval (s.readLaneEntry n ws).2.1)
  have hwords := read_words (ws := ws) hp (laneInterval (s.readLaneEntry n ws).2.1)
  have howed := read_owed (ws := ws) hp (laneInterval (s.readLaneEntry n ws).2.1)
  have hlwords : l.progressWords = ((s.afterLaneRead n ws).lane n).progressWords := hwords
  have hexec : exec (.resume n ws) s = .next ((((s.afterLaneRead n ws).withLane n
      ((s.lane n).withInterval (laneInterval (s.readLaneEntry n ws).2.1))).takeResume n).produce n
        (laneAnswer n (orderSeq (s.readLaneEntry n ws).1) .ok none)) := by
    show Host.Outcome.next (s.laneOrderRow n ws .resume) = _
    rw [row_taken hp hf hok]
    rfl
  have hgap : ((s.afterLaneRead n ws).withLane n ((s.lane n).withInterval (laneInterval (s.readLaneEntry n ws).2.1))).updLane n
      (fun k => { k with gapStart := ((s.afterLaneRead n ws).withLane n ((s.lane n).withInterval
        (laneInterval (s.readLaneEntry n ws).2.1))).timebase, gapEvent := none }) = (s.afterLaneRead n ws).withLane n l := by
    rw [withLane_updLane _ hwords]
    dsimp only [State.withLane]
    rw [htime]
  unfold State.takeResume at hexec
  rw [withLane_lane, hgap, hLcur, hLqueue, hLbegun] at hexec
  have hrun : (s.lane n).queue ≠ [] ∨ (s.lane n).cur ≠ none → exec (.resume n ws) s = .next
      ((((s.afterLaneRead n ws).withLane n { l with st := .running }).settle).produce n
        (laneAnswer n (orderSeq (s.readLaneEntry n ws).1) .ok none)) := by
    intro h
    have hif : (s.lane n).cur.isSome = true ∨ (s.lane n).queue ≠ [] := by
      rw [Option.isSome_iff_ne_none]; tauto
    rw [hexec, if_pos hif, withLane_updLane _ hlwords]
  have hidle : (s.lane n).queue = [] → (s.lane n).cur = none →
      ¬ ((s.lane n).cur.isSome = true ∨ (s.lane n).queue ≠ []) := by
    intro hq hc
    simp [hq, hc]
  refine ⟨fun hq hc hb => ?_, fun hq hc hb => ?_, fun h => ?_, fun hs f c q hc hq hpulse hfires => ?_,
    fun hs f c q i hc hq hpulse hwait hend hfires htrig hnone => ?_⟩
  · rw [hexec, if_neg (hidle hq hc), hb, if_neg (by decide),
      withLane_updLane_produce _ _ hlwords (by exact howed)]
    rfl
  · rw [hexec, if_neg (hidle hq hc), hb, if_pos rfl, withLane_updLane _ hlwords]
    rw [show ∀ t : State, t.raise (.starved n) = t.withCause (.starved n) from fun _ => rfl, produce_eq,
      produceAll_withCause, withLane_produceAll _ (by exact howed)]
    rfl
  · rw [hrun h, produce_same]
    rfl
  · rw [hrun (Or.inr (by rw [hc]; simp)), settle_settled, withLane_produce _ (by exact howed)]
    · rfl
    · refine afterRead_settled hp hs ⟨?_, ?_, ?_⟩
      · exact hLowed.trans (hs n).1
      · exact (pendsFree_congr (l := s.lane n) (k := { l with st := .running }) hLcur hLowed).trans (hs n).2.1
      · exact canGo_pulse (l := { l with st := .running }) (hLcur.trans hc) (hLqueue.trans hq) hpulse
  · rw [hrun (Or.inr (by rw [hc]; simp))]
    have hnot : (s.afterLaneRead n ws).nothingToTake { l with st := .running } c := by
      have hsource : (s.afterLaneRead n ws).source i = s.source i := by
        obtain ⟨_, _, _, _, _, _, _, _, _, _, hsources, _⟩ := after_facts (ws := ws) hp
        unfold State.source
        rw [hsources]
      refine Or.inl ⟨i, htrig, ?_⟩
      rw [hsource]
      exact hnone.imp id Or.inl
    rw [wait_settle (after_settled hp hs) (fun _ _ => rfl) (by exact hLowed.trans (hs n).1) (by exact hLcur.trans hc)
      (by exact hLqueue.trans hq) hwait hpulse hend hfires (Or.inl rfl) hnot, withLane_produce _ (by exact howed)]
    rfl

end Sys2Proof.Machine
end


section
/-! SUPPORT. The orders that end a list: STOP, ABORT and CLEAR (R33 to R37), the resume slot (R49) and the entries that hand
copies back (R21, R48). -/

namespace Sys2Proof.Machine

/-! The resume slot. -/

/-- The resume slot, with copies handed back (R49). -/
theorem resumeSlot_back {l : Lane} {m : Option (FaultCode × Link)} {c : Copy} {cs : List Copy}
    (h : l.notBegun ++ l.heldReturns = c :: cs) : l.resumeSlot m = c.slot := by
  unfold Lane.resumeSlot
  rw [h]

/-- The current copy of a lane with a current cue (R41). -/
theorem currentCopy_some {l : Lane} {f : Firing} {c : Copy} {q : List Entry} (hc : l.cur = some f)
    (hq : l.queue = .copy c :: q) : l.currentCopy = some c := by
  unfold Lane.currentCopy
  rw [hc, hq]

/-- A lane with no current cue has no current copy. -/
theorem currentCopy_none {l : Lane} (hc : l.cur = none) : l.currentCopy = none := by
  unfold Lane.currentCopy
  rw [hc]

/-- The resume slot, with nothing handed back and no FINAL current cue (R49). -/
theorem resumeSlot_follow {l : Lane} (m : Option (FaultCode × Link)) (h : l.notBegun ++ l.heldReturns = [])
    (hfinal : l.cur = none ∨ ∃ c q, l.queue = .copy c :: q ∧ c.isFinal = false) :
    l.resumeSlot m = match m with
      | some (.linkLost, _) => Config.linkEnd
      | some (_, slot) => slot
      | none => if l.pause = Pause.atEnd ∨ l.pause = Pause.closed then Config.linkEnd else l.follow := by
  have hcopy : (l.currentCopy.map Copy.isFinal).getD false = false := by
    cases hc : l.cur with
    | none => rw [currentCopy_none hc]; rfl
    | some f =>
      obtain ⟨c, q, hq, hf⟩ := hfinal.resolve_left (by rw [hc]; simp)
      rw [currentCopy_some hc hq]
      exact hf
  unfold Lane.resumeSlot
  rw [h]
  dsimp only
  rw [if_neg (by rw [hcopy]; decide)]
  cases m with
  | none => cases hp : l.pause <;> simp
  | some p =>
    obtain ⟨code, slot⟩ := p
    cases code <;> rfl

/-- The entry read's interval leaves what a list that ends hands back. -/
theorem withInterval_handBack (l : Lane) (i : Byte) (n : LaneId) (o : CueOutcome) (now reason : Word) :
    (l.withInterval i).handBackEntries n o now reason = l.handBackEntries n o now reason ∧
    (l.withInterval i).resumeSlot none = l.resumeSlot none := by
  unfold Lane.withInterval
  split
  · exact ⟨rfl, rfl⟩
  · exact ⟨rfl, rfl⟩

/-- Settles O24: the resume slot by what is handed back, and the STOP as one change of the lane. -/
theorem stopTakenInRunning : Obligations.StopTakenInRunning := by
  refine ⟨fun l m => ⟨rfl, fun c cs h => resumeSlot_back h, fun h f c q hc hq hfinal => ?_, fun h hfinal =>
    ⟨fun code slot hm => ?_, fun hm => ?_⟩⟩, fun n ws s hp hf he hst => ?_⟩
  · unfold Lane.resumeSlot
    rw [h, currentCopy_some hc hq]
    exact if_pos hfinal
  · rw [resumeSlot_follow m h hfinal, hm]
    cases code <;> rfl
  · rw [resumeSlot_follow m h hfinal, hm]
  · have hok : s.laneOrderResult n (some .stop) (laneArgument (s.readLaneEntry n ws).2.1) = .ok :=
      laneOrderResult_ok (he.imp id (fun h => ⟨h, by decide⟩)) (by rw [hst]; rfl) (fun h => by cases h)
    obtain ⟨hLst, _, hLqueue, _⟩ := interval_facts (s.lane n) (laneInterval (s.readLaneEntry n ws).2.1)
    have hslot := (withInterval_handBack (s.lane n) (laneInterval (s.readLaneEntry n ws).2.1) n .none_ 0 0).2
    show Host.Outcome.next (s.laneOrderRow n ws .stop) = _
    rw [row_taken hp hf hok]
    unfold State.takeLaneOrder State.answerResume
    dsimp only
    unfold State.takeStop
    rw [withLane_lane, hslot]
    dsimp only
    rw [if_pos (hLst.trans hst), overtake_free _ _ (by simp [State.withLane, State.afterLaneRead]),
      withLane_updLane_produce _ _ (read_words hp _) (read_owed hp _), hLqueue]
    rfl

/-! The entries that hand copies back. -/

/-- The first copy of each slot, by the copies before it (R21). -/
theorem firstPerSlot_eq (cs : List Copy) : ∀ seen : List Link, firstPerSlot seen cs =
    (cs.zipIdx.filter (fun p => decide (p.1.slot ∉ seen) &&
      (cs.take p.2).all (fun k => decide (k.slot ≠ p.1.slot)))).map Prod.fst := by
  induction cs with
  | nil => intro seen; rfl
  | cons c cs ih =>
    intro seen
    have hshift : ∀ p : Copy × Nat, ((c :: cs).take (p.2 + 1)).all (fun k => decide (k.slot ≠ p.1.slot)) =
        (decide (c.slot ≠ p.1.slot) && (cs.take p.2).all (fun k => decide (k.slot ≠ p.1.slot))) := fun p => rfl
    have htail : ∀ seen' : List Link, (∀ k, k ∉ seen ∧ c.slot ≠ k ↔ k ∉ seen') →
        ((cs.zipIdx 1).filter (fun p => decide (p.1.slot ∉ seen) &&
          ((c :: cs).take p.2).all (fun k => decide (k.slot ≠ p.1.slot)))).map Prod.fst = firstPerSlot seen' cs := by
      intro seen' hseen
      rw [ih seen', List.zipIdx_succ, List.filter_map, List.map_map]
      congr 1
      apply List.filter_congr
      rintro ⟨k, i⟩ _
      show (decide (k.slot ∉ seen) && ((c :: cs).take (i + 1)).all _) = _
      rw [hshift (k, i), ← Bool.and_assoc]
      congr 1
      simp only [← hseen k.slot, Bool.decide_and]
    unfold firstPerSlot
    rw [List.zipIdx_cons, List.filter_cons]
    split
    · rename_i h
      have hmem : c.slot ∈ seen := by simpa using h
      rw [if_neg (by simp [hmem]), htail seen (fun k => ⟨And.left, fun hk => ⟨hk, fun e => hk (e ▸ hmem)⟩⟩)]
    · rename_i h
      have hmem : c.slot ∉ seen := by simpa using h
      rw [if_pos (by simp [hmem]), List.map_cons, htail (c.slot :: seen) (fun k => by simp [eq_comm, and_comm])]

/-- The returns of handed back copies, in the words of the statements (R21). -/
theorem returnEntries_eq (n : LaneId) (current : Option Copy) (cs : List Copy) :
    returnEntries n current cs = (cs.zipIdx.filter (fun p => decide (current.map Copy.slot ≠ some p.1.slot) &&
      (cs.take p.2).all (fun k => decide (k.slot ≠ p.1.slot)))).map (fun p => returnEntry n p.1) := by
  unfold returnEntries
  rw [firstPerSlot_eq, List.map_map]
  congr 1
  apply List.filter_congr
  rintro ⟨k, i⟩ _
  congr 2
  cases current with
  | none => simp
  | some c => simp [eq_comm]

/-- The levels a STOP in HELD gives, by the current cue (R35). -/
theorem levelsAfterStop_eq (s : State) (n : LaneId) : s.levelsAfterStop n =
    (match (s.lane n).cur, (s.lane n).queue with
      | some f, .copy c :: _ => (match f.pulse with
        | some p => (p.restore &&& c.mask) ||| (s.out &&& ~~~c.mask)
        | none => s.out)
      | _, _ => s.out) := by
  unfold State.levelsAfterStop Lane.currentCopy
  cases hc : (s.lane n).cur with
  | none => rfl
  | some f =>
    cases hq : (s.lane n).queue with
    | nil => cases hp : f.pulse <;> simp [hp]
    | cons e q =>
      cases e with
      | marker => cases hp : f.pulse <;> simp [hp]
      | copy c => cases hp : f.pulse <;> simp [hp, blend]

/-- The end of a list whose entry has been read, with its entries and the answer (R35, R36, R48). -/
theorem afterRead_ends {s : State} {n : LaneId} {ws : Between} (hp : s.atPort (.laneEntry n)) (i : Byte)
    (es : List WriteBack) (st : LaneState) :
    (((s.afterLaneRead n ws).withLane n ((s.lane n).withInterval i)).produceAll n es).closeLane n st =
      (s.afterLaneRead n ws).withEntries n es (((s.lane n).withInterval i).closed st) := by
  obtain ⟨_, _, _, _, _, _, hport, _⟩ := after_facts (ws := ws) hp
  exact entries_close es st hport (read_owed hp i) (read_words hp i)

/-- Settles O25: the entries of a list that ends, and the STOP that ends it. -/
theorem stopTakenElsewhere : Obligations.StopTakenElsewhere := by
  refine ⟨fun n l o now reason => ?_, fun n ws s hp hf he hst => ?_⟩
  · intro back returned
    unfold Lane.handBackEntries Lane.endEntry
    refine ⟨fun f c q own hc hq hown => ?_, fun f c q hc hq hnone => ?_, fun hc => ?_⟩
    · rw [currentCopy_some hc hq, hc, returnEntries_eq]
      dsimp only
      rw [hown]
      rfl
    · rw [currentCopy_some hc hq, hc, returnEntries_eq]
      dsimp only
      rw [hnone]
      rfl
    · rw [currentCopy_none hc, hc, returnEntries_eq]
      rfl
  · have htaken : LaneOrder.stop.takenIn (s.lane n).st = true := by
      rcases hst with h | h | h <;> rw [h] <;> rfl
    have hok : s.laneOrderResult n (some .stop) (laneArgument (s.readLaneEntry n ws).2.1) = .ok :=
      laneOrderResult_ok (he.imp id (fun h => ⟨h, by decide⟩)) htaken (fun h => by cases h)
    obtain ⟨hLst, _, hLqueue, hLcur, _⟩ := interval_facts (s.lane n) (laneInterval (s.readLaneEntry n ws).2.1)
    obtain ⟨hentries, hslot⟩ := withInterval_handBack (s.lane n) (laneInterval (s.readLaneEntry n ws).2.1) n .aborted
      s.timebase 0
    obtain ⟨_, _, htime, _, _, _, _, hout, _⟩ := after_facts (ws := ws) hp
    have hnotrun : ((s.lane n).withInterval (laneInterval (s.readLaneEntry n ws).2.1)).st ≠ .running := by
      rw [hLst]
      rcases hst with h | h | h <;> rw [h] <;> decide
    have htime' : ((s.afterLaneRead n ws).withLane n ((s.lane n).withInterval
        (laneInterval (s.readLaneEntry n ws).2.1))).timebase = s.timebase := htime
    have hout' : ((s.afterLaneRead n ws).withLane n ((s.lane n).withInterval
        (laneInterval (s.readLaneEntry n ws).2.1))).out = s.out := hout
    show Host.Outcome.next (s.laneOrderRow n ws .stop) = _
    rw [row_taken hp hf hok]
    unfold State.takeLaneOrder State.answerResume
    dsimp only
    unfold State.takeStop
    rw [withLane_lane, hslot, levelsAfterStop_eq, withLane_lane, hLcur, hLqueue, htime', hout']
    dsimp only
    rw [if_neg hnotrun, hentries, afterRead_ends hp, setOut_eq,
      show ∀ t : State, t.raise (.listDone n) = t.withCause (.listDone n) from fun _ => rfl, produce_eq,
      produceAll_withCause, produceAll_withOut, withEntries_more]
    rfl

/-! Rest levels. -/

/-- Rest levels outside HALTED (R36, R37). -/
theorem restPins_eq {t : State} (n : LaneId) (h : t.engine ≠ .halted) :
    t.restPins n = t.withOut (blend (t.ownedBy n) t.rest t.out) := by
  rw [State.restPins, if_neg h, setOut_eq]

/-- The pins of a lane at their rest levels, pin by pin. -/
theorem restLevels_bits (s : State) (n : LaneId) (p : Fin 24) :
    (blend (s.ownedBy n) s.rest s.out).getLsbD p.val =
      if s.owner[p] = some n then s.rest.getLsbD p.val else s.out.getLsbD p.val := by
  rw [blend_bits, ownedBy_bits]
  simp

/-- The rest levels after the end of a list whose entry has been read. -/
theorem afterRead_rest {s : State} {n : LaneId} {ws : Between} (hp : s.atPort (.laneEntry n)) (es : List WriteBack)
    (l : Lane) (h : s.engine ≠ .halted) : ((s.afterLaneRead n ws).withEntries n es l).restPins n =
      ((s.afterLaneRead n ws).withEntries n es l).withOut (blend (s.ownedBy n) s.rest s.out) := by
  obtain ⟨_, hengine, _, _, _, _, _, hout, hrest, howner, _⟩ := after_facts (ws := ws) hp
  have hblend : ∀ t : State, t.owner = s.owner → t.rest = s.rest → t.out = s.out →
      blend (t.ownedBy n) t.rest t.out = blend (s.ownedBy n) s.rest s.out := by
    intro t h1 h2 h3
    unfold State.ownedBy
    rw [h1, h2, h3]
  rw [restPins_eq n (by exact fun he => h (hengine.symm.trans he)), hblend ((s.afterLaneRead n ws).withEntries n es l) howner hrest hout]

/-- Settles O26. -/
theorem abortTaken : Obligations.AbortTaken := by
  intro n ws s hp hf he hidle hfaulted
  refine ⟨blend (s.ownedBy n) s.rest s.out, restLevels_bits s n, ?_⟩
  have hok : s.laneOrderResult n (some .abort) (laneArgument (s.readLaneEntry n ws).2.1) = .ok :=
    laneOrderResult_ok (Or.inl he) (by simpa [LaneOrder.takenIn] using hidle) (fun h => by cases h)
  obtain ⟨hLst, _⟩ := interval_facts (s.lane n) (laneInterval (s.readLaneEntry n ws).2.1)
  obtain ⟨hentries, hslot⟩ := withInterval_handBack (s.lane n) (laneInterval (s.readLaneEntry n ws).2.1) n .aborted
    s.timebase 0
  have htime : ((s.afterLaneRead n ws).withLane n ((s.lane n).withInterval
      (laneInterval (s.readLaneEntry n ws).2.1))).timebase = s.timebase := (after_facts (ws := ws) hp).2.2.1
  have hnot : ((s.lane n).withInterval (laneInterval (s.readLaneEntry n ws).2.1)).st ≠ .faulted := by
    rw [hLst]; exact hfaulted
  show Host.Outcome.next (s.laneOrderRow n ws .abort) = _
  rw [row_taken hp hf hok]
  unfold State.takeLaneOrder State.answerResume
  dsimp only
  unfold State.takeAbort
  rw [withLane_lane, htime, hslot]
  dsimp only
  rw [if_neg hnot, if_neg hnot, hentries, afterRead_ends hp, afterRead_rest hp _ _ (by rw [he]; decide), produce_eq,
    produceAll_withOut, withEntries_more]
  rfl

/-- A FAULTED lane's CLEAR: no entry is produced but the answer (R37). -/
theorem takeClear_answered {s : State} {n : LaneId} {ws : Between} (hp : s.atPort (.laneEntry n)) (hst : (s.lane n).st = .faulted)
    (e : WriteBack) : (((s.afterLaneRead n ws).withLane n (s.lane n)).takeClear n).produce n e =
      ((s.afterLaneRead n ws).withEntries n [e] ((s.lane n).closed .idle)).withOut
        (if s.engine = .halted then s.out else blend (s.ownedBy n) s.rest s.out) := by
  obtain ⟨_, hengine, _, _, _, _, _, hout, _⟩ := after_facts (ws := ws) hp
  have hclose : ((s.afterLaneRead n ws).withLane n (s.lane n)).closeLane n .idle =
      (s.afterLaneRead n ws).withEntries n [] ((s.lane n).closed .idle) := by
    have h := afterRead_ends (ws := ws) hp (s.lane n).interval [] .idle
    rwa [withInterval_inactive (by rw [hst]; rfl)] at h
  unfold State.takeClear
  rw [hclose]
  by_cases hh : s.engine = .halted
  · have hself : ∀ t : State, t.withOut t.out = t := fun t => by unfold State.withOut; rw [if_pos rfl]
    have hout' : ∀ es l, ((s.afterLaneRead n ws).withEntries n es l).out = s.out := fun _ _ => hout
    rw [State.restPins, if_pos (by exact hengine.trans hh), if_pos hh, produce_eq, withEntries_more,
      ← hout' [e] ((s.lane n).closed .idle), hself]
    rfl
  · rw [afterRead_rest hp _ _ hh, if_neg hh, produce_eq, produceAll_withOut, withEntries_more]
    rfl

/-- Settles O27: CLEAR, and ABORT in FAULTED, are one change of the lane. -/
theorem clearTaken : Obligations.ClearTaken := by
  intro n ws s hp he hst
  refine ⟨if s.engine = .halted then s.out else blend (s.ownedBy n) s.rest s.out, fun h => if_pos h,
    fun h p => ?_, ?_⟩
  · rw [if_neg (by rw [h]; decide)]
    exact restLevels_bits s n p
  have hL := withInterval_inactive (l := s.lane n) (by rw [hst]; rfl) (laneInterval (s.readLaneEntry n ws).2.1)
  have hok : ∀ o : LaneOrder, o = .clear ∨ o = .abort →
      s.laneOrderResult n (some o) (laneArgument (s.readLaneEntry n ws).2.1) = .ok := by
    rintro o (rfl | rfl)
    · exact laneOrderResult_ok (he.imp id (fun h => ⟨h, by decide⟩)) (by rw [hst]; rfl) (fun h => by cases h)
    · exact laneOrderResult_ok (he.imp id (fun h => ⟨h, by decide⟩)) (by rw [hst]; rfl) (fun h => by cases h)
  rintro c (⟨rfl, hf⟩ | ⟨rfl, hf⟩)
  · show Host.Outcome.next (s.laneOrderRow n ws .clear) = _
    rw [row_taken hp hf (hok _ (Or.inl rfl)), hL]
    unfold State.takeLaneOrder State.answerResume
    dsimp only
    rw [takeClear_answered hp hst]
    rfl
  · show Host.Outcome.next (s.laneOrderRow n ws .abort) = _
    rw [row_taken hp hf (hok _ (Or.inr rfl)), hL]
    unfold State.takeLaneOrder State.answerResume
    dsimp only
    unfold State.takeAbort
    rw [withLane_lane]
    dsimp only
    rw [if_pos hst, if_pos hst, takeClear_answered hp hst]
    rfl

end Sys2Proof.Machine
end


section
/-! SUPPORT. The device orders (R167 to R170): their results, and each taken order as the whole state after. -/

namespace Sys2Proof.Machine

/-! Device entry reads. -/

/-- The memory and the queue at the end of a device entry read. -/
theorem afterDevice_facts (s : State) (ws : Between) (o : DeviceOrder) :
    (s.afterDeviceRead ws o).wbq = s.wbq ∧ (s.afterDeviceRead ws o).lanes = s.lanes ∧
    (s.afterDeviceRead ws o).sources = s.sources ∧ (s.afterDeviceRead ws o).marks = s.marks ∧
    (s.afterDeviceRead ws o).beats = s.beats ∧ (s.afterDeviceRead ws o).link = s.link ∧
    (s.afterDeviceRead ws o).att = s.att ∧ (s.afterDeviceRead ws o).out = s.out ∧
    (s.afterDeviceRead ws o).static = s.static := by
  obtain ⟨h1, _, h3, _, _, _, _, h8, h9, h10, _, h12, h13, h14, h15, _⟩ := granted_dev s _ (.inl rfl)
  exact ⟨h3, h1, h10, h8, h9, h14, h15, h12, h13⟩

/-- A device entry read with its answer queued. -/
theorem answeredDevice_eq (s : State) (ws : Between) (o : DeviceOrder) (r : OrderResult) :
    s.answeredDevice ws o r =
      (s.afterDeviceRead ws o).enqueue (deviceAnswer (orderSeq (s.readDeviceOrder ws).1) r 0) := by
  unfold State.answeredDevice State.enqueue
  rw [(afterDevice_facts s ws o).1]

/-- Settles O28: the place released goes to what waits for it. -/
theorem deviceReadWithoutNewOrder : Obligations.DeviceReadWithoutNewOrder := by
  intro ws s hp hseq t
  obtain ⟨hlanes, _, _, hdev, _⟩ := granted_dev s _ (.inl rfl)
  have hexec : exec (.deviceEntryRead .done ws) s = .next t.settle := by
    show Host.Outcome.next (s.turn .deviceEntry .done (State.endDeviceRead ws)) = _
    rw [turn_done hp]
    unfold State.endDeviceRead
    rw [devRead_eq]
    dsimp only
    rw [if_pos (by rw [hdev]; exact hseq)]
    rfl
  refine ⟨fun hs => ?_, hexec, EventFrame.settle t⟩
  have hsettled : t.settled := settled_lanes hs hlanes
  rw [hexec, settle_settled hsettled]

/-! Results. -/

/-- A device order outside UNSET passes to its own checks (R168). -/
theorem deviceResult_live {s : State} (o : DeviceOrder) (a b : Word) (h : s.engine = .ready ∨ s.engine = .halted) :
    s.deviceResult o a b = match o with
      | .applySetup => .ok
      | .snapshot => .ok
      | .clearMarks => .ok
      | .flushLink => .ok
      | .setStatic => if s.engine = .halted then .halted else if field b 0 24 &&& s.ownedPins ≠ 0 then .badArg else .ok
      | .raiseFlag => if s.engine = .halted then .halted else if (flagArgument a).isNone then .badArg else .ok
      | .drainFlag => if (flagArgument a).isNone then .badArg else .ok
      | .beatStart =>
        if s.engine = .halted then .halted
        else if s.hostBeat a ≠ .ok then s.hostBeat a
        else if b.toNat = 1 ∨ 16777215 < b.toNat then .badArg else .ok
      | .beatStop => s.hostBeat a
      | .setMasks => if field a 7 25 ≠ 0 then .badArg else .ok := by
  have hunset : s.engine ≠ .unset := by rcases h with h | h <;> rw [h] <;> decide
  unfold State.deviceResult
  by_cases ho : o = .applySetup
  · rw [if_pos ho, ho]
  · refine (if_neg ho).trans ((if_neg hunset).trans ?_)
    cases o <;> rfl

/-- A flag argument is a number below 16 (11.3). -/
theorem flagArgument_isNone (a : Word) : (flagArgument a).isNone = true ↔ ¬ a.toNat < 16 := by
  unfold flagArgument
  split <;> simp_all

/-- The beat named by an argument (R103, R104). -/
theorem hostBeat_eq (s : State) (a : Word) : s.hostBeat a = if h : a.toNat < 8 then
    (if s.beats[a.toNat].owner = none then .ok else .notHostBeat) else .badArg := by
  unfold State.hostBeat
  by_cases h : a.toNat < 8
  · rw [beat_some (f := ⟨a.toNat, h⟩) rfl, dif_pos h]
    rfl
  · have : beatArgument a = none := if_neg h
    rw [this, dif_neg h]

/-- A mask argument has seven bits (11.3). -/
theorem maskArgument (a : Word) : field a 7 25 ≠ 0 ↔ ¬ a.toNat < 128 := by
  unfold field
  have ha := a.isLt
  have hval : (a.extractLsb' 7 25).toNat = a.toNat / 128 := by
    rw [BitVec.extractLsb'_toNat, Nat.shiftRight_eq_div_pow]
    omega
  rw [ne_eq, ← BitVec.toNat_inj, hval]
  simp

/-- The pins a SET STATIC selects are STATIC pins (R119). -/
theorem staticPins (s : State) (b : Word) : field b 0 24 &&& s.ownedPins = 0 ↔
    ∀ p : Fin 24, b.getLsbD p.val = true → s.owner[p] = none := by
  have hbit : ∀ p : Fin 24, (field b 0 24).getLsbD p.val = b.getLsbD p.val := fun p => by
    have := p.isLt
    simp [field]
  constructor
  · intro h p hb
    have hp := congrArg (fun x : BitVec 24 => x.getLsbD p.val) h
    simp only [BitVec.getLsbD_and, hbit, hb, ownedPins_bits, Bool.true_and] at hp
    simpa using hp
  · intro h
    apply BitVec.eq_of_getLsbD_eq
    intro i hi
    have hb := hbit ⟨i, hi⟩
    have ho := ownedPins_bits s ⟨i, hi⟩
    dsimp only at hb ho
    rw [BitVec.getLsbD_and, hb, ho]
    cases hbi : b.getLsbD i with
    | false => simp
    | true => simp [h ⟨i, hi⟩ hbi]

/-- Settles O29: the checks are nested in the order of the owning rules. -/
theorem deviceOrderChecksInOrder : Obligations.DeviceOrderChecksInOrder := by
  intro s o a b
  refine ⟨rfl, fun he ho => ?_, fun he ho => ?_, fun he => ⟨?_, ?_, ?_, ?_, ?_, ?_⟩, fun he => ⟨fun hp => ?_, fun hp => ?_, ?_, ?_⟩⟩
  · unfold State.deviceResult
    rw [if_neg ho, if_pos he]
  · rw [deviceResult_live o a b (Or.inr he)]
    rcases ho with rfl | rfl | rfl <;> exact if_pos he
  · rw [deviceResult_live _ a b he]
  · rw [deviceResult_live _ a b he]
  · rw [deviceResult_live _ a b he]
  · rw [deviceResult_live _ a b he]
    simp only [flagArgument_isNone, ite_not]
  · rw [deviceResult_live _ a b he]
    exact hostBeat_eq s a
  · rw [deviceResult_live _ a b he]
    simp only [maskArgument, ite_not]
  · rw [deviceResult_live _ a b (Or.inl he)]
    dsimp only
    rw [if_neg (by rw [he]; decide), if_pos]
    intro h
    obtain ⟨p, hb, ho⟩ := hp
    rw [(staticPins s b).mp h p hb] at ho
    cases ho
  · rw [deviceResult_live _ a b (Or.inl he)]
    dsimp only
    rw [if_neg (by rw [he]; decide), if_neg (not_not.mpr ((staticPins s b).mpr hp))]
  · rw [deviceResult_live _ a b (Or.inl he)]
    dsimp only
    rw [if_neg (by rw [he]; decide)]
    simp only [flagArgument_isNone, ite_not]
  · rw [deviceResult_live _ a b (Or.inl he)]
    dsimp only
    rw [if_neg (by rw [he]; decide), hostBeat_eq]
    by_cases h : a.toNat < 8
    · rw [dif_pos h, dif_pos h]
      by_cases ho : s.beats[a.toNat].owner = none
      · simp [ho]
      · simp [ho]
    · simp [h]

/-- A code outside 1 to 10 is no device order (R168). -/
theorem deviceOrderOf_unknown {code : Nat} (h : code = 0 ∨ 10 < code) : deviceOrderOf code = none := by
  rcases h with rfl | h
  · rfl
  · obtain ⟨k, rfl⟩ := Nat.exists_eq_add_of_le' (show 11 ≤ code from h)
    rfl

/-- The result of a device order after its entry has been read. -/
theorem deviceResult_after (s : State) (ws : Between) (o : DeviceOrder) (a b : Word) :
    (s.afterDeviceRead ws o).deviceResult o a b = s.deviceResult o a b := by
  obtain ⟨_, _, _, _, h5, _, _, _, h9, _, h11, _⟩ := granted_dev s _ (.inl rfl)
  have he : (s.afterDeviceRead ws o).engine = s.engine := h5
  have hb : (s.afterDeviceRead ws o).beats = s.beats := h9
  have ho : (s.afterDeviceRead ws o).owner = s.owner := h11
  unfold State.deviceResult State.hostBeat State.ownedPins
  rw [he, hb, ho]

/-- Settles O30: a refused order leaves its answer alone. -/
theorem deviceOrderRefused : Obligations.DeviceOrderRefused := by
  intro ws s hp hseq seq code refusal
  obtain ⟨_, _, hwbq, hdev, _⟩ := granted_dev s _ (.inl rfl)
  refine ⟨fun hcode => ?_, fun o r ho hr hne => ?_⟩
  · show Host.Outcome.next (s.turn .deviceEntry .done (State.endDeviceRead ws)) = _
    rw [turn_done hp]
    unfold State.endDeviceRead
    rw [devRead_eq]
    dsimp only
    rw [if_neg (by rw [hdev]; exact hseq), deviceOrderOf_unknown hcode, ← hwbq]
    rfl
  · show Host.Outcome.next (s.turn .deviceEntry .done (State.endDeviceRead ws)) = _
    rw [newDev_eq hp hseq ho]
    unfold State.newDeviceOrder
    dsimp only
    rw [deviceResult_after, hr, if_pos hne, ← (afterDevice_facts s ws o).1]
    rfl

/-! Taken orders. -/

/-- The row of a taken order that is answered at once, but RAISE FLAG (R167). -/
theorem taken_answered {s : State} {ws : Between} {o : DeviceOrder} (hp : s.atPort .deviceEntry)
    (hf : s.findsDeviceOrder ws o = true)
    (hr : s.deviceResult o (s.deviceArguments ws o).1 (s.deviceArguments ws o).2.1 = .ok) (ha : o.answersAtOnce = true)
    (hflag : o ≠ .raiseFlag) : s.deviceOrderRow ws o =
      ((s.afterDeviceRead ws o).takeDeviceOrder (orderSeq (s.readDeviceOrder ws).1) o (s.deviceArguments ws o).1
        (s.deviceArguments ws o).2.1).enqueue (deviceAnswer (orderSeq (s.readDeviceOrder ws).1) .ok 0) := by
  rw [taken_row hp hf hr]
  dsimp only
  rw [if_neg hflag, if_pos ha]

/-- Settles O31. -/
theorem applySetupAndSnapshotFound : Obligations.ApplySetupAndSnapshotFound := by
  intro ws s hp
  refine ⟨fun hf => ?_, fun hf he => ?_⟩
  · show Host.Outcome.next (s.deviceOrderRow ws .applySetup) = _
    rw [taken_row hp hf rfl]
    rfl
  · show Host.Outcome.next (s.deviceOrderRow ws .snapshot) = _
    rw [taken_row hp hf (by rw [deviceResult_live _ _ _ he])]
    rfl

/-- What CLEAR MARKS does to one source (R91, R170). -/
theorem clearMark_spec (a : Word) (s : State) (j : SourceId) :
    let u := if a.getLsbD j.val then s.setSource j { s.source j with overflow := false } else s
    u = { s with sources := u.sources, marks := u.marks } ∧
    (∀ i, u.source i = { s.source i with
      overflow := (s.source i).overflow && !(decide (i = j) && a.getLsbD i.val) }) ∧
    ∀ k : Fin 20, u.marks.getLsbD k.val = true ↔ s.marks.getLsbD k.val = true ∨
      (k.val = 12 + j.val / 4 ∧ (s.source j).overflow = true ∧ a.getLsbD j.val = true) := by
  intro u
  by_cases hj : a.getLsbD j.val = true
  · have hu : u = s.setSource j { s.source j with overflow := false } := if_pos hj
    rw [hu]
    refine ⟨by rw [setSource_eq]; rfl, fun i => ?_, fun k => ?_⟩
    · by_cases hi : i = j
      · subst hi; rw [setSource_source_self]; simp [hj]
      · rw [setSource_source_ne _ _ _ _ hi]; simp [hi]
    · have hk := k.isLt
      rw [setSource_eq]
      unfold State.withSource
      cases ho : (s.source j).overflow with
      | false => simp
      | true =>
        simp only [hj, and_true, Bool.false_eq_true, and_false, if_false]
        rw [BitVec.getLsbD_or, Bool.or_eq_true]
        refine or_congr Iff.rfl ?_
        rw [bit_shift20 _ _ (by omega), decide_eq_true_iff]
  · have hu : u = s := if_neg hj
    have hbit : a.getLsbD j.val = false := by simpa using hj
    rw [hu]
    refine ⟨rfl, fun i => ?_, fun k => by rw [hbit]; simp⟩
    by_cases hi : i = j
    · subst hi; rw [hbit]; simp
    · simp [hi]

/-- What CLEAR MARKS does to a list of sources (R170). -/
theorem clearMarksOf_spec (a : Word) : ∀ (is : List SourceId) (s : State),
    Machine.clearMarksOf a is s =
      { s with sources := (Machine.clearMarksOf a is s).sources, marks := (Machine.clearMarksOf a is s).marks } ∧
    (∀ i, (Machine.clearMarksOf a is s).source i = { s.source i with
      overflow := (s.source i).overflow && !(decide (i ∈ is) && a.getLsbD i.val) }) ∧
    ∀ k : Fin 20, (Machine.clearMarksOf a is s).marks.getLsbD k.val = true ↔ s.marks.getLsbD k.val = true ∨
      ∃ i ∈ is, k.val = 12 + i.val / 4 ∧ (s.source i).overflow = true ∧ a.getLsbD i.val = true := by
  intro is
  induction is with
  | nil => intro s; exact ⟨rfl, fun i => by simp [Machine.clearMarksOf], fun k => by simp [Machine.clearMarksOf]⟩
  | cons j is ih =>
    intro s
    unfold Machine.clearMarksOf
    obtain ⟨hstep, hsource, hmark⟩ := clearMark_spec a s j
    generalize (if a.getLsbD j.val then s.setSource j { s.source j with overflow := false } else s) = u at *
    obtain ⟨hframe, hsources, hmarks⟩ := ih u
    refine ⟨?_, fun i => ?_, fun k => ?_⟩
    · rw [hframe, hstep]
    · rw [hsources i, hsource i]
      by_cases hi : i = j <;> cases a.getLsbD i.val <;> simp [hi]
    · rw [hmarks k, hmark k]
      constructor
      · rintro ((hk | ⟨hk, ho, ha⟩) | ⟨i, hi, hk, ho, ha⟩)
        · exact Or.inl hk
        · exact Or.inr ⟨j, by simp, hk, ho, ha⟩
        · refine Or.inr ⟨i, by simp [hi], hk, ?_, ha⟩
          rw [hsource i] at ho
          exact (Bool.and_eq_true_iff.mp ho).1
      · rintro (hk | ⟨i, hi, hk, ho, ha⟩)
        · exact Or.inl (Or.inl hk)
        · by_cases hij : i = j
          · exact Or.inl (Or.inr ⟨hij ▸ hk, hij ▸ ho, hij ▸ ha⟩)
          · refine Or.inr ⟨i, (List.mem_cons.mp hi).resolve_left hij, hk, ?_, ha⟩
            rw [hsource i]
            simp [ho, hij]

end Sys2Proof.Machine
end


section
/-! SUPPORT. The device orders taken in READY or HALTED (R88, R89, R98, R99, R103, R104, R119, R132, R155, R170). -/

namespace Sys2Proof.Machine

/-- Every source is in the list of sources. -/
theorem mem_allSources (i : SourceId) : i ∈ allSources := by
  revert i
  decide

/-- Settles O32. -/
theorem clearMarksTaken : Obligations.ClearMarksTaken := by
  intro ws s hp hf he
  obtain ⟨_, _, hsrc, hmark, _⟩ := afterDevice_facts s ws .clearMarks
  have hrow := taken_answered hp hf (by rw [deviceResult_live _ _ _ he]) rfl (by decide)
  obtain ⟨hframe, hsources, hmarks⟩ :=
    clearMarksOf_spec (s.deviceArguments ws .clearMarks).1 allSources (s.afterDeviceRead ws .clearMarks)
  have hsource : ∀ i, (s.afterDeviceRead ws .clearMarks).source i = s.source i := fun i => by
    unfold State.source; rw [hsrc]
  refine ⟨_, (show Host.Outcome.next (s.deviceOrderRow ws .clearMarks) = _ from congrArg _ hrow), ?_, fun i => ?_,
    fun k => ?_⟩
  · rw [answeredDevice_eq]
    show (Machine.clearMarksOf _ allSources _).enqueue _ = _
    conv_lhs => rw [hframe]
    rfl
  · show (Machine.clearMarksOf _ allSources _).source i = _
    rw [hsources i, hsource i]
    simp [mem_allSources i]
  · show (Machine.clearMarksOf _ allSources _).marks.getLsbD k.val = true ↔ _
    rw [hmarks k, hmark]
    simp only [mem_allSources, true_and, hsource]

/-- Settles O33. -/
theorem setStaticTaken : Obligations.SetStaticTaken := by
  intro ws s hp hf he a b hpins
  obtain ⟨_, _, _, _, _, _, _, hout, hstatic⟩ := afterDevice_facts s ws .setStatic
  have hok : s.deviceResult .setStatic a b = .ok := by
    rw [deviceResult_live _ _ _ (Or.inl he)]
    dsimp only
    rw [if_neg (by rw [he]; decide), if_neg (not_not.mpr ((staticPins s b).mpr hpins))]
  have hbits : ∀ (x : Pins) (p : Fin 24), (blend (field b 0 24) (field a 0 24) x).getLsbD p.val =
      if b.getLsbD p.val then a.getLsbD p.val else x.getLsbD p.val := fun x p => by
    have := p.isLt
    rw [blend_bits]
    simp [field]
  refine ⟨_, blend (field b 0 24) (field a 0 24) s.out, blend (field b 0 24) (field a 0 24) s.static,
    (show Host.Outcome.next (s.deviceOrderRow ws .setStatic) = _ from congrArg _ (taken_answered hp hf hok rfl (by decide))),
    ?_, hbits _, hbits _⟩
  show (State.takeSetStatic _ a b).enqueue _ = _
  unfold State.takeSetStatic
  rw [setOut_eq, answeredDevice_eq]
  unfold State.withOut State.enqueue
  dsimp only
  rw [hout, hstatic]

/-- Settles O35. -/
theorem beatOrdersTaken : Obligations.BeatOrdersTaken := by
  intro ws s n hp howner
  have hbeats := fun o => (afterDevice_facts s ws o).2.2.2.2.1
  have hhost : ∀ a : Word, a.toNat = n.val → s.hostBeat a = .ok := fun a ha => by
    unfold State.hostBeat
    rw [beat_some ha]
    exact if_pos howner
  refine ⟨?_, fun hf he ha => ?_⟩
  · intro hf he ha h1 hmax p
    have hok : s.deviceResult .beatStart (s.deviceArguments ws .beatStart).1 (s.deviceArguments ws .beatStart).2.1 = .ok := by
      rw [deviceResult_live _ _ _ (Or.inl he)]
      dsimp only
      rw [if_neg (by rw [he]; decide), if_neg (not_not.mpr (hhost _ ha)), if_neg (by omega)]
    have hzero : ∀ w : Word, w = 0#32 ↔ w.toNat = 0 := fun w => by rw [← BitVec.toNat_inj]; rfl
    show Host.Outcome.next (s.deviceOrderRow ws .beatStart) = _
    rw [taken_answered hp hf hok rfl (by decide)]
    show Host.Outcome.next ((State.takeBeatStart _ _ _).enqueue _) = _
    unfold State.takeBeatStart
    rw [beat_some ha, answeredDevice_eq]
    dsimp only [State.updBeat]
    rw [hbeats]
    simp only [hzero]
    rfl
  · have hok : s.deviceResult .beatStop (s.deviceArguments ws .beatStop).1 (s.deviceArguments ws .beatStop).2.1 = .ok := by
      rw [deviceResult_live _ _ _ he]
      exact hhost _ ha
    show Host.Outcome.next (s.deviceOrderRow ws .beatStop) = _
    rw [taken_answered hp hf hok rfl (by decide)]
    show Host.Outcome.next ((State.takeBeatStop _ _).enqueue _) = _
    unfold State.takeBeatStop
    rw [beat_some ha, answeredDevice_eq]
    dsimp only [State.updBeat]
    rw [hbeats]
    rfl

/-- Settles O36. -/
theorem flushLinkAndSetMasksTaken : Obligations.FlushLinkAndSetMasksTaken := by
  intro ws s hp he
  refine ⟨fun hf => ?_, fun hf hmask => ⟨field (s.deviceArguments ws .setMasks).1 0 7, ?_, ?_⟩⟩
  · have hlink := (afterDevice_facts s ws .flushLink).2.2.2.2.2.1
    show Host.Outcome.next (s.deviceOrderRow ws .flushLink) = _
    rw [taken_answered hp hf (by rw [deviceResult_live _ _ _ he]) rfl (by decide)]
    show Host.Outcome.next ((State.takeFlushLink _).enqueue _) = _
    unfold State.takeFlushLink
    rw [updLink_eq, hlink, answeredDevice_eq]
    rfl
  · unfold field
    rw [BitVec.extractLsb'_toNat]
    simp
    omega
  · have hok : s.deviceResult .setMasks (s.deviceArguments ws .setMasks).1 (s.deviceArguments ws .setMasks).2.1 = .ok := by
      rw [deviceResult_live _ _ _ he]
      exact if_neg (fun h => (maskArgument _).mp h hmask)
    show Host.Outcome.next (s.deviceOrderRow ws .setMasks) = _
    rw [taken_answered hp hf hok rfl (by decide), answeredDevice_eq]
    have hatt := (afterDevice_facts s ws .setMasks).2.2.2.2.2.2.1
    show Host.Outcome.next ((State.takeSetMasks _ _).enqueue _) = _
    unfold State.takeSetMasks
    rw [hatt]
    rfl

/-- Settles O34: the flag's event as the arbiter has it, and with no lane waiting the raise goes unclaimed. -/
theorem flagOrdersTaken : Obligations.FlagOrdersTaken := by
  intro ws s f hp r
  refine ⟨fun hf he ha => ?_, fun hf he ha => ?_⟩
  · have hflag : flagArgument (s.deviceArguments ws .raiseFlag).1 = some f := flag_some ha
    have hok : s.deviceResult .raiseFlag (s.deviceArguments ws .raiseFlag).1 (s.deviceArguments ws .raiseFlag).2.1 = .ok := by
      rw [deviceResult_live _ _ _ (Or.inl he)]
      dsimp only
      rw [if_neg (by rw [he]; decide), hflag]
      rfl
    obtain ⟨hwbq, hlanes, hsrc, _⟩ := afterDevice_facts s ws .raiseFlag
    have hexec : exec (.raiseFlag ws) s = .next (((s.afterDeviceRead ws .raiseFlag).claimEvent (flagSource f)).enqueue
        (deviceAnswer (orderSeq (s.readDeviceOrder ws).1) .ok 0)).settle := by
      show Host.Outcome.next (s.deviceOrderRow ws .raiseFlag) = _
      rw [taken_row hp hf hok]
      dsimp only
      rw [if_pos rfl, if_pos (show DeviceOrder.raiseFlag.answersAtOnce = true from rfl)]
      show Host.Outcome.next ((State.takeRaiseFlag _ _).enqueue _).settle = _
      unfold State.takeRaiseFlag
      rw [hflag]
    refine ⟨⟨(s.afterDeviceRead ws .raiseFlag).claimEvent (flagSource f), claimEvent_claimed _ _, ?_⟩, fun hs hw => ?_⟩
    · have hqueue := (SamePlaces.rule.claimEvent (s.afterDeviceRead ws .raiseFlag) (flagSource f)).1
      rw [hexec]
      unfold State.enqueue
      rw [hqueue, hwbq]
    · have hw' : (s.afterDeviceRead ws .raiseFlag).unwatched (.source (flagSource f)) := fun n => by
        have hlane : (s.afterDeviceRead ws .raiseFlag).lane n = s.lane n := by unfold State.lane; rw [hlanes]
        rw [hlane]
        exact hw n
      have hclaim : (s.afterDeviceRead ws .raiseFlag).claimEvent (flagSource f) =
          (s.afterDeviceRead ws .raiseFlag).unclaimed (flagSource f) := by
        unfold State.claimEvent
        rw [claimTaken_none (unwatched_waiters hw'), unwatched_after hw' (unclaimed_lanes _ _)]
      have hsettled : (((s.afterDeviceRead ws .raiseFlag).unclaimed (flagSource f)).enqueue
          (deviceAnswer (orderSeq (s.readDeviceOrder ws).1) .ok 0)).settled :=
        settled_lanes hs ((unclaimed_lanes _ _).trans hlanes)
      have hsource : (s.afterDeviceRead ws .raiseFlag).source (flagSource f) = r := by unfold State.source; rw [hsrc]; rfl
      rw [hexec, hclaim, settle_settled hsettled, answeredDevice_eq]
      unfold State.unclaimed
      rw [hsource]
      refine ⟨fun hlt => ?_, fun hfull => ?_⟩
      · rw [if_pos hlt]
        rfl
      · rw [if_neg (by omega)]
        rfl
  · have hflag : flagArgument (s.deviceArguments ws .drainFlag).1 = some f := flag_some ha
    have hok : s.deviceResult .drainFlag (s.deviceArguments ws .drainFlag).1 (s.deviceArguments ws .drainFlag).2.1 = .ok := by
      rw [deviceResult_live _ _ _ he]
      dsimp only
      rw [hflag]
      rfl
    have hsrc := (afterDevice_facts s ws .drainFlag).2.2.1
    have hsource : (s.afterDeviceRead ws .drainFlag).source (flagSource f) = r := by unfold State.source; rw [hsrc]; rfl
    show Host.Outcome.next (s.deviceOrderRow ws .drainFlag) = _
    rw [taken_answered hp hf hok rfl (by decide)]
    show Host.Outcome.next ((State.takeDrainFlag _ _).enqueue _) = _
    unfold State.takeDrainFlag
    rw [hflag, answeredDevice_eq]
    dsimp only
    rw [setSource_eq, hsource]
    rfl

end Sys2Proof.Machine
end


section
/-! SUPPORT. The setup block (R164) and the end of an APPLY SETUP (R165, R166). -/

namespace Sys2Proof.Machine

/-! The field checks. -/

/-- The indices of the fields an encoding can fail, in ascending order (R164). -/
def setupIndices : List Nat :=
  (List.range 24).map (10 + ·) ++ (List.range 8).map (82 + ·) ++ (List.range 8).map (98 + ·) ++
    (List.range 8).map (130 + ·) ++ (List.range 8).map (138 + ·) ++ [166]

/-- The indices rise. -/
theorem setupIndices_rising : setupIndices.Pairwise (· < ·) := by decide

/-- A field out of range has an index of the list. -/
theorem setupFieldBad_index {ws : List Word} {i : Nat} (h : setupFieldBad ws i = true) : i ∈ setupIndices := by
  have hrange : (10 ≤ i ∧ i ≤ 33) ∨ (82 ≤ i ∧ i ≤ 89) ∨ (98 ≤ i ∧ i ≤ 105) ∨ (130 ≤ i ∧ i ≤ 137) ∨
      (138 ≤ i ∧ i ≤ 145) ∨ i = 166 := by
    by_contra hno
    push Not at hno
    obtain ⟨h1, h2, h3, h4, h5, h6⟩ := hno
    unfold setupFieldBad at h
    rw [if_neg (by omega), if_neg (by omega), if_neg (by omega), if_neg (by omega), if_neg (by omega), if_neg h6] at h
    cases h
  simp only [setupIndices, List.mem_append, List.mem_map, List.mem_range, List.mem_singleton]
  rcases hrange with h | h | h | h | h | h
  · exact Or.inl (Or.inl (Or.inl (Or.inl (Or.inl ⟨i - 10, by omega, by omega⟩))))
  · exact Or.inl (Or.inl (Or.inl (Or.inl (Or.inr ⟨i - 82, by omega, by omega⟩))))
  · exact Or.inl (Or.inl (Or.inl (Or.inr ⟨i - 98, by omega, by omega⟩)))
  · exact Or.inl (Or.inl (Or.inr ⟨i - 130, by omega, by omega⟩))
  · exact Or.inl (Or.inr ⟨i - 138, by omega, by omega⟩)
  · exact Or.inr h

/-- Each check by the field of its index (R164). -/
theorem setupChecks_eq (ws : List Word) : setupChecks ws = setupIndices.map (fun i => (i, !setupFieldBad ws i)) := by
  have group : ∀ (k lo : Nat) (f : Nat → Bool), (∀ n < k, f n = !setupFieldBad ws (lo + n)) →
      (List.range k).map (fun n => (lo + n, f n)) =
        ((List.range k).map (lo + ·)).map (fun i => (i, !setupFieldBad ws i)) := by
    intro k lo f h
    rw [List.map_map]
    apply List.map_congr_left
    intro n hn
    rw [h n (List.mem_range.mp hn)]
    rfl
  unfold setupChecks setupIndices
  simp only [List.map_append, List.map_cons, List.map_nil]
  congr 1
  · congr 1
    · congr 1
      · congr 1
        · congr 1
          · refine group _ _ _ (fun n hn => ?_)
            unfold setupFieldBad
            rw [if_pos (by omega), Nat.add_sub_cancel_left, ← decide_not]
            simp only [Nat.not_lt]
          · refine group _ _ _ (fun n hn => ?_)
            unfold setupFieldBad
            rw [if_neg (by omega), if_pos (by omega), Nat.add_sub_cancel_left, ← decide_not]
            simp only [Nat.not_lt]
        · refine group _ _ _ (fun n hn => ?_)
          unfold setupFieldBad
          rw [if_neg (by omega), if_neg (by omega), if_pos (by omega), Nat.add_sub_cancel_left, ← decide_not]
          simp only [Nat.not_lt]
      · refine group _ _ _ (fun n hn => ?_)
        unfold setupFieldBad
        rw [if_neg (by omega), if_neg (by omega), if_neg (by omega), if_pos (by omega), Nat.add_sub_cancel_left,
          ← decide_not]
        apply decide_eq_decide.mpr
        omega
    · refine group _ _ _ (fun n hn => ?_)
      unfold setupFieldBad
      rw [if_neg (by omega), if_neg (by omega), if_neg (by omega), if_neg (by omega), if_pos (by omega),
        Nat.add_sub_cancel_left, ← decide_not]
      apply decide_eq_decide.mpr
      omega
  · have hparity : ∀ x : BitVec 2, decide (x.toNat ≤ 2) = !decide (x = 3#2) := by decide
    unfold setupFieldBad
    rw [if_neg (by omega), if_neg (by omega), if_neg (by omega), if_neg (by omega), if_neg (by omega), if_pos rfl,
      hparity]

/-- The refusing field is the first of the list that is out of range (R164). -/
theorem setupBadField_eq (ws : List Word) : setupBadField ws = setupIndices.find? (setupFieldBad ws) := by
  unfold setupBadField
  rw [setupChecks_eq, List.find?_map, Option.map_map]
  simp [Function.comp_def]

/-- The first number with a property in a rising list of all of them is the least. -/
theorem find_rising {p : Nat → Bool} {l : List Nat} (hl : l.Pairwise (· < ·)) (hp : ∀ i, p i = true → i ∈ l) (i : Nat) :
    l.find? p = some i ↔ p i = true ∧ ∀ j, j < i → p j = false := by
  rw [List.find?_eq_some_iff_append]
  constructor
  · rintro ⟨hi, before, after, rfl, hbefore⟩
    refine ⟨hi, fun j hj => ?_⟩
    by_contra hne
    have hmem := hp j (by simpa using hne)
    rw [List.pairwise_append] at hl
    rcases List.mem_append.mp hmem with h | h
    · exact hne (by simpa using hbefore j h)
    · rcases List.mem_cons.mp h with h | h
      · omega
      · have := List.rel_of_pairwise_cons hl.2.1 h
        omega
  · rintro ⟨hi, hleast⟩
    obtain ⟨before, after, hsplit⟩ := List.append_of_mem (hp i hi)
    refine ⟨hi, before, after, hsplit, fun j hj => ?_⟩
    rw [hsplit, List.pairwise_append] at hl
    simp [hleast j (hl.2.2 j hj i (by simp))]

/-- Settles O37: the list of checks is the rising list of the fields that can fail. -/
theorem setupFieldsCheckedInOrder : Obligations.SetupFieldsCheckedInOrder := by
  intro ws
  rw [setupBadField_eq]
  refine ⟨find_rising setupIndices_rising (fun i h => setupFieldBad_index h), ?_⟩
  rw [List.find?_eq_none]
  refine ⟨fun h i => ?_, fun h i _ => by simp [h i]⟩
  by_contra hne
  have hbad : setupFieldBad ws i = true := by simpa using hne
  exact h i (setupFieldBad_index hbad) hbad

/-! The end of a setup read. -/

/-- The state in which a setup read is decided, from the words read, the host's writes left and the memory (R165). -/
def State.afterSetupRead (s : State) (r : List Word × Between × List Host.Cell) : State :=
  { s with port := none, mem := landAll r.2.2 r.2.1, devOut := .none_ }

/-- The end of a setup read decides the APPLY SETUP (R165). -/
theorem exec_setupReadDone {s : State} {seq : Byte} {ws : Between} {r : List Word × Between × List Host.Cell}
    (pins : BitVec 8) (hp : s.atPort .setupRead) (hd : s.devOut = .setup seq)
    (hr : readSeq (List.range 128) ws s.mem = r) {d : OrderResult × Nat} (hres : (s.afterSetupRead r).setupResult r.1 = d) :
    exec (.setupReadDone .done pins ws) s = .next
      ((if d.1 = .ok then (s.afterSetupRead r).setupTaken r.1 pins else s.afterSetupRead r).enqueue
        (deviceAnswer seq d.1 d.2)) := by
  obtain ⟨_, hmem, _, _, _, hdev, _⟩ := granted_dev s _ (.inr rfl)
  have hfree : ({ (s.granted .setupRead).endTransaction (landAll r.2.2 r.2.1) with devOut := .none_ } : State) =
      s.afterSetupRead r := by
    unfold State.granted
    split <;> rfl
  show Host.Outcome.next (s.turn .setupRead .done (State.endSetupRead pins ws)) = _
  rw [turn_done hp]
  unfold State.endSetupRead
  rw [hdev, hd]
  dsimp only
  rw [hmem, hr, hfree, hres]

/-- Settles O38: the decision by the engine state, the lanes, and the fields. -/
theorem setupRefused : Obligations.SetupRefused := by
  intro pins ws s seq hp hd
  dsimp only
  generalize hr : readSeq (List.range 128) ws s.mem = r
  have hidle : (s.afterSetupRead r).allIdle = s.allIdle := rfl
  refine ⟨fun he => ?_, fun he hbusy => ?_, fun he hall i hbad => ?_⟩
  · rw [exec_setupReadDone pins hp hd hr (d := (.halted, 0)) (if_pos he), if_neg (fun h => by cases h)]
    rfl
  · have hnot : s.allIdle = false := by
      obtain ⟨n, hn⟩ := hbusy
      rw [Bool.eq_false_iff, ne_eq, allIdle_iff]
      exact fun h => hn (h n)
    have hres : (s.afterSetupRead r).setupResult r.1 = (.busyLanes, 0) := by
      unfold State.setupResult
      rw [if_neg (by exact he), hidle, hnot]
      rfl
    rw [exec_setupReadDone pins hp hd hr hres, if_neg (fun h => by cases h)]
    rfl
  · have hres : (s.afterSetupRead r).setupResult r.1 = (.badSetup, i) := by
      unfold State.setupResult
      rw [if_neg (by exact he), hidle, (allIdle_iff s).mpr hall, hbad]
      rfl
    rw [exec_setupReadDone pins hp hd hr hres, if_neg (fun h => by cases h)]
    rfl

/-- An owner field (11.7). -/
theorem ownerOf_eq (x : BitVec 4) : ownerOf x = if h : x.toNat < 8 then some ⟨x.toNat, h⟩ else none := by
  unfold ownerOf
  by_cases h : x.toNat < 8
  · rw [if_pos h, dif_pos h]
    congr 1
    apply Fin.ext
    simp [Fin.ofNat, Nat.mod_eq_of_lt h]
  · rw [if_neg h, dif_neg h]

/-- Settles O39: the plans of the block, each read off. -/
theorem setupTaken : Obligations.SetupTaken := by
  intro pins ws s seq hp hd he hall
  dsimp only
  generalize hr : readSeq (List.range 128) ws s.mem = r
  intro hbad
  have hres : (s.afterSetupRead r).setupResult r.1 = (.ok, 0) := by
    have hidle : (s.afterSetupRead r).allIdle = s.allIdle := rfl
    have hne : s.engine ≠ .halted := by rcases he with he | he <;> rw [he] <;> decide
    unfold State.setupResult
    rw [if_neg (by exact hne), hidle, (allIdle_iff s).mpr hall, hbad]
    rfl
  have hexec := exec_setupReadDone pins hp hd hr hres
  rw [if_pos rfl] at hexec
  refine ⟨_, hexec, ?_⟩
  unfold State.enqueue State.setupTaken
  dsimp only
  refine ⟨rfl, rfl, rfl, rfl, fun p => ⟨?_, ?_, ?_⟩, fun b => ?_, fun i => ?_, fun n => ?_, rfl, rfl, rfl⟩
  · rw [← ownerOf_eq]
    simp [pinWord, setupWord, field]
  · simp [pinWord, setupWord]
  · simp [pinWord, setupWord]
  · rw [← ownerOf_eq]
    simp [setupBeat, beatWord, setupWord, field]
  · have hline : 8 ≤ i.val → inputWord r.1 (i.val - 8) = r.1.getD (27 + i.val) 0 := fun h => by
      unfold inputWord setupWord
      congr 1
      omega
    unfold State.source setupSources
    simp only [Fin.getElem_fin, Vector.getElem_ofFn]
    by_cases h8 : i.val < 8
    · simp [h8, beatWord, setupWord]
    · rw [if_neg h8, if_neg h8, hline (by omega)]
  · simp only [Fin.getElem_fin, Vector.getElem_ofFn]
    rfl

end Sys2Proof.Machine
end


section
/-! SUPPORT. Who requests the fetch port and who is granted (R27, R39, R143, R149), and what a grant does (R43, R46, R145). -/

namespace Sys2Proof.Machine

/-! Requests. -/

/-- A lane may request a fetch (R39). -/
theorem mayRequest_iff (l : Lane) : l.mayRequest = true ↔
    (l.st = .priming ∨ l.st = .running ∨ l.st = .starved ∨ l.st = .held) ∧ l.queue.length < 4 ∧ l.owed = [] := by
  have hactive : l.st.active = true ↔ l.st = .priming ∨ l.st = .running ∨ l.st = .starved ∨ l.st = .held := by
    cases l.st <;> simp [LaneState.active]
  unfold Lane.mayRequest
  rw [Bool.and_eq_true, Bool.and_eq_true, hactive, decide_eq_true_iff, List.isEmpty_iff, and_assoc]

/-- A lane requests a cue fetch (R39, R46, R145). -/
theorem wantsCue_iff (l : Lane) : l.wantsCue = true ↔ l.mayRequest = true ∧ ((∃ f, l.fetch = some f ∧ f.kind = .cue) ∨
    (l.fetch = none ∧ (l.pause = Pause.open_ ∨ (l.pause = Pause.notReady ∧ l.reread = true)))) := by
  unfold Lane.wantsCue
  rw [Bool.and_eq_true]
  cases l.fetch <;> simp

/-- A lane requests a tail re-read (R43, R45, R145). -/
theorem wantsTail_iff (l : Lane) : l.wantsTail = true ↔ l.mayRequest = true ∧ ((∃ f, l.fetch = some f ∧ f.kind = .tail) ∨
    (l.fetch = none ∧ l.pause = Pause.atEnd ∧ l.reread = true)) := by
  unfold Lane.wantsTail
  rw [Bool.and_eq_true]
  cases l.fetch <;> simp

/-- The copies of a queue, counted by its entries. -/
theorem copiesOf_count (q : List Entry) :
    (copiesOf q).length = (q.filter (fun e => match e with | .copy _ => true | .marker _ _ => false)).length := by
  induction q with
  | nil => rfl
  | cons e q ih =>
    cases e with
    | marker code slot => exact ih
    | copy c => exact congrArg (· + 1) ih

/-- A lean lane (R143). -/
theorem lean_iff (l : Lane) : l.lean = true ↔ l.pause = Pause.open_ ∧
    (l.queue.filter (fun e => match e with | .copy _ => true | .marker _ _ => false)).length ≤ 1 := by
  unfold Lane.lean
  rw [Bool.and_eq_true, decide_eq_true_iff, copiesOf_count, beq_iff_eq, and_comm]

/-! The choice of a free port. -/

/-- The choice of a free port outside CLEARING (R143). -/
theorem portChoice_open {s : State} (hp : s.port = none) (he : s.engine ≠ .clearing) : s.portChoice =
    if s.wbq ≠ [] then some .writeBack
    else s.readerRequest.or (s.laneRequest.or (s.nextMarked.map (fun _ => .statusItem))) := by
  unfold State.portChoice
  rw [if_neg]
  rintro (h | h)
  · rw [hp] at h; cases h
  · exact he h

/-- Of some lanes none, there is no first. -/
theorem firstOf_empty {s : State} {p : LaneId → Bool} (h : ∀ n, p n = false) : s.firstOf (allLanes.filter p) = none := by
  have hnil : allLanes.filter p = [] := List.filter_eq_nil_iff.mpr (fun n _ => by simp [h n])
  rw [hnil]
  rfl

/-- The lane the requests come to (R143, R144). -/
theorem laneRequest_first {s : State} {n : LaneId} (hn : (s.lane n).wantsTail = true ∨ (0 < s.room ∧ (s.lane n).wantsCue = true))
    (hfirst : ∀ m, ((s.lane m).wantsTail = true ∨ (0 < s.room ∧ (s.lane m).wantsCue = true)) →
      if (s.lane n).lean ≠ (s.lane m).lean then (s.lane n).lean = true
      else if s.laneUrgent.getLsbD n.val ≠ s.laneUrgent.getLsbD m.val then s.laneUrgent.getLsbD n.val = true
      else n ≤ m) :
    s.laneRequest = some (if (s.lane n).wantsTail = true then .tailReread n else .cueFetch n) := by
  have asks : ∀ m, ((s.lane m).wantsTail || (decide (0 < s.room) && (s.lane m).wantsCue)) = true ↔
      (s.lane m).wantsTail = true ∨ (0 < s.room ∧ (s.lane m).wantsCue = true) := fun m => by simp
  unfold State.laneRequest
  dsimp only
  cases hl : (s.lane n).lean with
  | true =>
    have hfound : s.firstOf (allLanes.filter (fun m =>
        ((s.lane m).wantsTail || (decide (0 < s.room) && (s.lane m).wantsCue)) && (s.lane m).lean)) = some n := by
      refine firstOf_spec s _ n (by rw [(asks n).mpr hn, hl]; rfl) (fun m hm => ?_)
      rw [Bool.and_eq_true, asks] at hm
      have h := hfirst m hm.1
      rwa [hl, hm.2, if_neg (by decide)] at h
    rw [hfound]
    rfl
  | false =>
    have hnolean : ∀ m, ((s.lane m).wantsTail = true ∨ (0 < s.room ∧ (s.lane m).wantsCue = true)) →
        (s.lane m).lean = false := by
      intro m hm
      have h := hfirst m hm
      by_contra hne
      rw [hl, if_pos (fun e => hne e.symm)] at h
      cases h
    rw [firstOf_empty (fun m => ?_)]
    · have hfound : s.firstOf (allLanes.filter (fun m =>
          (s.lane m).wantsTail || (decide (0 < s.room) && (s.lane m).wantsCue))) = some n := by
        refine firstOf_spec s _ n ((asks n).mpr hn) (fun m hm => ?_)
        have hm' := (asks m).mp hm
        have h := hfirst m hm'
        rwa [hl, hnolean m hm', if_neg (by decide)] at h
      rw [hfound]
      rfl
    · cases hm : ((s.lane m).wantsTail || (decide (0 < s.room) && (s.lane m).wantsCue)) with
      | false => rfl
      | true => exact hnolean m ((asks m).mp hm)

/-- No lane asks (R143). -/
theorem laneRequest_none {s : State} (h : ∀ m, ¬ ((s.lane m).wantsTail = true ∨ (0 < s.room ∧ (s.lane m).wantsCue = true))) :
    s.laneRequest = none := by
  have asks : ∀ m, ((s.lane m).wantsTail || (decide (0 < s.room) && (s.lane m).wantsCue)) = false := fun m => by
    rw [Bool.eq_false_iff]
    exact fun hm => h m (by simpa using hm)
  unfold State.laneRequest
  dsimp only
  rw [firstOf_empty (fun m => by rw [asks m]; rfl), firstOf_empty asks]
  rfl

/-- Every item has a place in the cycle. -/
theorem cycle_reaches (p i : Fin 20) : ∃ k, k < 20 ∧ Fin.ofNat 20 (p.val + k) = i := by
  refine ⟨(i.val + (20 - p.val)) % 20, Nat.mod_lt _ (by decide), Fin.ext ?_⟩
  show (p.val + (i.val + (20 - p.val)) % 20) % 20 = i.val
  omega

/-- There is a marked item unless no mark is set (R149). -/
theorem nextMarked_none (s : State) : s.nextMarked = none ↔ s.marks = 0#20 := by
  unfold State.nextMarked
  rw [List.find?_eq_none]
  constructor
  · intro h
    apply BitVec.eq_of_getLsbD_eq
    intro i hi
    obtain ⟨k, hk, he⟩ := cycle_reaches s.statusPos ⟨i, hi⟩
    have := h ⟨i, hi⟩ (List.mem_map.mpr ⟨k, List.mem_range.mpr hk, he⟩)
    simpa using this
  · intro h i _
    rw [h]
    simp

/-- The next marked item is the first in cycle order (R149, R150). -/
theorem nextMarked_some {s : State} {i : Fin 20} (h : s.nextMarked = some i) :
    ∃ k, k < 20 ∧ i = Fin.ofNat 20 (s.statusPos.val + k) ∧ s.marks.getLsbD i.val = true ∧
      ∀ j, j < k → s.marks.getLsbD (Fin.ofNat 20 (s.statusPos.val + j)).val = false := by
  unfold State.nextMarked at h
  obtain ⟨hmark, k, hk, hi, hbefore⟩ := List.find?_eq_some_iff_getElem.mp h
  have hk' : k < 20 := by simpa using hk
  refine ⟨k, hk', ?_, hmark, fun j hj => ?_⟩
  · rw [← hi]; simp
  · have := hbefore j hj
    simpa using this

/-- The order reader's request while it does not wait for a setup read (R27). -/
theorem readerRequest_open {s : State} (hd : ∀ seq, s.devOut ≠ .setup seq) : s.readerRequest =
    match allLanes.find? (fun n => s.nudge.getLsbD n.val && (s.lane n).owed.isEmpty) with
    | some n => some (.laneEntry n)
    | none => if s.nudge.getLsbD 8 ∧ s.devOut = .none_ ∧ 0 < s.room then some .deviceEntry else none := by
  unfold State.readerRequest
  cases h : s.devOut with
  | setup seq => exact absurd h (hd seq)
  | none_ => rfl
  | snapshot => rfl

/-- No lane's latch bit is to be served (R27). -/
theorem readerRequest_lanesNone {s : State} (hd : ∀ seq, s.devOut ≠ .setup seq)
    (hno : ∀ n : LaneId, s.nudge.getLsbD n.val = true → (s.lane n).owed ≠ []) :
    s.readerRequest = if s.nudge.getLsbD 8 ∧ s.devOut = .none_ ∧ 0 < s.room then some .deviceEntry else none := by
  have hfind : allLanes.find? (fun n => s.nudge.getLsbD n.val && (s.lane n).owed.isEmpty) = none := by
    rw [List.find?_eq_none]
    intro n _ h
    rw [Bool.and_eq_true, List.isEmpty_iff] at h
    exact hno n h.1 h.2
  rw [readerRequest_open hd, hfind]

/-- Settles O40: each request of the order of R143 where those before it are not made. -/
theorem portGrantOrder : Obligations.PortGrantOrder := by
  refine ⟨fun l => ⟨?_, ?_, lean_iff l⟩, ?_⟩
  · rw [wantsCue_iff, mayRequest_iff]
  · rw [wantsTail_iff, mayRequest_iff]
  intro s hp he asks before
  rw [portChoice_open hp he]
  refine ⟨fun hw => if_pos hw, fun hw seq hd => ?setup, fun hw hd => ?_⟩
  case setup =>
    have hreader : s.readerRequest = some .setupRead := by unfold State.readerRequest; rw [hd]
    rw [if_neg (not_not.mpr hw), hreader]
    rfl
  rw [if_neg (not_not.mpr hw)]
  refine ⟨fun n hn ho hfirst => ?entry, fun hno => ?_⟩
  case entry =>
    rw [readerRequest_open hd, find_lowest _ n (by simp [hn, ho]) (fun m hm => ?_)]
    · rfl
    · rw [Bool.and_eq_true, List.isEmpty_iff] at hm
      by_contra hlt
      exact hfirst m (not_le.mp hlt) hm.1 hm.2
  rw [readerRequest_lanesNone hd hno]
  refine ⟨fun h8 hdev hroom => ?device, fun h8 => ?_⟩
  case device =>
    rw [if_pos ⟨h8, hdev, hroom⟩]
    rfl
  have hquiet : ¬ (s.nudge.getLsbD 8 ∧ s.devOut = .none_ ∧ 0 < s.room) := by
    rintro ⟨h8', hdev, hroom⟩
    rcases h8 with h | h | h
    · rw [h] at h8'; cases h8'
    · exact h hdev
    · omega
  rw [if_neg hquiet]
  refine ⟨fun n hn hfirst => ?_, fun hnone => ?_⟩
  · rw [laneRequest_first hn (fun m hm => hfirst m hm)]
    rfl
  · rw [laneRequest_none hnone]
    by_cases hm : s.marks = 0#20
    · rw [if_pos hm, (nextMarked_none s).mpr hm]
      rfl
    · rw [if_neg hm]
      cases hn : s.nextMarked with
      | none => exact absurd ((nextMarked_none s).mp hn) hm
      | some i => rfl

/-! What a grant does. -/

/-- The grant of a request, as a command (R143). -/
theorem turn_granted {s : State} {r : Request} (h : s.portChoice = some r) (fin : State → State) :
    s.turn r .grant fin = s.grant r := by
  have hu : s.underWay r = false := by
    unfold State.underWay
    rw [portChoice_free h]
    rfl
  exact turn_grant hu h fin

/-- Clearing one latch bit leaves the others. -/
theorem clearBit_getLsbD {w : Nat} (x : BitVec w) (k j : Nat) (hj : j < w) :
    (x &&& ~~~(1#w <<< k)).getLsbD j = (x.getLsbD j && decide (j ≠ k)) := by
  rw [BitVec.getLsbD_and, BitVec.getLsbD_not, BitVec.getLsbD_shiftLeft, BitVec.getLsbD_one]
  by_cases hjk : j = k
  · subst hjk
    have hw : 0 < w := by omega
    simp [hj, hw]
  · by_cases hlt : j < k
    · simp [hj, hjk, hlt]
    · have hne : ¬ j - k = 0 := by omega
      simp [hj, hjk, hlt, hne]

/-- The grant of a cue fetch begins an attempt (R46, R145). -/
theorem grant_cueFetch {s : State} {n : LaneId} (hw : (s.lane n).wantsCue = true) :
    s.grant (.cueFetch n) = ({ s with port := some (.cueFetch n false) } : State).withLane n (match (s.lane n).fetch with
      | some f => { s.lane n with fetch := some { f with attempts := f.attempts + 1 } }
      | none => { s.lane n with
          fetch := some { kind := .cue, slot := (s.lane n).follow, attempts := 1 }
          reread := if (s.lane n).pause = Pause.notReady then false else (s.lane n).reread
          pause := .open_ }) := by
  unfold State.grant
  dsimp only
  rw [updLane_eq]
  refine congrArg (State.withLane _ n) ?_
  change ({ s.lane n with
    fetch := some ((s.lane n).beginAttempt .cue (s.lane n).follow)
    reread := if (s.lane n).fetch.isNone ∧ (s.lane n).pause = Pause.notReady then false else (s.lane n).reread
    pause := if (s.lane n).fetch.isNone ∧ (s.lane n).pause = Pause.notReady then .open_ else (s.lane n).pause } : Lane) = _
  unfold Lane.beginAttempt
  cases hf : (s.lane n).fetch with
  | some f => simp
  | none =>
    by_cases hp : (s.lane n).pause = Pause.notReady
    · simp [hp]
    · obtain ⟨_, ⟨f, h, _⟩ | ⟨_, h | ⟨h, _⟩⟩⟩ := (wantsCue_iff (s.lane n)).mp hw
      · rw [hf] at h; cases h
      · simp [h]
      · exact absurd h hp

/-- The grant of a tail re-read begins an attempt (R43, R145). -/
theorem grant_tailReread (s : State) (n : LaneId) :
    s.grant (.tailReread n) = ({ s with port := some (.tailReread n false) } : State).withLane n (match (s.lane n).fetch with
      | some f => { s.lane n with fetch := some { f with attempts := f.attempts + 1 } }
      | none => { s.lane n with
          fetch := some { kind := .tail, slot := (s.lane n).watch, attempts := 1 }, reread := false }) := by
  unfold State.grant
  dsimp only
  rw [updLane_eq]
  refine congrArg (State.withLane _ n) ?_
  change ({ s.lane n with
    fetch := some ((s.lane n).beginAttempt .tail (s.lane n).watch)
    reread := if (s.lane n).fetch.isNone then false else (s.lane n).reread } : Lane) = _
  unfold Lane.beginAttempt
  cases hf : (s.lane n).fetch <;> simp

/-- Settles O41: each command's grant is the port's grant of what it chose. -/
theorem grantBeginsTransaction : Obligations.GrantBeginsTransaction := by
  intro s n pins ws
  refine ⟨fun h => ?writeBack, fun h => ⟨s.nudge &&& ~~~(1#9 <<< n.val), ?lane, fun i => clearBit_getLsbD _ _ _ i.isLt⟩,
    fun h => ⟨s.nudge &&& ~~~(1#9 <<< 8), ?device, fun i => clearBit_getLsbD _ _ _ i.isLt⟩, fun h => ?setup,
    fun h => ?cue, fun h => ?tail, fun h => ?item⟩
  case writeBack => exact congrArg Host.Outcome.next (turn_granted h (State.endWriteBack ws))
  case lane => exact congrArg Host.Outcome.next (turn_granted h _)
  case device => exact congrArg Host.Outcome.next (turn_granted h _)
  case setup => exact congrArg Host.Outcome.next (turn_granted h _)
  case cue => exact congrArg Host.Outcome.next ((turn_granted h _).trans (grant_cueFetch (portChoice_grants h).2.2.2))
  case tail => exact congrArg Host.Outcome.next ((turn_granted h _).trans (grant_tailReread s n))
  case item =>
    obtain ⟨i, hi⟩ := Option.isSome_iff_exists.mp (portChoice_grants h).2.2
    obtain ⟨k, hk, he, hmark, hbefore⟩ := nextMarked_some hi
    have hgrant : s.grant .statusItem = { s with
        port := some (.statusItem i (s.itemWords i) 0), marks := s.marks &&& ~~~(1#20 <<< i.val), statusPos := i + 1 } := by
      unfold State.grant
      dsimp only
      rw [hi]
      rfl
    refine ⟨k, s.marks &&& ~~~(1#20 <<< i.val), ?_⟩
    rw [← he]
    refine ⟨hk, hmark, hbefore, fun j => ?_, congrArg Host.Outcome.next ((turn_granted h (State.endStatusItem ws)).trans hgrant)⟩
    rw [clearBit_getLsbD _ _ _ j.isLt]
    simp [Fin.ext_iff]

end Sys2Proof.Machine
end

section
/-! SUPPORT. The ends of cue fetches and tail re-reads (R38, R40, R42, R45, R145, R146): what a fetch leaves, said once
for each of its outcomes. -/

namespace Sys2Proof.Machine

/-- An outcome that ends with a change of the lane which touches neither its queue nor its current cue. -/
theorem quiet_outcomes {s g : State} {n : LaneId} {m : List Host.Cell} {k : Lane} {x : Host.Outcome State Fault Refusal}
    (hx : x = .next (({ g with port := none, mem := m } : State).withLane n k).settle) (hg : s.settled → g.settled)
    (howed : k.owed = (g.lane n).owed) (hcur : k.cur = (g.lane n).cur) (hqueue : k.queue = (g.lane n).queue)
    (hst : k.st = (g.lane n).st) :
    x = .next (({ g with port := none, mem := m } : State).withLane n k).settle ∧
    (s.settled → x = .next (({ g with port := none, mem := m } : State).withLane n k)) := by
  refine ⟨hx, fun hs => ?_⟩
  obtain ⟨a, b, c⟩ := hg hs n
  rw [hx, settle_settled]
  exact withLane_settled_of (hg hs) (fun _ _ => rfl)
    ⟨howed.trans a, (pendsFree_congr hcur howed).trans b, (canGo_congr hcur hqueue hst).trans c⟩

/-- An outcome that ends with a copy appended (R38). -/
theorem copy_outcomes {s g : State} {n : LaneId} {m : List Host.Cell} {c : Copy} {x : Host.Outcome State Fault Refusal}
    (hx : x = .next ((g.endTransaction m).appendCopy n c).settle) (hg : s.settled → g.settled) :
    x = .next (({ g with port := none, mem := m } : State).withLane n ({ g.lane n with fetch := none }.staged c)).settle ∧
    (s.settled → (g.lane n).queuesBehind →
      x = .next (({ g with port := none, mem := m } : State).withLane n ({ g.lane n with fetch := none }.staged c))) := by
  refine ⟨?_, fun hs hb => ?_⟩
  · rw [hx, appendCopy_eq]
    rfl
  · rw [hx, appendCopy_settle (hg hs) c hb]

/-- An outcome that ends with a fault marker appended (R40, R42). -/
theorem marker_outcomes {s g : State} {n : LaneId} {m : List Host.Cell} {code : FaultCode} {slot : Link}
    {x : Host.Outcome State Fault Refusal}
    (hx : x = .next ((g.endTransaction m).appendMarker n code slot).settle) (hg : s.settled → g.settled) :
    let t : State := { g with port := none, mem := m }
    let l : Lane := { g.lane n with fetch := none }
    x = .next (t.withLane n (l.marked code slot)).settle ∧
    (s.settled → l.queuesBehind → x = .next (t.withLane n (l.marked code slot))) ∧
    (s.settled → l.queue = [] → l.cur = none → l.st = .priming ∨ l.st = .running ∨ l.st = .starved →
      x = .next ((t.withLane n (l.marked code slot)).withFault n code slot
        ((l.marked code slot).resumeSlot (some (code, slot))))) := by
  intro t l
  refine ⟨?_, fun hs hb => ?_, fun hs hq hc hst => ?_⟩
  · rw [hx, appendMarker_eq]
    rfl
  · rw [hx, appendMarker_settle (hg hs) code slot hb]
  · rw [hx, appendMarker_fault (hg hs) code slot hq hc hst]

/-- A fetch that was overtaken ends with nothing but the host's writes landed (R146). -/
theorem exec_overtakenCueFetch {n : LaneId} {ws : Between} {s : State} (hp : s.port = some (.cueFetch n true)) :
    exec (.cueFetch n .done ws) s = .next ({ s with port := none, mem := landAll s.mem ws } : State).settle := by
  have hu : s.underWay (.cueFetch n) = true := underWay_iff.mpr ⟨_, hp, by simp [Transaction.serves]⟩
  have hgranted : s.granted (.cueFetch n) = s := if_pos hu
  rw [exec_cueFetch (.inl hu), hgranted]
  unfold State.endCueFetch
  cases hf : (s.lane n).fetch with
  | none => rfl
  | some f =>
    dsimp only
    rw [if_pos hp]
    rfl

/-- A fetch that finds its slot not ARMED ends as the header found gives (R40). -/
theorem exec_unarmedCueFetch {n : LaneId} {ws : Between} {s : State} {f : Fetch} (hp : s.atPort (.cueFetch n))
    (hf : ((s.granted (.cueFetch n)).lane n).fetch = some f)
    (hport : (s.granted (.cueFetch n)).port = some (.cueFetch n false))
    (hhead : recordState ((readSeq [slotWord f.slot] ws s.mem).1.getD 0 0) ≠ .armed) :
    exec (.cueFetch n .done ws) s = .next (((s.granted (.cueFetch n)).endTransaction (landAll s.mem ws)).foundNotArmed n
      f.slot ((readSeq [slotWord f.slot] ws s.mem).1.getD 0 0)).settle := by
  rw [exec_cueFetch hp, endCueFetch_eq hf]
  dsimp only
  rw [if_neg (by rw [hport]; simp), if_neg hhead]

/-- A write that ends the lane's TAKEN state of the slot is still to land (R40). -/
theorem endPending_iff (s : State) (n : LaneId) (slot : Link) : s.endPending n slot = true ↔
    ∃ e ∈ s.wbq ++ (s.lane n).owed, e.owner = some n ∧ ((∃ o, e.kind = .result slot o true) ∨ e.kind = .return_ slot) := by
  have hkind : ∀ k : EntryKind, (match k with
      | .result k _ ends => k == slot && ends
      | .return_ k => k == slot
      | _ => false) = true ↔ (∃ o, k = .result slot o true) ∨ k = .return_ slot := by
    intro k
    cases k <;> simp
  unfold State.endPending
  rw [List.any_eq_true]
  refine exists_congr (fun e => and_congr_right (fun _ => ?_))
  rw [Bool.and_eq_true, beq_iff_eq]
  exact and_congr_right (fun _ => hkind e.kind)

/-- The grant and the end of a fetch leave the writes that are to land. -/
theorem endPending_granted (s : State) (n : LaneId) (m : List Host.Cell) (slot : Link) :
    ((s.granted (.cueFetch n)).endTransaction m).endPending n slot = s.endPending n slot := by
  obtain ⟨_, _, hwbq, _⟩ := granted_frame s (.cueFetch n)
  obtain ⟨_, hlane⟩ := grantFetch_lane s n _ (.inl rfl)
  unfold State.endPending
  rw [endTransaction_lane, hlane, show ((s.granted (.cueFetch n)).endTransaction m).wbq = s.wbq from hwbq]

/-- Settles O42: the outcomes of R40, each by the rule of its kind of outcome. -/
theorem cueFetchOfUnarmedSlot : Obligations.CueFetchOfUnarmedSlot := by
  refine ⟨?_, ?_⟩
  · intro n ws s hp t
    refine ⟨exec_overtakenCueFetch hp, fun hs => ?_⟩
    have hsettled : t.settled := settled_lanes hs rfl
    rw [exec_overtakenCueFetch hp, settle_settled hsettled]
  intro n ws s f hp hf g head t l ends quietly appends hport
  have hg : s.settled → g.settled := granted_settled (.inl rfl)
  have hpause : ∀ p slot, (g.endTransaction (landAll s.mem ws)).pauseAt n p slot =
      t.withLane n { l with pause := p, watch := slot } := fun p slot => updLane_eq _ _ _
  have quiet : ∀ k : Lane, k.owed = l.owed → k.cur = l.cur → k.queue = l.queue → k.st = l.st →
      recordState head ≠ .armed →
      (g.endTransaction (landAll s.mem ws)).foundNotArmed n f.slot head = t.withLane n k → quietly k :=
    fun k howed hcur hqueue hst hhead h => quiet_outcomes (by
      rw [exec_unarmedCueFetch hp hf hport hhead]
      exact congrArg (fun u : State => Host.Outcome.next u.settle) h) hg howed hcur hqueue hst
  have mark : ∀ code, recordState head ≠ .armed →
      (g.endTransaction (landAll s.mem ws)).foundNotArmed n f.slot head =
        (g.endTransaction (landAll s.mem ws)).appendMarker n code f.slot → appends code :=
    fun code hhead h => marker_outcomes (by
      rw [exec_unarmedCueFetch hp hf hport hhead]
      exact congrArg (fun u : State => Host.Outcome.next u.settle) h) hg
  have hlatest : ((g.endTransaction (landAll s.mem ws)).lane n).latestCopy f.slot = l.latestCopy f.slot := rfl
  refine ⟨fun hhead => ?host, fun hhead htaker c hc => ⟨fun hkeep => ?replay, fun hkeep => ?own⟩,
    fun hhead htaker hc => ⟨fun hpend => ?again, fun hpend => ?lost⟩, fun hhead htaker => ?inUse, fun hhead => ?bad⟩
  case host =>
    refine quiet _ rfl rfl rfl rfl (by rcases hhead with h | h <;> rw [h] <;> decide) ?_
    unfold State.foundNotArmed
    rw [← hpause]
    rcases hhead with h | h <;> rw [h]
  case replay =>
    refine copy_outcomes ?_ hg
    rw [exec_unarmedCueFetch hp hf hport (by rw [hhead]; decide)]
    refine congrArg (fun u : State => Host.Outcome.next u.settle) ?_
    show (g.endTransaction (landAll s.mem ws)).foundNotArmed n f.slot head = _
    unfold State.foundNotArmed
    rw [hhead]
    dsimp only
    rw [if_pos htaker, hlatest, hc]
    dsimp only
    rw [if_pos hkeep]
  case own =>
    refine quiet _ rfl rfl rfl rfl (by rw [hhead]; decide) ?_
    unfold State.foundNotArmed
    rw [← hpause, hhead]
    dsimp only
    rw [if_pos htaker, hlatest, hc]
    dsimp only
    rw [if_neg (by rw [hkeep]; decide)]
  case again =>
    refine quiet _ rfl rfl rfl rfl (by rw [hhead]; decide) ?_
    unfold State.foundNotArmed
    rw [hhead]
    dsimp only
    rw [if_pos htaker, hlatest, hc]
    dsimp only
    rw [endPending_granted, if_pos ((endPending_iff s n f.slot).mpr hpend), updLane_eq]
    rfl
  case lost =>
    refine mark _ (by rw [hhead]; decide) ?_
    unfold State.foundNotArmed
    rw [hhead]
    dsimp only
    rw [if_pos htaker, hlatest, hc]
    dsimp only
    rw [endPending_granted, if_neg]
    rintro h
    obtain ⟨e, he, ho, ⟨o, hr⟩ | hr⟩ := (endPending_iff s n f.slot).mp h
    · exact (hpend e he ho).1 o hr
    · exact (hpend e he ho).2 hr
  case inUse =>
    refine mark _ (by rw [hhead]; decide) ?_
    unfold State.foundNotArmed
    rw [hhead]
    dsimp only
    rw [if_neg htaker]
  case bad =>
    refine mark _ (by rcases hhead with h | h <;> rw [h] <;> decide) ?_
    unfold State.foundNotArmed
    rcases hhead with h | h <;> rw [h]

end Sys2Proof.Machine
end

section
/-! SUPPORT. The eight conditions of a valid record (R18): each check of the model in the words of the spec, and the lowest
that fails. -/

namespace Sys2Proof.Machine

/-- The checks of R18 by number, true where the condition fails. -/
def State.voidChecks (s : State) (n : LaneId) (c : Copy) : List (Nat × Bool) :=
  [ (1, c.trigger.isNone || (headEdgeLine c.head).any (fun line => s.inputs[line].guard)),
    (2, decide (992 ≤ c.next.toNat ∧ c.next.toNat ≤ 1022)),
    (3, decide (c.mask &&& ~~~(s.ownedBy n) ≠ 0)),
    (4, decide ((if c.action = .mark then c.mask ≠ 0 else c.mask = 0) ∨ (c.action = .pulse ∧ c.pulseWidth = 0) ∨
      (c.trigger = some .now ∧ 0 < c.repeats))),
    (5, decide ((c.beatAction ≠ .none_ ∧ s.beats[c.beatNumber].owner ≠ some n) ∨
      ((c.beatAction = .start ∨ c.beatAction = .retune) ∧ c.beatPeriod < 2))),
    (6, !c.sparesZero),
    (7, c.isFinal && c.isKeep),
    (8, c.sendGroup.isSome && c.sendCode == 63) ]

/-- The void reason is the lowest check that fails (R18). -/
theorem voidReason_eq (s : State) (n : LaneId) (c : Copy) :
    s.voidReason n c = ((s.voidChecks n c).find? (fun p => p.2)).map Prod.fst := by
  unfold State.voidReason State.voidChecks
  dsimp only

/-- The first true check of a numbered list. -/
theorem firstTrue_some {checks : List (Nat × Bool)} (hsorted : checks.Pairwise (fun a b => a.1 < b.1)) {k : Nat}
    (hk : (k, true) ∈ checks) (hlow : ∀ j, j < k → (j, true) ∉ checks) :
    (checks.find? (fun p => p.2)).map Prod.fst = some k := by
  induction checks with
  | nil => cases hk
  | cons x rest ih =>
    obtain ⟨hx, hrest⟩ := List.pairwise_cons.mp hsorted
    obtain ⟨j, b⟩ := x
    rcases List.mem_cons.mp hk with he | hin
    · cases he
      rfl
    · cases b with
      | true => exact absurd (List.mem_cons_self) (hlow j (hx _ hin))
      | false => exact ih hrest hin (fun i hi hmem => hlow i hi (List.mem_cons_of_mem _ hmem))

/-- No check is true. -/
theorem firstTrue_none {checks : List (Nat × Bool)} (h : ∀ k, (k, true) ∉ checks) :
    (checks.find? (fun p => p.2)).map Prod.fst = none := by
  rw [Option.map_eq_none_iff, List.find?_eq_none]
  rintro ⟨k, b⟩ hmem hb
  dsimp only at hb
  rw [hb] at hmem
  exact h k hmem

/-! The conditions. -/

/-- The number of an action (11.2). -/
theorem action_eq (c : Copy) : c.action =
    match (c.head.extractLsb' 6 2).toNat with | 0 => .set | 1 => .toggle | 2 => .pulse | _ => .mark := rfl

/-- The action is MARK. -/
theorem action_mark (c : Copy) : c.action = .mark ↔ (c.head.extractLsb' 6 2).toNat = 3 := by
  rw [action_eq]
  have := (c.head.extractLsb' 6 2).isLt
  generalize (c.head.extractLsb' 6 2).toNat = k at *
  match k, this with
  | 0, _ => decide
  | 1, _ => decide
  | 2, _ => decide
  | 3, _ => decide

/-- The action is PULSE. -/
theorem action_pulse (c : Copy) : c.action = .pulse ↔ (c.head.extractLsb' 6 2).toNat = 2 := by
  rw [action_eq]
  have := (c.head.extractLsb' 6 2).isLt
  generalize (c.head.extractLsb' 6 2).toNat = k at *
  match k, this with
  | 0, _ => decide
  | 1, _ => decide
  | 2, _ => decide
  | 3, _ => decide

/-- The beat action by its number (11.2). -/
theorem beatAction_iff (c : Copy) : (c.beatAction = .none_ ↔ (c.w3.extractLsb' 24 2).toNat = 0) ∧
    ((c.beatAction = .start ∨ c.beatAction = .retune) ↔
      (c.w3.extractLsb' 24 2).toNat = 1 ∨ (c.w3.extractLsb' 24 2).toNat = 3) := by
  have h : c.beatAction = match (c.w3.extractLsb' 24 2).toNat with | 0 => .none_ | 1 => .start | 2 => .stop | _ => .retune := rfl
  rw [h]
  have := (c.w3.extractLsb' 24 2).isLt
  generalize (c.w3.extractLsb' 24 2).toNat = k at *
  match k, this with
  | 0, _ => decide
  | 1, _ => decide
  | 2, _ => decide
  | 3, _ => decide

/-- The trigger of a source kind, an index and a link code (R4). -/
def triggerOf (kind index : Nat) (code : BitVec 6) : Option Trigger :=
  match kind with
  | 0 => if index = 0 then some .now else none
  | 1 => if index < 8 then some (.source (Fin.ofNat 32 index)) else none
  | 2 => if index < 8 then some (.source (Fin.ofNat 32 (8 + index))) else none
  | 3 => if index < 16 then some (.source (Fin.ofNat 32 (16 + index))) else none
  | 4 => if index < 63 then some (.link code) else none
  | _ => none

/-- A copy's trigger by the fields of its header (R4). -/
theorem trigger_eq (c : Copy) : c.trigger =
    triggerOf (c.head.extractLsb' 8 3).toNat (c.head.extractLsb' 11 6).toNat (c.head.extractLsb' 11 6) := rfl

/-- The trigger is missing or out of range (R4). -/
theorem triggerOf_none {kind index : Nat} (code : BitVec 6) (hindex : index < 64) :
    (triggerOf kind index code).isNone = true ↔ 5 ≤ kind ∨ (kind = 0 ∧ index ≠ 0) ∨ (kind = 1 ∧ 8 ≤ index) ∨
      (kind = 2 ∧ 8 ≤ index) ∨ (kind = 3 ∧ 16 ≤ index) ∨ (kind = 4 ∧ index = 63) := by
  unfold triggerOf
  match kind with
  | 0 => by_cases h : index = 0 <;> simp [h]
  | 1 => by_cases h : 8 ≤ index <;> simp [h, ← not_le]
  | 2 => by_cases h : 8 ≤ index <;> simp [h, ← not_le]
  | 3 => by_cases h : 16 ≤ index <;> simp [h, ← not_le]
  | 4 =>
    have hlast : index < 63 ↔ index ≠ 63 := by omega
    by_cases h : index = 63 <;> simp [h, hlast]
  | _ + 5 => simp

/-- The trigger is NOW (R4). -/
theorem trigger_now (c : Copy) : c.trigger = some .now ↔
    (c.head.extractLsb' 8 3).toNat = 0 ∧ (c.head.extractLsb' 11 6).toNat = 0 := by
  rw [trigger_eq]
  unfold triggerOf
  split <;> simp_all

/-- The header names an edge of a guard line (R18). -/
theorem guardEdge_iff (s : State) (c : Copy) : (headEdgeLine c.head).any (fun line => s.inputs[line].guard) = true ↔
    (c.head.extractLsb' 8 3).toNat = 2 ∧
      ∃ line : Fin 8, line.val = (c.head.extractLsb' 11 6).toNat ∧ s.inputs[line].guard = true := by
  unfold headEdgeLine field
  dsimp only
  split
  · rename_i h
    obtain ⟨hkind, hindex⟩ := h
    constructor
    · intro hg
      exact ⟨hkind, Fin.ofNat 8 _, Nat.mod_eq_of_lt hindex, hg⟩
    · rintro ⟨_, line, hl, hg⟩
      have he : Fin.ofNat 8 (c.head.extractLsb' 11 6).toNat = line := Fin.ext ((Nat.mod_eq_of_lt hindex).trans hl.symm)
      rw [he]
      exact hg
  · rename_i h
    refine iff_of_false (by simp) ?_
    rintro ⟨hkind, line, hl, _⟩
    exact h ⟨hkind, by omega⟩

/-- The mask holds a pin the lane does not own (R18, R117). -/
theorem maskOwned_iff (s : State) (n : LaneId) (m : Pins) : m &&& ~~~(s.ownedBy n) ≠ 0 ↔
    ∃ p : Fin 24, m.getLsbD p.val = true ∧ s.owner[p] ≠ some n := by
  constructor
  · intro h
    by_contra hno
    push Not at hno
    refine h (BitVec.eq_of_getLsbD_eq (fun i hi => ?_))
    rw [BitVec.getLsbD_and, BitVec.getLsbD_not, ownedBy_bits s n ⟨i, hi⟩]
    cases hm : m.getLsbD i with
    | false => simp
    | true => simp [hno ⟨i, hi⟩ hm]
  · rintro ⟨p, hm, ho⟩ h
    have hp := congrArg (fun x : Pins => x.getLsbD p.val) h
    rw [BitVec.getLsbD_and, BitVec.getLsbD_not, hm, ownedBy_bits s n p] at hp
    exact ho (by simpa [p.isLt] using hp)

/-- The failing conditions of R18 by number. -/
def voidFails (s : State) (n : LaneId) (c : Copy) (k : Nat) : Prop :=
  let kind := (c.head.extractLsb' 8 3).toNat
  let index := (c.head.extractLsb' 11 6).toNat
  let next := (c.w1.extractLsb' 0 10).toNat
  let repeats := (c.w1.extractLsb' 10 12).toNat
  let action := (c.head.extractLsb' 6 2).toNat
  let mask := c.w3.extractLsb' 0 24
  let beatAction := (c.w3.extractLsb' 24 2).toNat
  let beat : Fin 8 := (c.w3.extractLsb' 26 3).toFin
  (k = 1 ∧ (5 ≤ kind ∨ (kind = 0 ∧ index ≠ 0) ∨ (kind = 1 ∧ 8 ≤ index) ∨ (kind = 2 ∧ 8 ≤ index) ∨
    (kind = 3 ∧ 16 ≤ index) ∨ (kind = 4 ∧ index = 63) ∨
    (kind = 2 ∧ ∃ line : Fin 8, line.val = index ∧ s.inputs[line].guard = true))) ∨
  (k = 2 ∧ 992 ≤ next ∧ next ≤ 1022) ∨
  (k = 3 ∧ ∃ p : Fin 24, mask.getLsbD p.val = true ∧ s.owner[p] ≠ some n) ∨
  (k = 4 ∧ ((action = 3 ∧ mask ≠ 0#24) ∨ (action ≠ 3 ∧ mask = 0#24) ∨
    (action = 2 ∧ (c.w1.extractLsb' 22 10).toNat = 0) ∨ (kind = 0 ∧ 0 < repeats))) ∨
  (k = 5 ∧ ((beatAction ≠ 0 ∧ s.beats[beat].owner ≠ some n) ∨
    ((beatAction = 1 ∨ beatAction = 3) ∧ (c.w5.extractLsb' 0 24).toNat < 2))) ∨
  (k = 6 ∧ (c.head.extractLsb' 23 9 ≠ 0#9 ∨ c.w2.extractLsb' 29 3 ≠ 0#3 ∨ c.w3.extractLsb' 29 3 ≠ 0#3 ∨
    c.w4.extractLsb' 27 5 ≠ 0#5 ∨ c.w5.extractLsb' 30 2 ≠ 0#2)) ∨
  (k = 7 ∧ c.head.getLsbD 17 = true ∧ c.head.getLsbD 18 = true) ∨
  (k = 8 ∧ c.w4.getLsbD 24 = true ∧ c.w5.extractLsb' 24 6 = 63#6)

/-- Each check is true where its condition fails, the fourth where the first does not (R18). -/
theorem voidChecks_iff (s : State) (n : LaneId) (c : Copy) (k : Nat) (h4 : k = 4 → ¬ voidFails s n c 1) :
    (k, true) ∈ s.voidChecks n c ↔ voidFails s n c k := by
  unfold voidFails State.voidChecks
  simp only [List.mem_cons, List.not_mem_nil, or_false, Prod.mk.injEq]
  refine or_congr (and_congr_right fun _ => ?_) (or_congr (and_congr_right fun _ => ?_)
    (or_congr (and_congr_right fun _ => ?_) (or_congr (and_congr_right fun hk => ?_)
    (or_congr (and_congr_right fun _ => ?_) (or_congr (and_congr_right fun _ => ?_)
    (or_congr (and_congr_right fun _ => ?_) (and_congr_right fun _ => ?_)))))))
  · rw [eq_comm, Bool.or_eq_true, trigger_eq, triggerOf_none _ (c.head.extractLsb' 11 6).isLt, guardEdge_iff]
    simp only [or_assoc]
  · rw [eq_comm, decide_eq_true_iff]
    rfl
  · rw [eq_comm, decide_eq_true_iff]
    exact maskOwned_iff s n _
  · have hkind : (c.trigger = some .now ∧ 0 < c.repeats) ↔
        (c.head.extractLsb' 8 3).toNat = 0 ∧ 0 < (c.w1.extractLsb' 10 12).toNat := by
      rw [trigger_now]
      constructor
      · rintro ⟨⟨hkind, _⟩, hr⟩
        exact ⟨hkind, hr⟩
      · rintro ⟨hkind, hr⟩
        refine ⟨⟨hkind, ?_⟩, hr⟩
        by_contra hindex
        exact h4 hk (Or.inl ⟨rfl, Or.inr (Or.inl ⟨hkind, hindex⟩)⟩)
    have hwidth : c.pulseWidth = 0 ↔ (c.w1.extractLsb' 22 10).toNat = 0 := (BitVec.toNat_inj (y := 0#10)).symm
    rw [eq_comm, decide_eq_true_iff, hkind, action_pulse, hwidth, ite_prop_iff_or, action_mark, or_assoc]
    rfl
  · rw [eq_comm, decide_eq_true_iff, (beatAction_iff c).2, ne_eq, (beatAction_iff c).1]
    rfl
  · unfold Copy.sparesZero field
    simp only [Bool.not_and, Bool.or_eq_true, or_assoc, eq_comm (a := true), Bool.not_eq_true', beq_eq_false_iff_ne]
    rfl
  · rw [eq_comm, Bool.and_eq_true]
    rfl
  · have hsend : c.sendGroup.isSome = c.w4.getLsbD 24 := by
      unfold Copy.sendGroup
      cases c.w4.getLsbD 24 <;> rfl
    rw [eq_comm, Bool.and_eq_true, hsend, beq_iff_eq]
    rfl

/-- The lowest failing condition is the void reason (R18). -/
theorem voidReason_lowest (s : State) (n : LaneId) (c : Copy) :
    (∀ k, (∀ j, j < k → ¬ voidFails s n c j) → voidFails s n c k → s.voidReason n c = some k) ∧
    ((∀ k, ¬ voidFails s n c k) → s.voidReason n c = none) := by
  have hsorted : (s.voidChecks n c).Pairwise (fun a b => a.1 < b.1) := by
    unfold State.voidChecks
    simp [List.pairwise_cons]
  rw [voidReason_eq]
  refine ⟨fun k hlow hk => firstTrue_some hsorted ?_ (fun j hj hmem => ?_), fun hno => firstTrue_none (fun k hmem => ?_)⟩
  · exact (voidChecks_iff s n c k (fun h => hlow 1 (by omega))).mpr hk
  · exact hlow j hj ((voidChecks_iff s n c j (fun h => hlow 1 (by omega))).mp hmem)
  · exact hno k ((voidChecks_iff s n c k (fun _ => hno 1)).mp hmem)

/-! The fetch of an ARMED slot. -/

/-- The seven reads of a cue fetch attempt (R40, R145). -/
def State.fetchReads (s : State) (slot : Link) (ws : Between) : List Word × Between × List Host.Cell :=
  readSeq [slotWord slot, slotWord slot + 1, slotWord slot + 2, slotWord slot + 3, slotWord slot + 4, slotWord slot + 5,
    slotWord slot] ws s.mem

/-- The copy an attempt reads, with the pass count of word 7 after the last access (R13, R40). -/
def State.fetchedCopy (s : State) (slot : Link) (ws : Between) : Copy := {
  slot := slot
  head := (s.fetchReads slot ws).1.getD 0 0
  w1 := (s.fetchReads slot ws).1.getD 1 0
  w2 := (s.fetchReads slot ws).1.getD 2 0
  w3 := (s.fetchReads slot ws).1.getD 3 0
  w4 := (s.fetchReads slot ws).1.getD 4 0
  w5 := (s.fetchReads slot ws).1.getD 5 0
  pass := passCount (readWord (s.fetchReads slot ws).2.2 (slotWord slot + 7))
  replay := false }

/-- A fetch that finds its slot ARMED ends as the two header reads give (R40, R145). -/
theorem exec_armedCueFetch {n : LaneId} {ws : Between} {s : State} {f : Fetch} (hp : s.atPort (.cueFetch n))
    (hf : ((s.granted (.cueFetch n)).lane n).fetch = some f)
    (hport : (s.granted (.cueFetch n)).port = some (.cueFetch n false))
    (harmed : recordState (s.fetchedCopy f.slot ws).head = .armed) :
    exec (.cueFetch n .done ws) s = .next (if (s.fetchReads f.slot ws).1.getD 6 0 = (s.fetchedCopy f.slot ws).head then
        ((s.granted (.cueFetch n)).endTransaction (landAll s.mem ws)).foundArmed n (s.fetchedCopy f.slot ws)
      else ((s.granted (.cueFetch n)).endTransaction (landAll s.mem ws)).tornAttempt n f).settle := by
  have hhead : (readSeq [slotWord f.slot] ws s.mem).1.getD 0 0 = (s.fetchedCopy f.slot ws).head := rfl
  rw [exec_cueFetch hp, endCueFetch_eq hf]
  dsimp only
  rw [if_neg (by rw [hport]; simp), hhead, if_pos harmed]
  rfl

/-- The conditions of R18 depend on the pins, the beats and the lines alone. -/
theorem voidReason_granted (s : State) (n : LaneId) (m : List Host.Cell) (c : Copy) :
    ((s.granted (.cueFetch n)).endTransaction m).voidReason n c = s.voidReason n c := by
  obtain ⟨_, _, _, _, _, hbeats, hinputs, howner, _⟩ := granted_frame s (.cueFetch n)
  unfold State.voidReason State.ownedBy State.endTransaction
  dsimp only
  rw [hbeats, hinputs, howner]

/-- The state in which a fetch's grant has been made and an entry queued at its end. -/
def State.fetchQueued (s : State) (n : LaneId) (e : WriteBack) : State :=
  { s.granted (.cueFetch n) with wbq := s.wbq ++ [e] }

/-- A queued entry leaves a settled state settled. -/
theorem fetchQueued_settled {s : State} {n : LaneId} {e : WriteBack} (h : s.settled) : (s.fetchQueued n e).settled :=
  settled_lanes (granted_settled (.inl rfl) h) rfl

/-- A lane that owes nothing produces into its reserved place (R39, R144). -/
theorem fetchQueued_eq {s : State} {n : LaneId} {e : WriteBack} {m : List Host.Cell}
    (ho : ((s.granted (.cueFetch n)).lane n).owed = []) :
    ((s.granted (.cueFetch n)).endTransaction m).produceReserved n e = (s.fetchQueued n e).endTransaction m := by
  obtain ⟨_, _, hwbq, _⟩ := granted_frame s (.cueFetch n)
  rw [produceReserved_eq (t := (s.granted (.cueFetch n)).endTransaction m) ho]
  unfold State.enqueue State.endTransaction State.fetchQueued
  dsimp only
  rw [hwbq]

/-- A valid record is staged and its TAKEN write queued (R40). -/
theorem foundArmed_staged {s : State} {n : LaneId} {m : List Host.Cell} {c : Copy}
    (ho : ((s.granted (.cueFetch n)).lane n).owed = []) (hv : s.voidReason n c = none) :
    ((s.granted (.cueFetch n)).endTransaction m).foundArmed n c =
      ((s.fetchQueued n (takenEntry n c)).endTransaction m).appendCopy n c := by
  unfold State.foundArmed
  rw [voidReason_granted, hv]
  dsimp only
  rw [fetchQueued_eq ho]

/-- A record with a void reason is refused and a VOID-CUE marker appended (R19). -/
theorem foundArmed_refused {s : State} {n : LaneId} {m : List Host.Cell} {c : Copy} {reason : Nat}
    (ho : ((s.granted (.cueFetch n)).lane n).owed = []) (hv : s.voidReason n c = some reason) :
    ((s.granted (.cueFetch n)).endTransaction m).foundArmed n c =
      ((s.fetchQueued n (refusalEntry n c s.timebase (BitVec.ofNat 32 reason))).endTransaction m).appendMarker n .voidCue
        c.slot := by
  obtain ⟨_, _, _, _, _, _, _, _, _, _, htime, _⟩ := granted_frame s (.cueFetch n)
  unfold State.foundArmed
  rw [voidReason_granted, hv]
  dsimp only
  rw [fetchQueued_eq ho, show ((s.granted (.cueFetch n)).endTransaction m).timebase = s.timebase from htime]
  rfl

/-- Settles O43: the two header reads and the void reason choose among the outcomes of R40. -/
theorem cueFetchOfArmedSlot : Obligations.CueFetchOfArmedSlot := by
  refine ⟨fun n s c => voidReason_lowest s n c, ?_⟩
  intro n ws s f hp hf g b r c t l ends appends hport harmed
  have hexec := exec_armedCueFetch (ws := ws) hp hf hport harmed
  have hg : s.settled → g.settled := granted_settled (.inl rfl)
  have hequal : r.1.getD 6 0 = c.head → exec (.cueFetch n .done ws) s =
      .next ((g.endTransaction (landAll s.mem ws)).foundArmed n c).settle := fun h =>
    hexec.trans (congrArg (fun u : State => Host.Outcome.next u.settle) (if_pos h))
  have hdiffer : r.1.getD 6 0 ≠ c.head → exec (.cueFetch n .done ws) s =
      .next ((g.endTransaction (landAll s.mem ws)).tornAttempt n f).settle := fun h =>
    hexec.trans (congrArg (fun u : State => Host.Outcome.next u.settle) (if_neg h))
  have howes : s.settled → l.owed = [] := fun hs => (hg hs n).1
  refine ⟨fun he hv => ?staged, fun he reason hv => ?refused, fun he ha => ?retry, fun he ha => ?torn⟩
  case staged =>
    have outcomes : ∀ ho : l.owed = [], _ := fun ho => copy_outcomes (s := s) (g := s.fetchQueued n (takenEntry n c))
      ((hequal he).trans (congrArg (fun u : State => Host.Outcome.next u.settle) (foundArmed_staged ho hv)))
      fetchQueued_settled
    exact ⟨fun ho => (outcomes ho).1, fun hs hb => (outcomes (howes hs)).2 hs hb⟩
  case refused =>
    intro u
    have outcomes : ∀ ho : l.owed = [], _ := fun ho => marker_outcomes (s := s)
      (g := s.fetchQueued n (refusalEntry n c s.timebase (BitVec.ofNat 32 reason)))
      ((hequal he).trans (congrArg (fun u : State => Host.Outcome.next u.settle) (foundArmed_refused ho hv)))
      fetchQueued_settled
    exact ⟨fun ho => (outcomes ho).1, fun hs hb => (outcomes (howes hs)).2.1 hs hb,
      fun hs hq hc hst => (outcomes (howes hs)).2.2 hs hq hc hst⟩
  case retry =>
    have hsame : (g.endTransaction (landAll s.mem ws)).tornAttempt n f = t := if_neg (by simpa [Config.maxAttempts] using ha)
    have hexec' : exec (.cueFetch n .done ws) s = .next t.settle := by rw [hdiffer he, hsame]
    refine ⟨hexec', fun hs => ?_⟩
    have hsettled : t.settled := settled_lanes (hg hs) rfl
    rw [hexec', settle_settled hsettled]
  case torn =>
    have hmark : (g.endTransaction (landAll s.mem ws)).tornAttempt n f =
        (g.endTransaction (landAll s.mem ws)).appendMarker n .torn f.slot := if_pos ha
    exact marker_outcomes ((hdiffer he).trans (congrArg (fun u : State => Host.Outcome.next u.settle) hmark)) hg

end Sys2Proof.Machine
end

section
/-! SUPPORT. What a lane does on its own (R53, R54, R56 to R58, R64, R83, R131), and a first copy at the end of its fetch. -/

namespace Sys2Proof.Machine

/-- The firing state of a cue that begins (R54). -/
def begunFiring : Firing :=
  { fires := 0, waiting := false, limit := .none_, pulse := none, late := false, sendLost := false, ended := none }

/-- A cue that finds nothing to take waits (R56, R64). -/
theorem laneGo_joins {s : State} {n : LaneId} {f : Firing} {c : Copy} {q : List Entry} (hc : (s.lane n).cur = some f)
    (hq : (s.lane n).queue = .copy c :: q) (hf : f.fires < c.required) (hn : s.nothingToTake (s.lane n) c) :
    s.laneGo n = s.withLane n { s.lane n with cur := some (f.joining c) } := by
  rw [laneGo_wait hc hq hf, beginWait_joins hn rfl rfl ⟨rfl, rfl⟩]
  unfold State.joinWait State.updFiring
  rw [updLane_eq, hc]
  rfl

/-- In a state settled but for one lane that can go on, that lane goes on. -/
theorem follow_lane {s u : State} {n : LaneId} {k : Lane} (hs : s.settled) (hu : ∀ m, m ≠ n → u.lane m = s.lane m)
    (ho : k.owed = []) (hp : k.pendsFree = false) (hg : k.canGo = true) :
    (u.withLane n k).follow = some ((u.withLane n k).laneGo n) := by
  have hothers : ∀ m, m ≠ n → (u.withLane n k).lane m = s.lane m := fun m hm => by
    rw [withLane_lane_ne _ _ hm, hu m hm]
  refine follow_one (fun m => ?_) (fun m => ?_)
  · by_cases hm : m = n
    · subst hm
      rw [withLane_lane]
      exact ⟨ho, hp⟩
    · rw [hothers m hm]
      exact ⟨(hs m).1, (hs m).2.1⟩
  · by_cases hm : m = n
    · subst hm
      rw [withLane_lane]
      exact iff_of_true hg rfl
    · rw [hothers m hm, (hs m).2.2]
      exact iff_of_false (by decide) hm

/-- An event whose first two small actions are known. -/
theorem settle_after_two {s t u : State} (h1 : s.follow = some t) (h2 : t.follow = some u) :
    s.settle = (fun v : State => v.follow.getD v)^[8190] u := by
  have hstep : ∀ {v w : State}, v.follow = some w → v.follow.getD v = w := fun h => by rw [h]; rfl
  unfold State.settle
  rw [settleUpTo_eq_iterate, show settleBound = 8190 + 1 + 1 from rfl, Function.iterate_succ_apply,
    Function.iterate_succ_apply, hstep h1, hstep h2]

/-- The part of R41, R53 and R54 that is about every lane: a head copy begins, a cue with fires remaining waits or fires. -/
theorem laneGo_spec (s : State) (n : LaneId) (c : Copy) (q : List Entry) (hq : (s.lane n).queue = .copy c :: q) :
    ((s.lane n).cur = none → s.laneGo n = s.withLane n { s.lane n with
      st := .running, heldBegun := true, cur := some begunFiring }) ∧
    (∀ f, (s.lane n).cur = some f → f.fires < c.required →
      (s.nothingToTake (s.lane n) c → s.laneGo n = s.withLane n { s.lane n with cur := some (f.joining c) }) ∧
      (c.trigger = some .now → s.laneGo n = s.withFire n none) ∧
      (∀ i, c.trigger = some (.source i) → c.isFresh = false →
        ((s.source i).claim = true → 0 < (s.source i).count →
          s.laneGo n = (s.withSource i { s.source i with count := (s.source i).count - 1 }).withFire n none) ∧
        (∀ t, (s.source i).claim = false → (s.source i).last = some t → (t - (s.lane n).gapStart).toNat < 2 ^ 31 →
          (s.lane n).gapEvent ≠ some (i, t) →
          (c.lateFault = false → s.laneGo n =
            (s.withLane n { s.lane n with cur := some { f with late := true } }).withFire n (some (i, t))) ∧
          (c.lateFault = true → s.laneGo n = s.withFault n .late c.slot ((s.lane n).resumeSlot none)))) ∧
      (∀ code before e after, c.trigger = some (.link code) → c.isFresh = false →
        s.link.rxq = before ++ e :: after → e.code = code → (∀ x ∈ before, x.code ≠ code) →
        s.laneGo n = (s.withLink { s.link with rxq := before ++ after }).withFire n none)) := by
  refine ⟨fun hc => laneGo_begin hc hq, fun f hc hf => ?_⟩
  rw [laneGo_wait hc hq hf]
  refine ⟨fun hn => ?_, beginWait_now, fun i htr hfresh => ⟨beginWait_claim htr hfresh, fun t hm hl ht hg => ?_⟩,
    fun code before e after htr hfresh => beginWait_link htr hfresh⟩
  · rw [← laneGo_wait hc hq hf]
    exact laneGo_joins hc hq hf hn
  · rw [beginWait_late hc hq htr hfresh hm hl ht hg]
    exact ⟨fun h => if_neg (by rw [h]; decide), fun h => if_pos h⟩

/-- A copy staged for a lane with an empty queue begins in the same event (R41). -/
theorem firstCopy_settle {s u : State} {n : LaneId} {c : Copy} {l : Lane} (hs : s.settled)
    (hu : ∀ m, m ≠ n → u.lane m = s.lane m) (hqu : (u.lane n).queue = []) (hq : l.queue = []) (hc : l.cur = none)
    (ho : l.owed = []) (hst : l.st = .priming ∨ l.st = .running ∨ l.st = .starved) :
    let begun : Lane := { l.staged c with st := .running, heldBegun := true, cur := some begunFiring }
    (u.withLane n (l.staged c)).settle = (fun v : State => v.follow.getD v)^[8190] ((u.withLane n begun).laneGo n) ∧
    (u.nothingToTake l c → (u.withLane n (l.staged c)).settle =
      u.withLane n { begun with cur := some (begunFiring.joining c) }) := by
  intro begun
  have hqueue : (l.staged c).queue = [.copy c] := by
    unfold Lane.staged
    dsimp only
    rw [hq]
    rfl
  have hbegin : (u.withLane n (l.staged c)).laneGo n = u.withLane n begun := by
    rw [laneGo_begin (s := u.withLane n (l.staged c)) (by rw [withLane_lane]; exact hc)
      (by rw [withLane_lane]; exact hqueue), withLane_lane]
    refine withLane_twice u n (l.staged c) begun (iff_of_false (progressWords_staged hqu ⟨_, hqueue⟩) (fun h => ?_))
    exact progressWords_staged hqu ⟨_, hqueue⟩ h.1
  have hfirst : (u.withLane n (l.staged c)).follow = some (u.withLane n begun) := by
    rw [← hbegin]
    refine follow_lane hs hu ho ?_ ((canGo_iff _).mpr (.inl ⟨hc, by rw [hqueue]; simp, hst⟩))
    show ((l.staged c).owed.isEmpty && _) = false
    unfold Lane.staged
    dsimp only
    rw [hc]
    exact Bool.and_false _
  have hsecond : (u.withLane n begun).follow = some ((u.withLane n begun).laneGo n) := by
    refine follow_lane hs hu ho ?_ ((canGo_iff _).mpr (.inr ⟨begunFiring, c, [], rfl, hqueue, rfl, rfl, rfl, .inr (.inl rfl)⟩))
    exact Bool.and_false _
  refine ⟨settle_after_two hfirst hsecond, fun hn => ?_⟩
  have hjoin : (u.withLane n begun).laneGo n = u.withLane n { begun with cur := some (begunFiring.joining c) } := by
    rw [laneGo_joins (s := u.withLane n begun) (f := begunFiring) (q := []) (by rw [withLane_lane])
      (by rw [withLane_lane]; exact hqueue) (Nat.succ_pos _) (by rw [withLane_lane]; exact hn), withLane_lane]
    exact withLane_withLane _ _ _ _ (.inr (progressWords_congr rfl rfl rfl rfl rfl rfl rfl rfl rfl rfl))
  rw [hjoin] at hsecond
  refine settle_two hfirst hsecond (settled_quiet (withLane_settled_of hs hu ⟨ho, Bool.and_false _, ?_⟩))
  unfold Lane.canGo
  dsimp only
  rw [hqueue]
  rfl

/-- Settles O44: the actions of a lane, and the first two of the event that stages a first copy. -/
theorem firstCopyBegins : Obligations.FirstCopyBegins := by
  refine ⟨fun s n c q hq => laneGo_spec s n c q hq, ?_⟩
  intro n ws s f hp hs hf g b r c l taken begun hport harmed hequal hv hqueue hcur hst
  obtain ⟨hothers, hlane⟩ := grantFetch_lane s n _ (.inl rfl)
  have hg : g.settled := granted_settled (.inl rfl) hs
  have hempty : (g.lane n).queue = [] := by rw [show g.lane n = _ from hlane]; exact hqueue
  have howes : l.owed = [] := (hg n).1
  have hexec : exec (.cueFetch n .done ws) s = .next (taken.withLane n (l.staged c)).settle := by
    refine (exec_armedCueFetch (ws := ws) hp hf hport harmed).trans (congrArg (fun u : State => Host.Outcome.next u.settle) ?_)
    refine (if_pos hequal).trans ((foundArmed_staged howes hv).trans ?_)
    rw [appendCopy_eq]
    rfl
  obtain ⟨hbegins, hwaits⟩ := firstCopy_settle (u := taken) (l := l) (c := c) hg (fun _ _ => rfl) hempty hempty
    (by show (g.lane n).cur = none; rw [show g.lane n = _ from hlane]; exact hcur) howes
    (by show (g.lane n).st = _ ∨ (g.lane n).st = _ ∨ (g.lane n).st = _; rw [show g.lane n = _ from hlane]; exact hst)
  refine ⟨hexec.trans (congrArg Host.Outcome.next hbegins), fun hn => hexec.trans (congrArg Host.Outcome.next (hwaits ?_))⟩
  obtain ⟨_, _, _, _, hsources, _, _, _, hlink, _⟩ := granted_frame s (.cueFetch n)
  have hsource : ∀ i, taken.source i = s.source i := fun i => by
    unfold State.source
    rw [show taken.sources = s.sources from hsources]
  unfold State.nothingToTake at hn ⊢
  simp only [hsource]
  rw [show taken.link = s.link from hlink]
  exact hn

end Sys2Proof.Machine
end

section
/-! SUPPORT. The ends of tail re-reads (R42, R43, R45, R145, R146). -/

namespace Sys2Proof.Machine

/-- TAIL_REREAD at its turn. -/
theorem exec_tailReread {s : State} {n : LaneId} {ws : Between} (hp : s.atPort (.tailReread n)) :
    exec (.tailReread n .done ws) s = .next (State.endTailReread n ws (s.granted (.tailReread n))) := by
  show Host.Outcome.next (s.turn (.tailReread n) .done (State.endTailReread n ws)) = _
  rw [turn_done hp]

/-- The end of a tail re-read by what its reads find (R45, R145). -/
theorem exec_foundTail {n : LaneId} {ws : Between} {s : State} {f : Fetch} (hp : s.atPort (.tailReread n))
    (hf : ((s.granted (.tailReread n)).lane n).fetch = some f)
    (hport : (s.granted (.tailReread n)).port = some (.tailReread n false)) :
    let r := readSeq [slotWord f.slot, slotWord f.slot + 1, slotWord f.slot] ws s.mem
    let u := (s.granted (.tailReread n)).endTransaction (landAll s.mem ws)
    exec (.tailReread n .done ws) s = .next (if r.1.getD 2 0 = r.1.getD 0 0 then
      u.foundTail n f.slot (r.1.getD 0 0) (r.1.getD 1 0) else u.tornAttempt n f).settle := by
  obtain ⟨_, hmem, _⟩ := granted_frame s (.tailReread n)
  intro r u
  rw [exec_tailReread hp]
  unfold State.endTailReread
  rw [hf]
  dsimp only
  rw [hmem, readSeq_land, if_neg (by rw [hport]; simp)]
  exact congrArg Host.Outcome.next (apply_ite State.settle _ _ _).symm

/-- A re-read that was overtaken ends with nothing but the host's writes landed (R146). -/
theorem exec_overtakenReread {n : LaneId} {ws : Between} {s : State} (hp : s.port = some (.tailReread n true)) :
    exec (.tailReread n .done ws) s = .next ({ s with port := none, mem := landAll s.mem ws } : State).settle := by
  have hu : s.underWay (.tailReread n) = true := underWay_iff.mpr ⟨_, hp, by simp [Transaction.serves]⟩
  have hgranted : s.granted (.tailReread n) = s := if_pos hu
  rw [exec_tailReread (.inl hu), hgranted]
  unfold State.endTailReread
  cases hf : (s.lane n).fetch with
  | none => rfl
  | some f =>
    dsimp only
    rw [if_pos hp, readSeq_land]
    rfl

/-- The tail can be followed: SPENT, TAKEN by the lane, or ARMED with KEEP (R45). -/
theorem tailFollows_iff (n : LaneId) (head : Word) : tailFollows n head = true ↔ recordState head = .spent ∨
    (recordState head = .taken ∧ headTaker head = n) ∨ (recordState head = .armed ∧ headKeep head = true) := by
  unfold tailFollows
  cases recordState head <;> simp

/-- The tail found gives the next slot, the end of the list, or a LINK-LOST marker (R45). -/
theorem foundTail_cases (s : State) (n : LaneId) (tail : Link) (head w1 : Word) :
    let next : Link := w1.extractLsb' 0 10
    (tailFollows n head = true → next.toNat < 992 →
      s.foundTail n tail head w1 = s.updLane n (fun l => { l with fetch := none, follow := next, pause := .open_ })) ∧
    (tailFollows n head = true → next = 1023#10 → s.foundTail n tail head w1 = s.updLane n (fun l => { l with fetch := none })) ∧
    (¬ tailFollows n head = true ∨ (992 ≤ next.toNat ∧ next ≠ 1023#10) →
      s.foundTail n tail head w1 = s.appendMarker n .linkLost tail) := by
  intro next
  have hslot : isSlot next = true ↔ next.toNat < 992 := decide_eq_true_iff
  have hend : next.toNat < 992 → next ≠ 1023#10 := fun h he => by rw [he] at h; exact absurd h (by decide)
  have hcases : s.foundTail n tail head w1 = if (!tailFollows n head) = true then s.appendMarker n .linkLost tail
      else if next = 1023#10 then s.updLane n (fun l => { l with fetch := none })
      else if isSlot next = true then s.updLane n (fun l => { l with fetch := none, follow := next, pause := .open_ })
      else s.appendMarker n .linkLost tail := rfl
  rw [hcases]
  refine ⟨fun hf hn => ?_, fun hf hn => ?_, fun h => ?_⟩
  · rw [if_neg (by rw [hf]; decide), if_neg (hend hn), if_pos (hslot.mpr hn)]
  · rw [if_neg (by rw [hf]; decide), if_pos hn]
  · by_cases hf : tailFollows n head = true
    · obtain ⟨hlow, hne⟩ := h.resolve_left (not_not.mpr hf)
      rw [if_neg (by rw [hf]; decide), if_neg hne, if_neg (fun hs => absurd (hslot.mp hs) (by omega))]
    · rw [if_pos (by simpa using hf)]

/-- Settles O45: the outcomes of R45, each by the rule of its kind of outcome. -/
theorem tailRereadOutcomes : Obligations.TailRereadOutcomes := by
  refine ⟨?_, fun s n code slot q hc hq => laneGo_marker hc hq, ?_⟩
  · intro n ws s hp t
    refine ⟨exec_overtakenReread hp, fun hs => ?_⟩
    have hsettled : t.settled := settled_lanes hs rfl
    rw [exec_overtakenReread hp, settle_settled hsettled]
  intro n ws s f hp hf hport g b r head next follows t l quietly appends
  have hg : s.settled → g.settled := granted_settled (.inr rfl)
  have hexec : exec (.tailReread n .done ws) s = .next (if r.1.getD 2 0 = head then
      (g.endTransaction (landAll s.mem ws)).foundTail n f.slot head (r.1.getD 1 0)
      else (g.endTransaction (landAll s.mem ws)).tornAttempt n f).settle := exec_foundTail hp hf hport
  clear_value r
  have hequal : r.1.getD 2 0 = head → exec (.tailReread n .done ws) s =
      .next ((g.endTransaction (landAll s.mem ws)).foundTail n f.slot head (r.1.getD 1 0)).settle := fun h =>
    hexec.trans (congrArg (fun u : State => Host.Outcome.next u.settle) (if_pos h))
  have hdiffer : r.1.getD 2 0 ≠ head → exec (.tailReread n .done ws) s =
      .next ((g.endTransaction (landAll s.mem ws)).tornAttempt n f).settle := fun h =>
    hexec.trans (congrArg (fun u : State => Host.Outcome.next u.settle) (if_neg h))
  have hfollows : tailFollows n head = true ↔ follows := tailFollows_iff n head
  obtain ⟨hnext, hlast, hlost⟩ := foundTail_cases (g.endTransaction (landAll s.mem ws)) n f.slot head (r.1.getD 1 0)
  have quiet : ∀ (F : Lane → Lane), (F (g.lane n)).owed = (g.lane n).owed → (F (g.lane n)).cur = (g.lane n).cur →
      (F (g.lane n)).queue = (g.lane n).queue → (F (g.lane n)).st = (g.lane n).st → r.1.getD 2 0 = head →
      (g.endTransaction (landAll s.mem ws)).foundTail n f.slot head (r.1.getD 1 0) =
        (g.endTransaction (landAll s.mem ws)).updLane n F → quietly (t.withLane n (F (g.lane n))) :=
    fun F howed hcur hqueue hst he h => quiet_outcomes (by
      rw [hequal he, h, updLane_eq]
      rfl) hg howed hcur hqueue hst
  refine ⟨fun he hf hn => ?next, fun he hf hn => ?last, fun he h => ?lost, fun he ha => ?retry, fun he ha => ?torn⟩
  case next =>
    exact quiet (fun l => { l with fetch := none, follow := next, pause := .open_ }) rfl rfl rfl rfl he
      (hnext (hfollows.mpr hf) hn)
  case last => exact quiet (fun l => { l with fetch := none }) rfl rfl rfl rfl he (hlast (hfollows.mpr hf) hn)
  case lost =>
    refine marker_outcomes ((hequal he).trans ?_) hg
    rw [hlost (by rw [hfollows]; exact h)]
  case retry =>
    have hsame : (g.endTransaction (landAll s.mem ws)).tornAttempt n f = t := if_neg (by simpa [Config.maxAttempts] using ha)
    have hexec' : exec (.tailReread n .done ws) s = .next t.settle := by rw [hdiffer he, hsame]
    refine ⟨hexec', fun hs => ?_⟩
    have hsettled : t.settled := settled_lanes (hg hs) rfl
    rw [hexec', settle_settled hsettled]
  case torn =>
    have hmark : (g.endTransaction (landAll s.mem ws)).tornAttempt n f =
        (g.endTransaction (landAll s.mem ws)).appendMarker n .torn f.slot := if_pos ha
    exact marker_outcomes ((hdiffer he).trans (congrArg (fun u : State => Host.Outcome.next u.settle) hmark)) hg

end Sys2Proof.Machine
end

section
/-! SUPPORT. The landing of a write-back entry (R38, R52, R139, R148, R152) and what follows (R47, R73, R144). -/

namespace Sys2Proof.Machine

/-- The pause a lane has after a write that ends a copy of the slot has landed, by whether another such write is still to
land (R38). -/
def Lane.landedPause (l : Lane) (slot : Link) (pending : Bool) : Pause :=
  if l.pause = .ownCopy ∧ l.watch = slot ∧ l.latestCopy slot = none ∧ pending = false then .open_ else l.pause

/-- The landing of an ending clears an OWN-COPY pause, where it is the last of its slot (R38, R148). -/
theorem ownCopyLanded_eq (l : Lane) (slot : Link) (pending : Bool) :
    (if pending = true then l else l.ownCopyLanded slot) = { l with pause := l.landedPause slot pending } := by
  cases pending with
  | true =>
    have hkept : l.landedPause slot true = l.pause := if_neg (by simp)
    rw [hkept, if_pos rfl]
  | false =>
    rw [if_neg (by decide)]
    by_cases h : l.pause = .ownCopy ∧ l.watch = slot ∧ l.latestCopy slot = none
    · have hopen : l.landedPause slot false = .open_ := if_pos ⟨h.1, h.2.1, h.2.2, rfl⟩
      rw [hopen]
      exact if_pos h
    · have hkept : l.landedPause slot false = l.pause := if_neg (fun ⟨hp, hw, hl, _⟩ => h ⟨hp, hw, hl⟩)
      rw [hkept]
      exact if_neg h

/-- A lane replaced by itself. -/
theorem withLane_own (s : State) (n : LaneId) : s.withLane n (s.lane n) = s := by
  have hlanes : s.lanes.set n.val (s.lane n) = s.lanes := by
    ext i hi
    rw [Vector.getElem_set]
    split
    · rename_i h
      subst h
      rfl
    · rfl
  unfold State.withLane
  rw [hlanes, if_pos rfl]

/-- The end of a write-back transaction under way (R148). -/
theorem exec_writeBackDone {s : State} {ws : Between} {e : WriteBack} {q : List WriteBack} {k : Nat}
    (hp : s.atPort .writeBack) (hq : s.wbq = e :: q) (hport : (s.granted .writeBack).port = some (.writeBack k)) :
    exec (.writeBackLanding .done ws) s = .next (State.entryLanded
      { s with port := none, wbq := q, mem := writeSeq (e.writes.drop k) ws s.mem } e).settle := by
  show Host.Outcome.next (s.turn .writeBack .done (State.endWriteBack ws)) = _
  have hqueue : ({ s with port := some (.writeBack k) } : State).wbq = e :: q := hq
  rw [turn_done hp, granted_writeBack hport, endWriteBack_eq hqueue, writesUnderWay_entry rfl hqueue]

/-- One word of a write-back transaction (R139, R148). -/
theorem exec_writeBackWord {s : State} {ws : Between} {e : WriteBack} {q : List WriteBack} {k : Nat} {p p' : Nat × Word}
    {rest : List (Nat × Word)} (hp : s.atPort .writeBack) (hq : s.wbq = e :: q)
    (hport : (s.granted .writeBack).port = some (.writeBack k)) (hleft : e.writes.drop k = p :: p' :: rest) :
    exec (.writeBackLanding .word ws) s = .next { s with
      port := some (.writeBack (k + 1))
      mem := landAll (writeWord (landGroup s.mem (ws.headD [])) p.1 p.2) ws.tail } := by
  show Host.Outcome.next (s.turn .writeBack .done (State.landWord ws)) = _
  have hqueue : ({ s with port := some (.writeBack k) } : State).wbq = e :: q := hq
  rw [turn_done hp, granted_writeBack hport, landWord_eq ((writesUnderWay_entry rfl hqueue).trans hleft)]
  rfl

/-- What follows goes to owed writes, then to pending completions, then to the lanes that can go on (R144, log entry 6). -/
theorem follow_order (s : State) :
    let owes : LaneId → Prop := fun n => (s.lane n).owed ≠ []
    let pends : LaneId → Prop := fun n => (s.lane n).owed = [] ∧ ∃ f e, (s.lane n).cur = some f ∧ f.ended = some e
    let goes : LaneId → Prop := fun n =>
      ((s.lane n).cur = none ∧ (s.lane n).queue ≠ [] ∧
        ((s.lane n).st = .priming ∨ (s.lane n).st = .running ∨ (s.lane n).st = .starved)) ∨
      (∃ f c q, (s.lane n).cur = some f ∧ (s.lane n).queue = .copy c :: q ∧ f.waiting = false ∧ f.pulse = none ∧
        f.ended = none ∧ (c.required ≤ f.fires ∨ (s.lane n).st = .running ∨ (s.lane n).st = .stopping))
    (∀ n o os, 0 < s.room → (s.lane n).owed = o :: os → (∀ m, owes m → s.precedes n m) →
      s.follow = some ({ s with wbq := s.wbq ++ [o] }.withLane n { s.lane n with owed := os })) ∧
    (∀ n, 0 < s.room → (∀ m, ¬ owes m) → pends n → (∀ m, pends m → s.precedes n m) →
      s.follow = some (s.releasePending n)) ∧
    (s.room = 0 ∨ (∀ m, ¬ owes m ∧ ¬ pends m) →
      ((∃ n, goes n) → ∃ n, goes n ∧
        (s.follow = some (s.laneGo n) ∨ s.follow = some ({ s with choices := s.choices + 1 }.laneGo n))) ∧
      ((∀ n, ¬ goes n) → s.follow = none)) := by
  intro owes pends goes
  have hpends : ∀ n, (s.lane n).pendsFree = true ↔ pends n := fun n => pendsFree_iff (s.lane n)
  have hgoes : ∀ n, (s.lane n).canGo = true ↔ goes n := fun n => canGo_iff (s.lane n)
  refine ⟨fun n o os hr ho hfirst => follow_owed hr ho hfirst, fun n hr ho hn hfirst => ?_, fun h => ?_⟩
  · exact follow_pends hr (fun m => not_not.mp (ho m)) ((hpends n).mpr hn) (fun m hm => hfirst m ((hpends m).mp hm))
  · have hcalm : s.room = 0 ∨ ∀ m, (s.lane m).owed = [] ∧ (s.lane m).pendsFree = false := h.imp_right fun h m =>
      ⟨not_not.mp (h m).1, Bool.eq_false_iff.mpr (fun hp => (h m).2 ((hpends m).mp hp))⟩
    obtain ⟨hsome, hnone⟩ := follow_goes hcalm
    simp only [hgoes] at hsome
    exact ⟨hsome, fun hno => hnone (fun n => Bool.eq_false_iff.mpr (fun hg => hno n ((hgoes n).mp hg)))⟩

/-- Settles O46: what follows an event, the words of an entry, and what waits for its landing. -/
theorem writeBackLands : Obligations.WriteBackLands := by
  refine ⟨fun s => ?follow, fun ws s e q hp hq k p p' rest hport hleft => exec_writeBackWord hp hq hport hleft, ?_⟩
  case follow =>
    obtain ⟨howed, hpends, hgoes⟩ := follow_order s
    exact ⟨howed, hpends, hgoes, settle_iterates s⟩
  intro ws s e q k hp hq hport t last cleared ends
  have hexec : exec (.writeBackLanding .done ws) s = .next (t.entryLanded e).settle := exec_writeBackDone hp hq hport
  have same : ∀ u, t.entryLanded e = u → (s.settled → u.settled) → ends u := fun u hu hs =>
    ⟨by rw [hexec, hu], fun h => by rw [hexec, hu, settle_settled (hs h)]⟩
  have lane : ∀ n (l : Lane), l.owed = (s.lane n).owed → l.cur = (s.lane n).cur → l.queue = (s.lane n).queue →
      l.st = (s.lane n).st → t.entryLanded e = t.withLane n l → ends (t.withLane n l) :=
    fun n l howed hcur hqueue hst he => same _ he (fun hs => withLane_settled_of hs (fun _ _ => rfl)
      ⟨howed.trans (hs n).1, (pendsFree_congr hcur howed).trans (hs n).2.1, (canGo_congr hcur hqueue hst).trans (hs n).2.2⟩)
  have hlast : ∀ n slot, last n slot ↔ (s.lane n).latestCopy slot = none ∧ t.endPending n slot = false := fun n slot => by
    refine and_congr_right (fun _ => ?_)
    rw [Bool.eq_false_iff, ne_eq, endPending_iff, List.all_eq_true]
    push Not
    refine forall₂_congr (fun x _ => ?_)
    cases x.kind with
    | result k o ends =>
      cases ends with
      | false => simp
      | true =>
        simp
        tauto
    | return_ k => simp; tauto
    | _ => simp
  have hcleared : ∀ n slot, cleared n slot ((s.lane n).landedPause slot (t.endPending n slot)) := fun n slot => by
    refine ⟨fun ⟨hpause, hwatch, hl⟩ => if_pos ⟨hpause, hwatch, (hlast n slot).mp hl⟩,
      fun h => if_neg (fun ⟨hpause, hwatch, hl⟩ => h ⟨hpause, hwatch, (hlast n slot).mpr hl⟩)⟩
  refine ⟨fun hm hws i v hone hi => ?word, fun n slot o ho hkind => ⟨_, hcleared n slot, ?ending⟩,
    fun n slot o ho hkind => ?shared, fun n slot ho hkind => ⟨_, hcleared n slot, ?back⟩, fun hkind => ?answer,
    fun hkind => ?others⟩
  case word =>
    have hmem : t.mem = writeWord s.mem i v := by
      show writeSeq (e.writes.drop k) ws s.mem = _
      rw [hone, hws]
      rfl
    refine ⟨?_, ?_, fun a ha => ?_⟩
    · show Memory.wf t.mem = true
      rw [hmem]
      exact writeWord_wf hm i v
    · rw [hmem]
      exact readWord_writeWord_self hm hi v
    · rw [hmem]
      exact memByte_writeWord_ne v ha
  case ending =>
    refine lane n _ rfl rfl rfl rfl ?_
    unfold State.entryLanded
    rw [hkind, ho]
    dsimp only
    rw [updLane_eq]
    refine congrArg (t.withLane n) (Eq.trans ?_ (ownCopyLanded_eq ((s.lane n).endingLanded slot o) slot (t.endPending n slot)))
    cases t.endPending n slot <;> rfl
  case shared =>
    refine lane n _ rfl rfl rfl rfl ?_
    unfold State.entryLanded
    rw [hkind, ho]
    dsimp only
    rw [updLane_eq]
    rfl
  case back =>
    refine lane n _ rfl rfl rfl rfl ?_
    unfold State.entryLanded
    rw [hkind, ho]
    dsimp only
    rw [← ownCopyLanded_eq, updLane_eq]
    split
    · exact (withLane_own t n).symm
    · rfl
  case answer =>
    refine same _ ?_ (fun hs => settled_lanes hs rfl)
    unfold State.entryLanded
    rw [hkind]
    rfl
  case others =>
    refine same _ ?_ (fun hs => settled_lanes hs rfl)
    unfold State.entryLanded
    rcases hkind with ⟨slot, h | h⟩ | h | h <;> rw [h]

end Sys2Proof.Machine
end

section
/-! SUPPORT. The words of the status items (R52, R91, R115, R121, R136, 11.5) and the end of a status item write
(R149, R169). -/

namespace Sys2Proof.Machine

/-! Placed fields. -/

/-- A placed field moved up. -/
theorem place_shift {n : Nat} (lo k : Nat) (x : BitVec n) : place lo x <<< k = place (lo + k) x := by
  unfold place
  rw [BitVec.shiftLeft_add]

/-- One bit of a word as a field. -/
theorem bit_extract (w : Word) (i : Nat) : w.getLsbD i = (w.extractLsb' i 1).getLsbD 0 := by
  simp

/-- A one-bit field's bit. -/
theorem ofBool_bit (b : Bool) : (BitVec.ofBool b).getLsbD 0 = b := by cases b <;> rfl

/-- A numbered value that fits its field. -/
theorem ofNat_toNat_fits {k n : Nat} (h : k < 2 ^ n) : (BitVec.ofNat n k).toNat = k := by
  rw [BitVec.toNat_ofNat, Nat.mod_eq_of_lt h]

/-! The words of each item. -/

/-- A lane's progress entry as placed fields (R52). -/
theorem progressWords_place (l : Lane) (h : l.queue.length ≤ 4) : l.progressWords =
    [ place 0 (l.st.code.setWidth 3) ||| place 3 (l.pause.code.setWidth 3) ||| place 6 (BitVec.ofNat 3 l.queue.length) |||
        place 10 l.currentSlot ||| place 20 l.watch,
      place 0 l.lastSlot ||| place 12 (l.lastOutcome.code.setWidth 3) |||
        place 16 (((l.faultCode.map FaultCode.code).getD 0).setWidth 4) ||| place 20 l.faultSlot,
      place 0 l.endedCount ] := by
  have hst : l.st.code = place 0 (l.st.code.setWidth 3) := by cases l.st <;> rfl
  have hpause : l.pause.code <<< 3 = place 3 (l.pause.code.setWidth 3) := by cases l.pause <;> rfl
  have houtcome : l.lastOutcome.code <<< 12 = place 12 (l.lastOutcome.code.setWidth 3) := by cases l.lastOutcome <;> rfl
  have hfault : ((l.faultCode.map FaultCode.code).getD 0) <<< 16 =
      place 16 (((l.faultCode.map FaultCode.code).getD 0).setWidth 4) := by
    cases l.faultCode with
    | none => rfl
    | some code => cases code <;> rfl
  have hqueue : num l.queue.length <<< 6 = place 6 (BitVec.ofNat 3 l.queue.length) := num_place (by omega) (by decide) 6
  rw [Lane.progressWords, ← hst, hpause, houtcome, hfault, hqueue]

/-- The fields of a lane's progress entry (R52). -/
theorem progressWords_fields (l : Lane) (h : l.queue.length ≤ 4) : ∃ w0 w1 w2 : Word, l.progressWords = [w0, w1, w2] ∧
    (w0.extractLsb' 0 3).toNat = (match l.st with
      | .idle => 0 | .priming => 1 | .running => 2 | .starved => 3 | .held => 4 | .stopping => 5 | .faulted => 6) ∧
    (w0.extractLsb' 3 3).toNat = (match l.pause with
      | .open_ => 0 | .atEnd => 1 | .notReady => 2 | .ownCopy => 3 | .closed => 4) ∧
    (w0.extractLsb' 6 3).toNat = l.queue.length ∧
    (∀ f c q, l.cur = some f → l.queue = .copy c :: q → w0.extractLsb' 10 10 = c.slot) ∧
    (l.cur = none → w0.extractLsb' 10 10 = 1023#10) ∧ w0.extractLsb' 20 10 = l.watch ∧
    w1.extractLsb' 0 10 = l.lastSlot ∧
    (w1.extractLsb' 12 3).toNat = (match l.lastOutcome with
      | .none_ => 0 | .done => 1 | .expired => 2 | .aborted => 3 | .faulted => 4 | .returned => 5 | .void => 6) ∧
    (w1.extractLsb' 16 4).toNat = (match l.faultCode with
      | none => 0 | some .voidCue => 1 | some .cueInUse => 2 | some .badState => 3 | some .linkLost => 4
      | some .torn => 5 | some .expired => 6 | some .late => 7 | some .guard => 8 | some .linkStop => 9
      | some .hostHalt => 10) ∧
    w1.extractLsb' 20 10 = l.faultSlot ∧ w2.extractLsb' 0 16 = l.endedCount ∧ w2.extractLsb' 16 16 = 0#16 ∧
    w0.getLsbD 9 = false ∧ w0.extractLsb' 30 2 = 0#2 ∧
    w1.extractLsb' 10 2 = 0#2 ∧ w1.getLsbD 15 = false ∧ w1.extractLsb' 30 2 = 0#2 := by
  refine ⟨_, _, _, progressWords_place l h, ?_⟩
  have hlen : l.queue.length < 2 ^ 3 := by omega
  simp (decide := true) only [bit_extract, BitVec.extractLsb'_or, extract_place_same, extract_place_apart, BitVec.or_zero,
    BitVec.zero_or, ofNat_toNat_fits hlen, true_and, and_true, BitVec.getLsbD_zero]
  refine ⟨?_, ?_, fun f c q hc hq => ?_, fun hc => ?_, ?_, ?_⟩
  · cases l.st <;> rfl
  · cases l.pause <;> rfl
  · unfold Lane.currentSlot
    rw [hc, hq]
  · unfold Lane.currentSlot
    rw [hc]
  · cases l.lastOutcome <;> rfl
  · cases l.faultCode with
    | none => rfl
    | some code => cases code <;> rfl

/-- The levels item (R121). -/
theorem levelsWord_fields (s : State) : s.levelsWord.extractLsb' 0 24 = s.out ∧
    ∀ n : Fin 8, s.levelsWord.getLsbD (24 + n.val) = s.inputs[n].level := by
  unfold State.levelsWord
  refine ⟨?_, fun n => ?_⟩
  · simp (decide := true) only [BitVec.extractLsb'_or, extract_place_same, extract_place_apart, BitVec.or_zero]
  · have hn := n.isLt
    have hword : 24 + n.val < 32 := by omega
    have hpins : s.out.getLsbD (24 + n.val - 0) = false := BitVec.getLsbD_of_ge _ _ (by omega)
    have hlevel : s.filtered.getLsbD (24 + n.val - 24) = s.inputs[n].level := by
      rw [Nat.add_sub_cancel_left]
      simp [State.filtered, hn]
    rw [BitVec.getLsbD_or, place_bit, place_bit, hpins, hlevel]
    simp [hword]

/-- The halt record's words (R115). -/
theorem haltWords_fields (h : HaltRecord) : ∃ w : Word, h.words = [h.tick, w] ∧
    (w.extractLsb' 0 2).toNat = (match h.cause with | .none_ => 0 | .guard => 1 | .linkStop => 2 | .hostHalt => 3) ∧
    (w.extractLsb' 2 3).toNat = h.line.val ∧ w.extractLsb' 8 8 = h.lanes ∧
    w.extractLsb' 16 8 = h.further ∧ w.extractLsb' 5 3 = 0#3 ∧ w.extractLsb' 24 8 = 0#8 := by
  have hcause : h.cause.code = place 0 (h.cause.code.setWidth 2) := by cases h.cause <;> rfl
  have hline : num h.line.val <<< 2 = place 2 (BitVec.ofNat 3 h.line.val) := num_place h.line.isLt (by decide) 2
  refine ⟨_, rfl, ?_⟩
  rw [hcause, hline]
  simp (decide := true) only [BitVec.extractLsb'_or, extract_place_same, extract_place_apart, BitVec.or_zero,
    BitVec.zero_or, ofNat_toNat_fits (k := h.line.val) (n := 3) h.line.isLt, and_true]
  cases h.cause <;> rfl

/-- The link occupancy (R136). -/
theorem occupancyWords_fields (l : LinkPort) (hrx : l.rxq.length ≤ 8) (htx : l.txq.length ≤ 8) :
    ∃ w0 w1 : Word, l.occupancyWords = [w0, w1] ∧
      (w0.extractLsb' 0 4).toNat = l.rxq.length ∧ w0.getLsbD 4 = !l.rxq.isEmpty ∧
      (∀ e q, l.rxq = e :: q → w0.extractLsb' 8 6 = e.code ∧ w1 = e.tick) ∧
      (l.rxq = [] → w0.extractLsb' 8 6 = 0#6 ∧ w1 = 0#32) ∧
      (w0.extractLsb' 16 4).toNat = l.txq.length ∧ w0.getLsbD 20 = l.sending.isSome ∧
      w0.getLsbD 21 = l.relayPending ∧
      w0.extractLsb' 5 3 = 0#3 ∧ w0.extractLsb' 14 2 = 0#2 ∧ w0.extractLsb' 22 10 = 0#10 := by
  have hrx' : l.rxq.length < 2 ^ 4 := by omega
  have htx' : l.txq.length < 2 ^ 4 := by omega
  have hrxword : num l.rxq.length = place 0 (BitVec.ofNat 4 l.rxq.length) := by
    rw [← num_place hrx' (by decide), BitVec.shiftLeft_zero]
  refine ⟨_, _, rfl, ?_⟩
  rw [hrxword, num_place htx' (by decide), flag_place, flag_place, flag_place]
  simp (decide := true) only [bit_extract, BitVec.extractLsb'_or, extract_place_same, extract_place_apart, BitVec.or_zero,
    BitVec.zero_or, ofNat_toNat_fits hrx', ofNat_toNat_fits htx', ofBool_bit, true_and, and_true]
  refine ⟨?_, fun e q hq => ?_, fun hq => ?_⟩
  · cases l.rxq <;> rfl
  · rw [hq]
    exact ⟨rfl, rfl⟩
  · rw [hq]
    exact ⟨rfl, rfl⟩

/-- The byte of a source as placed fields (R91). -/
theorem sourceByte_place {r : Source} (h : r.count ≤ 15) :
    r.byte = place 0 (BitVec.ofNat 4 r.count) ||| place 4 (BitVec.ofBool r.overflow) := by
  have hcount : r.count < 2 ^ 4 := by omega
  rw [Source.byte, flag_place, ← num_place hcount (by decide), BitVec.shiftLeft_zero]

/-- A source word as placed fields (R91, 11.5). -/
theorem sourceWord_place {s : State} (h : CountsOk s) (w : Fin 8) :
    let j : Fin 4 → SourceId := fun k => ⟨4 * w.val + k.val, by omega⟩
    let byte : Fin 4 → Word := fun k => place (8 * k.val) (BitVec.ofNat 4 (s.source (j k)).count) |||
      place (8 * k.val + 4) (BitVec.ofBool (s.source (j k)).overflow)
    s.sourceWord w = byte 0 ||| byte 1 ||| byte 2 ||| byte 3 := by
  intro j byte
  have hbyte : ∀ k : Fin 4, ((s.sources[4 * w.val + k.val]?.map Source.byte).getD 0) <<< (8 * k.val) = byte k := by
    intro k
    have hlt : 4 * w.val + k.val < 32 := by omega
    rw [Vector.getElem?_eq_getElem hlt]
    show (s.source (j k)).byte <<< (8 * k.val) = _
    rw [sourceByte_place (h (j k)), BitVec.shiftLeft_or_distrib, place_shift, place_shift, Nat.zero_add, Nat.add_comm 4]
  have h0 : (s.sources[4 * w.val + 0]?.map Source.byte).getD 0 = byte 0 := (BitVec.shiftLeft_zero _).symm.trans (hbyte 0)
  unfold State.sourceWord
  dsimp only
  rw [← hbyte 1, ← hbyte 2, ← hbyte 3, ← h0]
  rfl

/-- The nibbles and bits of a word of four bytes. -/
theorem fourBytes_fields (c : Fin 4 → BitVec 4) (o : Fin 4 → Bool) (k : Fin 4) :
    let byte : Fin 4 → Word := fun k => place (8 * k.val) (c k) ||| place (8 * k.val + 4) (BitVec.ofBool (o k))
    let w := byte 0 ||| byte 1 ||| byte 2 ||| byte 3
    w.extractLsb' (8 * k.val) 4 = c k ∧ w.extractLsb' (8 * k.val + 4) 1 = BitVec.ofBool (o k) ∧
      w.extractLsb' (8 * k.val + 5) 3 = 0#3 := by
  intro byte w
  match k with
  | 0 => simp (decide := true) [w, byte, BitVec.extractLsb'_or, extract_place_same, extract_place_apart]
  | 1 => simp (decide := true) [w, byte, BitVec.extractLsb'_or, extract_place_same, extract_place_apart]
  | 2 => simp (decide := true) [w, byte, BitVec.extractLsb'_or, extract_place_same, extract_place_apart]
  | 3 => simp (decide := true) [w, byte, BitVec.extractLsb'_or, extract_place_same, extract_place_apart]

/-- The fields of a source word (R91, 11.5). -/
theorem sourceWord_fields {s : State} (h : CountsOk s) (w : Fin 8) (k : Fin 4) (j : SourceId)
    (hj : j.val = 4 * w.val + k.val) :
    ((s.sourceWord w).extractLsb' (8 * k.val) 4).toNat = (s.source j).count ∧
    (s.sourceWord w).getLsbD (8 * k.val + 4) = (s.source j).overflow ∧
    (s.sourceWord w).extractLsb' (8 * k.val + 5) 3 = 0#3 := by
  have hj' : j = ⟨4 * w.val + k.val, by omega⟩ := Fin.ext hj
  have hcount : (s.source j).count < 2 ^ 4 := Nat.lt_succ_of_le (h j)
  obtain ⟨hnibble, hflag, hspare⟩ := fourBytes_fields
    (fun k => BitVec.ofNat 4 (s.source ⟨4 * w.val + k.val, by omega⟩).count)
    (fun k => (s.source ⟨4 * w.val + k.val, by omega⟩).overflow) k
  dsimp only at hnibble hflag hspare
  rw [← hj'] at hnibble hflag
  rw [bit_extract, sourceWord_place h w]
  dsimp only
  rw [hnibble, hflag, ofNat_toNat_fits hcount]
  exact ⟨rfl, ofBool_bit _, hspare⟩

/-! The items. -/

/-- The words of an item by its number (11.5, R149). -/
theorem itemWords_cases (s : State) (i : Fin 20) :
    (∀ n : LaneId, i.val = n.val → s.itemWords i = (s.lane n).progressWords) ∧
    (i.val = 8 → s.itemWords i = [s.levelsWord]) ∧ (i.val = 9 → s.itemWords i = s.halt.words) ∧
    (i.val = 10 → s.itemWords i = s.link.countWords) ∧ (i.val = 11 → s.itemWords i = s.link.occupancyWords) ∧
    (12 ≤ i.val → s.itemWords i = [s.sourceWord (Fin.ofNat 8 (i.val - 12))]) := by
  unfold State.itemWords
  refine ⟨fun n hn => ?_, fun h => ?_, fun h => ?_, fun h => ?_, fun h => ?_, fun h => ?_⟩
  · have hlane : i.val < 8 := hn ▸ n.isLt
    rw [dif_pos hlane]
    exact congrArg (fun m => (s.lane m).progressWords) (Fin.ext hn)
  · rw [dif_neg (by omega), if_pos h]
  · rw [dif_neg (by omega), if_neg (by omega), if_pos h]
  · rw [dif_neg (by omega), if_neg (by omega), if_neg (by omega), if_pos h]
  · rw [dif_neg (by omega), if_neg (by omega), if_neg (by omega), if_neg (by omega), if_pos h]
  · rw [dif_neg (by omega), if_neg (by omega), if_neg (by omega), if_neg (by omega), if_neg (by omega)]

/-- The words of an item's writes are its words (R149). -/
theorem itemWrites_words (i : Fin 20) (ws : List Word) : (itemWrites i ws).map Prod.snd = ws := by
  unfold itemWrites
  rw [List.map_map]
  exact List.map_snd_zip (by simp)

/-- The addresses of an item's writes rise from its first word (11.5, R142). -/
theorem itemWrites_addresses (i : Fin 20) (ws : List Word) :
    (itemWrites i ws).map Prod.fst = (List.range ws.length).map (itemWord i + ·) := by
  unfold itemWrites
  rw [List.map_map]
  have hpair : (Prod.fst ∘ fun p : Nat × Word => (itemWord i + p.1, p.2)) = (itemWord i + ·) ∘ Prod.fst := rfl
  rw [hpair, ← List.map_map, List.map_fst_zip (by simp)]

/-- The addresses of the items (11.5). -/
theorem itemAddresses (s : State) (i : Fin 20) : (itemWrites i (s.itemWords i)).map Prod.fst =
    (if i.val < 8 then [200 + 3 * i.val, 201 + 3 * i.val, 202 + 3 * i.val]
      else if i.val = 8 then [224] else if i.val = 9 then [225, 226] else if i.val = 10 then [227, 228]
      else if i.val = 11 then [229, 230] else [219 + i.val]) := by
  obtain ⟨hlane, h8, h9, h10, h11, hsource⟩ := itemWords_cases s i
  have hlength : (s.itemWords i).length = if i.val < 8 then 3 else if i.val = 8 then 1 else if i.val < 12 then 2 else 1 := by
    rcases (by omega : i.val < 8 ∨ i.val = 8 ∨ i.val = 9 ∨ i.val = 10 ∨ i.val = 11 ∨ 12 ≤ i.val) with h | h | h | h | h | h
    · rw [hlane ⟨i.val, h⟩ rfl, if_pos h]
      rfl
    · rw [h8 h, h]
      rfl
    · rw [h9 h, h]
      rfl
    · rw [h10 h, h]
      rfl
    · rw [h11 h, h]
      rfl
    · rw [hsource h, if_neg (by omega), if_neg (by omega), if_neg (by omega)]
      rfl
  rw [itemWrites_addresses, hlength]
  clear hlane h8 h9 h10 h11 hsource hlength
  revert i
  decide

/-! The end of a status item write. -/

/-- STATUS_ITEM_WRITE, one word of it (R139, R149). -/
theorem exec_statusWord {s : State} {between : Between} {i : Fin 20} {words : List Word} {k : Nat} {p p' : Nat × Word}
    {rest : List (Nat × Word)} (hp : s.atPort .statusItem)
    (hport : (s.granted .statusItem).port = some (.statusItem i words k))
    (hleft : (itemWrites i words).drop k = p :: p' :: rest) :
    exec (.statusItemWrite .word between) s = .next { s.granted .statusItem with
      port := some (.statusItem i words (k + 1))
      mem := landAll (writeWord (landGroup s.mem (between.headD [])) p.1 p.2) between.tail } := by
  obtain ⟨_, hmem, _⟩ := granted_frame s .statusItem
  have hwrites : (s.granted .statusItem).writesUnderWay = p :: p' :: rest := by
    unfold State.writesUnderWay
    rw [hport]
    exact hleft
  show Host.Outcome.next (s.turn .statusItem .done (State.landWord between)) = _
  rw [turn_done hp, landWord_eq hwrites, hport, hmem]
  rfl

/-- STATUS_ITEM_WRITE, its end (R149, R169). -/
theorem exec_statusDone {s : State} {between : Between} {i : Fin 20} {words : List Word} {k : Nat}
    (hp : s.atPort .statusItem) (hport : (s.granted .statusItem).port = some (.statusItem i words k)) :
    exec (.statusItemWrite .done between) s = .next (({ s.granted .statusItem with
      port := none, mem := writeSeq ((itemWrites i words).drop k) between s.mem } : State).snapshotWritten i) := by
  obtain ⟨_, hmem, _⟩ := granted_frame s .statusItem
  have hwrites : (s.granted .statusItem).writesUnderWay = (itemWrites i words).drop k := by
    unfold State.writesUnderWay
    rw [hport]
  show Host.Outcome.next (s.turn .statusItem .done (State.endStatusItem between)) = _
  rw [turn_done hp]
  unfold State.endStatusItem
  rw [hport]
  dsimp only
  rw [hwrites, hmem]
  rfl

/-- The item leaves the snapshot set; the SNAPSHOT answer is queued with the last of it (R169). -/
theorem snapshotWritten_cases (u : State) (i : Fin 20) :
    let left := u.snapSet &&& ~~~(1#20 <<< i.val)
    ((∀ seq, u.devOut ≠ .snapshot seq) ∨ left ≠ 0#20 → u.snapshotWritten i = { u with snapSet := left }) ∧
    (∀ seq, u.devOut = .snapshot seq → left = 0#20 → u.snapshotWritten i =
      { u with snapSet := left, devOut := .none_, wbq := u.wbq ++ [deviceAnswer seq .ok 0] }) := by
  intro left
  unfold State.snapshotWritten
  dsimp only
  refine ⟨fun h => ?_, fun seq hseq hleft => ?_⟩
  · split
    · rename_i seq hd
      exact if_neg (h.resolve_left (fun hno => hno seq hd))
    · rfl
  · rw [hseq]
    exact if_pos hleft

/-- Settles O47: the words of each item by their fields, and the two kinds of step of a status item write. -/
theorem statusItemWritten : Obligations.StatusItemWritten := by
  refine ⟨fun s i => ?words, fun between s i words k hp hport => ⟨fun p p' rest hleft => exec_statusWord hp hport hleft, ?_⟩⟩
  case words =>
    obtain ⟨hlane, h8, h9, h10, h11, hsource⟩ := itemWords_cases s i
    refine ⟨itemAddresses s i, itemWrites_words i _, fun n hn hq => ?_, fun h => ?_, fun h => ?_, fun h => ?_, fun h hl => ?_,
      fun h hcounts => ⟨_, hsource h, fun k j hj => ?_⟩⟩
    · rw [hlane n hn]
      exact progressWords_fields (s.lane n) hq
    · exact ⟨_, h8 h, levelsWord_fields s⟩
    · rw [h9 h]
      exact haltWords_fields s.halt
    · refine ⟨_, _, h10 h, ?_⟩
      simp (decide := true) only [BitVec.extractLsb'_or, extract_place_same, extract_place_apart, BitVec.or_zero,
        BitVec.zero_or, and_self]
    · rw [h11 h]
      exact occupancyWords_fields s.link hl.1 hl.2
    · refine sourceWord_fields hcounts _ k j (hj.trans ?_)
      have hsmall : (i.val - 12) % 8 = i.val - 12 := Nat.mod_eq_of_lt (by omega)
      show _ = 4 * ((i.val - 12) % 8) + k.val
      rw [hsmall]
  obtain ⟨_, _, hwbq, hdev, _, _, _, _, _, _, _, hset⟩ := granted_frame s .statusItem
  refine ⟨(s.granted .statusItem).snapSet &&& ~~~(1#20 <<< i.val), fun j => ?_, ?_⟩
  · rw [hset, clearBit_getLsbD _ _ _ j.isLt]
    simp [Fin.ext_iff]
  intro t
  obtain ⟨hstays, hanswers⟩ := snapshotWritten_cases { s.granted .statusItem with
    port := none, mem := writeSeq ((itemWrites i words).drop k) between s.mem } i
  rw [exec_statusDone hp hport]
  refine ⟨fun h => ?_, fun seq hseq hleft => ?_⟩
  · exact congrArg Host.Outcome.next (hstays (h.imp_left fun hno seq hs => hno seq (hdev.symm.trans hs)))
  · rw [hanswers seq (hdev.trans hseq) hleft]
    dsimp only
    rw [hwbq]
    rfl

end Sys2Proof.Machine
end

section
/-! SUPPORT. The words of the cue entries, the fields of a cue record and of a directory entry (R2 to R11, R14, 11.2, 11.3). -/

namespace Sys2Proof.Machine

/-- A header's options above its state and taker, as a placed field. -/
theorem headerRest_place (head : Word) : head &&& ~~~(0x3F#32) = place 6 (head.extractLsb' 6 26) := by
  have hmask : ∀ i, i < 32 → (0x3F#32).getLsbD i = decide (i < 6) := by decide
  apply BitVec.eq_of_getLsbD_eq
  intro i hi
  rw [BitVec.getLsbD_and, BitVec.getLsbD_not, hmask i hi, place_bit, BitVec.getLsbD_extractLsb']
  by_cases h : i < 6
  · have h' : ¬ 6 ≤ i := by omega
    simp [h, h']
  · have h6 : 6 ≤ i := by omega
    have hwidth : i - 6 < 26 := by omega
    have hsum : 6 + (i - 6) = i := by omega
    simp [h, h6, hi, hwidth, hsum]

/-- A header the engine writes, as placed fields (R14). -/
theorem headerWrite_place (head : Word) (st : RecordState) (n : LaneId) : headerWrite head st n =
    place 6 (head.extractLsb' 6 26) ||| place 0 (st.code.setWidth 3) ||| place 3 (BitVec.ofNat 3 n.val) := by
  have hst : st.code = place 0 (st.code.setWidth 3) := by cases st <;> rfl
  rw [headerWrite, headerRest_place, ← hst]

/-- The fields of a header the engine writes (R14). -/
theorem headerWrite_fields (head : Word) (st : RecordState) (n : LaneId) :
    ((headerWrite head st n).extractLsb' 0 3).toNat = st.code.toNat ∧
    ((headerWrite head st n).extractLsb' 3 3).toNat = n.val ∧
    (headerWrite head st n).extractLsb' 6 26 = head.extractLsb' 6 26 := by
  rw [headerWrite_place]
  simp (decide := true) only [BitVec.extractLsb'_or, extract_place_same, extract_place_apart, BitVec.or_zero,
    BitVec.zero_or, ofNat_toNat_fits (k := n.val) (n := 3) n.isLt, and_true]
  cases st <;> rfl

/-- The fires of word 7 as a placed field (R11). -/
theorem fires_place (fires : Nat) : num fires &&& 0x1FFF#32 = place 0 (BitVec.ofNat 13 fires) := by
  apply BitVec.eq_of_toNat_eq
  have hmask : (0x1FFF#32).toNat = 2 ^ 13 - 1 := rfl
  rw [BitVec.toNat_and, hmask, Nat.and_two_pow_sub_one_eq_mod]
  simp [num, place]
  omega

/-- The fields of word 7 (R11, R176). -/
theorem resultWord_fields {fires reason : Nat} (hfires : fires ≤ 4096) (hreason : reason ≤ 10) (pass : Byte)
    (outcome : CueOutcome) (late lost : Bool) :
    let w := resultWord fires pass outcome late lost (BitVec.ofNat 32 reason)
    (w.extractLsb' 0 13).toNat = fires ∧ w.extractLsb' 13 8 = pass ∧
      (w.extractLsb' 21 3).toNat = (match outcome with
        | .none_ => 0 | .done => 1 | .expired => 2 | .aborted => 3 | .faulted => 4 | .returned => 5 | .void => 6) ∧
      w.getLsbD 24 = late ∧ w.getLsbD 25 = lost ∧ (w.extractLsb' 26 4).toNat = reason ∧ w.extractLsb' 30 2 = 0#2 := by
  have houtcome : outcome.code <<< 21 = place 21 (outcome.code.setWidth 3) := by cases outcome <;> rfl
  have hreason' : reason < 2 ^ 4 := by omega
  have hword : BitVec.ofNat 32 reason <<< 26 = place 26 (BitVec.ofNat 4 reason) := num_place hreason' (by decide) 26
  have hfires' : fires < 2 ^ 13 := by omega
  intro w
  have hplace : w = place 0 (BitVec.ofNat 13 fires) ||| place 13 pass ||| place 21 (outcome.code.setWidth 3) |||
      place 24 (BitVec.ofBool late) ||| place 25 (BitVec.ofBool lost) ||| place 26 (BitVec.ofNat 4 reason) := by
    show resultWord _ _ _ _ _ _ = _
    rw [resultWord, fires_place, houtcome, flag_place, flag_place, hword]
  rw [hplace]
  simp (decide := true) only [bit_extract, BitVec.extractLsb'_or, extract_place_same, extract_place_apart, BitVec.or_zero,
    BitVec.zero_or, ofNat_toNat_fits hreason', ofNat_toNat_fits hfires', ofBool_bit, true_and, and_true]
  cases outcome <;> rfl

/-- The echo and result word (R176). -/
theorem echoWord_fields (seq : Byte) (r : OrderResult) : (echoWord seq r).extractLsb' 0 8 = seq ∧
    ((echoWord seq r).extractLsb' 8 4).toNat = (match r with
      | .ok => 0 | .notReady => 1 | .halted => 2 | .busyLanes => 3 | .badSetup => 4
      | .badArg => 5 | .notHostBeat => 6 | .badOrder => 7 | .wrongState => 8 | .badSlot => 9) ∧
    (echoWord seq r).extractLsb' 12 20 = 0#20 := by
  have hresult : r.code <<< 8 = place 8 (r.code.setWidth 4) := by cases r <;> rfl
  rw [echoWord, hresult]
  simp (decide := true) only [BitVec.extractLsb'_or, extract_place_same, extract_place_apart, BitVec.or_zero,
    BitVec.zero_or, true_and, and_true]
  cases r <;> rfl

/-- The trigger is a source (R4). -/
theorem triggerOf_source (kind index : Nat) (code : BitVec 6) (i : SourceId) :
    triggerOf kind index code = some (.source i) ↔ (kind = 1 ∧ index < 8 ∧ i.val = index) ∨
      (kind = 2 ∧ index < 8 ∧ i.val = 8 + index) ∨ (kind = 3 ∧ index < 16 ∧ i.val = 16 + index) := by
  have ranged : ∀ k (p : Prop) [Decidable p], (p → k < 32) →
      ((if p then some (Trigger.source (Fin.ofNat 32 k)) else none) = some (.source i) ↔ p ∧ i.val = k) := by
    intro k p _ hk
    by_cases h : p
    · rw [if_pos h, Option.some_inj, Trigger.source.injEq, Fin.ext_iff, eq_comm]
      show i.val = k % 32 ↔ _
      rw [Nat.mod_eq_of_lt (hk h)]
      exact (and_iff_right h).symm
    · rw [if_neg h]
      exact iff_of_false (by simp) (fun hp => h hp.1)
  unfold triggerOf
  match kind with
  | 0 => simp
  | 1 => exact (ranged index (index < 8) (by omega)).trans (by simp)
  | 2 => exact (ranged (8 + index) (index < 8) (by omega)).trans (by simp)
  | 3 => exact (ranged (16 + index) (index < 16) (by omega)).trans (by simp)
  | 4 => simp
  | _ + 5 => simp

/-- The trigger is a link code (R4). -/
theorem triggerOf_link (kind index : Nat) (own code : BitVec 6) :
    triggerOf kind index own = some (.link code) ↔ kind = 4 ∧ index < 63 ∧ code = own := by
  unfold triggerOf
  match kind with
  | 0 => simp
  | 1 => simp
  | 2 => simp
  | 3 => simp
  | 4 => simp [eq_comm]
  | _ + 5 => simp

/-- The beat action by its number (11.2). -/
theorem beatAction_number (c : Copy) : (c.w3.extractLsb' 24 2).toNat =
    match c.beatAction with | .none_ => 0 | .start => 1 | .stop => 2 | .retune => 3 := by
  have h : c.beatAction = match (c.w3.extractLsb' 24 2).toNat with | 0 => .none_ | 1 => .start | 2 => .stop | _ => .retune := rfl
  rw [h]
  have := (c.w3.extractLsb' 24 2).isLt
  generalize (c.w3.extractLsb' 24 2).toNat = k at *
  match k, this with
  | 0, _ => rfl
  | 1, _ => rfl
  | 2, _ => rfl
  | 3, _ => rfl

/-- The action by its number (11.2). -/
theorem action_number (c : Copy) : (c.head.extractLsb' 6 2).toNat =
    match c.action with | .set => 0 | .toggle => 1 | .pulse => 2 | .mark => 3 := by
  rw [action_eq]
  have := (c.head.extractLsb' 6 2).isLt
  generalize (c.head.extractLsb' 6 2).toNat = k at *
  match k, this with
  | 0, _ => rfl
  | 1, _ => rfl
  | 2, _ => rfl
  | 3, _ => rfl

/-- Settles O48: each word by its placed fields. -/
theorem cueEntryWords : Obligations.CueEntryWords := by
  refine ⟨fun w => ⟨rfl, rfl, rfl, rfl, rfl, rfl, rfl⟩, echoWord_fields, fun c => ?_, fun n c => ?_⟩
  · refine ⟨action_number c, trigger_now c, fun i => triggerOf_source _ _ _ i, fun code => triggerOf_link _ _ _ code, rfl,
      rfl, rfl, rfl, rfl, rfl, rfl, rfl, rfl, rfl, ?_, rfl, beatAction_number c, rfl, rfl, rfl, rfl, rfl⟩
    unfold Copy.raiseFlag
    split <;> rfl
  · intro isHeader isResult b
    have hslot : slotWord c.slot = b := rfl
    have header : ∀ (st : RecordState) (k : Nat), st.code.toNat = k → isHeader (headerWrite c.head st n) k := fun st k hk =>
      hk ▸ headerWrite_fields c.head st n
    have result : ∀ {fires reason : Nat} (pass outcome late lost), fires ≤ 4096 → reason ≤ 10 →
        isResult (resultWord fires pass outcome late lost (BitVec.ofNat 32 reason)) fires pass outcome late lost reason :=
      fun pass outcome late lost hfires hreason => resultWord_fields hfires hreason pass outcome late lost
    refine ⟨⟨_, rfl, header .taken 2 rfl⟩, fun stamp reason _ hreason => ⟨_, _, rfl, header .void 4 rfl, ?_⟩,
      fun f e reason remains hfires hreason => ⟨_, _, rfl, ?_, ?_⟩, ⟨_, _, rfl, header .armed 1 rfl, ?_⟩⟩
    · exact result c.pass .void false false (by decide) (by omega)
    · refine header _ _ ?_
      unfold endingState
      cases c.isKeep <;> cases remains <;> rfl
    · exact result e.pass e.outcome f.late f.sendLost hfires hreason
    · exact result c.pass .returned false false (by decide) (by decide)

end Sys2Proof.Machine
end

section
/-! SUPPORT. Revisit countdowns (R43, R44), the transmitter and the receiver before a frame (R124, R125, R134), and the end
of a pulse (R61). -/

namespace Sys2Proof.Machine

/-- An active lane is in one of four states (R39). -/
theorem active_of {st : LaneState} (h : st = .priming ∨ st = .running ∨ st = .starved ∨ st = .held) : st.active = true := by
  rcases h with h | h | h | h <;> rw [h] <;> rfl

/-- Settles O53: the countdown loads again, and re-read wanted by the pause. -/
theorem revisitExpires : Obligations.RevisitExpires := by
  intro n s he hr hst loaded
  have hlive : s.engine.live = true := (live_iff _).mpr he
  have hdue : (s.lane n).revisitDue = true := by
    unfold Lane.revisitDue
    rw [active_of hst, hr]
    rfl
  show Host.Outcome.next (s.revisitExpires n) = _
  unfold State.revisitExpires
  rw [if_pos ⟨hlive, hdue⟩, updLane_eq]
  refine congrArg (fun l : Lane => Host.Outcome.next (s.withLane n l)) ?_
  unfold Lane.revisitExpires
  by_cases hp : (s.lane n).pause = .atEnd ∨ (s.lane n).pause = .notReady
  · simp only [if_pos hp]
    rfl
  · simp only [if_neg hp]
    rfl

/-- The end of a sent frame (R134). -/
theorem exec_frameSent {s : State} {b : Byte} (hb : s.link.sending = some b) :
    exec .frameSent s = .next (s.withLink (LinkPort.begin_ { s.link with sending := none } s.engine.live)) := by
  show Host.Outcome.next s.frameSent = _
  unfold State.frameSent
  rw [if_pos (by rw [hb]; rfl), updLink_eq]

/-- An IDLE transmitter in operation begins the relayed stop code, or the oldest code (R134). -/
theorem begin_cases {l : LinkPort} (hp : l.plan.enabled = true) (hs : l.sending = none) : LinkPort.begin_ l true =
    if l.relayPending = true then { l with relayPending := false, sending := some stopFrame }
    else match l.txq with
      | [] => l
      | e :: q => { l with txq := q, sending := some (frameByte e.code e.group) } := by
  unfold LinkPort.begin_
  refine (if_pos (by rw [hp, hs]; rfl)).trans ?_
  split
  · rfl
  · cases l.txq <;> rfl

/-- The data byte's code and group (11.6). -/
theorem frameByte_fields (code : BitVec 6) (group : BitVec 2) :
    (frameByte code group).extractLsb' 0 6 = code ∧ (frameByte code group).extractLsb' 6 2 = group := by
  unfold frameByte
  constructor
  · apply BitVec.eq_of_getLsbD_eq
    intro i hi
    rw [BitVec.getLsbD_extractLsb', BitVec.getLsbD_append]
    simp only [hi, Nat.zero_add, decide_true, Bool.true_and, if_true]
  · apply BitVec.eq_of_getLsbD_eq
    intro i hi
    rw [BitVec.getLsbD_extractLsb', BitVec.getLsbD_append]
    have hhigh : ¬ 6 + i < 6 := by omega
    simp only [hi, hhigh, decide_true, Bool.true_and, if_false, Nat.add_sub_cancel_left]

/-- Settles O56: what the transmitter begins, and the receiver's states before a frame. -/
theorem frameSentAndReceiverStates : Obligations.FrameSentAndReceiverStates := by
  intro s
  refine ⟨fun b hb hp he => ?_, fun h => congrArg Host.Outcome.next (if_pos h), fun h => congrArg Host.Outcome.next (if_pos h),
    fun h level => congrArg Host.Outcome.next (if_pos h)⟩
  have hlive : s.engine.live = true := (live_iff _).mpr he
  have hexec := exec_frameSent hb
  rw [hlive, begin_cases (l := { s.link with sending := none }) hp rfl] at hexec
  rw [hexec]
  dsimp only
  refine ⟨fun h => ?_, fun h e q hq => ?_, fun h hq => ?_⟩
  · rw [if_pos h]
    rfl
  · refine ⟨frameByte e.code e.group, (frameByte_fields _ _).1, (frameByte_fields _ _).2, ?_⟩
    rw [if_neg (by rw [h]; decide), hq]
  · rw [if_neg (by rw [h]; decide), hq]

/-- Settles O50: the pins at the pulse's end, and the next wait. -/
theorem pulseEndRestoresPins : Obligations.PulseEndRestoresPins := by
  refine ⟨fun n s f c q p he hc hq hp ht => exec_pulseEnd he hc hq hp ht, ?_⟩
  intro n s f c q p he hs hc hq hp ht hwait hended hfires t
  rw [exec_pulseEnd he hc hq hp ht]
  have howed := (hs n).1
  refine ⟨fun hst => ?_, fun hst hn => ?_⟩
  · have hsettled : (t.withLane n { s.lane n with cur := some { f with pulse := none } }).settled := by
      refine withLane_settled_of hs (fun _ _ => rfl) ⟨howed, ?_, ?_⟩
      · unfold Lane.pendsFree
        dsimp only
        rw [Option.bind_some, hended]
        exact Bool.and_false _
      · rw [Bool.eq_false_iff]
        intro hg
        rcases (canGo_iff _).mp hg with ⟨h, _⟩ | ⟨f', c', q', hf', hq', _, _, _, hgo⟩
        · cases h
        · cases hf'
          rw [show (s.lane n).queue = .copy c' :: q' from hq', List.cons.injEq, Entry.copy.injEq] at hq
          rw [← hq.1] at hfires
          rcases hgo with h | h | h
          · exact absurd hfires (not_lt.mpr h)
          · exact absurd (hst.symm.trans h) (by decide)
          · exact absurd (hst.symm.trans h) (by decide)
    rw [settle_settled hsettled]
  · exact congrArg Host.Outcome.next
      (wait_settle (k := { s.lane n with cur := some { f with pulse := none } }) hs (fun _ _ => rfl) howed rfl hq hwait rfl
        hended hfires hst hn)

end Sys2Proof.Machine
end

section
/-! SUPPORT. The completion of a cue at the end of its last pulse (R20, R41, R61, R69, R72, R73). -/

namespace Sys2Proof.Machine

/-- The post actions of a copy that has none (R69). -/
theorem postActions_none {s : State} {n : LaneId} {c : Copy} (h : c.noPostActions) : s.postActions n c = s := by
  obtain ⟨hflag, hsend, hbeat, hnote⟩ := h
  unfold State.postActions State.beatPost
  rw [hflag, hsend, hbeat, hnote]
  rfl

/-- A lane with neither a current cue nor an entry has nothing to go on with. -/
theorem emptyLane_settled {s t : State} {n : LaneId} {l : Lane} (hs : s.settled) (hu : ∀ m, m ≠ n → t.lane m = s.lane m)
    (ho : l.owed = []) (hc : l.cur = none) (hq : l.queue = []) : (t.withLane n l).settled := by
  refine withLane_settled_of hs hu ⟨ho, ?_, ?_⟩
  · unfold Lane.pendsFree
    rw [hc]
    exact Bool.and_false _
  · unfold Lane.canGo
    rw [hc, hq]

/-- The progress values of a lane whose only entry is its current cue (R52). -/
theorem progressWords_onlyCue {l : Lane} {c d : Copy} {w : Word} {f g : Firing} (hc : l.cur = some g)
    (hq : l.queue = [.copy c]) (hslot : d.slot = c.slot) :
    ({ l with gapStart := w, queue := [.copy d], cur := some f } : Lane).progressWords = l.progressWords := by
  unfold Lane.progressWords Lane.currentSlot
  dsimp only
  rw [hc, hq]
  dsimp only
  rw [hslot]
  rfl

/-- Completing a cue that is the lane's only entry (R17, R20, R69): it is in completion pending, with what waits for room to
follow. -/
theorem onlyCue_completes {s t : State} {n : LaneId} {f g : Firing} {c : Copy} (hs : s.settled)
    (hu : ∀ m, t.lane m = s.lane m) (hc : (s.lane n).cur = some g) (hq : (s.lane n).queue = [.copy c])
    (hwait : f.waiting = false) (hpulse : f.pulse = none) (hended : f.ended = none) (hfires : c.required ≤ f.fires)
    (hpost : c.noPostActions) :
    (t.withLane n { s.lane n with cur := some f }).follow = some (t.withLane n { s.lane n with
      gapStart := t.timebase, queue := [.copy { c with pass := c.pass + 1 }]
      cur := some { f with ended := some { outcome := .done, stamp := t.timebase, pass := c.pass + 1 } } }) := by
  have hcur : ({ s.lane n with cur := some f } : Lane).cur = some f := rfl
  have hqueue : ({ s.lane n with cur := some f } : Lane).queue = [.copy c] := hq
  have hwords : ({ s.lane n with cur := some f } : Lane).progressWords = (t.lane n).progressWords := by
    rw [hu n]
    exact progressWords_congr rfl rfl rfl (by rw [hc]; rfl) rfl rfl rfl rfl rfl rfl
  generalize hk : ({ s.lane n with cur := some f } : Lane) = k at hcur hqueue hwords
  have hk' : k.owed = [] := by rw [← hk]; exact (hs n).1
  rw [follow_lane hs (fun m _ => hu m) hk']
  · rw [laneGo_completes (s := t.withLane n k) (by rw [withLane_lane]; exact hcur) (by rw [withLane_lane]; exact hqueue)
      hfires, postActions_none hpost, withLane_lane, withLane_withLane _ _ _ _ (.inl hwords), hqueue, hcur, ← hk]
    refine congrArg (fun q => some (t.withLane n { s.lane n with gapStart := t.timebase, queue := q, cur := _ })) ?_
    rw [bumpPass_eq]
    simp only [List.map_cons, List.map_nil, if_pos]
  · unfold Lane.pendsFree
    rw [hcur, Option.bind_some, hended]
    exact Bool.and_false _
  · exact (canGo_iff _).mpr (.inr ⟨f, c, [], hcur, hqueue, hwait, hpulse, hended, .inl hfires⟩)

/-- Settles O51: a completion by its post actions, a leaving by its three ways, and the two small actions of a first
completion. -/
theorem pulseEndCompletesCue : Obligations.PulseEndCompletesCue := by
  refine ⟨fun s n f c q he hc hq hfires => ⟨s.postActions n c, postActions_posted he n c, laneGo_completes hc hq hfires⟩,
    fun s n f c q e hc hq he => ?leaving, ?_⟩
  case leaving =>
    intro remains t
    rw [releasePending_eq hc hq he]
    have hopen : c.isFinal = false → (s.lane n).st ≠ .stopping → ¬ (c.isFinal = true ∨ (s.lane n).st = .stopping) :=
      fun hf hst h => h.elim (fun hfinal => Bool.false_ne_true (hf.symm.trans hfinal)) hst
    refine ⟨fun h => if_pos h, fun hf hst h => (if_neg (hopen hf hst)).trans (if_pos h), fun hf hst hheld hq' => ?_⟩
    exact (if_neg (hopen hf hst)).trans (if_neg (fun h => h.elim hheld (fun hne => hne hq')))
  intro n s f c p he hs hc hq hp ht hwait hended hfires hpost hst t done u l
  rw [exec_pulseEnd he hc hq hp ht]
  have hfirst : (t.withLane n { s.lane n with cur := some { f with pulse := none } }).follow = _ :=
    onlyCue_completes (t := t) (f := { f with pulse := none }) hs (fun _ => rfl) hc hq hwait rfl hended hfires hpost
  have hwords := progressWords_onlyCue (l := s.lane n) (d := { c with pass := c.pass + 1 }) (w := s.timebase)
    (f := { f with pulse := none, ended := some done }) hc hq rfl
  have hleaves : 0 < s.room → (t.withLane n { s.lane n with
      gapStart := s.timebase, queue := [.copy { c with pass := c.pass + 1 }]
      cur := some { f with pulse := none, ended := some done } }).follow = some _ := fun hr =>
    follow_pending_room (t := t) hs (fun _ _ => rfl) (hs n).1 rfl rfl rfl hr
  refine ⟨fun hr hf => ?_, fun hr hf hh => ?_, fun hr => ?_⟩
  · have hsecond := (hleaves hr).trans (congrArg some (leave_starved (t := t) rfl hwords hf hst))
    refine congrArg Host.Outcome.next (settle_two hfirst hsecond (settled_quiet ?_))
    have hempty : (u.withLane n { l with st := .starved }).settled :=
      emptyLane_settled hs (fun _ _ => rfl) (hs n).1 rfl rfl
    exact settled_lanes hempty rfl
  · have hsecond := (hleaves hr).trans (congrArg some (leave_final (t := t) rfl hwords hf hh))
    have hport : (t.overtake n).port = (s.overtake n).port := overtake_port n rfl
    rw [hport] at hsecond
    refine congrArg Host.Outcome.next ((settle_two hfirst hsecond (settled_quiet ?_)).trans ?_)
    · have hempty : (({ u with port := (s.overtake n).port } : State).withLane n ({ l with
          cur := some { f with pulse := none, ended := some done } }.closed .idle)).settled :=
        emptyLane_settled hs (fun _ _ => rfl) (hs n).1 rfl rfl
      exact settled_lanes hempty rfl
    · unfold Lane.closed
      rw [← hh]
      rfl
  · exact congrArg Host.Outcome.next (settle_follow hfirst
      (quiet_pending_full (t := t) hs (fun _ _ => rfl) rfl rfl rfl hr))

end Sys2Proof.Machine
end

section
/-! SUPPORT. A beat's expiry (R59 to R61, R77 to R82, R97): the beats an event leaves, and the one lane it fires. -/

namespace Sys2Proof.Machine

/-! The beats through an event. -/

/-- A fold of steps that leave the beats leaves them. -/
theorem foldl_beats {α : Type} {g : State → α → State} (hg : ∀ s a, (g s a).beats = s.beats) (as : List α) (s : State) :
    (as.foldl g s).beats = s.beats := by
  induction as generalizing s with
  | nil => rfl
  | cons a as ih => exact (ih _).trans (hg s a)

/-- A fire leaves the beats (R59). -/
theorem fireLane_beats (s : State) (n : LaneId) (v : Option (SourceId × Word)) : (s.fireLane n v).beats = s.beats := by
  unfold State.fireLane
  split <;> simp

/-- The waits that begin after an event leave the beats (R66). -/
theorem afterEvent_beats (s : State) (t : Trigger) : (s.afterEvent t).beats = s.beats := by
  rw [afterEvent_eq]
  rfl

/-- An event of a source leaves the beats (R75). -/
theorem sourceEvent_beats (s : State) (i : SourceId) : (s.sourceEvent i).beats = s.beats := by
  unfold State.sourceEvent
  split
  · unfold State.claimEvent
    rw [afterEvent_beats]
    unfold State.claimTaken
    split
    · exact fireLane_beats _ _ _
    · split
      · rw [setSource_eq]
        rfl
      · rw [setSource_eq]
        rfl
  · unfold State.shareEvent
    rw [afterEvent_beats]
    unfold State.shareTaken
    dsimp only
    rw [setSource_eq]
    exact foldl_beats (fun s n => fireLane_beats s n _) _ s

/-- The reload or stop of a running beat at its expiry (R97). -/
theorem reload_eq {b : Beat} (hr : b.running = true) : b.reload = { b with
    period := b.next, left := if b.every = true then b.next else 0, running := b.every } := by
  unfold Beat.reload
  cases h : b.every
  · rfl
  · simp [hr]

/-- BEAT_EXPIRY of a beat that is due (R97). -/
theorem exec_beatExpiry {b : Fin 8} {s : State} (he : s.engine = .ready) (hr : s.beats[b].running = true)
    (hl : s.beats[b].left = 0) : exec (.beatExpiry b) s =
      .next ({ s.sourceEvent (beatSource b) with beats := s.beats.set b.val s.beats[b].reload } : State).settle := by
  have hdue : s.beats[b].due = true := by
    unfold Beat.due
    rw [hr, hl]
    rfl
  show Host.Outcome.next (s.beatExpires b) = _
  unfold State.beatExpires State.updBeat
  rw [if_pos ⟨he, hdue⟩, sourceEvent_beats]

/-! One lane fires. -/

/-- A source's last event, which no item shows, and what a fire changes do not touch each other. -/
theorem withSource_last_apart (s : State) (i : SourceId) (w : Option Word) (p : Pins) (n : LaneId) (l : Lane) :
    ((s.withOut p).withLane n l).withSource i { s.source i with last := w } =
      ((s.withSource i { s.source i with last := w }).withOut p).withLane n l := by
  have hmarks : ∀ u : State, u.source i = s.source i → u.withSource i { s.source i with last := w } =
      { u with sources := u.sources.set i.val { s.source i with last := w } } := fun u hu => by
    unfold State.withSource
    rw [hu, if_pos ⟨rfl, rfl⟩]
  rw [hmarks ((s.withOut p).withLane n l) rfl]
  exact congrArg (fun u : State => (u.withOut p).withLane n l) (hmarks s rfl).symm

/-- No lane is passed over by an event where none has an expiry on its trigger at this tick (R66). -/
theorem afterEvent_none {s u : State} {n : LaneId} {t : Trigger} (hpassed : ∀ m, (s.lane m).expiredOn ≠ some t)
    (hothers : ∀ m, m ≠ n → u.lane m = s.lane m) (hn : (u.lane n).expiredOn = none) : u.afterEvent t = u := by
  rw [afterEvent_eq]
  refine anew_none (fun m _ => ?_)
  by_cases hm : m = n
  · rw [hm, hn]
    exact fun h => by cases h
  · rw [hothers m hm]
    exact hpassed m

/-- An event of a source whose only waiter, or chosen waiter, is lane n (R59, R79, R81, R82): the lane fires. -/
theorem sourceEvent_fires {s : State} {i : SourceId} {n : LaneId} {f : Firing} {c : Copy} {q : List Entry}
    (hpassed : ∀ m, (s.lane m).expiredOn ≠ some (.source i)) (hn : (s.lane n).waitsOn (.source i) = true)
    (hc : (s.lane n).cur = some f) (hq : (s.lane n).queue = .copy c :: q)
    (hshare : (s.source i).claim = false → ∀ m, (s.lane m).waitsOn (.source i) = true → m = n)
    (hclaim : (s.source i).claim = true → ∀ m, (s.lane m).waitsOn (.source i) = true →
      if s.laneUrgent.getLsbD n.val ≠ s.laneUrgent.getLsbD m.val then s.laneUrgent.getLsbD n.val = true else n ≤ m) :
    s.sourceEvent i = ((if (s.source i).claim = true then s
        else s.withSource i { s.source i with last := some s.timebase }).withOut (c.levelsAfter s.out)).withLane n
      { s.lane n with
        gapStart := s.timebase, gapEvent := if (s.source i).claim = true then none else some (i, s.timebase)
        expiredOn := none
        cur := some { f with
          waiting := false, limit := .none_, fires := f.fires + 1
          pulse := if c.action = .pulse then
              some { endTick := s.timebase + c.pulseWidth.setWidth 32, restore := s.out &&& c.mask }
            else none } } := by
  have hfire : ∀ ev, s.fireLane n ev = _ := fun ev => fireLane_eq ev hc hq
  unfold State.sourceEvent
  cases hmode : (s.source i).claim with
  | true =>
    have hfirst : s.firstOf (s.waiters (.source i)) = some n := firstOf_spec s _ n hn (fun m hm => hclaim hmode m hm)
    have htaken : s.claimTaken i = s.fireLane n none := by
      unfold State.claimTaken
      rw [hfirst]
    rw [if_pos rfl, if_pos rfl, if_pos rfl]
    unfold State.claimEvent
    rw [htaken, hfire, afterEvent_none hpassed (n := n) (fun m hm => by rw [withLane_lane_ne _ _ hm]; rfl)
      (by rw [withLane_lane]), firedLevels_eq, firedPulse_eq]
  | false =>
    have htaken : s.shareTaken i = ((s.fireLane n (some (i, s.timebase))).withSource i
        { s.source i with last := some s.timebase }) := by
      unfold State.shareTaken
      rw [waiters_one hn (hshare hmode)]
      dsimp only [List.foldl_cons, List.foldl_nil]
      rw [setSource_eq, hfire]
      rfl
    rw [if_neg (Bool.false_ne_true), if_neg (Bool.false_ne_true), if_neg (Bool.false_ne_true)]
    unfold State.shareEvent
    rw [htaken, hfire, withSource_last_apart, afterEvent_none hpassed (n := n)
      (fun m hm => by rw [withLane_lane_ne _ _ hm]; rfl) (by rw [withLane_lane]), firedLevels_eq, firedPulse_eq]

/-- A waiting lane's trigger (R54, R77). -/
theorem waitsOn_trigger {l : Lane} {t : Trigger} {f : Firing} {c : Copy} {q : List Entry} (h : l.waitsOn t = true)
    (hc : l.cur = some f) (hq : l.queue = .copy c :: q) : c.trigger = some t := by
  unfold Lane.waitsOn Lane.standsOn Lane.currentCopy at h
  rw [hc, hq] at h
  simp at h
  exact h.1.2

/-- Settles O49: what the event reaches, with no lane waiting, and with the one lane it fires. -/
theorem beatExpiryDelivered : Obligations.BeatExpiryDelivered := by
  intro b s he hr hl i beat t
  have hexec : exec (.beatExpiry b) s = .next ({ s.sourceEvent i with beats := s.beats.set b.val beat } : State).settle := by
    rw [exec_beatExpiry he hr hl, reload_eq hr]
  refine ⟨⟨s.sourceEvent i, sourceEvent_delivered s i, hexec⟩, fun hs hun => ?_, ?_⟩
  · have hsettled : (t.unheard i).settled := settled_lanes hs (unheard_lanes t i)
    rw [hexec, unheard_eq hun, unheard_beats, settle_settled hsettled]
  intro hs hpassed n f c q hn hc hq hshare hclaim fired l out u
  have hstate : ({ s.sourceEvent i with beats := s.beats.set b.val beat } : State) = u.withLane n { l with
      cur := some { fired with
        pulse := if c.action = .pulse then
            some { endTick := s.timebase + c.pulseWidth.setWidth 32, restore := s.out &&& c.mask }
          else none } } := by
    have hbase : ({ (if (s.source i).claim = true then s
        else s.withSource i { s.source i with last := some s.timebase } : State) with beats := s.beats.set b.val beat } : State) =
        if (s.source i).claim = true then t else t.withSource i { s.source i with last := some s.timebase } := by
      split <;> rfl
    rw [sourceEvent_fires hpassed hn hc hq hshare hclaim]
    exact congrArg (fun v : State => (v.withOut out).withLane n _) hbase
  rw [hexec, hstate]
  have hothers : ∀ m, m ≠ n → u.lane m = s.lane m := fun m _ => by
    show State.lane (State.withOut (if _ then _ else _) _) m = _
    split <;> rfl
  have howed := (hs n).1
  refine ⟨fun ha => ?_, fun ha hended hfires hst hnt => ?_⟩
  · rw [if_pos ha, settle_settled]
    refine withLane_settled_of hs hothers ⟨howed, ?_, canGo_pulse rfl hq rfl⟩
    have hpends := (hs n).2.1
    unfold Lane.pendsFree at hpends ⊢
    rw [hc] at hpends
    exact hpends
  · rw [if_neg ha]
    refine congrArg Host.Outcome.next (wait_settle (c := c) (q := q) hs hothers howed rfl hq rfl rfl hended hfires hst ?_)
    refine .inl ⟨i, waitsOn_trigger hn hc hq, ?_⟩
    have hsource : u.source i = if (s.source i).claim = true then s.source i
        else { s.source i with last := some s.timebase } := by
      show State.source (State.withOut (if _ then _ else _) _) i = _
      split
      · rfl
      · simp [State.source, State.withSource, State.withOut]
    have hgap : l.gapEvent = if (s.source i).claim = true then none else some (i, s.timebase) := rfl
    rw [hsource]
    cases hmode : (s.source i).claim with
    | true =>
      rw [if_pos rfl]
      refine hnt.imp_right (fun h => .inl ⟨hmode, h.resolve_left ?_⟩)
      rw [hmode]
      decide
    | false =>
      rw [hmode, if_neg Bool.false_ne_true] at hgap
      rw [if_neg Bool.false_ne_true]
      refine .inr (.inr ⟨hmode, fun w hw => .inr ?_⟩)
      rw [← Option.some.inj hw]
      exact hgap

end Sys2Proof.Machine
end

section
/-! SUPPORT. The expiry of a wait limit (R41, R50, R65, R66). -/

namespace Sys2Proof.Machine

/-- A lane's current cue waits, and names a trigger (R54, R77). -/
theorem standsOn_iff (l : Lane) (t : Trigger) : l.standsOn t = true ↔
    ∃ f c q, l.cur = some f ∧ l.queue = .copy c :: q ∧ f.waiting = true ∧ c.trigger = some t := by
  unfold Lane.standsOn Lane.currentCopy
  cases hc : l.cur with
  | none => simp
  | some f =>
    cases hq : l.queue with
    | nil => simp
    | cons e q => cases e <;> simp

/-- A lane that does not wait keeps no expiry (R66). -/
theorem afterExpiry_idle {l : Lane} (h : ∀ f, l.cur = some f → f.waiting = false) :
    l.afterExpiry = { l with expiredOn := none } := by
  have hno : ∀ t, l.standsOn t = false := fun t => by
    rw [Bool.eq_false_iff]
    intro hs
    obtain ⟨f, c, q, hc, _, hw, _⟩ := (standsOn_iff l t).mp hs
    rw [h f hc] at hw
    cases hw
  have hnone : l.expiredOn.filter l.standsOn = none := by
    cases l.expiredOn with
    | none => rfl
    | some t => simp [Option.filter, hno]
  unfold Lane.afterExpiry
  rw [hnone]

/-- A lane whose copy `c` ends EXPIRED (R17, R65): it is in completion pending, and the trigger of the wait is held. -/
def Lane.expiring (l : Lane) (c : Copy) (f : Firing) (now : Word) : Lane :=
  { l with
    gapStart := now, gapEvent := none, expiredOn := c.trigger, queue := bumpPass c.slot l.queue
    cur := some { f with
      waiting := false, limit := .none_
      ended := some { outcome := .expired, stamp := now, pass := c.pass + 1 } } }

/-- The wait limit of a copy without EXPIRY-FAULT expires (R65). -/
theorem exec_expires {n : LaneId} {s : State} {f : Firing} {c : Copy} {q : List Entry} (he : s.engine = .ready)
    (hc : (s.lane n).cur = some f) (hq : (s.lane n).queue = .copy c :: q) (hw : f.waiting = true)
    (hl : f.limit = .counting 0) (hx : c.expiryFault = false) :
    let u := (s.withLane n ((s.lane n).expiring c f s.timebase)).settle
    exec (.waitLimitExpiry n) s = .next (u.withLane n (u.lane n).afterExpiry) := by
  rw [exec_waitLimitExpiry he hc hq hw hl]
  exact congrArg Host.Outcome.next (if_neg (by rw [hx]; decide))

/-- The progress values of a lane do not show what an expiry changes but for its queue (R17, R52). -/
theorem progressWords_expired {l : Lane} {f g : Firing} {c : Copy} {q : List Entry} {w : Word} {x y : _} (hc : l.cur = some g)
    (hq : l.queue = .copy c :: q) (slot : Link) :
    ({ l with gapStart := w, gapEvent := x, expiredOn := y, queue := bumpPass slot l.queue, cur := some f } : Lane).progressWords =
      l.progressWords := by
  have hhead : bumpPass slot (.copy c :: q) = .copy (if c.slot = slot then { c with pass := c.pass + 1 } else c) :: bumpPass slot q :=
    rfl
  have hslot : (if c.slot = slot then { c with pass := c.pass + 1 } else c).slot = c.slot := by split <;> rfl
  unfold Lane.progressWords Lane.currentSlot
  dsimp only
  rw [bumpPass_length, hc, hq, hhead]
  dsimp only
  rw [hslot]

/-- The queue of an expiring lane (R17). -/
theorem expiring_queue {l : Lane} {c : Copy} {q : List Entry} (hq : l.queue = .copy c :: q) (f : Firing) (now : Word) :
    (l.expiring c f now).queue = .copy { c with pass := c.pass + 1 } :: bumpPass c.slot q := by
  show bumpPass c.slot l.queue = _
  rw [hq]
  simp [bumpPass]

/-- With no room, an expired cue stays in completion pending (R73). -/
theorem expires_full {n : LaneId} {s : State} {f : Firing} {c : Copy} {q : List Entry} (he : s.engine = .ready)
    (hs : s.settled) (hc : (s.lane n).cur = some f) (hq : (s.lane n).queue = .copy c :: q) (hw : f.waiting = true)
    (hl : f.limit = .counting 0) (hx : c.expiryFault = false) (hr : s.room = 0) :
    exec (.waitLimitExpiry n) s =
      .next (s.withLane n { (s.lane n).expiring c f s.timebase with expiredOn := none }) := by
  have hwords : ((s.lane n).expiring c f s.timebase).progressWords = (s.lane n).progressWords :=
    progressWords_expired hc hq c.slot
  have hquiet := quiet_pending_full (t := s) (n := n) (k := (s.lane n).expiring c f s.timebase) hs (fun _ _ => rfl) rfl rfl
    (expiring_queue hq f s.timebase) hr
  rw [exec_expires he hc hq hw hl hx, settle_quiet hquiet, withLane_lane,
    afterExpiry_idle (fun f' hf' => by cases hf'; rfl), withLane_withLane _ _ _ _ (.inl hwords)]

/-- The end of an expiry in a lane with no current cue (R66). -/
theorem afterExpiry_alone (t : State) (n : LaneId) (k : Lane) (c : Cause) (hc : k.cur = none) :
    ((t.withLane n k).withCause c).withLane n (((t.withLane n k).withCause c).lane n).afterExpiry =
      (t.withLane n { k with expiredOn := none }).withCause c := by
  have hlane : ((t.withLane n k).withCause c).lane n = k := withLane_lane t n k
  rw [hlane, afterExpiry_idle (fun f hf => by rw [hc] at hf; cases hf)]
  exact congrArg (fun u : State => u.withCause c) (withLane_withLane t n k { k with expiredOn := none } (.inr rfl))

/-- With room, an expired cue leaves, and a lane with nothing behind is STARVED (R41, R73). -/
theorem expires_starved {n : LaneId} {s : State} {f : Firing} {c : Copy} (he : s.engine = .ready)
    (hs : s.settled) (hc : (s.lane n).cur = some f) (hq : (s.lane n).queue = [.copy c]) (hw : f.waiting = true)
    (hl : f.limit = .counting 0) (hx : c.expiryFault = false) (hr : 0 < s.room) (hf : c.isFinal = false)
    (hst : (s.lane n).st = .running) :
    exec (.waitLimitExpiry n) s = .next ((({ s with wbq := s.wbq ++ [resultEntry n c
        { f with waiting := false, limit := .none_ } { outcome := .expired, stamp := s.timebase, pass := c.pass + 1 } 0 false] } :
      State).withLane n { s.lane n with
        gapStart := s.timebase, gapEvent := none, expiredOn := none, queue := [], cur := none, st := .starved }).withCause
          (.starved n)) := by
  have hwords : ((s.lane n).expiring c f s.timebase).progressWords = (s.lane n).progressWords :=
    progressWords_expired hc hq c.slot
  have hqueue := expiring_queue hq f s.timebase
  have hfollow := (follow_pending_room (t := s) (n := n) (k := (s.lane n).expiring c f s.timebase) hs (fun _ _ => rfl)
    (hs n).1 rfl rfl hqueue hr).trans (congrArg some
      (leave_starved (t := s) (k := (s.lane n).expiring c f s.timebase) hqueue hwords hf hst))
  have hempty := emptyLane_settled
    (t := ({ s with wbq := s.wbq ++ [resultEntry n c { f with waiting := false, limit := .none_ }
      { outcome := .expired, stamp := s.timebase, pass := c.pass + 1 } 0 false] } : State)) (n := n)
    (l := { (s.lane n).expiring c f s.timebase with queue := [], cur := none, st := .starved })
    hs (fun _ _ => rfl) (hs n).1 rfl rfl
  rw [exec_expires he hc hq hw hl hx, settle_follow hfollow (settled_quiet (settled_lanes hempty rfl))]
  exact congrArg Host.Outcome.next (afterExpiry_alone _ n _ _ rfl)

/-- Settles O52: the expiry by its room, by what stands behind, and the fault. -/
theorem waitLimitExpires : Obligations.WaitLimitExpires := by
  refine ⟨fun s n t h => by unfold Lane.waitsOn; simp [h], fun n s f c q he hc hq hw hl hx => exec_expires he hc hq hw hl hx,
    standsOn_iff, ?_⟩
  intro n s f c q he hs hc hq hw hl hp hend ended expired counted l resume
  refine ⟨fun hx hr => expires_full (f := f) he hs hc hq hw hl hx hr, fun hx hr hq' hf hst => ?_, fun hx => ?_⟩
  · rw [hq'] at hq
    exact expires_starved (f := f) he hs hc hq hw hl hx hr hf hst
  · have hslot : (s.lane n).currentSlot = c.slot := by
      unfold Lane.currentSlot
      rw [hc, hq]
    have hfault : s.laneFault n .expired none = s.withFault n .expired c.slot ((s.lane n).resumeSlot none) := by
      rw [laneFault_withFault, ← hslot]
      rfl
    refine ⟨s.faultLevels n, fun p => by simp [State.faultLevels], ?_⟩
    rw [exec_waitLimitExpiry he hc hq hw hl]
    refine congrArg Host.Outcome.next ((if_pos hx).trans ?_)
    rw [hfault, settle_quiet (withFault_quiet (fun m _ => hs m) (hs n).1)]
    rfl

end Sys2Proof.Machine
end

section
/-! SUPPORT. An input sample (R108 to R112) and the judgement of a frame (R126 to R130, R135). -/

namespace Sys2Proof.Machine

/-! Halt causes. -/

/-- A halt cause in READY trips a halt (R112). -/
theorem haltCause_ready {s : State} (h : s.engine = .ready) (cause : HaltCause) (line : Fin 8) :
    s.haltCause cause line = s.trip cause line := by
  unfold State.haltCause
  rw [h]

/-- A halt cause in HALTED is a further trip (R112). -/
theorem haltCause_halted {s : State} (h : s.engine = .halted) (cause : HaltCause) (line : Fin 8) :
    s.haltCause cause line = s.trippedAgain := by
  unfold State.haltCause
  rw [h]
  exact furtherTrip_eq s

/-! Input samples. -/

/-- One pin's level among those last seen (log entry 13). -/
theorem samplePins_bit (x : BitVec 8) (i j : Fin 8) (level : Bool) :
    ((x &&& ~~~(1#8 <<< i.val)) ||| (if level = true then 1#8 <<< i.val else 0#8)).getLsbD j.val =
      if j = i then level else x.getLsbD j.val := by
  have hone : (1#8 <<< i.val).getLsbD j.val = decide (j = i) := by revert i j; decide
  have hbit : (if level = true then 1#8 <<< i.val else 0#8).getLsbD j.val = (level && decide (j = i)) := by
    cases level
    · simp
    · rw [if_pos rfl, hone, Bool.true_and]
  rw [BitVec.getLsbD_or, clearBit_getLsbD _ _ _ j.isLt, hbit]
  by_cases h : j = i
  · simp [h]
  · have hne : ¬ j.val = i.val := fun e => h (Fin.ext e)
    simp [h, hne]

/-- A change matches the edge select (R110). -/
theorem matchesChange_iff (e : EdgeSelect) (level : Bool) : e.matchesChange level = true ↔
    (e = .rise ∧ level = true) ∨ (e = .fall ∧ level = false) ∨ e = .both := by
  cases e <;> simp [EdgeSelect.matchesChange]

/-- INPUT_SAMPLE of a line that is due (R108). -/
theorem exec_inputSample {s : State} {i : Fin 8} {level : Bool} (he : s.engine = .ready ∨ s.engine = .halted)
    (hl : s.inputs[i].left = some 0) : exec (.inputSample i level) s =
      .next (if (s.inputs[i].sample level).2 = true ∧ s.inputs[i].edge.matchesChange level = true then
        (if s.inputs[i].guard = true then (s.sampleLine i level).haltCause .guard i
          else ((s.sampleLine i level).sourceEvent (edgeSource i)).settle)
        else s.sampleLine i level) := by
  have hdue : s.inputs[i].due = true := by
    unfold InputLine.due
    rw [hl]
    rfl
  show Host.Outcome.next (s.inputSampled i level) = _
  unfold State.inputSampled
  rw [if_pos ⟨(live_iff _).mpr he, hdue⟩]

/-- The filter's three outcomes (R109). -/
theorem sample_cases (l : InputLine) (level : Bool) :
    let loaded : InputLine := { l with left := some l.interval }
    (level = l.level → l.sample level = ({ loaded with agree := 0 }, false)) ∧
    (level ≠ l.level → l.agree + 1 ≠ l.filter → l.sample level = ({ loaded with agree := l.agree + 1 }, false)) ∧
    (level ≠ l.level → l.agree + 1 = l.filter → l.sample level = ({ loaded with level := level, agree := 0 }, true)) := by
  intro loaded
  unfold InputLine.sample
  refine ⟨fun h => if_pos h, fun h hf => (if_neg h).trans (if_neg hf), fun h hf => (if_neg h).trans (if_pos hf)⟩

/-- Settles O54: the filter's outcomes, and a recognised change by the edge select and the line's use. -/
theorem inputSampleFiltered : Obligations.InputSampleFiltered := by
  intro i level s he hl line loaded
  refine ⟨(s.inPins &&& ~~~(1#8 <<< i.val)) ||| (if level = true then 1#8 <<< i.val else 0#8),
    fun j => samplePins_bit s.inPins i j level, ?_⟩
  intro sampled
  have hexec := exec_inputSample (level := level) he hl
  obtain ⟨hsame, hcounts, hchange⟩ := sample_cases line level
  refine ⟨fun h => ?_, fun h hf => ?_, fun h hf => ?_⟩
  · rw [hexec, show s.inputs[i].sample level = _ from hsame h, if_neg (fun hc => Bool.false_ne_true hc.1)]
    unfold State.sampleLine
    rw [show s.inputs[i].sample level = _ from hsame h]
    rfl
  · rw [hexec, show s.inputs[i].sample level = _ from hcounts h hf, if_neg (fun hc => Bool.false_ne_true hc.1)]
    unfold State.sampleLine
    rw [show s.inputs[i].sample level = _ from hcounts h hf]
    rfl
  intro t edge
  have hline : s.sampleLine i level = t := by
    unfold State.sampleLine
    rw [show s.inputs[i].sample level = _ from hchange h hf]
    rfl
  have hedge : line.edge.matchesChange level = true ↔ edge := matchesChange_iff line.edge level
  rw [hline, show s.inputs[i].sample level = _ from hchange h hf] at hexec
  have hyes : edge → (true = true ∧ line.edge.matchesChange level = true) := fun hd => ⟨rfl, hedge.mpr hd⟩
  have hevent : edge → line.guard = false → exec (.inputSample i level) s = .next (t.sourceEvent (edgeSource i)).settle :=
    fun hd hg => hexec.trans (congrArg Host.Outcome.next ((if_pos (hyes hd)).trans (if_neg (by rw [hg]; decide))))
  have htrip : edge → line.guard = true → exec (.inputSample i level) s = .next (t.haltCause .guard i) :=
    fun hd hg => hexec.trans (congrArg Host.Outcome.next ((if_pos (hyes hd)).trans (if_pos hg)))
  refine ⟨fun hno => ?_, fun hd hg => ⟨_, sourceEvent_delivered t _, hevent hd hg⟩, fun hd hg hs hun => ?_,
    fun hd hg hready => ⟨_, htrip hd hg, ?_⟩, fun hd hg hhalted => ?_⟩
  · exact hexec.trans (congrArg Host.Outcome.next (if_neg (fun hc => hno (hedge.mp hc.2))))
  · have hsettled : (t.unheard (edgeSource i)).settled := settled_lanes hs (unheard_lanes t _)
    rw [hevent hd hg, unheard_eq (s := t) hun, settle_settled hsettled]
  · rw [haltCause_ready (s := t) hready]
    exact trip_tripped t .guard .guard i rfl
  · rw [htrip hd hg, haltCause_halted (s := t) hhalted]

/-! Frames. -/

/-- The receiver's state shows in no status item (R136). -/
theorem setRx_withLink (s : State) (r : Receiver) : s.setRx r = s.withLink { s.link with rx := r } := by
  have hcounts : ({ s.link with rx := r } : LinkPort).countWords = s.link.countWords := rfl
  have hoccupancy : ({ s.link with rx := r } : LinkPort).occupancyWords = s.link.occupancyWords := rfl
  unfold State.setRx State.withLink
  rw [if_pos hcounts, if_pos hoccupancy, BitVec.or_zero, BitVec.or_zero]

/-- A change of the link port after the receiver's. -/
theorem setRx_updLink (s : State) (r : Receiver) (f : LinkPort → LinkPort) :
    (s.setRx r).updLink f = s.withLink (f { s.link with rx := r }) := updLink_eq _ _

/-- The parity bit is wrong (R124, R126). -/
theorem judge_eq (p : Parity) (data : Byte) (parityBit : Bool) : judge p data parityBit true =
    if (p = .even ∧ parityBit ≠ oddHighs data) ∨ (p = .odd ∧ parityBit = oddHighs data) then .parity else .correct := by
  unfold judge
  cases p <;> cases parityBit <;> cases oddHighs data <;> rfl

/-- FRAME_JUDGED (R126 to R128). -/
theorem exec_frameJudged {s : State} (h : s.link.rx = .frame true) (data : Byte) (parityBit stopBit : Bool) :
    exec (.frameJudged data parityBit stopBit) s = .next (match judge s.link.plan.parity data parityBit stopBit with
      | .framing => (s.withLink { s.link with rx := .waitHigh, framing := s.link.framing + 1 }).withCause .linkError
      | .parity => (s.withLink { s.link with rx := .hunt, parityErr := s.link.parityErr + 1 }).withCause .linkError
      | .correct => (s.setRx .hunt).acceptFrame data) := by
  show Host.Outcome.next (s.frameJudged data parityBit stopBit) = _
  unfold State.frameJudged
  rw [if_pos h]
  cases judge s.link.plan.parity data parityBit stopBit with
  | framing =>
    dsimp only
    rw [setRx_updLink]
    rfl
  | parity =>
    dsimp only
    rw [setRx_updLink]
    rfl
  | correct => rfl

/-- A code that no lane waits on goes unclaimed (R90, R130). -/
theorem linkEvent_unwatched {s : State} {code : BitVec 6} (h : s.unwatched (.link code)) :
    s.linkEvent code = s.unclaimedCode code := by
  have hnone : ∀ n, ¬ s.reaches (.link code) n := fun n hr => by
    have hw := (waitsOn_iff s (.link code) n).mpr hr
    unfold Lane.waitsOn at hw
    rw [h n] at hw
    cases hw
  have hlanes : (s.unclaimedCode code).lanes = s.lanes := by
    unfold State.unclaimedCode
    split <;> rfl
  rw [(linkEvent_claimed s code).2 hnone]
  refine anew_none (fun n hs => ?_)
  have hlane : (s.unclaimedCode code).lane n = s.lane n := by
    unfold State.lane
    rw [hlanes]
  rw [hlane, h n] at hs
  cases hs

/-- A correct frame by its group and code (R128, R129). -/
theorem acceptFrame_eq (s : State) (data : Byte) : s.acceptFrame data =
    if data.extractLsb' 6 2 ≠ s.link.plan.group ∧ data.extractLsb' 6 2 ≠ 3#2 then s
    else if data.extractLsb' 0 6 = 63#6 then (if s.link.plan.obey = true then s.haltCause .linkStop 0 else s)
    else (s.linkEvent (data.extractLsb' 0 6)).settle := rfl

/-- Settles O55: the judgement, and a correct frame by its group, its code and who waits for it. -/
theorem frameJudged : Obligations.FrameJudged := by
  intro data parityBit stopBit s hrx code group odd wrong hunting mine
  have hodd : oddHighs data = odd := by
    show ((((((((false ^^ _) ^^ _) ^^ _) ^^ _) ^^ _) ^^ _) ^^ _) ^^ _) = _
    rw [Bool.false_xor]
  have hexec := exec_frameJudged hrx data parityBit stopBit
  have hjudge : stopBit = true → judge s.link.plan.parity data parityBit stopBit = if wrong then .parity else .correct :=
    fun h => by rw [h, judge_eq, hodd]
  have haccept : stopBit = true → ¬ wrong → exec (.frameJudged data parityBit stopBit) s =
      .next ((s.withLink hunting).acceptFrame data) := fun h hw => by
    rw [hexec, hjudge h, if_neg hw, ← setRx_withLink]
  have hmine : mine → ¬ (group ≠ (s.withLink hunting).link.plan.group ∧ group ≠ 3#2) := fun hm hno => hm.elim hno.1 hno.2
  have hcode : stopBit = true → ¬ wrong → mine → code ≠ 63#6 → exec (.frameJudged data parityBit stopBit) s =
      .next ((s.withLink hunting).linkEvent code).settle := fun h hw hm hc => by
    rw [haccept h hw, acceptFrame_eq, if_neg (hmine hm), if_neg hc]
  have hstop : stopBit = true → ¬ wrong → mine → code = 63#6 → exec (.frameJudged data parityBit stopBit) s =
      .next (if s.link.plan.obey = true then (s.withLink hunting).haltCause .linkStop 0 else s.withLink hunting) :=
    fun h hw hm hc => by
      rw [haccept h hw, acceptFrame_eq, if_neg (hmine hm), if_pos hc]
      rfl
  refine ⟨fun h => ?framing, fun h hw => ?parity, fun h hw hm => ?ignored,
    fun h hw hm hc => ⟨_, linkEvent_claimed (s.withLink hunting) code, hcode h hw hm hc⟩,
    fun h hw hm hc hs hun => ?unheard, fun h hw hm hc => ⟨fun ho => ?disobeyed, fun ho he =>
      ⟨(s.withLink hunting).trip .linkStop 0, ?tripped, trip_tripped (s.withLink hunting) .linkStop .linkStop 0 rfl⟩,
      fun ho he => ?further⟩⟩
  case framing =>
    rw [hexec, h]
    rfl
  case parity =>
    rw [hexec, hjudge h, if_pos hw]
  case ignored =>
    rw [haccept h hw, acceptFrame_eq, if_pos]
    exact not_or.mp hm
  case unheard =>
    have hevent : (s.withLink hunting).linkEvent code = (s.withLink hunting).unclaimedCode code := linkEvent_unwatched hun
    have hsettled : ((s.withLink hunting).unclaimedCode code).settled := settled_lanes hs (by
      unfold State.unclaimedCode
      split <;> rfl)
    have htwice : ∀ l : LinkPort, (s.withLink hunting).withLink l = s.withLink l := fun l => by
      rw [← setRx_withLink]
      rfl
    rw [hcode h hw hm hc, hevent, settle_settled hsettled]
    unfold State.unclaimedCode
    refine ⟨fun hl => ?_, fun hl => ?_⟩
    · refine congrArg Host.Outcome.next ((if_pos hl).trans (htwice _))
    · refine congrArg Host.Outcome.next ((if_neg (not_lt.mpr hl)).trans ?_)
      rw [htwice]
      rfl
  case disobeyed =>
    rw [hstop h hw hm hc, if_neg (by rw [ho]; decide)]
  case tripped =>
    rw [hstop h hw hm hc, if_pos ho, haltCause_ready (s := s.withLink hunting) he]
  case further =>
    rw [hstop h hw hm hc, if_pos ho, haltCause_halted (s := s.withLink hunting) he]

end Sys2Proof.Machine
end
